-- ==== Sys2Proof/Word.lean ====
section
/-!
DEFINITION. The words of the two ports and the carrier of every sample, phase, coefficient and parameter.
-/

namespace Sys2Proof

/-- One word of the command port or of the response port (30_encoding.md R70). -/
abbrev Word := BitVec 32

/-- One byte of a transport that serialises the words (20_memory.md R56). -/
abbrev Byte := BitVec 8

/-- The carrier `Num` of the hardware instance `NUM = binary32` (00_scope.md R11, R12): the exact value of a
finite binary32 number. Every arithmetic result is rounded back to such a value by `Machine/Binary32.lean`. -/
abbrev Num := Rat

end Sys2Proof
end

