-- ==== Sys2Proof/Syntax.lean ====
section
/-!
DEFINITION. The syntax of the 46 commands: the selector enumerations of 30_encoding.md R77 and `Instr`, one
constructor per row of spec/opcode_table.json (30_encoding.md R78).

An operand is kept as the word that travels in the packet (R73 makes reading it the command's own check); a
selector is the enumeration value; an index is a number; the seed is the 16-bit word it is.
-/

namespace Sys2Proof

/-- The waveforms, in the order of their codes (30_encoding.md R77). -/
inductive Wave where
  | sine | square | triangle | saw
deriving DecidableEq, Repr, Inhabited

/-- The filter types, in the order of their codes (30_encoding.md R77). -/
inductive FType where
  | lowpass | highpass | bandpass | lowshelf | highshelf | peak | notch
deriving DecidableEq, Repr, Inhabited

/-- The noise variants, in the order of their codes (30_encoding.md R77). -/
inductive Variant where
  | white | pink | brown
deriving DecidableEq, Repr, Inhabited

/-- The envelope states, in the order of their codes (30_encoding.md R77). -/
inductive EnvState where
  | idle | attack | decay | sustain | release
deriving DecidableEq, Repr, Inhabited

/-- The 46 commands (30_encoding.md R78). Field order: the selector, then the index, then the operand words in
packet order. -/
inductive Instr where
  | sysRdreg (regno : Nat)
  | krnEval (w : Wave) (p : Word)
  | oscInit (w : Wave) (f a : Word)
  | oscSettype (w : Wave)
  | oscSetfreq (f : Word)
  | oscSetamp (a : Word)
  | oscReset
  | oscGetvalue
  | oscGetmod (m : Word)
  | oscAtphase (p : Word)
  | envInit (attackS decayS sustain releaseS : Word)
  | envSetattack (attackS : Word)
  | envSetdecay (decayS : Word)
  | envSetsustain (sustain : Word)
  | envSetrelease (releaseS : Word)
  | envSetratioa (ratio : Word)
  | envSetratiodr (ratio : Word)
  | envGate (on : Bool)
  | envProcess
  | bqInit (t : FType) (f q g : Word)
  | bqSettype (t : FType)
  | bqSetfreq (f : Word)
  | bqSetq (q : Word)
  | bqSetgain (g : Word)
  | bqProcess (channel : Nat) (x : Word)
  | ngSettype (v : Variant)
  | ngSeed (seed : BitVec 16)
  | ngGetvalue
  | wtBuild (w : Wave)
  | wtLoad (entry : Nat) (v : Word)
  | wtReset
  | wtGetfreq (f : Word)
  | wtAtphase (p : Word)
  | wtRdtab (entry : Nat)
  | fmInit (w : Wave) (f a : Word)
  | fmCsettype (w : Wave)
  | fmCsetfreq (f : Word)
  | fmCsetamp (a : Word)
  | fmCreset
  | fmAddop (w : Wave) (f a : Word)
  | fmRemop (op : Nat)
  | fmOpsettype (w : Wave) (op : Nat)
  | fmOpsetfreq (op : Nat) (f : Word)
  | fmOpsetamp (op : Nat) (a : Word)
  | fmOpreset (op : Nat)
  | fmSample
deriving DecidableEq, Repr

end Sys2Proof
end

