-- ==== Sys2Proof/WellFormed.lean ====
section
/-!
DEFINITION. Which terms of `Instr` a packet can carry. Selectors, operand words and the seed are right by their
types; an index must fit the 16-bit `idx` field (30_encoding.md R71).
-/

namespace Sys2Proof

/-- An index fits the `idx` field, bits 15:0 of the header (30_encoding.md R71). -/
def idxFits (n : Nat) : Bool := decide (n < 65536)

/-- The term can be written as a packet. One check per command with an index: register number, channel, table
entry or operator number (30_encoding.md R71, R78). -/
def Instr.wellFormed : Instr → Bool
  | .sysRdreg regno => idxFits regno
  | .bqProcess channel _ => idxFits channel
  | .wtLoad entry _ => idxFits entry
  | .wtRdtab entry => idxFits entry
  | .fmRemop op => idxFits op
  | .fmOpsettype _ op => idxFits op
  | .fmOpsetfreq op _ => idxFits op
  | .fmOpsetamp op _ => idxFits op
  | .fmOpreset op => idxFits op
  | .krnEval _ _ | .oscInit _ _ _ | .oscSettype _ | .oscSetfreq _ | .oscSetamp _ | .oscReset | .oscGetvalue
  | .oscGetmod _ | .oscAtphase _ | .envInit _ _ _ _ | .envSetattack _ | .envSetdecay _ | .envSetsustain _
  | .envSetrelease _ | .envSetratioa _ | .envSetratiodr _ | .envGate _ | .envProcess | .bqInit _ _ _ _
  | .bqSettype _ | .bqSetfreq _ | .bqSetq _ | .bqSetgain _ | .ngSettype _ | .ngSeed _ | .ngGetvalue
  | .wtBuild _ | .wtReset | .wtGetfreq _ | .wtAtphase _ | .fmInit _ _ _ | .fmCsettype _ | .fmCsetfreq _
  | .fmCsetamp _ | .fmCreset | .fmAddop _ _ _ | .fmSample => true

end Sys2Proof
end

