-- ==== Sys2Proof/Decode.lean ====
section
/-!
DEFINITION. Packets: framing, the header fields, the decoder, the encoder, the opcode map and the numeric codes of
the enumerations (30_encoding.md R70 to R80), and the byte order of a serialising transport (20_memory.md R56).
-/

namespace Sys2Proof

/-! ### Numeric codes (R77) -/

/-- The code of a waveform (R77). -/
def waveCode : Wave → BitVec 5
  | .sine => 0 | .square => 1 | .triangle => 2 | .saw => 3

/-- The code of a filter type (R77). -/
def ftypeCode : FType → BitVec 5
  | .lowpass => 0 | .highpass => 1 | .bandpass => 2 | .lowshelf => 3 | .highshelf => 4 | .peak => 5 | .notch => 6

/-- The code of a noise variant (R77). -/
def variantCode : Variant → BitVec 5
  | .white => 0 | .pink => 1 | .brown => 2

/-- The code of a gate value: 0 off, 1 on (R77). -/
def gateCode : Bool → BitVec 5
  | false => 0 | true => 1

/-- The code of an envelope state, a result of `SYS.RDREG` only (R77). -/
def envStateCode : EnvState → Nat
  | .idle => 0 | .attack => 1 | .decay => 2 | .sustain => 3 | .release => 4

/-- The waveform of a selector; 4 and above are reserved (R77, R79). -/
def waveOfCode (c : BitVec 5) : Option Wave :=
  match c.toNat with
  | 0 => some .sine | 1 => some .square | 2 => some .triangle | 3 => some .saw
  | _ => none

/-- The filter type of a selector; 7 and above are reserved (R77, R79). -/
def ftypeOfCode (c : BitVec 5) : Option FType :=
  match c.toNat with
  | 0 => some .lowpass | 1 => some .highpass | 2 => some .bandpass | 3 => some .lowshelf | 4 => some .highshelf
  | 5 => some .peak | 6 => some .notch
  | _ => none

/-- The noise variant of a selector; 3 and above are reserved (R77, R79). -/
def variantOfCode (c : BitVec 5) : Option Variant :=
  match c.toNat with
  | 0 => some .white | 1 => some .pink | 2 => some .brown
  | _ => none

/-- The gate value of a selector; 2 and above are reserved (R77, R79). -/
def gateOfCode (c : BitVec 5) : Option Bool :=
  match c.toNat with
  | 0 => some false | 1 => some true
  | _ => none

/-! ### The header word (R71) -/

/-- Header bits 31:28 (R71). -/
def unitOf (h : Word) : BitVec 4 := h.extractLsb' 28 4
/-- Header bits 27:24 (R71). -/
def funcOf (h : Word) : BitVec 4 := h.extractLsb' 24 4
/-- Header bits 23:21, the number of operand words (R71, R72). -/
def nargsOf (h : Word) : BitVec 3 := h.extractLsb' 21 3
/-- Header bits 20:16 (R71). -/
def selOf (h : Word) : BitVec 5 := h.extractLsb' 16 5
/-- Header bits 15:0 (R71). -/
def idxOf (h : Word) : BitVec 16 := h.extractLsb' 0 16

/-- The header word with the given fields (R71). -/
def header (unit func : BitVec 4) (nargs : BitVec 3) (sel : BitVec 5) (idx : BitVec 16) : Word :=
  (unit ++ func ++ nargs ++ sel ++ idx).cast (by decide)

/-! ### Framing (R70, R72) -/

/-- What stands at the head of the command port. -/
inductive Fetch where
  /-- No word has been presented: the block waits for a header word. -/
  | idle
  /-- A header word whose operand words have not all been presented (93 U5). -/
  | truncated
  /-- A whole packet: the header, its operand words, and the words behind it. -/
  | packet (h : Word) (ops rest : List Word)
deriving DecidableEq, Repr

/-- Read one packet: its length in words is `1 + header[23:21]`, whatever the rest of the header says (R72). -/
def fetchPacket : List Word → Fetch
  | [] => .idle
  | h :: ws =>
    if (nargsOf h).toNat ≤ ws.length then .packet h (ws.take (nargsOf h).toNat) (ws.drop (nargsOf h).toNat)
    else .truncated

/-! ### The decoder (R78, R79) -/

/-- Why a header selects no command, by name (R79). Each of them is answered with the fault `IllegalCommand`. -/
inductive Illegal where
  /-- `unit >= 8`. -/
  | reservedUnit
  /-- `func = 0`, or `func` greater than the unit's last command. -/
  | reservedFunc
  /-- `nargs` different from the command's. -/
  | wrongNargs
  /-- `idx` not zero in a command that does not use it. -/
  | idxNotZero
  /-- `sel` not zero in a command that does not use it. -/
  | selNotZero
  /-- `sel` beyond the selector's last code. -/
  | reservedSel
deriving DecidableEq, Repr

/-- What the decoder answers for one packet. -/
abbrev Decoded := Except Illegal Instr

/-- The command takes no operand words. -/
def args0 (ops : List Word) (k : Decoded) : Decoded :=
  match ops with | [] => k | _ => .error .wrongNargs
/-- The command takes one operand word. -/
def args1 (ops : List Word) (k : Word → Decoded) : Decoded :=
  match ops with | [a] => k a | _ => .error .wrongNargs
/-- The command takes two operand words. -/
def args2 (ops : List Word) (k : Word → Word → Decoded) : Decoded :=
  match ops with | [a, b] => k a b | _ => .error .wrongNargs
/-- The command takes three operand words. -/
def args3 (ops : List Word) (k : Word → Word → Word → Decoded) : Decoded :=
  match ops with | [a, b, c] => k a b c | _ => .error .wrongNargs
/-- The command takes four operand words. -/
def args4 (ops : List Word) (k : Word → Word → Word → Word → Decoded) : Decoded :=
  match ops with | [a, b, c, d] => k a b c d | _ => .error .wrongNargs

/-- The command does not use `idx`: it must be zero (R75). -/
def noIdx (h : Word) (k : Decoded) : Decoded := if idxOf h = 0 then k else .error .idxNotZero
/-- The command does not use `sel`: it must be zero (R75). -/
def noSel (h : Word) (k : Decoded) : Decoded := if selOf h = 0 then k else .error .selNotZero
/-- `sel` is a waveform (R75, R77). -/
def withWave (h : Word) (k : Wave → Decoded) : Decoded :=
  match waveOfCode (selOf h) with | some w => k w | none => .error .reservedSel
/-- `sel` is a filter type (R75, R77). -/
def withFType (h : Word) (k : FType → Decoded) : Decoded :=
  match ftypeOfCode (selOf h) with | some w => k w | none => .error .reservedSel
/-- `sel` is a noise variant (R75, R77). -/
def withVariant (h : Word) (k : Variant → Decoded) : Decoded :=
  match variantOfCode (selOf h) with | some w => k w | none => .error .reservedSel
/-- `sel` is a gate value (R75, R77). -/
def withGate (h : Word) (k : Bool → Decoded) : Decoded :=
  match gateOfCode (selOf h) with | some w => k w | none => .error .reservedSel

/-- The command a packet with header `h` and operand words `ops` (as many as `nargs` says, by `fetchPacket`)
selects, or the name of what makes the header illegal (R78, R79). The operand words are not read as numbers. -/
def decode (h : Word) (ops : List Word) : Decoded :=
  match (unitOf h).toNat, (funcOf h).toNat with
  | 0, 1 => args0 ops (noSel h (.ok (.sysRdreg (idxOf h).toNat)))
  | 1, 1 => args1 ops fun a => noIdx h (withWave h fun w => .ok (.krnEval w a))
  | 2, 1 => args2 ops fun a b => noIdx h (withWave h fun w => .ok (.oscInit w a b))
  | 2, 2 => args0 ops (noIdx h (withWave h fun w => .ok (.oscSettype w)))
  | 2, 3 => args1 ops fun a => noIdx h (noSel h (.ok (.oscSetfreq a)))
  | 2, 4 => args1 ops fun a => noIdx h (noSel h (.ok (.oscSetamp a)))
  | 2, 5 => args0 ops (noIdx h (noSel h (.ok .oscReset)))
  | 2, 6 => args0 ops (noIdx h (noSel h (.ok .oscGetvalue)))
  | 2, 7 => args1 ops fun a => noIdx h (noSel h (.ok (.oscGetmod a)))
  | 2, 8 => args1 ops fun a => noIdx h (noSel h (.ok (.oscAtphase a)))
  | 3, 1 => args4 ops fun a b c d => noIdx h (noSel h (.ok (.envInit a b c d)))
  | 3, 2 => args1 ops fun a => noIdx h (noSel h (.ok (.envSetattack a)))
  | 3, 3 => args1 ops fun a => noIdx h (noSel h (.ok (.envSetdecay a)))
  | 3, 4 => args1 ops fun a => noIdx h (noSel h (.ok (.envSetsustain a)))
  | 3, 5 => args1 ops fun a => noIdx h (noSel h (.ok (.envSetrelease a)))
  | 3, 6 => args1 ops fun a => noIdx h (noSel h (.ok (.envSetratioa a)))
  | 3, 7 => args1 ops fun a => noIdx h (noSel h (.ok (.envSetratiodr a)))
  | 3, 8 => args0 ops (noIdx h (withGate h fun w => .ok (.envGate w)))
  | 3, 9 => args0 ops (noIdx h (noSel h (.ok .envProcess)))
  | 4, 1 => args3 ops fun a b c => noIdx h (withFType h fun w => .ok (.bqInit w a b c))
  | 4, 2 => args0 ops (noIdx h (withFType h fun w => .ok (.bqSettype w)))
  | 4, 3 => args1 ops fun a => noIdx h (noSel h (.ok (.bqSetfreq a)))
  | 4, 4 => args1 ops fun a => noIdx h (noSel h (.ok (.bqSetq a)))
  | 4, 5 => args1 ops fun a => noIdx h (noSel h (.ok (.bqSetgain a)))
  | 4, 6 => args1 ops fun a => noSel h (.ok (.bqProcess (idxOf h).toNat a))
  | 5, 1 => args0 ops (noIdx h (withVariant h fun w => .ok (.ngSettype w)))
  | 5, 2 => args0 ops (noSel h (.ok (.ngSeed (idxOf h))))
  | 5, 3 => args0 ops (noIdx h (noSel h (.ok .ngGetvalue)))
  | 6, 1 => args0 ops (noIdx h (withWave h fun w => .ok (.wtBuild w)))
  | 6, 2 => args1 ops fun a => noSel h (.ok (.wtLoad (idxOf h).toNat a))
  | 6, 3 => args0 ops (noIdx h (noSel h (.ok .wtReset)))
  | 6, 4 => args1 ops fun a => noIdx h (noSel h (.ok (.wtGetfreq a)))
  | 6, 5 => args1 ops fun a => noIdx h (noSel h (.ok (.wtAtphase a)))
  | 6, 6 => args0 ops (noSel h (.ok (.wtRdtab (idxOf h).toNat)))
  | 7, 1 => args2 ops fun a b => noIdx h (withWave h fun w => .ok (.fmInit w a b))
  | 7, 2 => args0 ops (noIdx h (withWave h fun w => .ok (.fmCsettype w)))
  | 7, 3 => args1 ops fun a => noIdx h (noSel h (.ok (.fmCsetfreq a)))
  | 7, 4 => args1 ops fun a => noIdx h (noSel h (.ok (.fmCsetamp a)))
  | 7, 5 => args0 ops (noIdx h (noSel h (.ok .fmCreset)))
  | 7, 6 => args2 ops fun a b => noIdx h (withWave h fun w => .ok (.fmAddop w a b))
  | 7, 7 => args0 ops (noSel h (.ok (.fmRemop (idxOf h).toNat)))
  | 7, 8 => args0 ops (withWave h fun w => .ok (.fmOpsettype w (idxOf h).toNat))
  | 7, 9 => args1 ops fun a => noSel h (.ok (.fmOpsetfreq (idxOf h).toNat a))
  | 7, 10 => args1 ops fun a => noSel h (.ok (.fmOpsetamp (idxOf h).toNat a))
  | 7, 11 => args0 ops (noSel h (.ok (.fmOpreset (idxOf h).toNat)))
  | 7, 12 => args0 ops (noIdx h (noSel h (.ok .fmSample)))
  | 0, _ | 1, _ | 2, _ | 3, _ | 4, _ | 5, _ | 6, _ | 7, _ => .error .reservedFunc
  | _, _ => .error .reservedUnit

/-- The packets of a word stream in order, at most `fuel` of them: any word sequence decodes to a list of commands
and illegal packets, and possibly a packet cut short at its end, which is left over (R79, 93 U5). -/
def decodeStream : Nat → List Word → List Decoded × List Word
  | 0, ws => ([], ws)
  | fuel + 1, ws =>
    match fetchPacket ws with
    | .idle => ([], [])
    | .truncated => ([], ws)
    | .packet h ops rest =>
      let (ds, left) := decodeStream fuel rest
      (decode h ops :: ds, left)

/-! ### The encoder (R71, R78) -/

/-- The words of a command's packet, header first (R70, R78). -/
def encode : Instr → List Word
  | .sysRdreg n => [header 0 1 0 0 (.ofNat 16 n)]
  | .krnEval w a => header 1 1 1 (waveCode w) 0 :: [a]
  | .oscInit w a b => header 2 1 2 (waveCode w) 0 :: [a, b]
  | .oscSettype w => [header 2 2 0 (waveCode w) 0]
  | .oscSetfreq a => header 2 3 1 0 0 :: [a]
  | .oscSetamp a => header 2 4 1 0 0 :: [a]
  | .oscReset => [header 2 5 0 0 0]
  | .oscGetvalue => [header 2 6 0 0 0]
  | .oscGetmod a => header 2 7 1 0 0 :: [a]
  | .oscAtphase a => header 2 8 1 0 0 :: [a]
  | .envInit a b c d => header 3 1 4 0 0 :: [a, b, c, d]
  | .envSetattack a => header 3 2 1 0 0 :: [a]
  | .envSetdecay a => header 3 3 1 0 0 :: [a]
  | .envSetsustain a => header 3 4 1 0 0 :: [a]
  | .envSetrelease a => header 3 5 1 0 0 :: [a]
  | .envSetratioa a => header 3 6 1 0 0 :: [a]
  | .envSetratiodr a => header 3 7 1 0 0 :: [a]
  | .envGate w => [header 3 8 0 (gateCode w) 0]
  | .envProcess => [header 3 9 0 0 0]
  | .bqInit w a b c => header 4 1 3 (ftypeCode w) 0 :: [a, b, c]
  | .bqSettype w => [header 4 2 0 (ftypeCode w) 0]
  | .bqSetfreq a => header 4 3 1 0 0 :: [a]
  | .bqSetq a => header 4 4 1 0 0 :: [a]
  | .bqSetgain a => header 4 5 1 0 0 :: [a]
  | .bqProcess n a => header 4 6 1 0 (.ofNat 16 n) :: [a]
  | .ngSettype w => [header 5 1 0 (variantCode w) 0]
  | .ngSeed n => [header 5 2 0 0 n]
  | .ngGetvalue => [header 5 3 0 0 0]
  | .wtBuild w => [header 6 1 0 (waveCode w) 0]
  | .wtLoad n a => header 6 2 1 0 (.ofNat 16 n) :: [a]
  | .wtReset => [header 6 3 0 0 0]
  | .wtGetfreq a => header 6 4 1 0 0 :: [a]
  | .wtAtphase a => header 6 5 1 0 0 :: [a]
  | .wtRdtab n => [header 6 6 0 0 (.ofNat 16 n)]
  | .fmInit w a b => header 7 1 2 (waveCode w) 0 :: [a, b]
  | .fmCsettype w => [header 7 2 0 (waveCode w) 0]
  | .fmCsetfreq a => header 7 3 1 0 0 :: [a]
  | .fmCsetamp a => header 7 4 1 0 0 :: [a]
  | .fmCreset => [header 7 5 0 0 0]
  | .fmAddop w a b => header 7 6 2 (waveCode w) 0 :: [a, b]
  | .fmRemop n => [header 7 7 0 0 (.ofNat 16 n)]
  | .fmOpsettype w n => [header 7 8 0 (waveCode w) (.ofNat 16 n)]
  | .fmOpsetfreq n a => header 7 9 1 0 (.ofNat 16 n) :: [a]
  | .fmOpsetamp n a => header 7 10 1 0 (.ofNat 16 n) :: [a]
  | .fmOpreset n => [header 7 11 0 0 (.ofNat 16 n)]
  | .fmSample => [header 7 12 0 0 0]

/-! ### The opcode map as the spec lists it (R78, opcode_table.json) -/

/-- One row of the opcode map: a header `h` selects it when `h & mask = match` and its `sel` is at most `selLast`
(R78; `selLast` is the end of the row's `sel_legal` range, 0 where the row has none). -/
structure OpcodeRow where
  mnemonic : String
  matchBits : Word
  mask : Word
  selLast : Nat
deriving DecidableEq, Repr

/-- Rows of the opcode map, part 1 (R78). -/
def opcodeRowsKrnOsc : List OpcodeRow :=
  [⟨"SYS.RDREG", 0x01000000, 0xffff0000, 0⟩,
   ⟨"KRN.EVAL", 0x11200000, 0xfffcffff, 3⟩,
   ⟨"OSC.INIT", 0x21400000, 0xfffcffff, 3⟩,
   ⟨"OSC.SETTYPE", 0x22000000, 0xfffcffff, 3⟩,
   ⟨"OSC.SETFREQ", 0x23200000, 0xffffffff, 0⟩,
   ⟨"OSC.SETAMP", 0x24200000, 0xffffffff, 0⟩,
   ⟨"OSC.RESET", 0x25000000, 0xffffffff, 0⟩,
   ⟨"OSC.GETVALUE", 0x26000000, 0xffffffff, 0⟩,
   ⟨"OSC.GETMOD", 0x27200000, 0xffffffff, 0⟩,
   ⟨"OSC.ATPHASE", 0x28200000, 0xffffffff, 0⟩]

/-- Rows of the opcode map, part 2 (R78). -/
def opcodeRowsEnv : List OpcodeRow :=
  [⟨"ENV.INIT", 0x31800000, 0xffffffff, 0⟩,
   ⟨"ENV.SETATTACK", 0x32200000, 0xffffffff, 0⟩,
   ⟨"ENV.SETDECAY", 0x33200000, 0xffffffff, 0⟩,
   ⟨"ENV.SETSUSTAIN", 0x34200000, 0xffffffff, 0⟩,
   ⟨"ENV.SETRELEASE", 0x35200000, 0xffffffff, 0⟩,
   ⟨"ENV.SETRATIOA", 0x36200000, 0xffffffff, 0⟩,
   ⟨"ENV.SETRATIODR", 0x37200000, 0xffffffff, 0⟩,
   ⟨"ENV.GATE", 0x38000000, 0xfffeffff, 1⟩,
   ⟨"ENV.PROCESS", 0x39000000, 0xffffffff, 0⟩]

/-- Rows of the opcode map, part 3 (R78). -/
def opcodeRowsBqNg : List OpcodeRow :=
  [⟨"BQ.INIT", 0x41600000, 0xfff8ffff, 6⟩,
   ⟨"BQ.SETTYPE", 0x42000000, 0xfff8ffff, 6⟩,
   ⟨"BQ.SETFREQ", 0x43200000, 0xffffffff, 0⟩,
   ⟨"BQ.SETQ", 0x44200000, 0xffffffff, 0⟩,
   ⟨"BQ.SETGAIN", 0x45200000, 0xffffffff, 0⟩,
   ⟨"BQ.PROCESS", 0x46200000, 0xffff0000, 0⟩,
   ⟨"NG.SETTYPE", 0x51000000, 0xfffcffff, 2⟩,
   ⟨"NG.SEED", 0x52000000, 0xffff0000, 0⟩,
   ⟨"NG.GETVALUE", 0x53000000, 0xffffffff, 0⟩]

/-- Rows of the opcode map, part 4 (R78). -/
def opcodeRowsWt : List OpcodeRow :=
  [⟨"WT.BUILD", 0x61000000, 0xfffcffff, 3⟩,
   ⟨"WT.LOAD", 0x62200000, 0xffff0000, 0⟩,
   ⟨"WT.RESET", 0x63000000, 0xffffffff, 0⟩,
   ⟨"WT.GETFREQ", 0x64200000, 0xffffffff, 0⟩,
   ⟨"WT.ATPHASE", 0x65200000, 0xffffffff, 0⟩,
   ⟨"WT.RDTAB", 0x66000000, 0xffff0000, 0⟩]

/-- Rows of the opcode map, part 5 (R78). -/
def opcodeRowsFm : List OpcodeRow :=
  [⟨"FM.INIT", 0x71400000, 0xfffcffff, 3⟩,
   ⟨"FM.CSETTYPE", 0x72000000, 0xfffcffff, 3⟩,
   ⟨"FM.CSETFREQ", 0x73200000, 0xffffffff, 0⟩,
   ⟨"FM.CSETAMP", 0x74200000, 0xffffffff, 0⟩,
   ⟨"FM.CRESET", 0x75000000, 0xffffffff, 0⟩,
   ⟨"FM.ADDOP", 0x76400000, 0xfffcffff, 3⟩,
   ⟨"FM.REMOP", 0x77000000, 0xffff0000, 0⟩,
   ⟨"FM.OPSETTYPE", 0x78000000, 0xfffc0000, 3⟩,
   ⟨"FM.OPSETFREQ", 0x79200000, 0xffff0000, 0⟩,
   ⟨"FM.OPSETAMP", 0x7a200000, 0xffff0000, 0⟩,
   ⟨"FM.OPRESET", 0x7b000000, 0xffff0000, 0⟩,
   ⟨"FM.SAMPLE", 0x7c000000, 0xffffffff, 0⟩]

/-- The mnemonic of a command (R78). -/
def mnemonicOf : Instr → String
  | .sysRdreg _ => "SYS.RDREG"
  | .krnEval _ _ => "KRN.EVAL"
  | .oscInit _ _ _ => "OSC.INIT"
  | .oscSettype _ => "OSC.SETTYPE"
  | .oscSetfreq _ => "OSC.SETFREQ"
  | .oscSetamp _ => "OSC.SETAMP"
  | .oscReset => "OSC.RESET"
  | .oscGetvalue => "OSC.GETVALUE"
  | .oscGetmod _ => "OSC.GETMOD"
  | .oscAtphase _ => "OSC.ATPHASE"
  | .envInit _ _ _ _ => "ENV.INIT"
  | .envSetattack _ => "ENV.SETATTACK"
  | .envSetdecay _ => "ENV.SETDECAY"
  | .envSetsustain _ => "ENV.SETSUSTAIN"
  | .envSetrelease _ => "ENV.SETRELEASE"
  | .envSetratioa _ => "ENV.SETRATIOA"
  | .envSetratiodr _ => "ENV.SETRATIODR"
  | .envGate _ => "ENV.GATE"
  | .envProcess => "ENV.PROCESS"
  | .bqInit _ _ _ _ => "BQ.INIT"
  | .bqSettype _ => "BQ.SETTYPE"
  | .bqSetfreq _ => "BQ.SETFREQ"
  | .bqSetq _ => "BQ.SETQ"
  | .bqSetgain _ => "BQ.SETGAIN"
  | .bqProcess _ _ => "BQ.PROCESS"
  | .ngSettype _ => "NG.SETTYPE"
  | .ngSeed _ => "NG.SEED"
  | .ngGetvalue => "NG.GETVALUE"
  | .wtBuild _ => "WT.BUILD"
  | .wtLoad _ _ => "WT.LOAD"
  | .wtReset => "WT.RESET"
  | .wtGetfreq _ => "WT.GETFREQ"
  | .wtAtphase _ => "WT.ATPHASE"
  | .wtRdtab _ => "WT.RDTAB"
  | .fmInit _ _ _ => "FM.INIT"
  | .fmCsettype _ => "FM.CSETTYPE"
  | .fmCsetfreq _ => "FM.CSETFREQ"
  | .fmCsetamp _ => "FM.CSETAMP"
  | .fmCreset => "FM.CRESET"
  | .fmAddop _ _ _ => "FM.ADDOP"
  | .fmRemop _ => "FM.REMOP"
  | .fmOpsettype _ _ => "FM.OPSETTYPE"
  | .fmOpsetfreq _ _ => "FM.OPSETFREQ"
  | .fmOpsetamp _ _ => "FM.OPSETAMP"
  | .fmOpreset _ => "FM.OPRESET"
  | .fmSample => "FM.SAMPLE"

/-- The 46 rows of the opcode map (R78). -/
def opcodeRows : List OpcodeRow :=
  opcodeRowsKrnOsc ++ opcodeRowsEnv ++ opcodeRowsBqNg ++ opcodeRowsWt ++ opcodeRowsFm

/-- The header selects the row (R78). -/
def OpcodeRow.selects (r : OpcodeRow) (h : Word) : Bool :=
  decide (h &&& r.mask = r.matchBits) && decide ((selOf h).toNat ≤ r.selLast)

/-! ### A transport that serialises words into bytes (20_memory.md R56) -/

/-- The four bytes of a word, least significant first (20_memory.md R56). -/
def bytesOfWord (w : Word) : List Byte :=
  [w.extractLsb' 0 8, w.extractLsb' 8 8, w.extractLsb' 16 8, w.extractLsb' 24 8]

/-- The words of a byte string, four bytes a word, least significant byte first (20_memory.md R56). None for the whole
string when its length is not a multiple of four: R56 and R57 do not say what becomes of such a string (DESIGN CHOICE, log
entry 26). -/
def wordsOfBytes : List Byte → Option (List Word)
  | [] => some []
  | b0 :: b1 :: b2 :: b3 :: bs => (wordsOfBytes bs).map fun ws => (b3 ++ b2 ++ b1 ++ b0).cast (by decide) :: ws
  | _ => none

/-- The words a stream stored as bytes carries to the command port, decoded packet by packet (20_memory.md R56); none when
the bytes do not make whole words (log entry 26). -/
def decodeBytes (bs : List Byte) : Option (List Decoded × List Word) :=
  (wordsOfBytes bs).map fun ws => decodeStream ws.length ws

/-! ### Packets numbered as spec/opcode_table.json numbers their bits -/

/-- The `k`-th word of a packet whose bits are `w`: word 0 is bits 31:0, word 1 bits 63:32, and so on. -/
def packetWord (w k : Nat) : Word := BitVec.ofNat 32 (w / 2 ^ (32 * k))

/-- The words of the packet whose bits are the low `nbits` bits of `w`, every bit above them 0: the header and as
many operand words as its `nargs` field says (R72). -/
def packetWords (nbits w : Nat) : List Word :=
  let w := w % 2 ^ nbits
  let h := packetWord w 0
  h :: (List.range (nargsOf h).toNat).map fun k => packetWord w (k + 1)

/-- The command the decoder reads from the packet whose bits are `w`. -/
def decodeTableWord (nbits w : Nat) : Option Instr :=
  match fetchPacket (packetWords nbits w) with
  | .packet h ops _ => (decode h ops).toOption
  | _ => none

end Sys2Proof
end

