-- ==== Sys2Proof/Machine/Binary32.lean ====
section
/-!
DEFINITION. IEEE 754 binary32: operand words to exact values, values to the nearest word, and the correctly rounded
arithmetic of the hardware instance (30_encoding.md R73, R74; 00_scope.md R12).
-/

namespace Sys2Proof.Machine

/-- `2^e` for an integer exponent. -/
def pow2 (e : Int) : Rat :=
  if 0 ≤ e then ((2 ^ e.toNat : Nat) : Rat) else 1 / ((2 ^ (-e).toNat : Nat) : Rat)

/-- The exponent field, bits 30:23 (R73). -/
def expField (w : Word) : Nat := (w.extractLsb' 23 8).toNat

/-- The fraction field, bits 22:0 (R73). -/
def fracField (w : Word) : Nat := (w.extractLsb' 0 23).toNat

/-- The value of a word with exponent field `e` and fraction `m`, sign apart (R73). -/
def magnitude (e m : Nat) : Rat :=
  if e = 0 then (m : Rat) * pow2 (-149) else ((2 ^ 23 + m : Nat) : Rat) * pow2 ((e : Int) - 150)

/-- `dec32`: the value of an operand word; none for the infinities and the NaNs. Both zeros give 0 (R73). -/
def dec32 (w : Word) : Option Num :=
  if expField w = 255 then none
  else some (if w.msb then -(magnitude (expField w) (fracField w)) else magnitude (expField w) (fracField w))

/-- The integer `e` with `2^e <= n / d < 2^(e+1)`, for positive `n` and `d`. -/
def floorLog2 (n d : Nat) : Int :=
  let e : Int := (n.log2 : Int) - (d.log2 : Int)
  if (if 0 ≤ e then d * 2 ^ e.toNat ≤ n else d ≤ n * 2 ^ (-e).toNat) then e else e - 1

/-- The integer nearest `n / d`, ties to even. -/
def roundHalfEven (n d : Nat) : Nat :=
  let q := n / d
  let r := n % d
  if 2 * r < d then q else if d < 2 * r then q + 1 else if q % 2 = 0 then q else q + 1

/-- The exponent of the last place of a binary32 number whose magnitude has the exponent `e`: 23 below it, and never
below the last place of the subnormal numbers. -/
def ulpExponent (e : Int) : Int := max (e - 23) (-149)

/-- `n / d` divided by `2^u`, rounded to the nearest integer, ties to even. -/
def roundToUlp (n d : Nat) (u : Int) : Nat :=
  if 0 ≤ u then roundHalfEven n (d * 2 ^ u.toNat) else roundHalfEven (n * 2 ^ (-u).toNat) d

/-- Exponent and fraction fields, read as one number, of `m` units of the last place `2^u`. A subnormal `m` has
`u = -149`; an `m` of `2^24` carries into the exponent field. -/
def packFields (m : Nat) (u : Int) : Nat := (u + 149).toNat * 2 ^ 23 + m

/-- The word with the fields `k` and the given sign; none when `k` reaches the infinities. Zero is the word 0,
whatever the sign (R74). -/
def packWord (neg : Bool) (k : Nat) : Option Word :=
  if k = 0 then some 0
  else if k < 255 * 2 ^ 23 then some (BitVec.ofNat 32 (k + if neg then 2 ^ 31 else 0))
  else none

/-- `enc32`: the word of the binary32 number nearest `v`, ties to even; none when the rounding exceeds the largest
finite number (R74). -/
def enc32 (v : Num) : Option Word :=
  if v.num = 0 then some 0
  else
    let n := v.num.natAbs
    let u := ulpExponent (floorLog2 n v.den)
    packWord (decide (v.num < 0)) (packFields (roundToUlp n v.den u) u)

/-- The binary32 number nearest `v`, ties to even; none when it is not finite (R12). -/
def round32 (v : Rat) : Option Num := (enc32 v).bind dec32

/-- The largest `s + r` with `r < 2^k` whose square is at most `n / d`, found bit by bit. -/
def isqrtBits (n d : Nat) : Nat → Nat → Nat
  | 0, s => s
  | k + 1, s => isqrtBits n d k (if d * (s + 2 ^ k) ^ 2 ≤ n then s + 2 ^ k else s)

/-- `sqrt`, correctly rounded: the integer nearest `sqrt (v / 2^(2u))` in units of the last place `2^u` (R12). A tie
cannot happen unless it is exact. None for a negative number. -/
def sqrt32 (v : Num) : Option Num :=
  if v.num = 0 then some 0
  else if v.num < 0 then none
  else
    let n := v.num.natAbs
    let u := ulpExponent (floorLog2 n v.den / 2)
    let n' := if 0 ≤ u then n else n * 2 ^ (2 * (-u)).toNat
    let d' := if 0 ≤ u then v.den * 2 ^ (2 * u).toNat else v.den
    let s := isqrtBits n' d' 25 0
    let m := if d' * (2 * s + 1) ^ 2 < 4 * n' then s + 1
      else if d' * (2 * s + 1) ^ 2 = 4 * n' ∧ s % 2 = 1 then s + 1 else s
    (packWord false (packFields m u)).bind dec32

/-- The value of a word that stands for a finite number; 0 for the others. -/
def finite32 (w : Word) : Num := (dec32 w).getD 0

/-- `v` is the value of a finite binary32 number (R12). -/
def isBinary32 (v : Num) : Bool := decide (round32 v = some v)

/-- The binary32 number nearest π (R12): 0x40490FDB. -/
def pi32 : Num := 13176795 / 4194304

/-- The binary32 number nearest 2π (R12): 0x40C90FDB. -/
def tau32 : Num := 13176795 / 2097152

end Sys2Proof.Machine
end

