-- ==== Sys2Proof/Config.lean ====
section
/-!
DEFINITION. The configuration record a model is a function of (00_scope.md R5 to R9, 92_eei_decisions.md section 7):
`NumOps` (the numerics `NUM`), `NoiseSrc` (`NOISE_SRC`) and `Config`, all over an arbitrary carrier; `Straps`, the
part of it that is plain data and travels in the state; and the OPAQUE constants that stand for what the spec leaves
open. Nothing in Lean can evaluate an opaque constant, so a claim holds whatever its value is.
-/

namespace Sys2Proof

/-! ### The records -/

/-- The numerics record `NUM` (00_scope.md R11). An operation answers `none` when its result is not finite (R12,
R247). `ofRat` gives the constants the rules write; `wrap` is R14, which an instance must supply with a result in
`[0, tau)`. -/
structure NumOps (α : Type) where
  ofRat : Rat → α
  add : α → α → Option α
  sub : α → α → Option α
  mul : α → α → Option α
  div : α → α → Option α
  abs : α → α
  floor : α → Int
  sqrt : α → Option α
  sin : α → Option α
  tan : α → Option α
  exp : α → Option α
  ln : α → Option α
  pow10 : α → Option α
  lt : α → α → Bool
  le : α → α → Bool
  pi : α
  tau : α
  wrap : α → α

/-- The random source `NOISE_SRC` (44_noise.md R181). Its state is a number (the state of a source that hardware can
hold is one of countably many). `resetState` is `seed(0xACE1)` (10_state.md R36); `readable` says that the source is
the instance `LFSR16`, the only one register 0x0503 reads (R35). -/
structure NoiseSrc (α : Type) where
  seed : BitVec 16 → Option Nat
  next : Nat → Nat × α
  resetState : Nat
  readable : Bool

/-- The five coefficients of the filter (10_state.md R28). -/
structure BqCoefs (α : Type) where
  a0 : α
  a1 : α
  a2 : α
  b1 : α
  b2 : α
deriving DecidableEq, Repr, Inhabited

/-- The three stage bases of the envelope (42_envelope.md R133). -/
structure EnvBases (α : Type) where
  attack : α
  decay : α
  release : α
deriving DecidableEq, Repr, Inhabited

/-- The switch `KRN_ARG_MODE` (00_scope.md R9, 40_kernel.md R105). -/
inductive KrnArgMode where
  | raw | wrapped
deriving DecidableEq, Repr, Inhabited

/-- The configuration record (92_eei_decisions.md section 7). `bqDesign` and `envBase` are the replaceable functions
`BQ_DESIGN` and `ENV_BASE` (R8); they answer `none` where a primitive's result is not finite. -/
structure Config (α : Type) where
  num : NumOps α
  sr : α
  wtLen : Nat
  nCh : Nat
  fmMaxOps : Nat
  noise : NoiseSrc α
  bqDesign : FType → α → α → α → Option (BqCoefs α)
  envBase : α → α → α → α → α → α → Option (EnvBases α)
  krnArgMode : KrnArgMode
  atphaseScaled : Bool

/-! ### The straps: the configuration as plain data -/

/-- Whether an open function of the configuration is the spec's own reference instance or another one. -/
inductive Plug where
  | reference | other
deriving DecidableEq, Repr, Inhabited

/-- The primitives whose values are left unspecified: the five of R12, and `sqrt`, which D2 and U14 list with them. -/
inductive Prim where
  | sin | tan | exp | ln | pow10 | sqrt
deriving DecidableEq, Repr, Inhabited

/-- One point of an unspecified primitive: the binary32 word it answers at an argument. -/
structure PrimPoint where
  fn : Prim
  arg : Num
  res : Word
deriving DecidableEq, Repr

/-- The straps of one block of the hardware instance (R5 "a strap"): the configuration record as plain data. They are
parameters of the step function (10_state.md R34): no command and no reset changes them. `prim` fixes the unspecified
primitives of `NUM` at finitely many points; elsewhere, and everywhere when it is empty, they are the opaque constant
`Config.prim`. `sqrt` says whether the square root is the correctly rounded one of R12 or unspecified like them (D2,
U14). -/
structure Straps where
  sr : Num
  wtLen : Nat
  nCh : Nat
  fmMaxOps : Nat
  prim : List PrimPoint
  sqrt : Plug
  noiseSrc : Plug
  bqDesign : Plug
  envBase : Plug
  krnArgMode : KrnArgMode
  atphaseScaled : Bool
deriving DecidableEq, Repr

/-! ### What R133 requires of any `ENV_BASE` -/

/-- The recurrence of a stage in binary32, `base + output × coef`, each operation rounded (42_envelope.md R141). -/
def stageNext (base coef x : Num) : Option Num := do
  Machine.round32 (base + (← Machine.round32 (x * coef)))

/-- The recurrence `n` times over. -/
def stageRun (base coef : Num) : Nat → Num → Option Num
  | 0, x => some x
  | n + 1, x => (stageNext base coef x).bind (stageRun base coef n)

/-- From every output in `[0, 1]` the recurrence never decreases the output, and reaches a value `>= 1` after finitely
many calls (R133, Attack). -/
def StageClimbs (base coef : Num) : Prop :=
  ∀ (w : Word) (x : Num), Machine.dec32 w = some x → 0 ≤ x → x ≤ 1 →
    (∃ y, stageNext base coef x = some y ∧ x ≤ y) ∧ ∃ n y, stageRun base coef n x = some y ∧ 1 ≤ y

/-- From every output in `[floor, 1]` the recurrence never increases the output, and reaches a value `<= floor` after
finitely many calls (R133, Decay with the sustain level, Release with 0). -/
def StageFalls (base coef floor : Num) : Prop :=
  ∀ (w : Word) (x : Num), Machine.dec32 w = some x → floor ≤ x → x ≤ 1 →
    (∃ y, stageNext base coef x = some y ∧ y ≤ x) ∧ ∃ n y, stageRun base coef n x = some y ∧ y ≤ floor

/-- What R133 requires of any instance of `ENV_BASE`, for parameters in the ranges of R24 and coefficients in `[0, 1)`,
the range R133 derives the requirement for: Attack climbs to 1, Decay falls to the sustain level, Release falls to 0. -/
def EnvBaseLaw (f : Num → Num → Num → Num → Num → Num → EnvBases Word) : Prop :=
  ∀ ratioA ratioDR sustain attackCoef decayCoef releaseCoef : Num,
    Machine.finite32 0x3089705F ≤ ratioA → Machine.finite32 0x3089705F ≤ ratioDR → 0 ≤ sustain → sustain ≤ 1 →
    let b := f ratioA ratioDR sustain attackCoef decayCoef releaseCoef
    (0 ≤ attackCoef → attackCoef < 1 → ∃ v, Machine.dec32 b.attack = some v ∧ StageClimbs v attackCoef) ∧
    (0 ≤ decayCoef → decayCoef < 1 → ∃ v, Machine.dec32 b.decay = some v ∧ StageFalls v decayCoef sustain) ∧
    (0 ≤ releaseCoef → releaseCoef < 1 → ∃ v, Machine.dec32 b.release = some v ∧ StageFalls v releaseCoef 0)

/-- An `ENV_BASE` that obeys the law of R133: any function that does, or the one whose every stage ends at once, which
shows that there are such functions. -/
inductive OtherEnvBase where
  | atOnce
  | lawful (f : Num → Num → Num → Num → Num → Num → EnvBases Word) (law : EnvBaseLaw f)
deriving Inhabited

/-- The three bases as binary32 words, from `(ratioA, ratioDR, sustain, attackCoef, decayCoef, releaseCoef)` (R133). -/
def OtherEnvBase.bases : OtherEnvBase → Num → Num → Num → Num → Num → Num → EnvBases Word
  | .atOnce => fun _ _ _ _ _ _ => ⟨0x3F800000, 0xBF800000, 0xBF800000⟩
  | .lawful f _ => f

/-! ### The open values: constants with no body -/

/-- The unspecified primitives of binary32, functions of their operand alone (R12, D2, U14). The
word answered may have exponent 255: then the result is not finite. -/
opaque Config.prim : Prim → Num → Word

/-- The value of `wrap` where the formula of R14, evaluated in binary32, leaves `[0, TAU)` (R14: the instance must
supply a value inside). Read through `Machine/Numerics.lean`, which keeps it inside. -/
opaque Config.wrapOther : Num → Word

/-- Another `BQ_DESIGN` than the reference design (U11). -/
opaque Config.otherBqDesign : FType → Num → Num → Num → BqCoefs Word

/-- Another `ENV_BASE` than the reference one, of which nothing is known but the law of R133 (U12). -/
opaque Config.otherEnvBase : OtherEnvBase

/-- Another `NOISE_SRC` than `LFSR16` (U13): which seeds it accepts, apart from 0xACE1, and the state each gives. -/
opaque Config.otherNoiseSeed : BitVec 16 → Option Nat

/-- Another `NOISE_SRC`: its state after reset, `seed(0xACE1)` (R36). -/
opaque Config.otherNoiseReset : Nat

/-- Another `NOISE_SRC`: the state after a draw. -/
opaque Config.otherNoiseNext : Nat → Nat

/-- Another `NOISE_SRC`: the value drawn, kept inside `[-1, 1]` where it is read (R181's law). -/
opaque Config.otherNoiseDraw : Nat → Word

/-- The strap `SR` of the block (R5, I1), as a word; made positive and finite where it is read. -/
opaque Config.srWord : Word

/-- The strap `WT_LEN`, less one (R6, I2). -/
opaque Config.wtLenLessOne : Fin 65536

/-- The strap `N_CH`, less one (R6, I3). -/
opaque Config.nChLessOne : Fin 64

/-- The strap `FM_MAX_OPS` (R6, I4). -/
opaque Config.fmMaxOpsStrap : Fin 257

/-- Whether the block's square root is the correctly rounded one (R12) or unspecified (D2, U14). -/
opaque Config.sqrtStrap : Plug

/-- Which random source the block has (I6). -/
opaque Config.noiseStrap : Plug

/-- Which coefficient design the block has (I7). -/
opaque Config.bqDesignStrap : Plug

/-- Which envelope bases the block has (I7). -/
opaque Config.envBaseStrap : Plug

/-- The switch `KRN_ARG_MODE` of the block (R9, I8, D22: open). -/
opaque Config.krnArgModeStrap : KrnArgMode

/-- The switch `OSC_ATPHASE_SCALED` of the block (R9, I8, D23: open). -/
opaque Config.atphaseScaledStrap : Bool

end Sys2Proof
end

