-- ==== Sys2Proof/Machine/Numerics.lean ====
section
/-!
DEFINITION. The two instances of the numerics record `NUM`: `binary32`, the hardware instance the machine runs with
(00_scope.md R12), and `real`, the reference instance the rules are written over (R11); and the functions both share
(R13, R15, R105).
-/

namespace Sys2Proof.Machine

/-- The word an unspecified primitive answers: the strap's where it lists the argument, else the open constant's
(R12, U14). -/
def primWord (tab : List PrimPoint) (fn : Prim) (x : Num) : Word :=
  match tab.find? fun e => decide (e.fn = fn) && decide (e.arg = x) with
  | some e => e.res
  | none => Config.prim fn x

/-- An unspecified primitive of binary32; none where its result is not finite (R12). -/
def prim32 (tab : List PrimPoint) (fn : Prim) (x : Num) : Option Num := dec32 (primWord tab fn x)

/-- `x` lies in `[0, TAU)`, for the binary32 TAU (R14). -/
def inTurn32 (x : Num) : Bool := decide (0 ≤ x) && decide (x < tau32)

/-- The formula of R14, `p - TAU × floor(p ÷ TAU)`, each operation rounded to binary32 in the order written. -/
def wrapFormula32 (p : Num) : Option Num := do
  let q ← round32 (p / tau32)
  let t ← round32 (tau32 * (q.floor : Rat))
  round32 (p - t)

/-- A value in `[0, TAU)` that nothing else is known of (R14: the instance must supply one). -/
def wrapOther32 (p : Num) : Num :=
  let v := finite32 (Config.wrapOther p)
  if inTurn32 v then v else 0

/-- `wrap` of the hardware instance: the formula of R14 where its binary32 value lies in `[0, TAU)`, else an open value
that does (R14). -/
def wrap32 (p : Num) : Num :=
  match wrapFormula32 p with
  | some q => if inTurn32 q then q else wrapOther32 p
  | none => wrapOther32 p

/-- The square root of the hardware instance: correctly rounded (R12), or unspecified (D2, U14), as the strap says. -/
def sqrtOf (p : Straps) (x : Num) : Option Num :=
  match p.sqrt with
  | .reference => sqrt32 x
  | .other => prim32 p.prim .sqrt x

/-- `NUM = binary32`, the hardware instance (R12). -/
def binary32 (p : Straps) : NumOps Num where
  ofRat q := (round32 q).getD 0
  add x y := round32 (x + y)
  sub x y := round32 (x - y)
  mul x y := round32 (x * y)
  div x y := if y = 0 then none else round32 (x / y)
  abs x := |x|
  floor x := x.floor
  sqrt := sqrtOf p
  sin := prim32 p.prim .sin
  tan := prim32 p.prim .tan
  exp := prim32 p.prim .exp
  ln := prim32 p.prim .ln
  pow10 := prim32 p.prim .pow10
  lt x y := decide (x < y)
  le x y := decide (x ≤ y)
  pi := pi32
  tau := tau32
  wrap := wrap32

open Classical in
/-- `NUM = real`, the reference instance: every operation has its mathematical meaning (R11). -/
noncomputable def real : NumOps ℝ where
  ofRat q := (q : ℝ)
  add x y := some (x + y)
  sub x y := some (x - y)
  mul x y := some (x * y)
  div x y := some (x / y)
  abs x := |x|
  floor x := ⌊x⌋
  sqrt x := some (Real.sqrt x)
  sin x := some (Real.sin x)
  tan x := some (Real.tan x)
  exp x := some (Real.exp x)
  ln x := some (Real.log x)
  pow10 x := some ((10 : ℝ) ^ x)
  lt x y := decide (x < y)
  le x y := decide (x ≤ y)
  pi := Real.pi
  tau := 2 * Real.pi
  wrap p := p - 2 * Real.pi * (⌊p / (2 * Real.pi)⌋ : ℝ)

open Classical in
/-- The integer nearest a real number that is not negative, ties to even. -/
noncomputable def roundHalfEvenReal (x : ℝ) : Nat :=
  let q := ⌊x⌋₊
  if x - q < 1 / 2 then q else if 1 / 2 < x - q then q + 1 else if q % 2 = 0 then q else q + 1

open Classical in
/-- `enc32` of the reference instance: the word of the binary32 number nearest the real `v`, ties to even; none when the
rounding exceeds the largest finite number (30_encoding.md R74, 93_implementation_defined.md U16). On rational numbers it
is `enc32` (`encReal_ratCast`). -/
noncomputable def encReal (v : ℝ) : Option Word :=
  if v = 0 then some 0
  else
    let u := ulpExponent (Int.log 2 |v|)
    packWord (decide (v < 0)) (packFields (roundHalfEvenReal (|v| / 2 ^ u)) u)

variable {α : Type}

/-- `sign`: 1, 0 or -1 (R13). -/
def sign (n : NumOps α) (x : α) : α :=
  if n.lt (n.ofRat 0) x then n.ofRat 1 else if n.lt x (n.ofRat 0) then n.ofRat (-1) else n.ofRat 0

/-- `max(a, b)`: `a` when `a >= b`, else `b` (R15). -/
def maxNum (n : NumOps α) (a b : α) : α := if n.le b a then a else b

/-- `karg`: the argument a kernel is called with (40_kernel.md R105, 41_oscillator.md R116). -/
def karg (c : Config α) (p : α) : α :=
  match c.krnArgMode with
  | .wrapped => c.num.wrap p
  | .raw => p

/-- `TAU × f ÷ SR`, the product first: the phase increment of a frequency (41_oscillator.md R110). -/
def phaseInc (c : Config α) (f : α) : Option α := do
  let t ← c.num.mul c.num.tau f
  c.num.div t c.sr

end Sys2Proof.Machine
end

