-- ==== Sys2Proof/Machine/NoiseSource.lean ====
section
/-!
DEFINITION. The random source: the reference instance `LFSR16`, and a source of which only the law is known
(44_noise.md R181, R182).
-/

namespace Sys2Proof.Machine

/-- One step of the 16-bit Fibonacci register: taps 0, 2, 3 and 5, shift right, the tap sum into bit 15 (R182). -/
def lfsrStep (s : BitVec 16) : BitVec 16 :=
  let bit := s.getLsbD 0 ^^ s.getLsbD 2 ^^ s.getLsbD 3 ^^ s.getLsbD 5
  (if bit then 0x8000#16 else 0#16) ||| (s >>> 1)

/-- The value a register state stands for, `(s' - 32768) ÷ 32767` (R182). -/
def lfsrDraw {α : Type} (n : NumOps α) (s : BitVec 16) : α := n.ofRat (((s.toNat : Rat) - 32768) / 32767)

/-- The reference instance `LFSR16` (R182). -/
def lfsr16 {α : Type} (n : NumOps α) : NoiseSrc α where
  seed k := if k = 0 then none else some k.toNat
  next s :=
    let s' := lfsrStep (BitVec.ofNat 16 s)
    (s'.toNat, lfsrDraw n s')
  resetState := 0xACE1
  readable := true

/-- A value in `[-1, 1]`, the law of every random source (R181); 0 stands in for a word outside it. -/
def inUnitRange (v : Num) : Num := if -1 ≤ v ∧ v ≤ 1 then v else 0

/-- A random source of which nothing is known but the law of R181 and that it accepts the reset seed (R36, U13). -/
def otherNoise : NoiseSrc Num where
  seed k := if k = 0xACE1 then some Config.otherNoiseReset else Config.otherNoiseSeed k
  next s := (Config.otherNoiseNext s, inUnitRange (finite32 (Config.otherNoiseDraw s)))
  resetState := Config.otherNoiseReset
  readable := false

/-- The random source the strap selects. -/
def noiseOf (p : Straps) : NoiseSrc Num :=
  match p.noiseSrc with
  | .reference => lfsr16 (binary32 p)
  | .other => otherNoise

end Sys2Proof.Machine
end

