-- ==== Sys2Proof/Machine/Design.lean ====
section
/-!
DEFINITION. The two replaceable design functions with their default instances: `BQ_DESIGN`, the seven filter designs
(43_biquad.md R152 to R160), and `ENV_BASE`, the envelope's stage bases (42_envelope.md R133). Every formula is
evaluated left to right with the precedence written; `none` is a result that is not finite.
-/

namespace Sys2Proof.Machine

variable {α : Type}

/-- `K = tan(PI × f ÷ SR)`: the product, the division, the tangent (R152). -/
def bqK (n : NumOps α) (sr f : α) : Option α := do
  n.tan (← n.div (← n.mul n.pi f) sr)

/-- `V = pow10(abs(g) ÷ 20)` (R153). -/
def bqV (n : NumOps α) (g : α) : Option α := do
  n.pow10 (← n.div (n.abs g) (n.ofRat 20))

/-- `x + y + z`, left to right. -/
def sum3 (n : NumOps α) (x y z : α) : Option α := do
  n.add (← n.add x y) z

/-- `x - y + z`, left to right. -/
def alt3 (n : NumOps α) (x y z : α) : Option α := do
  n.add (← n.sub x y) z

/-- `2 × (x - y) × norm`, the shape of the odd coefficients in R154 to R160. -/
def oddCoef (n : NumOps α) (x y norm : α) : Option α := do
  n.mul (← n.mul (n.ofRat 2) (← n.sub x y)) norm

/-- The pieces the designs R154 to R156 and R160 share: `K ÷ Q`, `K × K` and `norm = 1 ÷ (1 + K ÷ Q + K × K)`. -/
def bqNorm (n : NumOps α) (k q : α) : Option (α × α × α) := do
  let kq ← n.div k q
  let kk ← n.mul k k
  let norm ← n.div (n.ofRat 1) (← sum3 n (n.ofRat 1) kq kk)
  return (kq, kk, norm)

/-- `lowpass` (R154). -/
def bqLowpass (n : NumOps α) (k q : α) : Option (BqCoefs α) := do
  let one := n.ofRat 1
  let (kq, kk, norm) ← bqNorm n k q
  let a0 ← n.mul kk norm
  let a1 ← n.mul (n.ofRat 2) a0
  let b1 ← oddCoef n kk one norm
  let b2 ← n.mul (← alt3 n one kq kk) norm
  return ⟨a0, a1, a0, b1, b2⟩

/-- `highpass` (R155). -/
def bqHighpass (n : NumOps α) (k q : α) : Option (BqCoefs α) := do
  let one := n.ofRat 1
  let (kq, kk, norm) ← bqNorm n k q
  let a0 ← n.mul one norm
  let a1 ← n.mul (n.ofRat (-2)) a0
  let b1 ← oddCoef n kk one norm
  let b2 ← n.mul (← alt3 n one kq kk) norm
  return ⟨a0, a1, a0, b1, b2⟩

/-- `bandpass` (R156). -/
def bqBandpass (n : NumOps α) (k q : α) : Option (BqCoefs α) := do
  let one := n.ofRat 1
  let zero := n.ofRat 0
  let (kq, kk, norm) ← bqNorm n k q
  let a0 ← n.mul kq norm
  let a2 ← n.sub zero a0
  let b1 ← oddCoef n kk one norm
  let b2 ← n.mul (← alt3 n one kq kk) norm
  return ⟨a0, zero, a2, b1, b2⟩

/-- `notch` (R160). -/
def bqNotch (n : NumOps α) (k q : α) : Option (BqCoefs α) := do
  let one := n.ofRat 1
  let (kq, kk, norm) ← bqNorm n k q
  let a0 ← n.mul (← n.add one kk) norm
  let a1 ← oddCoef n kk one norm
  let b2 ← n.mul (← alt3 n one kq kk) norm
  return ⟨a0, a1, a0, a1, b2⟩

/-- The common shape of the shelves' coefficients (R157, R158): the numerator's terms are `x1 + y1 + z1`, the
denominator's `x2 + y2 + z2`, and `norm` is one over the denominator's sum. -/
def shelfCoefs (n : NumOps α) (x1 y1 z1 x2 y2 z2 : α) : Option (BqCoefs α) := do
  let norm ← n.div (n.ofRat 1) (← sum3 n x2 y2 z2)
  let a0 ← n.mul (← sum3 n x1 y1 z1) norm
  let a1 ← oddCoef n z1 x1 norm
  let a2 ← n.mul (← alt3 n x1 y1 z1) norm
  let b1 ← oddCoef n z2 x2 norm
  let b2 ← n.mul (← alt3 n x2 y2 z2) norm
  return ⟨a0, a1, a2, b1, b2⟩

/-- `lowshelf`, boost for `g >= 0` and cut below (R157). -/
def bqLowshelf (n : NumOps α) (k g : α) : Option (BqCoefs α) := do
  let one := n.ofRat 1
  let v ← bqV n g
  let kk ← n.mul k k
  let flat ← n.mul (← n.sqrt (n.ofRat 2)) k
  let steep ← n.mul (← n.sqrt (← n.mul (n.ofRat 2) v)) k
  let vkk ← n.mul (← n.mul v k) k
  if n.le (n.ofRat 0) g then shelfCoefs n one steep vkk one flat kk
  else shelfCoefs n one flat kk one steep vkk

/-- `highshelf`, boost for `g >= 0` and cut below (R158). -/
def bqHighshelf (n : NumOps α) (k g : α) : Option (BqCoefs α) := do
  let one := n.ofRat 1
  let v ← bqV n g
  let kk ← n.mul k k
  let flat ← n.mul (← n.sqrt (n.ofRat 2)) k
  let steep ← n.mul (← n.sqrt (← n.mul (n.ofRat 2) v)) k
  if n.le (n.ofRat 0) g then shelfCoefs n v steep kk one flat kk
  else shelfCoefs n one flat kk v steep kk

/-- `peak`, boost for `g >= 0` and cut below (R159): `b1 = a1`. -/
def bqPeak (n : NumOps α) (k q g : α) : Option (BqCoefs α) := do
  let one := n.ofRat 1
  let v ← bqV n g
  let kk ← n.mul k k
  let thin ← n.mul (← n.div one q) k
  let wide ← n.mul (← n.div v q) k
  let (num, den) := if n.le (n.ofRat 0) g then (wide, thin) else (thin, wide)
  let norm ← n.div one (← sum3 n one den kk)
  let a0 ← n.mul (← sum3 n one num kk) norm
  let a1 ← oddCoef n kk one norm
  let a2 ← n.mul (← alt3 n one num kk) norm
  let b2 ← n.mul (← alt3 n one den kk) norm
  return ⟨a0, a1, a2, a1, b2⟩

/-- The default `BQ_DESIGN`: the type selects the design function; lowpass, highpass, bandpass and notch ignore the
gain, the shelves ignore `q` (R153). -/
def bqDesignDefault (n : NumOps α) (sr : α) (t : FType) (f q g : α) : Option (BqCoefs α) := do
  let k ← bqK n sr f
  match t with
  | .lowpass => bqLowpass n k q
  | .highpass => bqHighpass n k q
  | .bandpass => bqBandpass n k q
  | .lowshelf => bqLowshelf n k g
  | .highshelf => bqHighshelf n k g
  | .peak => bqPeak n k q g
  | .notch => bqNotch n k q

/-- The default `ENV_BASE` (R133). -/
def envBaseDefault (n : NumOps α) (ratioA ratioDR sustain attackCoef decayCoef releaseCoef : α) :
    Option (EnvBases α) := do
  let one := n.ofRat 1
  let a ← n.mul (← n.add one ratioA) (← n.sub one attackCoef)
  let d ← n.mul (← n.sub sustain ratioDR) (← n.sub one decayCoef)
  let r ← n.mul (← n.sub (n.ofRat 0) ratioDR) (← n.sub one releaseCoef)
  return ⟨a, d, r⟩

/-- The `BQ_DESIGN` the strap selects; another design answers finite values for every input (R8, U11). -/
def bqDesignOf (p : Straps) : FType → Num → Num → Num → Option (BqCoefs Num) :=
  match p.bqDesign with
  | .reference => bqDesignDefault (binary32 p) p.sr
  | .other => fun t f q g =>
    let w := Config.otherBqDesign t f q g
    some ⟨finite32 w.a0, finite32 w.a1, finite32 w.a2, finite32 w.b1, finite32 w.b2⟩

/-- The `ENV_BASE` the strap selects (R8, U12); another one obeys the law of R133, and may answer
a value that is not finite outside its ranges. -/
def envBaseOf (p : Straps) : Num → Num → Num → Num → Num → Num → Option (EnvBases Num) :=
  match p.envBase with
  | .reference => envBaseDefault (binary32 p)
  | .other => fun ra rdr s ac dc rc => do
    let w := Config.otherEnvBase.bases ra rdr s ac dc rc
    return ⟨← dec32 w.attack, ← dec32 w.decay, ← dec32 w.release⟩

/-- The configuration record the straps of a block stand for (92_eei_decisions.md section 7). -/
def configOf (p : Straps) : Config Num where
  num := binary32 p
  sr := p.sr
  wtLen := p.wtLen
  nCh := p.nCh
  fmMaxOps := p.fmMaxOps
  noise := noiseOf p
  bqDesign := bqDesignOf p
  envBase := envBaseOf p
  krnArgMode := p.krnArgMode
  atphaseScaled := p.atphaseScaled

/-- The configuration record of the reference instance `NUM = real` (R11), with the default `BQ_DESIGN` and
`ENV_BASE` and the source `LFSR16`. -/
noncomputable def referenceConfig (sr : ℝ) (wtLen nCh fmMaxOps : Nat) (mode : KrnArgMode) (scaled : Bool) :
    Config ℝ where
  num := real
  sr := sr
  wtLen := wtLen
  nCh := nCh
  fmMaxOps := fmMaxOps
  noise := lfsr16 real
  bqDesign := bqDesignDefault real sr
  envBase := envBaseDefault real
  krnArgMode := mode
  atphaseScaled := scaled

/-- The straps are a configuration of this block (R5, R6, U25): the sample rate is a positive binary32 number and the
three sizes lie in their ranges. -/
def strapsLegal (p : Straps) : Bool :=
  decide (0 < p.sr) && isBinary32 p.sr && decide (1 ≤ p.wtLen) && decide (p.wtLen ≤ 65536) && decide (1 ≤ p.nCh)
    && decide (p.nCh ≤ 64) && decide (p.fmMaxOps ≤ 256)

/-- The straps of the block, every one of them open: a positive finite sample rate, the sizes in their ranges (R5, R6),
the switches and the replaceable functions either way (92_eei_decisions.md section 7). -/
def blockStraps : Straps where
  sr := if 0 < finite32 Config.srWord then finite32 Config.srWord else 1
  wtLen := Config.wtLenLessOne.val + 1
  nCh := Config.nChLessOne.val + 1
  fmMaxOps := Config.fmMaxOpsStrap.val
  prim := []
  sqrt := Config.sqrtStrap
  noiseSrc := Config.noiseStrap
  bqDesign := Config.bqDesignStrap
  envBase := Config.envBaseStrap
  krnArgMode := Config.krnArgModeStrap
  atphaseScaled := Config.atphaseScaledStrap

end Sys2Proof.Machine
end

