-- ==== Sys2Proof/Machine/State.lean ====
section
/-!
DEFINITION. The state of the block (10_state.md), the fault codes, the reasons a step can stop, and the state after
reset. Everything is plain data.

A unit that has not been constructed is `none`, as R36 asks ("A model should represent an unconfigured unit as `none`,
not as a record of zeros"): the unit's `cfg` flag of R22 is whether the record is there.
-/

namespace Sys2Proof.Machine

/-- An oscillator record (10_state.md R23, 41_oscillator.md R110): unit OSC's, the carrier's and every operator's. -/
structure Osc (α : Type) where
  type : Wave
  freq : α
  amp : α
  phase : α
  inc : α
deriving DecidableEq, Repr

/-- The envelope (10_state.md R24 parameters, R25 derived fields, R26 dynamic fields). -/
structure Env (α : Type) where
  attackRate : α
  decayRate : α
  releaseRate : α
  sustain : α
  ratioA : α
  ratioDR : α
  attackCoef : α
  decayCoef : α
  releaseCoef : α
  attackBase : α
  decayBase : α
  releaseBase : α
  envState : EnvState
  envOut : α
deriving DecidableEq, Repr

/-- One channel's delay words (10_state.md R29). -/
structure Delay (α : Type) where
  z1 : α
  z2 : α
deriving DecidableEq, Repr

/-- The filter (10_state.md R27 design fields, R28 coefficients, R29 delay file: one entry per channel). -/
structure Bq (α : Type) where
  type : FType
  freq : α
  q : α
  gain : α
  coefs : BqCoefs α
  delay : List (Delay α)
deriving DecidableEq, Repr

/-- The noise generator apart from its random source (10_state.md R30). -/
structure Ng (α : Type) where
  type : Variant
  prev : α
deriving DecidableEq, Repr

/-- The wavetable (10_state.md R31, 20_memory.md R51). `tab` lists the entries whose valid bit is 1, index and value,
indices strictly rising; an index it does not list has valid bit 0. -/
structure Wt (α : Type) where
  tab : List (Nat × α)
  phase : α
deriving DecidableEq, Repr

/-- The FM synthesizer (10_state.md R32). `ops` is `op[0] .. op[nOps-1]`: `nOps` is its length. -/
structure Fm (α : Type) where
  car : Osc α
  ops : List (Osc α)
deriving DecidableEq, Repr

/-- The state of the units (10_state.md sections 2 to 9). `rng` is the state of the random source (R30, R33): it exists
whether or not unit NG is configured. -/
structure Units (α : Type) where
  osc : Option (Osc α)
  env : Option (Env α)
  bq : Option (Bq α)
  ng : Option (Ng α)
  rng : Nat
  wt : Wt α
  fm : Option (Fm α)
deriving DecidableEq, Repr

/-- The fault codes (60_exceptions.md R240). A fault is an answer of the block, not a stop of the machine. -/
inductive FaultCode where
  /-- The header selects no command (R241). -/
  | illegalCommand
  /-- An operand word is an infinity or a NaN (R242). -/
  | badOperand
  /-- The unit was never constructed, or a table entry never written (R243). -/
  | notConfigured
  /-- An index is outside its file (R244). -/
  | indexRange
  /-- A parameter fails validation (R245). -/
  | paramRange
  /-- The operator file is full (R246). -/
  | capacity
  /-- A finite-precision result is not finite, or cannot be encoded (R247). -/
  | numericFault
deriving DecidableEq, Repr

/-- What a command returns (30_encoding.md R74, R78 column `ret`): nothing, a `Num`, or an unsigned integer. -/
inductive Result (α : Type) where
  | none
  | num (v : α)
  | nat (k : Nat)
deriving DecidableEq, Repr

/-- What a command that does not fault comes to above the wire: the new state of the units and the result (00_scope.md
R17). -/
abbrev Answer (α : Type) := Units α × Result α

/-- The state of the block and of its two ports.

`straps` are the configuration, which nothing changes (R34); `units` the architectural state (R22 to R33); `cmd` the
words the host presents on the command port and the block has not accepted, first word first (R70); `pkt` the words the
block has accepted of a packet in progress (R260); `sending` the response in progress, its status word and its result word,
which the block has not sent whole (R260, R76); `rsp` every word of the responses sent whole, first word first (R70);
`resetLine` the level of the reset input (R260). -/
structure State where
  straps : Straps
  units : Units Num
  cmd : List Word
  pkt : List Word
  sending : Option (Word × Word)
  rsp : List Word
  resetLine : Bool
deriving DecidableEq, Repr

/-- Why the machine stops. -/
inductive Fault where
  /-- Raised by `step` when the block has accepted the beginning of a packet, nothing more is presented and no response is
to be sent: the block waits for ever for the missing words and answers nothing (93_implementation_defined.md U5, treatment
`stuck`). Safe: the words already received change nothing, and the hardware goes on only if the host sends more. -/
  | truncatedPacket
deriving DecidableEq, Repr

/-- Why the machine gives an instruction no meaning. -/
inductive Refusal where
  /-- Raised by an arm of `exec` whose command has no meaning yet; no arm does. Safe. -/
  | notModelled (mnemonic : String)
deriving DecidableEq, Repr

/-- The units after reset (R36, R261): nothing constructed, no table entry valid, `wtPhase` 0, the random source
seeded with 0xACE1. -/
def Units.reset {α : Type} (c : Config α) : Units α where
  osc := none
  env := none
  bq := none
  ng := none
  rng := c.noise.resetState
  wt := ⟨[], c.num.ofRat 0⟩
  fm := none

/-- The state after reset of a block with the given straps, nothing presented and nothing answered (R36, R260). -/
def State.resetWith (p : Straps) : State where
  straps := p
  units := Units.reset (configOf p)
  cmd := []
  pkt := []
  sending := none
  rsp := []
  resetLine := false

/-- The machine right after reset (R36, R260, R261). -/
def State.reset : State := State.resetWith blockStraps

end Sys2Proof.Machine
end

