-- ==== Sys2Proof/Machine/Ops.lean ====
section
/-!
DEFINITION. The named operations every command is written with: the table memory, the lift of arithmetic into faults,
the response and the commit (fault entry among them), the reset input, and the loader.
-/

namespace Sys2Proof.Machine

variable {α : Type}

/-! ### The wavetable RAM (20_memory.md R51) -/

/-- Entry `i` of the table: its value when its valid bit is 1, none when it is 0 (R51). -/
def tabRead : List (Nat × α) → Nat → Option α
  | [], _ => none
  | (j, v) :: t, i => if i = j then some v else if i < j then none else tabRead t i

/-- Write entry `i` and set its valid bit, keeping the indices strictly rising (R51). -/
def tabWrite : List (Nat × α) → Nat → α → List (Nat × α)
  | [], i, v => [(i, v)]
  | (j, w) :: t, i, v =>
    if i = j then (i, v) :: t else if i < j then (i, v) :: (j, w) :: t else (j, w) :: tabWrite t i v

/-- The canonical form of the table memory: indices strictly rising. An unlisted index reads as an entry whose valid
bit is 0, which no listed entry equals. -/
def Memory.wf : List (Nat × α) → Bool
  | [] => true
  | [_] => true
  | (i, _) :: (j, w) :: t => decide (i < j) && Memory.wf ((j, w) :: t)

/-- The entries `v 0 .. v (n-1)` at the indices `i .. i+n-1`; none when one of them is none. -/
def tabFill (v : Nat → Option α) : Nat → Nat → Option (List (Nat × α))
  | 0, _ => some []
  | n + 1, i => do
    let x ← v i
    let t ← tabFill v n (i + 1)
    return (i, x) :: t

/-- The number of `i < n` whose valid bit is 1 (10_state.md R35, register 0x0601). -/
def tabCount (t : List (Nat × α)) (n : Nat) : Nat := ((List.range n).filter fun i => (tabRead t i).isSome).length

/-! ### Arithmetic inside a command -/

/-- A computation one of whose primitives has no finite result raises `NumericFault` (60_exceptions.md R247). -/
def numeric {β : Type} : Option β → Except FaultCode β
  | some x => .ok x
  | none => .error .numericFault

/-- The command ends with the fault `e` when the check fails (00_scope.md R17, `raise`). -/
def require (ok : Bool) (e : FaultCode) : Except FaultCode Unit := if ok then .ok () else .error e

/-! ### The response (30_encoding.md R74, R76) -/

/-- The status code of a fault; 0 is `OK` (60_exceptions.md R240). -/
def FaultCode.status : FaultCode → Word
  | .illegalCommand => 1
  | .badOperand => 2
  | .notConfigured => 3
  | .indexRange => 4
  | .paramRange => 5
  | .capacity => 6
  | .numericFault => 7

/-- The result word: the encoding of a `Num` (none where its rounding is too large), an integer as it is, 0 where the
command returns nothing (R74, R76). `enc` encodes a `Num` of the instance: `enc32` for `NUM = binary32`, `encReal` for
`NUM = real`. -/
def Result.encode (enc : α → Option Word) : Result α → Option Word
  | .none => some 0
  | .num v => enc v
  | .nat k => some (BitVec.ofNat 32 k)

/-- The last step of every command, in every instance: its result is encoded, and a result that cannot be encoded raises
`NumericFault`, so that its writes are dropped (R74, 60_exceptions.md R247, R249; 93_implementation_defined.md U16). -/
def finish (enc : α → Option Word) : Except FaultCode (Answer α) → Except FaultCode (Units α × Word)
  | .error e => .error e
  | .ok (u, r) =>
    match r.encode enc with
    | some w => .ok (u, w)
    | none => .error .numericFault

/-- The two words of a response in progress; no words when there is none (R76). -/
def responseWords : Option (Word × Word) → List Word
  | some (status, result) => [status, result]
  | none => []

/-- Every response word the block has made, first word first: those of the responses sent whole, then those of the response
in progress. -/
def State.responses (s : State) : List Word := s.rsp ++ responseWords s.sending

/-- The response in progress is sent whole (30_encoding.md R70). -/
def State.deliver (s : State) : State := { s with rsp := s.responses, sending := none }

/-- Make one response, the status word and then the result word (R76). It is in progress from now on; the response before it
has been sent whole, because the block delivers one response before it takes the next command (20_memory.md R60, R70). -/
def State.respond (s : State) (status result : Word) : State := { s.deliver with sending := some (status, result) }

/-- FAULT ENTRY, the block's whole exception mechanism (60_exceptions.md R249): no architectural state changes, the
response is the fault's code and 0, and the block goes on to the next packet. There is no return from it, because it
transfers control nowhere (R250). -/
def State.raise (s : State) (e : FaultCode) : State := s.respond e.status 0

/-- The configuration the block's straps stand for. -/
def State.config (s : State) : Config Num := configOf s.straps

/-- Complete a command: commit all its writes together and answer `OK` with its encoded result, or enter the fault it
raised, its last encoding step among them (00_scope.md R17, 60_exceptions.md R247, R249). -/
def State.commit (s : State) (a : Except FaultCode (Answer Num)) : State :=
  match finish enc32 a with
  | .error e => s.raise e
  | .ok (u, w) => { s with units := u }.respond 0 w

/-- Every command completes in one step, answered (70_reset_and_hazards.md R275). -/
def answer (s : State) (a : Except FaultCode (Answer Num)) : Host.Outcome State Fault Refusal := .next (s.commit a)

/-! ### The reset input (70_reset_and_hazards.md R260) -/

/-- The block in reset: the units are in their state after reset, and a packet or a response in progress is dropped. The
words presented and not accepted stay on the port, and so do the responses sent whole (R260, R36,
93_implementation_defined.md U24). -/
def State.holdReset (s : State) : State :=
  { s with units := Units.reset s.config, pkt := [], sending := none }

/-- The outside asserts the reset input: the block is in reset from then on, for however short a time (R260, U24). -/
def State.assertReset (s : State) : State := { s.holdReset with resetLine := true }

/-- The outside releases the reset input: where it was asserted, the state is that of R36 (R260). -/
def State.releaseReset (s : State) : State := if s.resetLine then { s.holdReset with resetLine := false } else s

/-! ### The host's side -/

/-- "The pc": the position in the host's list of packets, one response of two words per packet (10_state.md R21). -/
def State.position (s : State) : Nat := s.responses.length / 2

/-- The state of a block with the straps `p`, right after reset, when the host presents the words `ws`. Refused where
the straps are no configuration of this block (U25) and where the words do not parse into whole packets (U5). -/
def State.load (p : Straps) (ws : List Word) : Option State :=
  if strapsLegal p && (decodeStream ws.length ws).2.isEmpty then some { State.resetWith p with cmd := ws } else none

end Sys2Proof.Machine
end

