-- ==== Sys2Proof/Machine/Operands.lean ====
section
/-!
DEFINITION. The operand forms: an operand word read as a `Num` (30_encoding.md R73, R80 step 3), and the range checks
of the host-supplied indices (20_memory.md R51 to R53). A selector is decoded with the header and carries its value.
-/

namespace Sys2Proof.Machine

variable {α : Type}

/-- An operand word as a `Num`; an infinity or a NaN raises `BadOperand` (R73, 60_exceptions.md R242). -/
def operand (w : Word) : Except FaultCode Num :=
  match dec32 w with
  | some v => .ok v
  | none => .error .badOperand

/-- A host-supplied index is below the size of its file, else `IndexRange` (60_exceptions.md R244). -/
def checkIndex (i size : Nat) : Except FaultCode Unit := require (decide (i < size)) .indexRange

/-- Operator `i` of the operator file; `i >= nOps` raises `IndexRange` (46_fm.md R210). -/
def operatorAt (fm : Fm α) (i : Nat) : Except FaultCode (Osc α) :=
  match fm.ops[i]? with
  | some o => .ok o
  | none => .error .indexRange

/-- The delay words of channel `c`. The file holds an entry for every channel below `N_CH`; the default stands for an
entry beyond it, which no checked index reaches. -/
def delayAt (n : NumOps α) (b : Bq α) (c : Nat) : Delay α := b.delay.getD c ⟨n.ofRat 0, n.ofRat 0⟩

end Sys2Proof.Machine
end

