-- ==== Sys2Proof/Machine/Flags.lean ====
section
/-!
DEFINITION. The flags of 10_state.md R22: one `cfg` flag per unit and one valid bit per table entry, and the checks
that raise `NotConfigured` (60_exceptions.md R243). There are no condition codes.
-/

namespace Sys2Proof.Machine

variable {α : Type}

/-- `oscCfg` (R22). -/
def Units.oscCfg (u : Units α) : Bool := u.osc.isSome
/-- `envCfg` (R22). -/
def Units.envCfg (u : Units α) : Bool := u.env.isSome
/-- `bqCfg` (R22). -/
def Units.bqCfg (u : Units α) : Bool := u.bq.isSome
/-- `ngCfg` (R22). -/
def Units.ngCfg (u : Units α) : Bool := u.ng.isSome
/-- `fmCfg` (R22). -/
def Units.fmCfg (u : Units α) : Bool := u.fm.isSome
/-- `tabValid[i]` (R22). -/
def Units.tabValid (u : Units α) (i : Nat) : Bool := (tabRead u.wt.tab i).isSome

/-- A flag as the integer `SYS.RDREG` returns (10_state.md R35, type `F`). -/
def flagNat (b : Bool) : Nat := if b then 1 else 0

/-- The record of a unit, or `NotConfigured` while its `cfg` flag is 0 (R22, R243). -/
def configured {β : Type} : Option β → Except FaultCode β
  | some x => .ok x
  | none => .error .notConfigured

/-- Table entry `i`, or `NotConfigured` while its valid bit is 0 (R22, R243). -/
def validEntry (t : List (Nat × α)) (i : Nat) : Except FaultCode α := configured (tabRead t i)

end Sys2Proof.Machine
end

