-- ==== Sys2Proof/Machine/Bq.lean ====
section
/-!
DEFINITION. Unit BQ, the biquad filter (43_biquad.md). The seven designs stand in `Machine/Design.lean`.
-/

namespace Sys2Proof.Machine

variable {α : Type}

/-- `bqValid(f, q) = (f > 0) and (f < 0.5 × SR) and (q > 0)` (R151). -/
def bqValid (c : Config α) (f q : α) : Option Bool := do
  let half ← c.num.mul (c.num.ofRat (1 / 2)) c.sr
  return c.num.lt (c.num.ofRat 0) f && c.num.lt f half && c.num.lt (c.num.ofRat 0) q

/-- The frequency and the Q pass validation, else `ParamRange` (R151, 60_exceptions.md R245). -/
def requireValid (c : Config α) (f q : α) : Except FaultCode Unit := do
  require (← numeric (bqValid c f q)) .paramRange

/-- The filter with its coefficients recomputed from its design fields (R28, R153). -/
def bqRedesign (c : Config α) (b : Bq α) : Option (Bq α) := do
  return { b with coefs := ← c.bqDesign b.type b.freq b.q b.gain }

/-- One sample through the transposed-form recurrence (R166): the output and the new delay words, both computed from the
old `z2`. -/
def bqFilter (n : NumOps α) (k : BqCoefs α) (d : Delay α) (x : α) : Option (α × Delay α) := do
  let y ← n.add (← n.mul x k.a0) d.z1
  let z1 ← n.sub (← n.add (← n.mul x k.a1) d.z2) (← n.mul k.b1 y)
  let z2 ← n.sub (← n.mul x k.a2) (← n.mul k.b2 y)
  return (y, ⟨z1, z2⟩)

/-- `BQ.INIT t, f, q, g` above the wire: every delay pair is zeroed (R161). -/
def bqInit (c : Config α) (t : FType) (f q g : α) (u : Units α) : Except FaultCode (Answer α) := do
  requireValid c f q
  let zero := c.num.ofRat 0
  let k ← numeric (c.bqDesign t f q g)
  return ({ u with bq := some ⟨t, f, q, g, k, List.replicate c.nCh ⟨zero, zero⟩⟩ }, .none)

/-- `BQ.SETTYPE t` above the wire (R162). -/
def bqSettype (c : Config α) (t : FType) (u : Units α) : Except FaultCode (Answer α) := do
  let b ← configured u.bq
  let b' ← numeric (bqRedesign c { b with type := t })
  return ({ u with bq := some b' }, .none)

/-- `BQ.SETFREQ f` above the wire (R163). -/
def bqSetfreq (c : Config α) (f : α) (u : Units α) : Except FaultCode (Answer α) := do
  let b ← configured u.bq
  requireValid c f b.q
  let b' ← numeric (bqRedesign c { b with freq := f })
  return ({ u with bq := some b' }, .none)

/-- `BQ.SETQ q` above the wire (R164). -/
def bqSetq (c : Config α) (q : α) (u : Units α) : Except FaultCode (Answer α) := do
  let b ← configured u.bq
  requireValid c b.freq q
  let b' ← numeric (bqRedesign c { b with q := q })
  return ({ u with bq := some b' }, .none)

/-- `BQ.SETGAIN g` above the wire: nothing to validate (R165). -/
def bqSetgain (c : Config α) (g : α) (u : Units α) : Except FaultCode (Answer α) := do
  let b ← configured u.bq
  let b' ← numeric (bqRedesign c { b with gain := g })
  return ({ u with bq := some b' }, .none)

/-- `BQ.PROCESS c, x` above the wire: only channel `c`'s delay words change (R166). -/
def bqProcess (c : Config α) (channel : Nat) (x : α) (u : Units α) : Except FaultCode (Answer α) := do
  let b ← configured u.bq
  checkIndex channel c.nCh
  let (y, d) ← numeric (bqFilter c.num b.coefs (delayAt c.num b channel) x)
  return ({ u with bq := some { b with delay := b.delay.set channel d } }, .num y)

/-- `BQ.INIT` (R161). -/
def execBqInit (t : FType) (f q g : Word) (s : State) : Host.Outcome State Fault Refusal :=
  answer s do bqInit s.config t (← operand f) (← operand q) (← operand g) s.units

/-- `BQ.SETTYPE` (R162). -/
def execBqSettype (t : FType) (s : State) : Host.Outcome State Fault Refusal :=
  answer s (bqSettype s.config t s.units)

/-- `BQ.SETFREQ` (R163). -/
def execBqSetfreq (f : Word) (s : State) : Host.Outcome State Fault Refusal :=
  answer s do bqSetfreq s.config (← operand f) s.units

/-- `BQ.SETQ` (R164). -/
def execBqSetq (q : Word) (s : State) : Host.Outcome State Fault Refusal :=
  answer s do bqSetq s.config (← operand q) s.units

/-- `BQ.SETGAIN` (R165). -/
def execBqSetgain (g : Word) (s : State) : Host.Outcome State Fault Refusal :=
  answer s do bqSetgain s.config (← operand g) s.units

/-- `BQ.PROCESS` (R166). -/
def execBqProcess (channel : Nat) (x : Word) (s : State) : Host.Outcome State Fault Refusal :=
  answer s do bqProcess s.config channel (← operand x) s.units

end Sys2Proof.Machine
end

