-- ==== Sys2Proof/Machine/Env.lean ====
section
/-!
DEFINITION. Unit ENV, the ADSR envelope state machine (42_envelope.md).
-/

namespace Sys2Proof.Machine

variable {α : Type}

/-- `calcCoef(rate, ratio) = if rate > 0 then exp(-ln((1 + ratio) ÷ ratio) ÷ rate) else 0` (R132). -/
def calcCoef (n : NumOps α) (rate ratio : α) : Option α :=
  if n.lt (n.ofRat 0) rate then do
    let l ← n.ln (← n.div (← n.add (n.ofRat 1) ratio) ratio)
    n.exp (← n.div (← n.sub (n.ofRat 0) l) rate)
  else some (n.ofRat 0)

/-- `envDerive`: all six derived fields from the parameter fields (R134). -/
def envDerive (c : Config α) (e : Env α) : Option (Env α) := do
  let attackCoef ← calcCoef c.num e.attackRate e.ratioA
  let decayCoef ← calcCoef c.num e.decayRate e.ratioDR
  let releaseCoef ← calcCoef c.num e.releaseRate e.ratioDR
  let b ← c.envBase e.ratioA e.ratioDR e.sustain attackCoef decayCoef releaseCoef
  return { e with
    attackCoef, decayCoef, releaseCoef, attackBase := b.attack, decayBase := b.decay, releaseBase := b.release }

/-- The sustain level lies in `[0, 1]` (R131, R137). -/
def sustainValid (n : NumOps α) (level : α) : Bool := !(n.lt level (n.ofRat 0)) && !(n.lt (n.ofRat 1) level)

/-- The minimum of the two target ratios, 1e-9 (R139, R140). -/
def ratioMin (n : NumOps α) : α := n.ofRat (1 / 1000000000)

/-- The recurrence of a stage, `base + output × coef` (R141). -/
def envRecur (n : NumOps α) (base out coef : α) : Option α := do
  n.add base (← n.mul out coef)

/-- One sample of the envelope (R141): the new state and output. -/
def envStep (n : NumOps α) (e : Env α) : Option (Env α) :=
  match e.envState with
  | .idle => some e
  | .attack => do
    let o ← envRecur n e.attackBase e.envOut e.attackCoef
    return if n.le (n.ofRat 1) o then { e with envOut := n.ofRat 1, envState := .decay } else { e with envOut := o }
  | .decay => do
    let o ← envRecur n e.decayBase e.envOut e.decayCoef
    return if n.le o e.sustain then { e with envOut := e.sustain, envState := .sustain } else { e with envOut := o }
  | .sustain => some e
  | .release => do
    let o ← envRecur n e.releaseBase e.envOut e.releaseCoef
    return if n.le o (n.ofRat 0) then { e with envOut := n.ofRat 0, envState := .idle } else { e with envOut := o }

/-- `SetGate`: on forces Attack from any state, off forces Release unless Idle (R142). -/
def gateState (on : Bool) (st : EnvState) : EnvState :=
  match on, st with
  | true, _ => .attack
  | false, .idle => .idle
  | false, .attack | false, .decay | false, .sustain | false, .release => .release

/-- `ENV.INIT attack_s, decay_s, sustain, release_s` above the wire (R131). -/
def envInit (c : Config α) (attackS decayS sustain releaseS : α) (u : Units α) : Except FaultCode (Answer α) := do
  require (sustainValid c.num sustain) .paramRange
  let n := c.num
  let zero := n.ofRat 0
  let e ← numeric do
    let attackRate ← n.mul attackS c.sr
    let decayRate ← n.mul decayS c.sr
    let releaseRate ← n.mul releaseS c.sr
    envDerive c
      { attackRate, decayRate, releaseRate, sustain, ratioA := n.ofRat (3 / 10), ratioDR := n.ofRat (1 / 10000),
        attackCoef := zero, decayCoef := zero, releaseCoef := zero, attackBase := zero, decayBase := zero,
        releaseBase := zero, envState := .idle, envOut := zero }
  return ({ u with env := some e }, .none)

/-- `ENV.SETATTACK attack_s` above the wire (R135). -/
def envSetattack (c : Config α) (attackS : α) (u : Units α) : Except FaultCode (Answer α) := do
  let e ← configured u.env
  let e' ← numeric do envDerive c { e with attackRate := ← c.num.mul attackS c.sr }
  return ({ u with env := some e' }, .none)

/-- `ENV.SETDECAY decay_s` above the wire (R136). -/
def envSetdecay (c : Config α) (decayS : α) (u : Units α) : Except FaultCode (Answer α) := do
  let e ← configured u.env
  let e' ← numeric do envDerive c { e with decayRate := ← c.num.mul decayS c.sr }
  return ({ u with env := some e' }, .none)

/-- `ENV.SETSUSTAIN level` above the wire (R137). -/
def envSetsustain (c : Config α) (level : α) (u : Units α) : Except FaultCode (Answer α) := do
  let e ← configured u.env
  require (sustainValid c.num level) .paramRange
  let e' ← numeric (envDerive c { e with sustain := level })
  return ({ u with env := some e' }, .none)

/-- `ENV.SETRELEASE release_s` above the wire (R138). -/
def envSetrelease (c : Config α) (releaseS : α) (u : Units α) : Except FaultCode (Answer α) := do
  let e ← configured u.env
  let e' ← numeric do envDerive c { e with releaseRate := ← c.num.mul releaseS c.sr }
  return ({ u with env := some e' }, .none)

/-- `ENV.SETRATIOA ratio` above the wire: clamped to at least 1e-9 (R139). -/
def envSetratioa (c : Config α) (ratio : α) (u : Units α) : Except FaultCode (Answer α) := do
  let e ← configured u.env
  let e' ← numeric (envDerive c { e with ratioA := maxNum c.num ratio (ratioMin c.num) })
  return ({ u with env := some e' }, .none)

/-- `ENV.SETRATIODR ratio` above the wire: clamped to at least 1e-9 (R140). -/
def envSetratiodr (c : Config α) (ratio : α) (u : Units α) : Except FaultCode (Answer α) := do
  let e ← configured u.env
  let e' ← numeric (envDerive c { e with ratioDR := maxNum c.num ratio (ratioMin c.num) })
  return ({ u with env := some e' }, .none)

/-- `ENV.GATE g` above the wire (R142). -/
def envGate (on : Bool) (u : Units α) : Except FaultCode (Answer α) := do
  let e ← configured u.env
  return ({ u with env := some { e with envState := gateState on e.envState } }, .none)

/-- `ENV.PROCESS` above the wire: the result is the output after the update (R141). -/
def envProcess (c : Config α) (u : Units α) : Except FaultCode (Answer α) := do
  let e ← configured u.env
  let e' ← numeric (envStep c.num e)
  return ({ u with env := some e' }, .num e'.envOut)

/-- `ENV.INIT` (R131). -/
def execEnvInit (attackS decayS sustain releaseS : Word) (s : State) : Host.Outcome State Fault Refusal :=
  answer s do
    envInit s.config (← operand attackS) (← operand decayS) (← operand sustain) (← operand releaseS) s.units

/-- `ENV.SETATTACK` (R135). -/
def execEnvSetattack (attackS : Word) (s : State) : Host.Outcome State Fault Refusal :=
  answer s do envSetattack s.config (← operand attackS) s.units

/-- `ENV.SETDECAY` (R136). -/
def execEnvSetdecay (decayS : Word) (s : State) : Host.Outcome State Fault Refusal :=
  answer s do envSetdecay s.config (← operand decayS) s.units

/-- `ENV.SETSUSTAIN` (R137). -/
def execEnvSetsustain (sustain : Word) (s : State) : Host.Outcome State Fault Refusal :=
  answer s do envSetsustain s.config (← operand sustain) s.units

/-- `ENV.SETRELEASE` (R138). -/
def execEnvSetrelease (releaseS : Word) (s : State) : Host.Outcome State Fault Refusal :=
  answer s do envSetrelease s.config (← operand releaseS) s.units

/-- `ENV.SETRATIOA` (R139). -/
def execEnvSetratioa (ratio : Word) (s : State) : Host.Outcome State Fault Refusal :=
  answer s do envSetratioa s.config (← operand ratio) s.units

/-- `ENV.SETRATIODR` (R140). -/
def execEnvSetratiodr (ratio : Word) (s : State) : Host.Outcome State Fault Refusal :=
  answer s do envSetratiodr s.config (← operand ratio) s.units

/-- `ENV.GATE` (R142). -/
def execEnvGate (on : Bool) (s : State) : Host.Outcome State Fault Refusal :=
  answer s (envGate on s.units)

/-- `ENV.PROCESS` (R141). -/
def execEnvProcess (s : State) : Host.Outcome State Fault Refusal :=
  answer s (envProcess s.config s.units)

end Sys2Proof.Machine
end

