-- ==== Sys2Proof/Machine/Krn.lean ====
section
/-!
DEFINITION. Unit KRN, the waveform kernel (40_kernel.md).
-/

namespace Sys2Proof.Machine

variable {α : Type}

/-- `sine(p) = sin(p)` (R101). -/
def sineKernel (n : NumOps α) (p : α) : Option α := n.sin p

/-- `square(p) = sign(sin(p))` (R102). -/
def squareKernel (n : NumOps α) (p : α) : Option α := do
  return sign n (← n.sin p)

/-- `triangle(p) = 2 × abs(2 × (p ÷ TAU - 0.5)) - 1` (R103). -/
def triangleKernel (n : NumOps α) (p : α) : Option α := do
  let x ← n.sub (← n.div p n.tau) (n.ofRat (1 / 2))
  let y ← n.mul (n.ofRat 2) x
  n.sub (← n.mul (n.ofRat 2) (n.abs y)) (n.ofRat 1)

/-- `saw(p) = 2 × (p ÷ TAU) - 1` (R104). -/
def sawKernel (n : NumOps α) (p : α) : Option α := do
  n.sub (← n.mul (n.ofRat 2) (← n.div p n.tau)) (n.ofRat 1)

/-- `kernel(w, p)` (R100). -/
def kernel (n : NumOps α) (w : Wave) (p : α) : Option α :=
  match w with
  | .sine => sineKernel n p
  | .square => squareKernel n p
  | .triangle => triangleKernel n p
  | .saw => sawKernel n p

/-- `KRN.EVAL w, p` above the wire (R106). -/
def krnEval (c : Config α) (w : Wave) (p : α) (u : Units α) : Except FaultCode (Answer α) := do
  let v ← numeric (kernel c.num w (karg c p))
  return (u, .num v)

/-- `KRN.EVAL` (R106). -/
def execKrnEval (w : Wave) (p : Word) (s : State) : Host.Outcome State Fault Refusal :=
  answer s do krnEval s.config w (← operand p) s.units

end Sys2Proof.Machine
end

