-- ==== Sys2Proof/Machine/Osc.lean ====
section
/-!
DEFINITION. Unit OSC, the phase-accumulating oscillator (41_oscillator.md), and the record functions unit FM shares
(R116).
-/

namespace Sys2Proof.Machine

variable {α : Type}

/-- `oscNew(w, f, a)` (R116): phase 0. -/
def oscNew (c : Config α) (w : Wave) (f a : α) : Option (Osc α) := do
  return ⟨w, f, a, c.num.ofRat 0, ← phaseInc c f⟩

/-- `oscSetFreq(o, f)` (R116): the phase is kept. -/
def oscSetFreq (c : Config α) (o : Osc α) (f : α) : Option (Osc α) := do
  return { o with freq := f, inc := ← phaseInc c f }

/-- `oscAdvance(o)` (R116). -/
def oscAdvance (c : Config α) (o : Osc α) : Option (Osc α) := do
  return { o with phase := c.num.wrap (← c.num.add o.phase o.inc) }

/-- `oscGet(o)` (R116): the sample at the phase before the advance, and the advanced record. -/
def oscGet (c : Config α) (o : Osc α) : Option (α × Osc α) := do
  let s ← kernel c.num o.type o.phase
  let o' ← oscAdvance c o
  return (← c.num.mul s o.amp, o')

/-- `oscGetMod(o, m)` (R116): the modulation enters the kernel's argument only. -/
def oscGetMod (c : Config α) (o : Osc α) (m : α) : Option (α × Osc α) := do
  let s ← kernel c.num o.type (karg c (← c.num.add o.phase m))
  let o' ← oscAdvance c o
  return (← c.num.mul s o.amp, o')

/-- `OSC.INIT w, f, a` above the wire (R111). -/
def oscInit (c : Config α) (w : Wave) (f a : α) (u : Units α) : Except FaultCode (Answer α) := do
  let o ← numeric (oscNew c w f a)
  return ({ u with osc := some o }, .none)

/-- `OSC.SETTYPE w` above the wire (R112). -/
def oscSettype (w : Wave) (u : Units α) : Except FaultCode (Answer α) := do
  let o ← configured u.osc
  return ({ u with osc := some { o with type := w } }, .none)

/-- `OSC.SETFREQ f` above the wire (R113). -/
def oscSetfreq (c : Config α) (f : α) (u : Units α) : Except FaultCode (Answer α) := do
  let o ← configured u.osc
  let o' ← numeric (oscSetFreq c o f)
  return ({ u with osc := some o' }, .none)

/-- `OSC.SETAMP a` above the wire (R114). -/
def oscSetamp (a : α) (u : Units α) : Except FaultCode (Answer α) := do
  let o ← configured u.osc
  return ({ u with osc := some { o with amp := a } }, .none)

/-- `OSC.RESET` above the wire (R115). -/
def oscReset (c : Config α) (u : Units α) : Except FaultCode (Answer α) := do
  let o ← configured u.osc
  return ({ u with osc := some { o with phase := c.num.ofRat 0 } }, .none)

/-- `OSC.GETVALUE` above the wire (R117). -/
def oscGetvalue (c : Config α) (u : Units α) : Except FaultCode (Answer α) := do
  let o ← configured u.osc
  let (v, o') ← numeric (oscGet c o)
  return ({ u with osc := some o' }, .num v)

/-- `OSC.GETMOD m` above the wire (R118). -/
def oscGetmod (c : Config α) (m : α) (u : Units α) : Except FaultCode (Answer α) := do
  let o ← configured u.osc
  let (v, o') ← numeric (oscGetMod c o m)
  return ({ u with osc := some o' }, .num v)

/-- The value of `OSC.ATPHASE` (R119): scaled by the amplitude unless the switch says otherwise. -/
def oscAtPhase (c : Config α) (o : Osc α) (p : α) : Option α := do
  let s ← kernel c.num o.type (karg c p)
  if c.atphaseScaled then c.num.mul s o.amp else some s

/-- `OSC.ATPHASE p` above the wire (R119). -/
def oscAtphase (c : Config α) (p : α) (u : Units α) : Except FaultCode (Answer α) := do
  let o ← configured u.osc
  let v ← numeric (oscAtPhase c o p)
  return (u, .num v)

/-- `OSC.INIT` (R111). -/
def execOscInit (w : Wave) (f a : Word) (s : State) : Host.Outcome State Fault Refusal :=
  answer s do oscInit s.config w (← operand f) (← operand a) s.units

/-- `OSC.SETTYPE` (R112). -/
def execOscSettype (w : Wave) (s : State) : Host.Outcome State Fault Refusal :=
  answer s (oscSettype w s.units)

/-- `OSC.SETFREQ` (R113). -/
def execOscSetfreq (f : Word) (s : State) : Host.Outcome State Fault Refusal :=
  answer s do oscSetfreq s.config (← operand f) s.units

/-- `OSC.SETAMP` (R114). -/
def execOscSetamp (a : Word) (s : State) : Host.Outcome State Fault Refusal :=
  answer s do oscSetamp (← operand a) s.units

/-- `OSC.RESET` (R115). -/
def execOscReset (s : State) : Host.Outcome State Fault Refusal :=
  answer s (oscReset s.config s.units)

/-- `OSC.GETVALUE` (R117). -/
def execOscGetvalue (s : State) : Host.Outcome State Fault Refusal :=
  answer s (oscGetvalue s.config s.units)

/-- `OSC.GETMOD` (R118). -/
def execOscGetmod (m : Word) (s : State) : Host.Outcome State Fault Refusal :=
  answer s do oscGetmod s.config (← operand m) s.units

/-- `OSC.ATPHASE` (R119). -/
def execOscAtphase (p : Word) (s : State) : Host.Outcome State Fault Refusal :=
  answer s do oscAtphase s.config (← operand p) s.units

end Sys2Proof.Machine
end

