-- ==== Sys2Proof/Machine/Fm.lean ====
section
/-!
DEFINITION. Unit FM, one carrier oscillator modulated by the sum of a list of operators (46_fm.md).
-/

namespace Sys2Proof.Machine

variable {α : Type}

/-- The unit with operator `i` replaced. -/
def fmSetOp (fm : Fm α) (i : Nat) (o : Osc α) : Fm α := { fm with ops := fm.ops.set i o }

/-- Every operator's sample added to `m` in ascending order, and every operator advanced (R222). -/
def fmOperators (c : Config α) : List (Osc α) → α → Option (α × List (Osc α))
  | [], m => some (m, [])
  | o :: os, m => do
    let (v, o') ← oscGet c o
    let (m', os') ← fmOperators c os (← c.num.add m v)
    return (m', o' :: os')

/-- One output sample (R222): the carrier modulated by the operators' sum, which starts from 0. -/
def fmStep (c : Config α) (fm : Fm α) : Option (α × Fm α) := do
  let (m, ops) ← fmOperators c fm.ops (c.num.ofRat 0)
  let (out, car) ← oscGetMod c fm.car m
  return (out, ⟨car, ops⟩)

/-- `FM.INIT w, f, a` above the wire: the operator list is empty (R211). -/
def fmInit (c : Config α) (w : Wave) (f a : α) (u : Units α) : Except FaultCode (Answer α) := do
  let o ← numeric (oscNew c w f a)
  return ({ u with fm := some ⟨o, []⟩ }, .none)

/-- `FM.CSETTYPE w` above the wire (R212). -/
def fmCsettype (w : Wave) (u : Units α) : Except FaultCode (Answer α) := do
  let fm ← configured u.fm
  return ({ u with fm := some { fm with car := { fm.car with type := w } } }, .none)

/-- `FM.CSETFREQ f` above the wire (R213). -/
def fmCsetfreq (c : Config α) (f : α) (u : Units α) : Except FaultCode (Answer α) := do
  let fm ← configured u.fm
  let o ← numeric (oscSetFreq c fm.car f)
  return ({ u with fm := some { fm with car := o } }, .none)

/-- `FM.CSETAMP a` above the wire (R214). -/
def fmCsetamp (a : α) (u : Units α) : Except FaultCode (Answer α) := do
  let fm ← configured u.fm
  return ({ u with fm := some { fm with car := { fm.car with amp := a } } }, .none)

/-- `FM.CRESET` above the wire: the operators' phases are not touched (R215). -/
def fmCreset (c : Config α) (u : Units α) : Except FaultCode (Answer α) := do
  let fm ← configured u.fm
  return ({ u with fm := some { fm with car := { fm.car with phase := c.num.ofRat 0 } } }, .none)

/-- `FM.ADDOP w, f, a` above the wire: append, or `Capacity` when the file is full (R216). -/
def fmAddop (c : Config α) (w : Wave) (f a : α) (u : Units α) : Except FaultCode (Answer α) := do
  let fm ← configured u.fm
  require (decide (fm.ops.length < c.fmMaxOps)) .capacity
  let o ← numeric (oscNew c w f a)
  return ({ u with fm := some { fm with ops := fm.ops ++ [o] } }, .none)

/-- `FM.REMOP i` above the wire: later operators move down by one, whole records (R217). -/
def fmRemop (i : Nat) (u : Units α) : Except FaultCode (Answer α) := do
  let fm ← configured u.fm
  checkIndex i fm.ops.length
  return ({ u with fm := some { fm with ops := fm.ops.eraseIdx i } }, .none)

/-- `FM.OPSETTYPE w, i` above the wire (R218). -/
def fmOpsettype (w : Wave) (i : Nat) (u : Units α) : Except FaultCode (Answer α) := do
  let fm ← configured u.fm
  let o ← operatorAt fm i
  return ({ u with fm := some (fmSetOp fm i { o with type := w }) }, .none)

/-- `FM.OPSETFREQ i, f` above the wire (R219). -/
def fmOpsetfreq (c : Config α) (i : Nat) (f : α) (u : Units α) : Except FaultCode (Answer α) := do
  let fm ← configured u.fm
  let o ← operatorAt fm i
  let o' ← numeric (oscSetFreq c o f)
  return ({ u with fm := some (fmSetOp fm i o') }, .none)

/-- `FM.OPSETAMP i, a` above the wire (R220). -/
def fmOpsetamp (i : Nat) (a : α) (u : Units α) : Except FaultCode (Answer α) := do
  let fm ← configured u.fm
  let o ← operatorAt fm i
  return ({ u with fm := some (fmSetOp fm i { o with amp := a }) }, .none)

/-- `FM.OPRESET i` above the wire (R221). -/
def fmOpreset (c : Config α) (i : Nat) (u : Units α) : Except FaultCode (Answer α) := do
  let fm ← configured u.fm
  let o ← operatorAt fm i
  return ({ u with fm := some (fmSetOp fm i { o with phase := c.num.ofRat 0 }) }, .none)

/-- `FM.SAMPLE` above the wire (R222). -/
def fmSample (c : Config α) (u : Units α) : Except FaultCode (Answer α) := do
  let fm ← configured u.fm
  let (v, fm') ← numeric (fmStep c fm)
  return ({ u with fm := some fm' }, .num v)

/-- `FM.INIT` (R211). -/
def execFmInit (w : Wave) (f a : Word) (s : State) : Host.Outcome State Fault Refusal :=
  answer s do fmInit s.config w (← operand f) (← operand a) s.units

/-- `FM.CSETTYPE` (R212). -/
def execFmCsettype (w : Wave) (s : State) : Host.Outcome State Fault Refusal :=
  answer s (fmCsettype w s.units)

/-- `FM.CSETFREQ` (R213). -/
def execFmCsetfreq (f : Word) (s : State) : Host.Outcome State Fault Refusal :=
  answer s do fmCsetfreq s.config (← operand f) s.units

/-- `FM.CSETAMP` (R214). -/
def execFmCsetamp (a : Word) (s : State) : Host.Outcome State Fault Refusal :=
  answer s do fmCsetamp (← operand a) s.units

/-- `FM.CRESET` (R215). -/
def execFmCreset (s : State) : Host.Outcome State Fault Refusal :=
  answer s (fmCreset s.config s.units)

/-- `FM.ADDOP` (R216). -/
def execFmAddop (w : Wave) (f a : Word) (s : State) : Host.Outcome State Fault Refusal :=
  answer s do fmAddop s.config w (← operand f) (← operand a) s.units

/-- `FM.REMOP` (R217). -/
def execFmRemop (op : Nat) (s : State) : Host.Outcome State Fault Refusal :=
  answer s (fmRemop op s.units)

/-- `FM.OPSETTYPE` (R218). -/
def execFmOpsettype (w : Wave) (op : Nat) (s : State) : Host.Outcome State Fault Refusal :=
  answer s (fmOpsettype w op s.units)

/-- `FM.OPSETFREQ` (R219). -/
def execFmOpsetfreq (op : Nat) (f : Word) (s : State) : Host.Outcome State Fault Refusal :=
  answer s do fmOpsetfreq s.config op (← operand f) s.units

/-- `FM.OPSETAMP` (R220). -/
def execFmOpsetamp (op : Nat) (a : Word) (s : State) : Host.Outcome State Fault Refusal :=
  answer s do fmOpsetamp op (← operand a) s.units

/-- `FM.OPRESET` (R221). -/
def execFmOpreset (op : Nat) (s : State) : Host.Outcome State Fault Refusal :=
  answer s (fmOpreset s.config op s.units)

/-- `FM.SAMPLE` (R222). -/
def execFmSample (s : State) : Host.Outcome State Fault Refusal :=
  answer s (fmSample s.config s.units)

end Sys2Proof.Machine
end

