-- ==== Sys2Proof/Machine/Noise.lean ====
section
/-!
DEFINITION. Unit NG, the noise generator (44_noise.md). The random source stands in `Machine/NoiseSource.lean`.
-/

namespace Sys2Proof.Machine

variable {α : Type}

/-- One noise sample (R186) from the variant, the previous value and the random source's state: the sample, the new
previous value (changed by brown only) and the source's state after the draws, taken one after another (R185). -/
def noiseSample (c : Config α) (g : Ng α) (rng : Nat) : Option (α × Ng α × Nat) :=
  match g.type with
  | .white =>
    let (r1, d) := c.noise.next rng
    some (d, g, r1)
  | .pink => do
    let (r1, d1) := c.noise.next rng
    let (r2, d2) := c.noise.next r1
    let o ← c.num.div (← c.num.add d1 d2) (c.num.ofRat 2)
    return (o, g, r2)
  | .brown => do
    let (r1, d) := c.noise.next rng
    let o ← c.num.div (← c.num.add g.prev d) (c.num.ofRat 2)
    return (o, { g with prev := o }, r1)

/-- `NG.SETTYPE v` above the wire: the previous-value memory is reset every time, the source is not touched (R183). -/
def ngSettype (c : Config α) (v : Variant) (u : Units α) : Except FaultCode (Answer α) :=
  return ({ u with ng := some ⟨v, c.num.ofRat 0⟩ }, .none)

/-- `NG.SEED k` above the wire: legal before `NG.SETTYPE`; a refused seed raises `ParamRange` (R184). -/
def ngSeed (c : Config α) (k : BitVec 16) (u : Units α) : Except FaultCode (Answer α) :=
  match c.noise.seed k with
  | some r => .ok ({ u with rng := r }, .none)
  | none => .error .paramRange

/-- `NG.GETVALUE` above the wire (R186). -/
def ngGetvalue (c : Config α) (u : Units α) : Except FaultCode (Answer α) := do
  let g ← configured u.ng
  let (v, g', r) ← numeric (noiseSample c g u.rng)
  return ({ u with ng := some g', rng := r }, .num v)

/-- `NG.SETTYPE` (R183). -/
def execNgSettype (v : Variant) (s : State) : Host.Outcome State Fault Refusal :=
  answer s (ngSettype s.config v s.units)

/-- `NG.SEED` (R184). -/
def execNgSeed (k : BitVec 16) (s : State) : Host.Outcome State Fault Refusal :=
  answer s (ngSeed s.config k s.units)

/-- `NG.GETVALUE` (R186). -/
def execNgGetvalue (s : State) : Host.Outcome State Fault Refusal :=
  answer s (ngGetvalue s.config s.units)

end Sys2Proof.Machine
end

