-- ==== Sys2Proof/Machine/Sys.lean ====
section
/-!
DEFINITION. Unit SYS, readback: the register map of 10_state.md R35 and the command that reads it (47_system.md R230).
-/

namespace Sys2Proof.Machine

variable {α : Type}

/-- One of the five fields of an oscillator record by its place in the map, 1 to 5 (10_state.md R35). -/
def oscField (o : Osc α) : Nat → Option (Result α)
  | 1 => some (.nat (waveCode o.type).toNat)
  | 2 => some (.num o.freq)
  | 3 => some (.num o.amp)
  | 4 => some (.num o.phase)
  | 5 => some (.num o.inc)
  | _ => none

/-- A field of the envelope by its place in the map, 1 to 0xE (10_state.md R35). -/
def envField (e : Env α) : Nat → Option (Result α)
  | 1 => some (.nat (envStateCode e.envState))
  | 2 => some (.num e.envOut)
  | 3 => some (.num e.attackRate)
  | 4 => some (.num e.decayRate)
  | 5 => some (.num e.releaseRate)
  | 6 => some (.num e.sustain)
  | 7 => some (.num e.ratioA)
  | 8 => some (.num e.ratioDR)
  | 9 => some (.num e.attackCoef)
  | 10 => some (.num e.decayCoef)
  | 11 => some (.num e.releaseCoef)
  | 12 => some (.num e.attackBase)
  | 13 => some (.num e.decayBase)
  | 14 => some (.num e.releaseBase)
  | _ => none

/-- A design field or coefficient of the filter by its place in the map, 1 to 9 (10_state.md R35). -/
def bqField (b : Bq α) : Nat → Option (Result α)
  | 1 => some (.nat (ftypeCode b.type).toNat)
  | 2 => some (.num b.freq)
  | 3 => some (.num b.q)
  | 4 => some (.num b.gain)
  | 5 => some (.num b.coefs.a0)
  | 6 => some (.num b.coefs.a1)
  | 7 => some (.num b.coefs.a2)
  | 8 => some (.num b.coefs.b1)
  | 9 => some (.num b.coefs.b2)
  | _ => none

/-- A delay word by its offset from 0x0480: `2c` is `z1[c]`, `2c + 1` is `z2[c]` (10_state.md R35). -/
def delayField (n : NumOps α) (b : Bq α) (k : Nat) : Result α :=
  let d := delayAt n b (k / 2)
  .num (if k % 2 = 0 then d.z1 else d.z2)

/-- A field of the noise generator by its place in the map, 1 and 2 (10_state.md R35). -/
def ngField (g : Ng α) : Nat → Option (Result α)
  | 1 => some (.nat (variantCode g.type).toNat)
  | 2 => some (.num g.prev)
  | _ => none

/-- A mapped field, else `IndexRange` (60_exceptions.md R244). -/
def mapped {β : Type} : Option β → Except FaultCode β
  | some x => .ok x
  | none => .error .indexRange

/-- An operator register by its offset from 0x0800: operator `k / 8`, field `k % 8`; the offsets `8i`, `8i + 6` and
`8i + 7` are unmapped (10_state.md R35). The `cfg` flag is tested before `i < nOps` (R230). -/
def opReg (u : Units α) (k : Nat) : Except FaultCode (Result α) := do
  require (decide (1 ≤ k % 8) && decide (k % 8 ≤ 5)) .indexRange
  let fm ← configured u.fm
  mapped (oscField (← operatorAt fm (k / 8)) (k % 8))

/-- The value of register `r` (10_state.md R35, in the order of R230: unmapped first, then the `cfg` flag, then the
operator's number). -/
def readReg (c : Config α) (u : Units α) (r : Nat) : Except FaultCode (Result α) :=
  if r = 0x0001 then .ok (.num c.sr)
  else if r = 0x0002 then .ok (.nat c.wtLen)
  else if r = 0x0003 then .ok (.nat c.nCh)
  else if r = 0x0004 then .ok (.nat c.fmMaxOps)
  else if r = 0x0200 then .ok (.nat (flagNat u.oscCfg))
  else if 0x0201 ≤ r ∧ r ≤ 0x0205 then do
    mapped (oscField (← configured u.osc) (r - 0x0200))
  else if r = 0x0300 then .ok (.nat (flagNat u.envCfg))
  else if 0x0301 ≤ r ∧ r ≤ 0x030E then do
    mapped (envField (← configured u.env) (r - 0x0300))
  else if r = 0x0400 then .ok (.nat (flagNat u.bqCfg))
  else if 0x0401 ≤ r ∧ r ≤ 0x0409 then do
    mapped (bqField (← configured u.bq) (r - 0x0400))
  else if 0x0480 ≤ r ∧ r < 0x0480 + 2 * c.nCh then do
    return delayField c.num (← configured u.bq) (r - 0x0480)
  else if r = 0x0500 then .ok (.nat (flagNat u.ngCfg))
  else if 0x0501 ≤ r ∧ r ≤ 0x0502 then do
    mapped (ngField (← configured u.ng) (r - 0x0500))
  else if r = 0x0503 then (if c.noise.readable then .ok (.nat u.rng) else .error .indexRange)
  else if r = 0x0600 then .ok (.num u.wt.phase)
  else if r = 0x0601 then .ok (.nat (tabCount u.wt.tab c.wtLen))
  else if r = 0x0700 then .ok (.nat (flagNat u.fmCfg))
  else if r = 0x0701 then do
    return .nat (← configured u.fm).ops.length
  else if 0x0711 ≤ r ∧ r ≤ 0x0715 then do
    mapped (oscField (← configured u.fm).car (r - 0x0710))
  else if 0x0800 ≤ r ∧ r ≤ 0x0FFF then opReg u (r - 0x0800)
  else .error .indexRange

/-- `SYS.RDREG n` above the wire: reads one field, writes nothing (R230). -/
def sysRdreg (c : Config α) (r : Nat) (u : Units α) : Except FaultCode (Answer α) := do
  let v ← readReg c u r
  return (u, v)

/-- `SYS.RDREG` (R230). -/
def execSysRdreg (regno : Nat) (s : State) : Host.Outcome State Fault Refusal :=
  answer s (sysRdreg s.config regno s.units)

end Sys2Proof.Machine
end

