-- ==== Sys2Proof/Machine/Wt.lean ====
section
/-!
DEFINITION. Unit WT, the wavetable interpolator (45_wavetable.md).
-/

namespace Sys2Proof.Machine

variable {α : Type}

/-- The position of a phase in the table: `pos = (p ÷ TAU) × L` (R193). -/
def wtPosition (c : Config α) (p : α) : Option α := do
  c.num.mul (← c.num.div p c.num.tau) (c.num.ofRat c.wtLen)

/-- The lower neighbour `i0 = i mod L` of a position (R193). -/
def wtIndex0 (c : Config α) (i : Int) : Nat := i.toNat % c.wtLen

/-- The upper neighbour `i1 = (i + 1) mod L` of a position (R193). -/
def wtIndex1 (c : Config α) (i : Int) : Nat := (i.toNat + 1) % c.wtLen

/-- `a + frac × (b - a)`, the interpolation (R193). -/
def wtBlend (n : NumOps α) (frac a b : α) : Option α := do
  n.add a (← n.mul frac (← n.sub b a))

/-- `wtLookup(p)` (R193): 0 for a negative index, before anything is read; `NotConfigured` where a neighbour has never
been written; else the interpolation. -/
def wtLookup (c : Config α) (t : List (Nat × α)) (p : α) : Except FaultCode α := do
  let pos ← numeric (wtPosition c p)
  let i := c.num.floor pos
  if i < 0 then return c.num.ofRat 0
  let frac ← numeric (c.num.sub pos (c.num.ofRat i))
  let a ← validEntry t (wtIndex0 c i)
  let b ← validEntry t (wtIndex1 c i)
  numeric (wtBlend c.num frac a b)

/-- Entry `i` of a built table: `kernel(w, (TAU × i) ÷ L)` (R191). -/
def wtBuildEntry (c : Config α) (w : Wave) (i : Nat) : Option α := do
  let t ← c.num.mul c.num.tau (c.num.ofRat i)
  kernel c.num w (← c.num.div t (c.num.ofRat c.wtLen))

/-- `WT.BUILD w` above the wire: every entry, and the phase (R191). -/
def wtBuild (c : Config α) (w : Wave) (u : Units α) : Except FaultCode (Answer α) := do
  let t ← numeric (tabFill (wtBuildEntry c w) c.wtLen 0)
  return ({ u with wt := ⟨t, c.num.ofRat 0⟩ }, .none)

/-- `WT.LOAD i, v` above the wire: the phase is not touched (R192). -/
def wtLoad (c : Config α) (i : Nat) (v : α) (u : Units α) : Except FaultCode (Answer α) := do
  checkIndex i c.wtLen
  return ({ u with wt := { u.wt with tab := tabWrite u.wt.tab i v } }, .none)

/-- `WT.RESET` above the wire (R194). -/
def wtReset (c : Config α) (u : Units α) : Except FaultCode (Answer α) :=
  return ({ u with wt := { u.wt with phase := c.num.ofRat 0 } }, .none)

/-- The running phase after one sample at the frequency `f`: `wrap(wtPhase + (TAU × f) ÷ SR)` (R195). -/
def wtAdvance (c : Config α) (phase f : α) : Option α := do
  return c.num.wrap (← c.num.add phase (← phaseInc c f))

/-- `WT.GETFREQ f` above the wire: read at the phase before the advance (R195). -/
def wtGetfreq (c : Config α) (f : α) (u : Units α) : Except FaultCode (Answer α) := do
  let v ← wtLookup c u.wt.tab u.wt.phase
  let p ← numeric (wtAdvance c u.wt.phase f)
  return ({ u with wt := { u.wt with phase := p } }, .num v)

/-- `WT.ATPHASE p` above the wire: `p` is not wrapped, nothing is written (R196). -/
def wtAtphase (c : Config α) (p : α) (u : Units α) : Except FaultCode (Answer α) := do
  let v ← wtLookup c u.wt.tab p
  return (u, .num v)

/-- `WT.RDTAB i` above the wire: the range check comes before the valid bit, as R197's pseudocode writes them. -/
def wtRdtab (c : Config α) (i : Nat) (u : Units α) : Except FaultCode (Answer α) := do
  checkIndex i c.wtLen
  let v ← validEntry u.wt.tab i
  return (u, .num v)

/-- `WT.BUILD` (R191). -/
def execWtBuild (w : Wave) (s : State) : Host.Outcome State Fault Refusal :=
  answer s (wtBuild s.config w s.units)

/-- `WT.LOAD` (R192). -/
def execWtLoad (entry : Nat) (v : Word) (s : State) : Host.Outcome State Fault Refusal :=
  answer s do wtLoad s.config entry (← operand v) s.units

/-- `WT.RESET` (R194). -/
def execWtReset (s : State) : Host.Outcome State Fault Refusal :=
  answer s (wtReset s.config s.units)

/-- `WT.GETFREQ` (R195). -/
def execWtGetfreq (f : Word) (s : State) : Host.Outcome State Fault Refusal :=
  answer s do wtGetfreq s.config (← operand f) s.units

/-- `WT.ATPHASE` (R196). -/
def execWtAtphase (p : Word) (s : State) : Host.Outcome State Fault Refusal :=
  answer s do wtAtphase s.config (← operand p) s.units

/-- `WT.RDTAB` (R197). -/
def execWtRdtab (entry : Nat) (s : State) : Host.Outcome State Fault Refusal :=
  answer s (wtRdtab s.config entry s.units)

end Sys2Proof.Machine
end

