-- ==== Sys2Proof/Machine/Dispatch.lean ====
section
/-!
DEFINITION. The dispatch: one arm per command (30_encoding.md R78, R80 step 4).
-/

namespace Sys2Proof.Machine

def exec (i : Instr) (s : State) : Host.Outcome State Fault Refusal :=
  match i with
  | .sysRdreg regno => Sys2Proof.Machine.execSysRdreg regno s
  | .krnEval w p => Sys2Proof.Machine.execKrnEval w p s
  | .oscInit w f a => Sys2Proof.Machine.execOscInit w f a s
  | .oscSettype w => Sys2Proof.Machine.execOscSettype w s
  | .oscSetfreq f => Sys2Proof.Machine.execOscSetfreq f s
  | .oscSetamp a => Sys2Proof.Machine.execOscSetamp a s
  | .oscReset => Sys2Proof.Machine.execOscReset s
  | .oscGetvalue => Sys2Proof.Machine.execOscGetvalue s
  | .oscGetmod m => Sys2Proof.Machine.execOscGetmod m s
  | .oscAtphase p => Sys2Proof.Machine.execOscAtphase p s
  | .envInit attackS decayS sustain releaseS => Sys2Proof.Machine.execEnvInit attackS decayS sustain releaseS s
  | .envSetattack attackS => Sys2Proof.Machine.execEnvSetattack attackS s
  | .envSetdecay decayS => Sys2Proof.Machine.execEnvSetdecay decayS s
  | .envSetsustain sustain => Sys2Proof.Machine.execEnvSetsustain sustain s
  | .envSetrelease releaseS => Sys2Proof.Machine.execEnvSetrelease releaseS s
  | .envSetratioa ratio => Sys2Proof.Machine.execEnvSetratioa ratio s
  | .envSetratiodr ratio => Sys2Proof.Machine.execEnvSetratiodr ratio s
  | .envGate on => Sys2Proof.Machine.execEnvGate on s
  | .envProcess => Sys2Proof.Machine.execEnvProcess s
  | .bqInit t f q g => Sys2Proof.Machine.execBqInit t f q g s
  | .bqSettype t => Sys2Proof.Machine.execBqSettype t s
  | .bqSetfreq f => Sys2Proof.Machine.execBqSetfreq f s
  | .bqSetq q => Sys2Proof.Machine.execBqSetq q s
  | .bqSetgain g => Sys2Proof.Machine.execBqSetgain g s
  | .bqProcess channel x => Sys2Proof.Machine.execBqProcess channel x s
  | .ngSettype v => Sys2Proof.Machine.execNgSettype v s
  | .ngSeed seed => Sys2Proof.Machine.execNgSeed seed s
  | .ngGetvalue => Sys2Proof.Machine.execNgGetvalue s
  | .wtBuild w => Sys2Proof.Machine.execWtBuild w s
  | .wtLoad entry v => Sys2Proof.Machine.execWtLoad entry v s
  | .wtReset => Sys2Proof.Machine.execWtReset s
  | .wtGetfreq f => Sys2Proof.Machine.execWtGetfreq f s
  | .wtAtphase p => Sys2Proof.Machine.execWtAtphase p s
  | .wtRdtab entry => Sys2Proof.Machine.execWtRdtab entry s
  | .fmInit w f a => Sys2Proof.Machine.execFmInit w f a s
  | .fmCsettype w => Sys2Proof.Machine.execFmCsettype w s
  | .fmCsetfreq f => Sys2Proof.Machine.execFmCsetfreq f s
  | .fmCsetamp a => Sys2Proof.Machine.execFmCsetamp a s
  | .fmCreset => Sys2Proof.Machine.execFmCreset s
  | .fmAddop w f a => Sys2Proof.Machine.execFmAddop w f a s
  | .fmRemop op => Sys2Proof.Machine.execFmRemop op s
  | .fmOpsettype w op => Sys2Proof.Machine.execFmOpsettype w op s
  | .fmOpsetfreq op f => Sys2Proof.Machine.execFmOpsetfreq op f s
  | .fmOpsetamp op a => Sys2Proof.Machine.execFmOpsetamp op a s
  | .fmOpreset op => Sys2Proof.Machine.execFmOpreset op s
  | .fmSample => Sys2Proof.Machine.execFmSample s

end Sys2Proof.Machine
end

