-- ==== Sys2Proof/Machine/Step.lean ====
section
/-!
DEFINITION. One step of the block's command sequencer (20_memory.md R60): it takes one whole packet, executes it and
sends its response.
-/

namespace Sys2Proof.Machine

/-- Execute a packet that has been taken from the port: an illegal header is answered with `IllegalCommand`, its
operand words consumed and not read (30_encoding.md R79, R80, 60_exceptions.md R241). -/
def runPacket (h : Word) (ops : List Word) (s : State) : Host.Outcome State Fault Refusal :=
  match decode h ops with
  | .ok i => exec i s
  | .error _ => .next (s.raise .illegalCommand)

/-- One step. With the reset input asserted the block is held in reset and accepts and sends nothing (R260). Else, of the
words accepted and presented: with none the block waits for a header word, and a response in progress is sent; with the
beginning of a packet it accepts them, and with nothing more to accept or send it is stuck (U5); with a whole packet it
takes it, sends the response before, and executes it (R60, R70). -/
def step (s : State) : Host.Outcome State Fault Refusal :=
  match s.resetLine with
  | true => .next s.holdReset
  | false =>
    match fetchPacket (s.pkt ++ s.cmd) with
    | .idle => .next s.deliver
    | .truncated =>
      if s.cmd.isEmpty && s.sending.isNone then .fault .truncatedPacket
      else .next { s.deliver with pkt := s.pkt ++ s.cmd, cmd := [] }
    | .packet h ops rest => runPacket h ops { s with pkt := [], cmd := rest }

/-- `s` with the reset input released, and with the packet whose bits are the low `nbits` bits of `w` (operand words above
them zero) presented next on the command port, before everything accepted or presented already. Where the input was asserted
the units are those of R36, as its release leaves them. -/
def State.withFetchWord (s : State) (nbits w : Nat) : State :=
  let t := s.releaseReset
  { t with pkt := [], cmd := packetWords nbits w ++ (t.pkt ++ t.cmd) }

end Sys2Proof.Machine
end

