-- ==== Sys2Proof/Safety.lean ====
section
/-!
DEFINITION. What counts as a good response, a good state and a good run, in the terms the claims use.
-/

namespace Sys2Proof.Machine

/-! ### Responses -/

/-- Every response word list is whole responses and every status word in it is `OK`: the observation R250 asks a model
to keep, "whether any response so far was non-`OK`" (60_exceptions.md R250). -/
def allOk : List Word → Bool
  | [] => true
  | status :: _ :: rest => decide (status = 0) && allOk rest
  | _ => false

/-- No response so far was a fault (60_exceptions.md R250). -/
def State.noFaultSoFar (s : State) : Bool := allOk s.responses

/-! ### Invariants of the state -/

/-- `0 <= p < TAU` (10_state.md R23, R31). -/
def phaseInRange (p : Num) : Bool := inTurn32 p

/-- The invariants of an oscillator record: the phase in its turn, and the increment the frequency's (10_state.md R23,
41_oscillator.md R110). -/
def oscInv (c : Config Num) (o : Osc Num) : Bool :=
  phaseInRange o.phase && decide (phaseInc c o.freq = some o.inc)

/-- The invariants of the envelope that hold in every instance: the ranges of the sustain level and the ratios (R24),
the derived fields those of the parameters (R25), and the output 0 in `Idle` (R26). -/
def envInv (c : Config Num) (e : Env Num) : Bool :=
  decide (0 ≤ e.sustain) && decide (e.sustain ≤ 1) && decide (ratioMin c.num ≤ e.ratioA)
    && decide (ratioMin c.num ≤ e.ratioDR) && decide (envDerive c e = some e)
    && (decide (e.envState ≠ .idle) || decide (e.envOut = 0))

/-- The invariants of the filter: validated parameters (R27), the coefficients those of the design (R28), one delay
pair per channel (R29). -/
def bqInv (c : Config Num) (b : Bq Num) : Bool :=
  decide (bqValid c b.freq b.q = some true) && decide (c.bqDesign b.type b.freq b.q b.gain = some b.coefs)
    && decide (b.delay.length = c.nCh)

/-- The invariant of the noise generator: `-1 <= ngPrev <= 1` (10_state.md R30). -/
def ngInv (g : Ng Num) : Bool := decide (-1 ≤ g.prev) && decide (g.prev ≤ 1)

/-- The register of `LFSR16` is a 16-bit word other than 0 (44_noise.md R182); of another source nothing is known. -/
def rngInv (c : Config Num) (r : Nat) : Bool := !c.noise.readable || (decide (1 ≤ r) && decide (r ≤ 65535))

/-- The invariants of the wavetable: the table in canonical form with no index beyond its length, the phase in its turn
(10_state.md R31, 20_memory.md R51). -/
def wtInv (c : Config Num) (w : Wt Num) : Bool :=
  Memory.wf w.tab && w.tab.all (fun e => decide (e.1 < c.wtLen)) && phaseInRange w.phase

/-- The invariants of the synthesizer: those of every oscillator in it, and no more operators than the file holds
(10_state.md R32). -/
def fmInv (c : Config Num) (fm : Fm Num) : Bool :=
  oscInv c fm.car && fm.ops.all (oscInv c) && decide (fm.ops.length ≤ c.fmMaxOps)

/-- A unit that has not been constructed has no invariant (10_state.md R36). -/
def ifConfigured {β : Type} (inv : β → Bool) : Option β → Bool
  | some x => inv x
  | none => true

/-- The invariants of the units (10_state.md R23 to R32) that hold whatever the open functions of the configuration are:
all but `0 <= envOut <= 1` of R26, which in binary32 depends on the open coefficients and bases. -/
def unitsInv (c : Config Num) (u : Units Num) : Bool :=
  ifConfigured (oscInv c) u.osc && ifConfigured (envInv c) u.env && ifConfigured (bqInv c) u.bq
    && ifConfigured ngInv u.ng && rngInv c u.rng && wtInv c u.wt && ifConfigured (fmInv c) u.fm

/-- The invariant of the state. -/
def State.Inv (s : State) : Prop := unitsInv s.config s.units = true

/-- `-1 <= ngPrev <= 1` (10_state.md R30). -/
def State.NoiseInv (s : State) : Prop := ∀ g, s.units.ng = some g → -1 ≤ g.prev ∧ g.prev ≤ 1

/-- The register of `LFSR16` is a 16-bit word other than 0 (44_noise.md R182). -/
def State.RngInv (s : State) : Prop :=
  s.straps.noiseSrc = .reference → 1 ≤ s.units.rng ∧ s.units.rng ≤ 65535

/-! ### Every stored number is a finite binary32 number (00_scope.md R12, 92_eei_decisions.md D33) -/

/-- The numbers of an oscillator record. -/
def oscNums (o : Osc Num) : List Num := [o.freq, o.amp, o.phase, o.inc]

/-- The numbers of the envelope. -/
def envNums (e : Env Num) : List Num :=
  [e.attackRate, e.decayRate, e.releaseRate, e.sustain, e.ratioA, e.ratioDR, e.attackCoef, e.decayCoef, e.releaseCoef,
    e.attackBase, e.decayBase, e.releaseBase, e.envOut]

/-- The numbers of the filter. -/
def bqNums (b : Bq Num) : List Num :=
  [b.freq, b.q, b.gain, b.coefs.a0, b.coefs.a1, b.coefs.a2, b.coefs.b1, b.coefs.b2]
    ++ b.delay.flatMap fun d => [d.z1, d.z2]

/-- Every number the units hold. -/
def unitsNums (u : Units Num) : List Num :=
  u.osc.toList.flatMap oscNums ++ u.env.toList.flatMap envNums ++ u.bq.toList.flatMap bqNums
    ++ u.ng.toList.map (fun g => g.prev) ++ (u.wt.phase :: u.wt.tab.map Prod.snd)
    ++ u.fm.toList.flatMap (fun f => oscNums f.car ++ f.ops.flatMap oscNums)

/-- Every number the units hold is the value of a finite binary32 word. -/
def State.Binary32Inv (s : State) : Prop := ∀ v ∈ unitsNums s.units, ∃ w, dec32 w = some v

/-- The words accepted of a packet in progress are the beginning of one packet and not its end (30_encoding.md R70, R72). -/
def State.PortInv (s : State) : Prop := fetchPacket s.pkt = .idle ∨ fetchPacket s.pkt = .truncated

/-! ### The two ways a command ends -/

/-- The command completes with status `OK`: the units become `u`, the response in progress is 0 and the result word `r`, the
one before it has been sent; the straps, the command port, the words accepted and the reset input are as before
(30_encoding.md R76, 20_memory.md R60). -/
def completes (s : State) (u : Units Num) (r : Word) : Host.Outcome State Fault Refusal :=
  .next { s with units := u, rsp := s.responses, sending := some (0, r) }

/-- The command is answered with the fault code `code` and 0, the response before it has been sent, and nothing else changes
(60_exceptions.md R249). -/
def faulted (s : State) (code : Word) : Host.Outcome State Fault Refusal :=
  .next { s with rsp := s.responses, sending := some (code, 0) }

/-! ### Which unit a command belongs to -/

/-- The operand words of a command's packet (30_encoding.md R70). -/
def operandWords (i : Instr) : List Word := (encode i).tail

/-- The unit number of a command: 0 SYS, 1 KRN, 2 OSC, 3 ENV, 4 BQ, 5 NG, 6 WT, 7 FM (30_encoding.md R71). -/
def unitNumber (i : Instr) : Nat := (unitOf ((encode i).headD 0)).toNat

/-- The unit a command needs constructed is constructed: true of the constructing commands, of `NG.SEED` and of the
units without a `cfg` flag (60_exceptions.md R243; the table's valid bits and the registers apart). -/
def unitReady {α : Type} (u : Units α) : Instr → Bool
  | .sysRdreg _ | .krnEval _ _ | .oscInit _ _ _ | .envInit _ _ _ _ | .bqInit _ _ _ _ | .ngSettype _ | .ngSeed _
  | .wtBuild _ | .wtLoad _ _ | .wtReset | .wtGetfreq _ | .wtAtphase _ | .wtRdtab _ | .fmInit _ _ _ => true
  | .oscSettype _ | .oscSetfreq _ | .oscSetamp _ | .oscReset | .oscGetvalue | .oscGetmod _ | .oscAtphase _ => u.oscCfg
  | .envSetattack _ | .envSetdecay _ | .envSetsustain _ | .envSetrelease _ | .envSetratioa _ | .envSetratiodr _
  | .envGate _ | .envProcess => u.envCfg
  | .bqSettype _ | .bqSetfreq _ | .bqSetq _ | .bqSetgain _ | .bqProcess _ _ => u.bqCfg
  | .ngGetvalue => u.ngCfg
  | .fmCsettype _ | .fmCsetfreq _ | .fmCsetamp _ | .fmCreset | .fmAddop _ _ _ | .fmRemop _ | .fmOpsettype _ _
  | .fmOpsetfreq _ _ | .fmOpsetamp _ _ | .fmOpreset _ | .fmSample => u.fmCfg

/-- The two states of the units agree on everything the commands of unit `n` may read (10_state.md section 1 to 9). -/
def agreeOn {α : Type} (n : Nat) (u v : Units α) : Prop :=
  match n with
  | 1 => True
  | 2 => u.osc = v.osc
  | 3 => u.env = v.env
  | 4 => u.bq = v.bq
  | 5 => u.ng = v.ng ∧ u.rng = v.rng
  | 6 => u.wt = v.wt
  | 7 => u.fm = v.fm
  | _ => u = v

/-! ### Repeated samples -/

/-- `n` samples of the envelope, one after another (42_envelope.md R141). -/
def envRun {α : Type} (n : NumOps α) : Nat → Env α → Option (Env α)
  | 0, e => some e
  | k + 1, e => (envStep n e).bind (envRun n k)

/-- `n` advances of an oscillator record, one after another (41_oscillator.md R116). -/
def oscRun {α : Type} (c : Config α) : Nat → Osc α → Option (Osc α)
  | 0, o => some o
  | k + 1, o => (oscAdvance c o).bind (oscRun c k)

end Sys2Proof.Machine
end

