-- ==== Sys2Proof/Certificates/Slice0/Obligations.lean ====
section
/-!
DEFINITION. The statements about the model, one def per obligation. OBLIGATIONS.json lists them.
-/

open Sys2Proof Sys2Proof.Machine

/-! ### Packets and decoding -/

/-- Every well-formed command, with every operand: its packet is framed whole out of any stream it stands at the head of
and decodes to it (30_encoding.md R71, R72, R78). -/
def Obligations.DecodeOfEncode : Prop :=
  ∀ (i : Instr) (rest : List Word), i.wellFormed = true →
    ∃ h ops, encode i = h :: ops ∧ fetchPacket (encode i ++ rest) = .packet h ops rest ∧ decode h ops = .ok i

/-- Every packet the decoder accepts is the packet of the command it decodes to: no two packets mean one command, and no
bit of a packet is ignored (30_encoding.md R75, R78, R79). -/
def Obligations.EncodeOfDecode : Prop :=
  ∀ (h : Word) (ops : List Word) (i : Instr), ops.length = (nargsOf h).toNat → decode h ops = .ok i →
    i.wellFormed = true ∧ encode i = h :: ops

/-- A header selects a command exactly when a row of the opcode map matches it with a legal selector; the command is that
row's, and no other row matches (30_encoding.md R78, R79). -/
def Obligations.LegalHeadersAreTheOpcodeRows : Prop :=
  ∀ (h : Word) (ops : List Word), ops.length = (nargsOf h).toNat →
    ((∃ i, decode h ops = .ok i) ↔ ∃ r ∈ opcodeRows, r.selects h = true) ∧
    ∀ i, decode h ops = .ok i → ∃ r ∈ opcodeRows, r.selects h = true ∧ r.mnemonic = mnemonicOf i ∧
      ∀ q ∈ opcodeRows, q.selects h = true → q = r

/-- The worked packets of R81 and of the unit files decode to their commands, and with them (for the commands whose rules
write out a header only) those of 95_test_vectors.md: at least one packet for every command. -/
def Obligations.WorkedPacketsDecode : Prop :=
  decode 0x01000200 [] = .ok (.sysRdreg 0x0200) ∧
  decode 0x01000204 [] = .ok (.sysRdreg 0x0204) ∧
  decode 0x11230000 [0] = .ok (.krnEval .saw 0) ∧
  decode 0x21400000 [0x3F800000, 0x3F800000] = .ok (.oscInit .sine 0x3F800000 0x3F800000) ∧
  decode 0x22030000 [] = .ok (.oscSettype .saw) ∧
  decode 0x23200000 [0x40000000] = .ok (.oscSetfreq 0x40000000) ∧
  decode 0x24200000 [0x3F000000] = .ok (.oscSetamp 0x3F000000) ∧
  decode 0x25000000 [] = .ok .oscReset ∧
  decode 0x26000000 [] = .ok .oscGetvalue ∧
  decode 0x27200000 [0x3FC00000] = .ok (.oscGetmod 0x3FC00000) ∧
  decode 0x28200000 [0] = .ok (.oscAtphase 0) ∧
  decode 0x31800000 [0x3E000000, 0x3E800000, 0x3F000000, 0x3E800000] = .ok (.envInit 0x3E000000 0x3E800000 0x3F000000 0x3E800000) ∧
  decode 0x32200000 [0x3E800000] = .ok (.envSetattack 0x3E800000) ∧
  decode 0x33200000 [0] = .ok (.envSetdecay 0) ∧
  decode 0x34200000 [0x3F400000] = .ok (.envSetsustain 0x3F400000) ∧
  decode 0x35200000 [0x3E800000] = .ok (.envSetrelease 0x3E800000) ∧
  decode 0x36200000 [0x3E000000] = .ok (.envSetratioa 0x3E000000) ∧
  decode 0x37200000 [0x3E000000] = .ok (.envSetratiodr 0x3E000000) ∧
  decode 0x38010000 [] = .ok (.envGate true) ∧
  decode 0x38000000 [] = .ok (.envGate false) ∧
  decode 0x39000000 [] = .ok .envProcess ∧
  decode 0x41600000 [0x40000000, 0x3F800000, 0] = .ok (.bqInit .lowpass 0x40000000 0x3F800000 0) ∧
  decode 0x42010000 [] = .ok (.bqSettype .highpass) ∧
  decode 0x43200000 [0x40800000] = .ok (.bqSetfreq 0x40800000) ∧
  decode 0x44200000 [0] = .ok (.bqSetq 0) ∧
  decode 0x45200000 [0xC0C00000] = .ok (.bqSetgain 0xC0C00000) ∧
  decode 0x46200000 [0x3F800000] = .ok (.bqProcess 0 0x3F800000) ∧
  decode 0x46200001 [0x3F000000] = .ok (.bqProcess 1 0x3F000000) ∧
  decode 0x51020000 [] = .ok (.ngSettype .brown) ∧
  decode 0x5200ACE1 [] = .ok (.ngSeed 0xACE1) ∧
  decode 0x53000000 [] = .ok .ngGetvalue ∧
  decode 0x61000000 [] = .ok (.wtBuild .sine) ∧
  decode 0x62200003 [0xBF800000] = .ok (.wtLoad 3 0xBF800000) ∧
  decode 0x63000000 [] = .ok .wtReset ∧
  decode 0x64200000 [0x3F800000] = .ok (.wtGetfreq 0x3F800000) ∧
  decode 0x65200000 [0] = .ok (.wtAtphase 0) ∧
  decode 0x66000001 [] = .ok (.wtRdtab 1) ∧
  decode 0x71400000 [0x3F800000, 0x3F800000] = .ok (.fmInit .sine 0x3F800000 0x3F800000) ∧
  decode 0x72020000 [] = .ok (.fmCsettype .triangle) ∧
  decode 0x73200000 [0x40000000] = .ok (.fmCsetfreq 0x40000000) ∧
  decode 0x74200000 [0x3F000000] = .ok (.fmCsetamp 0x3F000000) ∧
  decode 0x75000000 [] = .ok .fmCreset ∧
  decode 0x76400000 [0x40000000, 0x3F000000] = .ok (.fmAddop .sine 0x40000000 0x3F000000) ∧
  decode 0x77000000 [] = .ok (.fmRemop 0) ∧
  decode 0x78030002 [] = .ok (.fmOpsettype .saw 2) ∧
  decode 0x79200000 [0x40400000] = .ok (.fmOpsetfreq 0 0x40400000) ∧
  decode 0x7A200001 [0x3E800000] = .ok (.fmOpsetamp 1 0x3E800000) ∧
  decode 0x7B000000 [] = .ok (.fmOpreset 0) ∧
  decode 0x7C000000 [] = .ok .fmSample

/-- A transport that serialises the words sends the least significant byte first, and the words come back from the bytes
(20_memory.md R56). -/
def Obligations.TransportBytesAreLittleEndian : Prop :=
  (∀ w : Word, (bytesOfWord w).map BitVec.toNat =
    [w.toNat % 256, w.toNat / 256 % 256, w.toNat / 65536 % 256, w.toNat / 16777216]) ∧
  ∀ ws : List Word, wordsOfBytes (ws.flatMap bytesOfWord) = some ws

/-! ### The step -/

/-- With a well-formed command's packet at the head of the words accepted and presented, one step takes the packet and
executes the command (20_memory.md R60, 30_encoding.md R70). -/
def Obligations.StepRunsTheDecodedCommand : Prop :=
  ∀ (s : State) (i : Instr) (rest : List Word), s.resetLine = false → i.wellFormed = true →
    s.pkt ++ s.cmd = encode i ++ rest → step s = exec i { s with pkt := [], cmd := rest }

/-- A packet whose header selects no row of the opcode map is consumed with all its operand words and answered
`IllegalCommand`, and nothing else changes (30_encoding.md R72, R79; 60_exceptions.md R241). -/
def Obligations.IllegalPacketIsConsumedAndAnswered : Prop :=
  ∀ (s : State) (h : Word) (ops rest : List Word), s.resetLine = false → ops.length = (nargsOf h).toNat →
    s.pkt ++ s.cmd = h :: (ops ++ rest) → (∀ r ∈ opcodeRows, r.selects h = false) →
    step s = faulted { s with pkt := [], cmd := rest } 1

/-- With no word accepted or presented the block waits, sending a response in progress and changing nothing else; of a
packet cut short it accepts what is presented, and with nothing more to accept or send it is stuck; with the reset input
asserted every unit is as after reset, a packet and a response in progress are dropped, and no word is accepted or sent;
asserting the input does that at once, and releasing it leaves the state of R36, also where the next packet is placed
(70_reset_and_hazards.md R260, 93_implementation_defined.md U5, U24; the wait as a step, the stop, the response in progress
as a field and the reset input as a field are the model's forms, log entries 4, 5, 8 and 9). -/
def Obligations.IdleStuckAndResetSteps : Prop :=
  ∀ s : State,
    let unitsOfReset := (State.resetWith s.straps).units
    (s.resetLine = false → s.pkt = [] → s.cmd = [] → step s = .next { s with rsp := s.responses, sending := none }) ∧
    (∀ h ws, s.resetLine = false → s.pkt ++ s.cmd = h :: ws → ws.length < (nargsOf h).toNat →
      (s.cmd = [] → s.sending = none → step s = .fault .truncatedPacket) ∧
      (s.cmd ≠ [] ∨ s.sending ≠ none →
        step s = .next { s with rsp := s.responses, sending := none, pkt := s.pkt ++ s.cmd, cmd := [] })) ∧
    (s.resetLine = true → step s = .next { s with units := unitsOfReset, pkt := [], sending := none }) ∧
    s.assertReset = { s with units := unitsOfReset, pkt := [], sending := none, resetLine := true } ∧
    (s.resetLine = true →
      s.releaseReset = { s with units := unitsOfReset, pkt := [], sending := none, resetLine := false } ∧
      ∀ n w, (s.withFetchWord n w).units = unitsOfReset) ∧
    (s.resetLine = false → s.releaseReset = s ∧ ∀ n w, (s.withFetchWord n w).units = s.units) ∧
    ∀ n w, (s.withFetchWord n w).resetLine = false

/-- The state after reset: every `cfg` flag and every valid bit 0, `wtPhase` 0, and the random source seeded with 0xACE1
(70_reset_and_hazards.md R261), whatever the straps. -/
def Obligations.ResetLeavesNothingConstructed : Prop :=
  ∀ p : Straps, let u := (State.resetWith p).units
    u.oscCfg = false ∧ u.envCfg = false ∧ u.bqCfg = false ∧ u.ngCfg = false ∧ u.fmCfg = false ∧
    (∀ i, u.tabValid i = false) ∧ u.wt.phase = 0 ∧ (configOf p).noise.seed 0xACE1 = some u.rng ∧
    (p.noiseSrc = .reference → u.rng = 0xACE1)

/-- Every command is answered in one step with one response of two words: either `OK`, or a fault code of 1 to 7 with
result 0 and no change of state (30_encoding.md R76; 60_exceptions.md R240, R249). -/
def Obligations.EveryCommandAnswersOnce : Prop :=
  ∀ (i : Instr) (s : State),
    (∃ u r, exec i s = completes s u r) ∨
    (∃ code : Word, 1 ≤ code.toNat ∧ code.toNat ≤ 7 ∧ exec i s = faulted s code)

/-- A stream of whole packets is answered packet by packet, each with two response words, and leaves the command port
empty (20_memory.md R60, 30_encoding.md R70). -/
def Obligations.WholeStreamIsAnswered : Prop :=
  ∀ (s : State) (ds : List Decoded), s.resetLine = false →
    decodeStream (s.pkt ++ s.cmd).length (s.pkt ++ s.cmd) = (ds, []) →
    ∃ t, Host.Core.run Sys2Proof.core ds.length s = .next t ∧ t.pkt = [] ∧ t.cmd = [] ∧
      t.responses.length = s.responses.length + 2 * ds.length ∧ t.straps = s.straps

/-! ### Binary32 -/

/-- `enc32` answers the nearest binary32 number, ties to the even word (30_encoding.md R74, 00_scope.md R12). -/
def Obligations.Enc32IsNearestTiesToEven : Prop :=
  ∀ (v : Sys2Proof.Num) (w : Word), enc32 v = some w → ∃ x, dec32 w = some x ∧
    ∀ (w' : Word) (y : Sys2Proof.Num), dec32 w' = some y →
      |v - x| ≤ |v - y| ∧ (|v - x| = |v - y| → x ≠ y → w.getLsbD 0 = false)

/-- Every finite word but negative zero is the encoding of its value; both zeros decode to 0, which encodes as the zero
word; and a value has no encoding exactly when its rounding exceeds the largest finite number (30_encoding.md R73,
R74; that a value rounding to zero encodes as the zero word is the reading of log entry 15). -/
def Obligations.Binary32RoundTripAndOverflow : Prop :=
  (∀ (w : Word) (v : Sys2Proof.Num), w ≠ 0x80000000 → dec32 w = some v → enc32 v = some w) ∧
  dec32 0x80000000 = some 0 ∧ dec32 0 = some 0 ∧ enc32 0 = some 0 ∧
  ∀ v : Sys2Proof.Num, enc32 v = none ↔ (2 : Rat) ^ 128 - 2 ^ 103 ≤ |v|

/-- The square root that R12 describes is correctly rounded: a binary32 number, none nearer to the exact root, the even
word where two are as near; and it is defined for every binary32 number that is not negative (00_scope.md R12). It is the
machine's where the strap `sqrt` follows R12, and where the strap follows D2 and U14 the machine's is an open function of
its operand (log entry 16). -/
def Obligations.SqrtIsCorrectlyRounded : Prop :=
  (∀ (v x : Sys2Proof.Num), sqrt32 v = some x → ∃ u, dec32 u = some x ∧
    ∀ (w : Word) (y : Sys2Proof.Num), dec32 w = some y →
      |Real.sqrt (v : ℝ) - (x : ℝ)| ≤ |Real.sqrt (v : ℝ) - (y : ℝ)| ∧
      (|Real.sqrt (v : ℝ) - (x : ℝ)| = |Real.sqrt (v : ℝ) - (y : ℝ)| → x ≠ y → u.getLsbD 0 = false)) ∧
  (∀ (w : Word) (v : Sys2Proof.Num), dec32 w = some v → 0 ≤ v → (sqrt32 v).isSome = true) ∧
  ∀ (s : State) (v : Sys2Proof.Num),
    (s.straps.sqrt = .reference → s.config.num.sqrt v = sqrt32 v) ∧
    (s.straps.sqrt = .other → s.config.num.sqrt v = prim32 s.straps.prim .sqrt v)

/-! ### The reference instance of the numerics -/

/-- `wrap` of the reference instance is `p - TAU × floor(p ÷ TAU)` and lies in `[0, TAU)`; `wrap` of the hardware
instance lies in its `[0, TAU)` (00_scope.md R14). -/
def Obligations.WrapStaysInOneTurn : Prop :=
  (∀ p : ℝ, real.wrap p = p - 2 * Real.pi * (⌊p / (2 * Real.pi)⌋ : ℝ) ∧
    0 ≤ real.wrap p ∧ real.wrap p < 2 * Real.pi) ∧
  ∀ p : Sys2Proof.Num, 0 ≤ wrap32 p ∧ wrap32 p < tau32

/-- The four kernels over exact real arithmetic, and their ranges on one turn (40_kernel.md R101 to R104). -/
def Obligations.RealKernelsAndRanges : Prop :=
  ∀ p : ℝ,
    kernel real .sine p = some (Real.sin p) ∧
    kernel real .square p = some (SignType.sign (Real.sin p) : ℝ) ∧
    kernel real .triangle p = some (2 * |2 * (p / (2 * Real.pi) - 1 / 2)| - 1) ∧
    kernel real .saw p = some (2 * (p / (2 * Real.pi)) - 1) ∧
    (0 ≤ p → p < 2 * Real.pi → ∀ w v, kernel real w p = some v → -1 ≤ v ∧ v ≤ 1 ∧ (w = .saw → v < 1))

/-- Over exact real arithmetic: with the argument wrapped every kernel is periodic; raw, the saw one turn on is 2 higher
(40_kernel.md R105). In the hardware instance the wrapped argument is the formula of `wrap` rounded to binary32 after
each operation, wherever that lies in `[0, TAU)` (the model's reading, log entry 6). -/
def Obligations.KernelArgumentModes : Prop :=
  (∀ p x t q : Sys2Proof.Num, round32 (p / tau32) = some x → round32 (tau32 * (x.floor : Rat)) = some t →
    round32 (p - t) = some q → 0 ≤ q → q < tau32 → wrap32 p = q) ∧
  ∀ (c : Config ℝ) (w : Wave) (p : ℝ), c.num = real →
    (c.krnArgMode = .wrapped →
      kernel real w (karg c (p + 2 * Real.pi)) = kernel real w (karg c p) ∧
      ∃ v, kernel real w (karg c p) = some v ∧ -1 ≤ v ∧ v ≤ 1) ∧
    (c.krnArgMode = .raw → karg c p = p ∧
      ∃ v, kernel real .saw p = some v ∧ kernel real .saw (2 * Real.pi + p) = some (v + 2))

/-- Over exact real arithmetic the phase after `n` samples of a new oscillator is `wrap(n × TAU × f ÷ SR)`
(41_oscillator.md R120, its derived support). -/
def Obligations.OscillatorPhaseAfterSamples : Prop :=
  ∀ (c : Config ℝ) (w : Wave) (f a : ℝ) (n : Nat), c.num = real → c.sr ≠ 0 →
    ∃ o t, oscNew c w f a = some o ∧ oscRun c n o = some t ∧
      t.phase = real.wrap (n * (2 * Real.pi * f / c.sr)) ∧ t.type = w ∧ t.freq = f ∧ t.amp = a ∧ t.inc = o.inc

/-- No stage moves the wrong way (42_envelope.md R133, R144). Over exact real arithmetic, with the default bases and
positive ratios: in Attack the output never falls and never passes 1, in Decay and in Release it never rises above what it
was unless it is clamped up to the sustain level. In the hardware instance, with any OTHER bases and coefficients in
`[0, 1)`: the same, and no stage faults (the law of R133 in binary32, log entry 19). In the hardware instance with the
default bases, while the coefficients lie in `[0, 1]`: no step takes the output out of `[0, 1]` (10_state.md R26). -/
def Obligations.EnvelopeStagesAreMonotone : Prop :=
  (∀ (c : Config ℝ) (e e' : Env ℝ), c.num = real → c.envBase = envBaseDefault real → envDerive c e = some e →
    0 < e.ratioA → 0 < e.ratioDR → 0 ≤ e.sustain → e.sustain ≤ 1 → 0 ≤ e.envOut → e.envOut ≤ 1 →
    envStep real e = some e' →
      (0 ≤ e'.envOut ∧ e'.envOut ≤ 1) ∧
      (e.envState = .attack → e.envOut ≤ e'.envOut) ∧
      (e.envState = .decay → e.sustain ≤ e.envOut → e.sustain ≤ e'.envOut ∧ e'.envOut ≤ e.envOut) ∧
      (e.envState = .release → e'.envOut ≤ e.envOut) ∧
      (e.envState = .idle ∨ e.envState = .sustain → e' = e)) ∧
  (∀ (p : Straps) (e : Env Sys2Proof.Num) (w : Word), p.envBase = .other → envInv (configOf p) e = true →
    dec32 w = some e.envOut → 0 ≤ e.envOut → e.envOut ≤ 1 →
      (e.envState = .attack → 0 ≤ e.attackCoef → e.attackCoef < 1 →
        ∃ e', envStep (binary32 p) e = some e' ∧ e.envOut ≤ e'.envOut ∧ e'.envOut ≤ 1) ∧
      (e.envState = .decay → 0 ≤ e.decayCoef → e.decayCoef < 1 → e.sustain ≤ e.envOut →
        ∃ e', envStep (binary32 p) e = some e' ∧ e.sustain ≤ e'.envOut ∧ e'.envOut ≤ e.envOut) ∧
      (e.envState = .release → 0 ≤ e.releaseCoef → e.releaseCoef < 1 →
        ∃ e', envStep (binary32 p) e = some e' ∧ 0 ≤ e'.envOut ∧ e'.envOut ≤ e.envOut)) ∧
  ∀ (s t : State) (e e' : Env Sys2Proof.Num), s.straps.envBase = .reference → s.Inv → s.units.env = some e →
    0 ≤ e.attackCoef → e.attackCoef ≤ 1 → 0 ≤ e.decayCoef → e.decayCoef ≤ 1 → 0 ≤ e.releaseCoef → e.releaseCoef ≤ 1 →
    0 ≤ e.envOut → e.envOut ≤ 1 → step s = .next t → t.units.env = some e' → 0 ≤ e'.envOut ∧ e'.envOut ≤ 1

/-- Every stage ends after finitely many samples: Attack at exactly 1 in Decay, Decay at exactly the sustain level in
Sustain, Release at exactly 0 in Idle (42_envelope.md R133, R141, R144); over exact real arithmetic, with the default bases
and positive ratios, and in the hardware instance, with any OTHER bases and the stage's coefficient in `[0, 1)`, a Decay
from the sustain level or above (the law of R133 in binary32, log entry 19). -/
def Obligations.EnvelopeStagesTerminate : Prop :=
  (∀ (c : Config ℝ) (e : Env ℝ), c.num = real → c.envBase = envBaseDefault real → envDerive c e = some e →
    0 < e.ratioA → 0 < e.ratioDR → 0 ≤ e.sustain → e.sustain ≤ 1 → 0 ≤ e.envOut → e.envOut ≤ 1 →
      (e.envState = .attack → ∃ n t, envRun real n e = some t ∧ t.envState = .decay ∧ t.envOut = 1) ∧
      (e.envState = .decay → ∃ n t, envRun real n e = some t ∧ t.envState = .sustain ∧ t.envOut = e.sustain) ∧
      (e.envState = .release → ∃ n t, envRun real n e = some t ∧ t.envState = .idle ∧ t.envOut = 0)) ∧
  ∀ (p : Straps) (e : Env Sys2Proof.Num) (w : Word), p.envBase = .other → envInv (configOf p) e = true →
    dec32 w = some e.envOut → 0 ≤ e.envOut → e.envOut ≤ 1 →
      (e.envState = .attack → 0 ≤ e.attackCoef → e.attackCoef < 1 →
        ∃ n t, envRun (binary32 p) n e = some t ∧ t.envState = .decay ∧ t.envOut = 1) ∧
      (e.envState = .decay → 0 ≤ e.decayCoef → e.decayCoef < 1 → e.sustain ≤ e.envOut →
        ∃ n t, envRun (binary32 p) n e = some t ∧ t.envState = .sustain ∧ t.envOut = e.sustain) ∧
      (e.envState = .release → 0 ≤ e.releaseCoef → e.releaseCoef < 1 →
        ∃ n t, envRun (binary32 p) n e = some t ∧ t.envState = .idle ∧ t.envOut = 0)

/-- Over exact real arithmetic the seven default designs have the coefficients the rules give, boost and cut apart, and the
gains they are made for: the lowpass 1 at frequency 0 and 0 at half the sample rate, the highpass the other way round, the
shelves `V` on their shelf and 1 at the other end; a cut is the inverse of the boost, and 0 dB passes the input unchanged;
at `f = SR ÷ 4`, where `K = 1`, with `Q = 1` the designs have the check values the rules give (43_biquad.md R152 to R160,
R167). -/
def Obligations.FilterDesignGainsAndCheckValues : Prop :=
  ∀ (sr f q : ℝ), 0 < sr → 0 < f → f < sr / 2 → 0 < q →
    (∀ g, ∃ k, bqDesignDefault real sr .lowpass f q g = some k ∧
      (k.a0 + k.a1 + k.a2) / (1 + k.b1 + k.b2) = 1 ∧ (k.a0 - k.a1 + k.a2) / (1 - k.b1 + k.b2) = 0) ∧
    (∀ g, ∃ k, bqDesignDefault real sr .highpass f q g = some k ∧
      (k.a0 + k.a1 + k.a2) / (1 + k.b1 + k.b2) = 0 ∧ (k.a0 - k.a1 + k.a2) / (1 - k.b1 + k.b2) = 1) ∧
    (∀ t, t = .lowshelf ∨ t = .highshelf ∨ t = .peak →
      ∃ k, bqDesignDefault real sr t f q 0 = some k ∧ k.a0 = 1 ∧ k.a1 = k.b1 ∧ k.a2 = k.b2) ∧
    bqK real sr (sr / 4) = some 1 ∧
    (∀ g, bqDesignDefault real sr .lowpass (sr / 4) 1 g = some ⟨1 / 3, 2 / 3, 1 / 3, 0, 1 / 3⟩ ∧
      bqDesignDefault real sr .highpass (sr / 4) 1 g = some ⟨1 / 3, -2 / 3, 1 / 3, 0, 1 / 3⟩ ∧
      bqDesignDefault real sr .bandpass (sr / 4) 1 g = some ⟨1 / 3, 0, -1 / 3, 0, 1 / 3⟩ ∧
      bqDesignDefault real sr .notch (sr / 4) 1 g = some ⟨2 / 3, 0, 2 / 3, 0, 1 / 3⟩) ∧
    bqDesignDefault real sr .peak (sr / 4) 1 0 = some ⟨1, 0, 1 / 3, 0, 1 / 3⟩ ∧
    (∀ g, 0 ≤ g → ∃ k, bqDesignDefault real sr .lowshelf f q g = some k ∧
      (k.a0 + k.a1 + k.a2) / (1 + k.b1 + k.b2) = (10 : ℝ) ^ (g / 20) ∧
      (k.a0 - k.a1 + k.a2) / (1 - k.b1 + k.b2) = 1) ∧
    (∀ g, 0 ≤ g → ∃ k, bqDesignDefault real sr .highshelf f q g = some k ∧
      (k.a0 + k.a1 + k.a2) / (1 + k.b1 + k.b2) = 1 ∧
      (k.a0 - k.a1 + k.a2) / (1 - k.b1 + k.b2) = (10 : ℝ) ^ (g / 20)) ∧
    (∀ t g, t = .lowshelf ∨ t = .highshelf ∨ t = .peak → 0 ≤ g →
      ∃ k k', bqDesignDefault real sr t f q g = some k ∧ bqDesignDefault real sr t f q (-g) = some k' ∧
        k'.a0 * k.a0 = 1 ∧ k'.a1 * k.a0 = k.b1 ∧ k'.a2 * k.a0 = k.b2 ∧ k'.b1 * k.a0 = k.a1 ∧ k'.b2 * k.a0 = k.a2) ∧
    ∀ g : ℝ,
      let K := Real.tan (Real.pi * f / sr)
      let V := (10 : ℝ) ^ (|g| / 20)
      let N := 1 / (1 + K / q + K * K)
      let B := 2 * (K * K - 1)
      let S := 1 + √2 * K + K * K
      let S' := 1 - √2 * K + K * K
      let P := 1 + 1 / q * K + K * K
      let P' := 1 - 1 / q * K + K * K
      let PV := 1 + V / q * K + K * K
      let PV' := 1 - V / q * K + K * K
      let L := 1 + √(2 * V) * K + V * K * K
      let L' := 1 - √(2 * V) * K + V * K * K
      let H := V + √(2 * V) * K + K * K
      let H' := V - √(2 * V) * K + K * K
      bqDesignDefault real sr .bandpass f q g = some ⟨K / q * N, 0, -(K / q * N), B * N, (1 - K / q + K * K) * N⟩ ∧
      bqDesignDefault real sr .notch f q g =
        some ⟨(1 + K * K) * N, B * N, (1 + K * K) * N, B * N, (1 - K / q + K * K) * N⟩ ∧
      bqDesignDefault real sr .lowpass f q g =
        some ⟨K * K * N, 2 * (K * K * N), K * K * N, B * N, (1 - K / q + K * K) * N⟩ ∧
      bqDesignDefault real sr .highpass f q g = some ⟨N, -2 * N, N, B * N, (1 - K / q + K * K) * N⟩ ∧
      (0 ≤ g →
        bqDesignDefault real sr .lowshelf f q g = some ⟨L / S, 2 * (V * K * K - 1) / S, L' / S, B / S, S' / S⟩ ∧
        bqDesignDefault real sr .highshelf f q g = some ⟨H / S, 2 * (K * K - V) / S, H' / S, B / S, S' / S⟩ ∧
        bqDesignDefault real sr .peak f q g = some ⟨PV / P, B / P, PV' / P, B / P, P' / P⟩) ∧
      (g < 0 →
        bqDesignDefault real sr .lowshelf f q g = some ⟨S / L, B / L, S' / L, 2 * (V * K * K - 1) / L, L' / L⟩ ∧
        bqDesignDefault real sr .highshelf f q g = some ⟨S / H, B / H, S' / H, 2 * (K * K - V) / H, H' / H⟩ ∧
        bqDesignDefault real sr .peak f q g = some ⟨P / PV, B / PV, P' / PV, B / PV, PV' / PV⟩)

/-! ### Unit SYS -/

/-- `SYS.RDREG` of the parameters, the flags and the registers that need no flag (10_state.md R35): completes with the
field's value and changes nothing. -/
def Obligations.RdregReadsParametersAndFlags : Prop :=
  ∀ s : State, s.straps.nCh ≤ 64 →
    (∀ r, enc32 s.straps.sr = some r → exec (.sysRdreg 0x0001) s = completes s s.units r) ∧
    exec (.sysRdreg 0x0002) s = completes s s.units (BitVec.ofNat 32 s.straps.wtLen) ∧
    exec (.sysRdreg 0x0003) s = completes s s.units (BitVec.ofNat 32 s.straps.nCh) ∧
    exec (.sysRdreg 0x0004) s = completes s s.units (BitVec.ofNat 32 s.straps.fmMaxOps) ∧
    exec (.sysRdreg 0x0200) s = completes s s.units (if s.units.osc.isSome then 1 else 0) ∧
    exec (.sysRdreg 0x0300) s = completes s s.units (if s.units.env.isSome then 1 else 0) ∧
    exec (.sysRdreg 0x0400) s = completes s s.units (if s.units.bq.isSome then 1 else 0) ∧
    exec (.sysRdreg 0x0500) s = completes s s.units (if s.units.ng.isSome then 1 else 0) ∧
    exec (.sysRdreg 0x0700) s = completes s s.units (if s.units.fm.isSome then 1 else 0) ∧
    (s.straps.noiseSrc = .reference → exec (.sysRdreg 0x0503) s = completes s s.units (BitVec.ofNat 32 s.units.rng)) ∧
    (s.straps.noiseSrc = .other → exec (.sysRdreg 0x0503) s = faulted s 4) ∧
    (∀ r, enc32 s.units.wt.phase = some r → exec (.sysRdreg 0x0600) s = completes s s.units r) ∧
    exec (.sysRdreg 0x0601) s = completes s s.units (BitVec.ofNat 32
      ((List.range s.straps.wtLen).filter fun i => (tabRead s.units.wt.tab i).isSome).length)

/-- `SYS.RDREG` of the fields of constructed units, of the delay words of every channel and of the fields of every
operator (10_state.md R35): completes with the field's value and changes nothing. -/
def Obligations.RdregReadsUnitFields : Prop :=
  ∀ s : State, s.straps.nCh ≤ 64 →
    (∀ o, s.units.osc = some o →
      exec (.sysRdreg 0x0201) s = completes s s.units ((waveCode o.type).setWidth 32) ∧
      ∀ n v r, (n, v) ∈ [(0x0202, o.freq), (0x0203, o.amp), (0x0204, o.phase), (0x0205, o.inc)] → enc32 v = some r →
        exec (.sysRdreg n) s = completes s s.units r) ∧
    (∀ e, s.units.env = some e →
      exec (.sysRdreg 0x0301) s = completes s s.units (BitVec.ofNat 32 (envStateCode e.envState)) ∧
      ∀ n v r, (n, v) ∈ [(0x0302, e.envOut), (0x0303, e.attackRate), (0x0304, e.decayRate), (0x0305, e.releaseRate),
          (0x0306, e.sustain), (0x0307, e.ratioA), (0x0308, e.ratioDR), (0x0309, e.attackCoef), (0x030A, e.decayCoef),
          (0x030B, e.releaseCoef), (0x030C, e.attackBase), (0x030D, e.decayBase), (0x030E, e.releaseBase)] →
        enc32 v = some r → exec (.sysRdreg n) s = completes s s.units r) ∧
    (∀ b, s.units.bq = some b →
      exec (.sysRdreg 0x0401) s = completes s s.units ((ftypeCode b.type).setWidth 32) ∧
      ∀ n v r, (n, v) ∈ [(0x0402, b.freq), (0x0403, b.q), (0x0404, b.gain), (0x0405, b.coefs.a0), (0x0406, b.coefs.a1),
          (0x0407, b.coefs.a2), (0x0408, b.coefs.b1), (0x0409, b.coefs.b2)] →
        enc32 v = some r → exec (.sysRdreg n) s = completes s s.units r) ∧
    (∀ g, s.units.ng = some g →
      exec (.sysRdreg 0x0501) s = completes s s.units ((variantCode g.type).setWidth 32) ∧
      ∀ r, enc32 g.prev = some r → exec (.sysRdreg 0x0502) s = completes s s.units r) ∧
    (∀ fm, s.units.fm = some fm →
      exec (.sysRdreg 0x0701) s = completes s s.units (BitVec.ofNat 32 fm.ops.length) ∧
      exec (.sysRdreg 0x0711) s = completes s s.units ((waveCode fm.car.type).setWidth 32) ∧
      ∀ n v r, (n, v) ∈ [(0x0712, fm.car.freq), (0x0713, fm.car.amp), (0x0714, fm.car.phase), (0x0715, fm.car.inc)] →
        enc32 v = some r → exec (.sysRdreg n) s = completes s s.units r) ∧
    (∀ b c d r, s.units.bq = some b → c < s.straps.nCh → b.delay[c]? = some d →
      (enc32 d.z1 = some r → exec (.sysRdreg (0x0480 + 2 * c)) s = completes s s.units r) ∧
      (enc32 d.z2 = some r → exec (.sysRdreg (0x0481 + 2 * c)) s = completes s s.units r)) ∧
    (∀ fm k o, s.units.fm = some fm → k < 256 → fm.ops[k]? = some o →
      exec (.sysRdreg (0x0800 + 8 * k + 1)) s = completes s s.units ((waveCode o.type).setWidth 32) ∧
      ∀ j v r, (j, v) ∈ [(2, o.freq), (3, o.amp), (4, o.phase), (5, o.inc)] → enc32 v = some r →
        exec (.sysRdreg (0x0800 + 8 * k + j)) s = completes s s.units r)

/-- `SYS.RDREG` faults in the order of R230: an unmapped number or a channel `>= N_CH` is `IndexRange`, then a field of a
unit that is not constructed is `NotConfigured`, then an operator `>= nOps` is `IndexRange` (47_system.md R230; that an
operator register is mapped for every number up to 255 is the reading of log entry 20). -/
def Obligations.RdregFaults : Prop :=
  ∀ s : State, s.straps.nCh ≤ 64 →
    (∀ n, n = 0 ∨ (0x0005 ≤ n ∧ n ≤ 0x01FF) ∨ (0x0206 ≤ n ∧ n ≤ 0x02FF) ∨ (0x030F ≤ n ∧ n ≤ 0x03FF) ∨
        (0x040A ≤ n ∧ n ≤ 0x047F) ∨ (0x0504 ≤ n ∧ n ≤ 0x05FF) ∨ (0x0602 ≤ n ∧ n ≤ 0x06FF) ∨
        (0x0702 ≤ n ∧ n ≤ 0x0710) ∨ (0x0716 ≤ n ∧ n ≤ 0x07FF) ∨ 0x1000 ≤ n → exec (.sysRdreg n) s = faulted s 4) ∧
    (∀ c, s.straps.nCh ≤ c → c < 64 → exec (.sysRdreg (0x0480 + 2 * c)) s = faulted s 4 ∧
      exec (.sysRdreg (0x0481 + 2 * c)) s = faulted s 4) ∧
    (∀ k j, k < 256 → j ∈ [0, 6, 7] → exec (.sysRdreg (0x0800 + 8 * k + j)) s = faulted s 4) ∧
    (∀ n, 0x0201 ≤ n → n ≤ 0x0205 → s.units.osc = none → exec (.sysRdreg n) s = faulted s 3) ∧
    (∀ n, 0x0301 ≤ n → n ≤ 0x030E → s.units.env = none → exec (.sysRdreg n) s = faulted s 3) ∧
    (∀ n, 0x0401 ≤ n → n ≤ 0x0409 → s.units.bq = none → exec (.sysRdreg n) s = faulted s 3) ∧
    (∀ n, 0x0480 ≤ n → n < 0x0480 + 2 * s.straps.nCh → s.units.bq = none →
      exec (.sysRdreg n) s = faulted s 3) ∧
    (∀ n, n = 0x0501 ∨ n = 0x0502 → s.units.ng = none → exec (.sysRdreg n) s = faulted s 3) ∧
    (∀ n, n = 0x0701 ∨ (0x0711 ≤ n ∧ n ≤ 0x0715) → s.units.fm = none → exec (.sysRdreg n) s = faulted s 3) ∧
    (∀ k j, k < 256 → 1 ≤ j → j ≤ 5 →
      (s.units.fm = none → exec (.sysRdreg (0x0800 + 8 * k + j)) s = faulted s 3) ∧
      (∀ fm, s.units.fm = some fm → fm.ops.length ≤ k → exec (.sysRdreg (0x0800 + 8 * k + j)) s = faulted s 4))

/-! ### Units KRN and OSC -/

/-- `KRN.EVAL` completes with the kernel's value, each formula rounded to binary32 in the order written, at the argument
the switch `KRN_ARG_MODE` gives, and changes nothing (40_kernel.md R101 to R106). -/
def Obligations.KrnEvalReturnsTheKernel : Prop :=
  ∀ (s : State) (pw r : Word) (p x : Sys2Proof.Num), dec32 pw = some p →
    (s.straps.krnArgMode = .raw → x = p) → (s.straps.krnArgMode = .wrapped → x = wrap32 p) →
    (∀ v, prim32 s.straps.prim .sin x = some v → enc32 v = some r →
      exec (.krnEval .sine pw) s = completes s s.units r) ∧
    (∀ v, prim32 s.straps.prim .sin x = some v → exec (.krnEval .square pw) s =
      completes s s.units (if 0 < v then 0x3F800000 else if v < 0 then 0xBF800000 else 0)) ∧
    (∀ a b c d v, round32 (x / tau32) = some a → round32 (a - 1 / 2) = some b → round32 (2 * b) = some c →
      round32 (2 * |c|) = some d → round32 (d - 1) = some v → enc32 v = some r →
      exec (.krnEval .triangle pw) s = completes s s.units r) ∧
    (∀ a b v, round32 (x / tau32) = some a → round32 (2 * a) = some b → round32 (b - 1) = some v → enc32 v = some r →
      exec (.krnEval .saw pw) s = completes s s.units r)

/-- `OSC.INIT` completes with the whole record new: phase 0, increment `(TAU × f) ÷ SR` (41_oscillator.md R111, R116). -/
def Obligations.OscInitMakesTheRecord : Prop :=
  ∀ (s : State) (w : Wave) (fw aw : Word) (f a x inc : Sys2Proof.Num), dec32 fw = some f → dec32 aw = some a →
    s.straps.sr ≠ 0 → round32 (tau32 * f) = some x → round32 (x / s.straps.sr) = some inc →
    exec (.oscInit w fw aw) s = completes s { s.units with osc := some ⟨w, f, a, 0, inc⟩ } 0

/-- The setters and the reset of a constructed oscillator complete, each writing exactly its own fields
(41_oscillator.md R112 to R115). -/
def Obligations.OscSettersWriteTheirFields : Prop :=
  ∀ (s : State) (o : Osc Sys2Proof.Num), s.units.osc = some o →
    (∀ w, exec (.oscSettype w) s = completes s { s.units with osc := some { o with type := w } } 0) ∧
    (∀ fw f x inc, dec32 fw = some f → s.straps.sr ≠ 0 → round32 (tau32 * f) = some x →
      round32 (x / s.straps.sr) = some inc →
      exec (.oscSetfreq fw) s = completes s { s.units with osc := some { o with freq := f, inc := inc } } 0) ∧
    (∀ aw a, dec32 aw = some a →
      exec (.oscSetamp aw) s = completes s { s.units with osc := some { o with amp := a } } 0) ∧
    exec .oscReset s = completes s { s.units with osc := some { o with phase := 0 } } 0

/-- `OSC.GETVALUE` and `OSC.GETMOD` complete with the kernel's value times the amplitude, taken at the phase before the
advance; the phase after it is the same for both, whatever the modulation (41_oscillator.md R116 to R118). -/
def Obligations.OscSamplesThenAdvances : Prop :=
  ∀ (s : State) (o : Osc Sys2Proof.Num) (q : Sys2Proof.Num) (k v : Sys2Proof.Num) (r : Word), s.units.osc = some o →
    round32 (o.phase + o.inc) = some q → round32 (k * o.amp) = some v → enc32 v = some r →
    (kernel (binary32 s.straps) o.type o.phase = some k →
      exec .oscGetvalue s = completes s { s.units with osc := some { o with phase := wrap32 q } } r) ∧
    (∀ mw m x, dec32 mw = some m → round32 (o.phase + m) = some x →
      kernel (binary32 s.straps) o.type
        (match s.straps.krnArgMode with | .raw => x | .wrapped => wrap32 x) = some k →
      exec (.oscGetmod mw) s = completes s { s.units with osc := some { o with phase := wrap32 q } } r)

/-- `OSC.ATPHASE` completes with the kernel's value at the given phase, scaled by the amplitude as the switch says, and
changes nothing (41_oscillator.md R119). -/
def Obligations.OscAtphaseQueries : Prop :=
  ∀ (s : State) (o : Osc Sys2Proof.Num) (pw r : Word) (p k : Sys2Proof.Num), s.units.osc = some o → dec32 pw = some p →
    kernel (binary32 s.straps) o.type
      (match s.straps.krnArgMode with | .raw => p | .wrapped => wrap32 p) = some k →
    (∀ v, s.straps.atphaseScaled = true → round32 (k * o.amp) = some v → enc32 v = some r →
      exec (.oscAtphase pw) s = completes s s.units r) ∧
    (s.straps.atphaseScaled = false → enc32 k = some r → exec (.oscAtphase pw) s = completes s s.units r)

/-! ### Unit ENV -/

/-- The derived fields of the envelope. The coefficient of a stage: 0 for a rate that is not positive, else
`exp(-ln((1 + ratio) ÷ ratio) ÷ rate)`. The default bases: `(1 + ratioA) × (1 - attackCoef)`, `(sustain - ratioDR) × (1 -
decayCoef)`, `(0 - ratioDR) × (1 - releaseCoef)`. The derivation: the three coefficients and the three bases from the
parameters as they stand, whatever they are, and no other field. In the hardware instance, with the strap `envBase` at the
default for the bases, each operation is rounded to binary32 in the order written; over the reals each is exact
(42_envelope.md R132, R133, R134; the negation as a subtraction from 0: log entry 24). -/
def Obligations.EnvelopeCoefficientFormula : Prop :=
  (∀ (s : State) (rate ratio : Sys2Proof.Num),
    (rate ≤ 0 → calcCoef s.config.num rate ratio = some 0) ∧
    (0 < rate → ratio ≠ 0 → ∀ a b l m d c, round32 (1 + ratio) = some a → round32 (a / ratio) = some b →
      prim32 s.straps.prim .ln b = some l → round32 (0 - l) = some m → round32 (m / rate) = some d →
      prim32 s.straps.prim .exp d = some c → calcCoef s.config.num rate ratio = some c)) ∧
  (∀ (s : State) (ratioA ratioDR sustain ac dc rc a1 a2 ab d1 d2 db r1 r2 rb : Sys2Proof.Num),
    s.straps.envBase = .reference →
    round32 (1 + ratioA) = some a1 → round32 (1 - ac) = some a2 → round32 (a1 * a2) = some ab →
    round32 (sustain - ratioDR) = some d1 → round32 (1 - dc) = some d2 → round32 (d1 * d2) = some db →
    round32 (0 - ratioDR) = some r1 → round32 (1 - rc) = some r2 → round32 (r1 * r2) = some rb →
    s.config.envBase ratioA ratioDR sustain ac dc rc = some ⟨ab, db, rb⟩) ∧
  (∀ (s : State) (e e' : Env Sys2Proof.Num), envDerive s.config e = some e' ↔ ∃ ac dc rc b,
    calcCoef s.config.num e.attackRate e.ratioA = some ac ∧ calcCoef s.config.num e.decayRate e.ratioDR = some dc ∧
    calcCoef s.config.num e.releaseRate e.ratioDR = some rc ∧
    s.config.envBase e.ratioA e.ratioDR e.sustain ac dc rc = some b ∧
    e' = { e with attackCoef := ac, decayCoef := dc, releaseCoef := rc, attackBase := b.attack, decayBase := b.decay,
                  releaseBase := b.release }) ∧
  (∀ rate ratio : ℝ, calcCoef real rate ratio =
    some (if 0 < rate then Real.exp (-Real.log ((1 + ratio) / ratio) / rate) else 0)) ∧
  ∀ (c : Config ℝ) (e : Env ℝ), c.num = real → c.envBase = envBaseDefault real → ∃ ac dc rc,
    calcCoef real e.attackRate e.ratioA = some ac ∧ calcCoef real e.decayRate e.ratioDR = some dc ∧
    calcCoef real e.releaseRate e.ratioDR = some rc ∧
    envDerive c e = some { e with
      attackCoef := ac, decayCoef := dc, releaseCoef := rc, attackBase := (1 + e.ratioA) * (1 - ac),
      decayBase := (e.sustain - e.ratioDR) * (1 - dc), releaseBase := (0 - e.ratioDR) * (1 - rc) }

/-- `ENV.INIT` completes in `Idle` with output 0, the rates in samples and the default ratios 0.3 and 0.0001, the derived
fields those of the parameters (42_envelope.md R131, R134). The two ratios are the binary32 numbers nearest to them (log
entry 14). -/
def Obligations.EnvInitMakesTheEnvelope : Prop :=
  ∀ (s : State) (aw dw sw rw : Word) (a d level r ra rd rr ac dc rc : Sys2Proof.Num) (b : EnvBases Sys2Proof.Num),
    dec32 aw = some a → dec32 dw = some d → dec32 sw = some level → dec32 rw = some r → 0 ≤ level → level ≤ 1 →
    round32 (a * s.straps.sr) = some ra → round32 (d * s.straps.sr) = some rd → round32 (r * s.straps.sr) = some rr →
    calcCoef s.config.num ra (finite32 0x3E99999A) = some ac →
    calcCoef s.config.num rd (finite32 0x38D1B717) = some dc →
    calcCoef s.config.num rr (finite32 0x38D1B717) = some rc →
    s.config.envBase (finite32 0x3E99999A) (finite32 0x38D1B717) level ac dc rc = some b →
    let e : Env Sys2Proof.Num :=
      { attackRate := ra, decayRate := rd, releaseRate := rr, sustain := level, ratioA := finite32 0x3E99999A,
        ratioDR := finite32 0x38D1B717, attackCoef := ac, decayCoef := dc, releaseCoef := rc, attackBase := b.attack,
        decayBase := b.decay, releaseBase := b.release, envState := .idle, envOut := 0 }
    exec (.envInit aw dw sw rw) s = completes s { s.units with env := some e } 0

/-- The six setters of a constructed envelope complete, each writing its parameter and recomputing the derived fields
from all the parameters; state, output and every other parameter are not touched (42_envelope.md R134 to R140, R143). The
minimum 1e-9 is the binary32 number nearest to it (log entry 14). -/
def Obligations.EnvSettersRederive : Prop :=
  ∀ (s : State) (e e' : Env Sys2Proof.Num) (w : Word) (x : Sys2Proof.Num), s.units.env = some e → dec32 w = some x →
    let done := completes s { s.units with env := some e' } 0
    let params (d : Env Sys2Proof.Num) := e'.attackRate = d.attackRate ∧ e'.decayRate = d.decayRate ∧
      e'.releaseRate = d.releaseRate ∧ e'.sustain = d.sustain ∧ e'.ratioA = d.ratioA ∧ e'.ratioDR = d.ratioDR ∧
      e'.envState = e.envState ∧ e'.envOut = e.envOut
    (∀ y, round32 (x * s.straps.sr) = some y →
      (envDerive s.config { e with attackRate := y } = some e' →
        exec (.envSetattack w) s = done ∧ params { e with attackRate := y }) ∧
      (envDerive s.config { e with decayRate := y } = some e' →
        exec (.envSetdecay w) s = done ∧ params { e with decayRate := y }) ∧
      (envDerive s.config { e with releaseRate := y } = some e' →
        exec (.envSetrelease w) s = done ∧ params { e with releaseRate := y })) ∧
    (0 ≤ x → x ≤ 1 → envDerive s.config { e with sustain := x } = some e' →
      exec (.envSetsustain w) s = done ∧ params { e with sustain := x }) ∧
    (envDerive s.config { e with ratioA := max x (finite32 0x3089705F) } = some e' →
      exec (.envSetratioa w) s = done ∧ params { e with ratioA := max x (finite32 0x3089705F) }) ∧
    (envDerive s.config { e with ratioDR := max x (finite32 0x3089705F) } = some e' →
      exec (.envSetratiodr w) s = done ∧ params { e with ratioDR := max x (finite32 0x3089705F) })

/-- `ENV.GATE`: on forces Attack from any state, off forces Release unless already Idle; no other field changes
(42_envelope.md R142). -/
def Obligations.EnvGateForcesTheState : Prop :=
  ∀ (s : State) (e : Env Sys2Proof.Num), s.units.env = some e →
    exec (.envGate true) s = completes s { s.units with env := some { e with envState := .attack } } 0 ∧
    (e.envState ≠ .idle →
      exec (.envGate false) s = completes s { s.units with env := some { e with envState := .release } } 0) ∧
    (e.envState = .idle → exec (.envGate false) s = completes s s.units 0)

/-- `ENV.PROCESS` in each state: the recurrence `base + output × coef`, the clamp and the transition when the new value
reaches the threshold, and the output after the update as the result (42_envelope.md R141). -/
def Obligations.EnvProcessStepsTheStage : Prop :=
  ∀ (s : State) (e : Env Sys2Proof.Num) (o t : Sys2Proof.Num) (r : Word), s.units.env = some e →
    (e.envState = .idle ∨ e.envState = .sustain → enc32 e.envOut = some r →
      exec .envProcess s = completes s s.units r) ∧
    (e.envState = .attack → round32 (e.envOut * e.attackCoef) = some t → round32 (e.attackBase + t) = some o →
      (1 ≤ o → exec .envProcess s =
        completes s { s.units with env := some { e with envOut := 1, envState := .decay } } 0x3F800000) ∧
      (o < 1 → enc32 o = some r →
        exec .envProcess s = completes s { s.units with env := some { e with envOut := o } } r)) ∧
    (e.envState = .decay → round32 (e.envOut * e.decayCoef) = some t → round32 (e.decayBase + t) = some o →
      (o ≤ e.sustain → enc32 e.sustain = some r → exec .envProcess s =
        completes s { s.units with env := some { e with envOut := e.sustain, envState := .sustain } } r) ∧
      (e.sustain < o → enc32 o = some r →
        exec .envProcess s = completes s { s.units with env := some { e with envOut := o } } r)) ∧
    (e.envState = .release → round32 (e.envOut * e.releaseCoef) = some t → round32 (e.releaseBase + t) = some o →
      (o ≤ 0 → exec .envProcess s =
        completes s { s.units with env := some { e with envOut := 0, envState := .idle } } 0) ∧
      (0 < o → enc32 o = some r →
        exec .envProcess s = completes s { s.units with env := some { e with envOut := o } } r))

/-- No command changes the envelope's state but in the way the transition table says (42_envelope.md R130). -/
def Obligations.EnvTransitionsAreTheTable : Prop :=
  ∀ (i : Instr) (s t : State) (e e' : Env Sys2Proof.Num), exec i s = .next t → s.units.env = some e → t.units.env = some e' →
    e'.envState = e.envState ∨
    (i = .envGate true ∧ e'.envState = .attack) ∨
    (i = .envGate false ∧ e.envState ≠ .idle ∧ e'.envState = .release) ∨
    (i = .envProcess ∧ e.envState = .attack ∧ e'.envState = .decay) ∨
    (i = .envProcess ∧ e.envState = .decay ∧ e'.envState = .sustain) ∨
    (i = .envProcess ∧ e.envState = .release ∧ e'.envState = .idle) ∨
    ((∃ a d l r, i = .envInit a d l r) ∧ e'.envState = .idle)

/-! ### Unit BQ -/

/-- `BQ.INIT` with valid parameters completes with the design's coefficients and every delay pair zero (43_biquad.md
R151, R161). Half the sample rate is rounded to binary32 (log entry 25). With the strap `bqDesign` at the default, the
hardware's design is the default design in binary32, and where it answers coefficients they are those of R152 to R160, each
operation rounded (`rd`) in the order written: `K` the tangent, `V` the gain, the boost for `g >= 0` and the cut below
(43_biquad.md R152 to R160; the negation of the bandpass as a subtraction from 0: log entry 24). -/
def Obligations.BqInitMakesTheFilter : Prop :=
  (∀ (s : State) (t : FType) (fw qw gw : Word) (f q g half : Sys2Proof.Num) (k : BqCoefs Sys2Proof.Num), dec32 fw = some f →
    dec32 qw = some q → dec32 gw = some g → round32 (1 / 2 * s.straps.sr) = some half → 0 < f → f < half → 0 < q →
    s.config.bqDesign t f q g = some k →
    exec (.bqInit t fw qw gw) s = completes s
      { s.units with bq := some ⟨t, f, q, g, k, List.replicate s.straps.nCh ⟨0, 0⟩⟩ } 0) ∧
  ∀ s : State, s.straps.bqDesign = .reference →
    let design := s.config.bqDesign
    let rd (x : Sys2Proof.Num) : Sys2Proof.Num := (round32 x).getD 0
    let sum (x y z : Sys2Proof.Num) := rd (rd (x + y) + z)
    let alt (x y z : Sys2Proof.Num) := rd (rd (x - y) + z)
    let odd (x y n : Sys2Proof.Num) := rd (rd (2 * rd (x - y)) * n)
    -- a numerator `x ± y + z` over a denominator `x' ± y' + z'`
    let ratio (x y z x' y' z' : Sys2Proof.Num) : BqCoefs Sys2Proof.Num :=
      let n := rd (1 / sum x' y' z')
      ⟨rd (sum x y z * n), odd z x n, rd (alt x y z * n), odd z' x' n, rd (alt x' y' z' * n)⟩
    (∀ t f q g, design t f q g = bqDesignDefault s.config.num s.straps.sr t f q g) ∧
    ∀ (f q g K V r2 r2V : Sys2Proof.Num) (k : BqCoefs Sys2Proof.Num),
      prim32 s.straps.prim .tan (rd (rd (pi32 * f) / s.straps.sr)) = some K →
      let kq := rd (K / q)
      let kk := rd (K * K)
      let n := rd (1 / sum 1 kq kk)
      let b1 := odd kk 1 n
      let b2 := rd (alt 1 kq kk * n)
      (design .lowpass f q g = some k → k = ⟨rd (kk * n), rd (2 * rd (kk * n)), rd (kk * n), b1, b2⟩) ∧
      (design .highpass f q g = some k → k = ⟨rd (1 * n), rd (-2 * rd (1 * n)), rd (1 * n), b1, b2⟩) ∧
      (design .bandpass f q g = some k → k = ⟨rd (kq * n), 0, rd (0 - rd (kq * n)), b1, b2⟩) ∧
      (design .notch f q g = some k → k = ⟨rd (rd (1 + kk) * n), b1, rd (rd (1 + kk) * n), b1, b2⟩) ∧
      (prim32 s.straps.prim .pow10 (rd (|g| / 20)) = some V →
        (let thin := rd (rd (1 / q) * K)
         let wide := rd (rd (V / q) * K)
         (0 ≤ g → design .peak f q g = some k → k = ratio 1 wide kk 1 thin kk) ∧
         (g < 0 → design .peak f q g = some k → k = ratio 1 thin kk 1 wide kk)) ∧
        (s.config.num.sqrt 2 = some r2 → s.config.num.sqrt (rd (2 * V)) = some r2V →
          let flat := rd (r2 * K)
          let steep := rd (r2V * K)
          let vkk := rd (rd (V * K) * K)
          (0 ≤ g →
            (design .lowshelf f q g = some k → k = ratio 1 steep vkk 1 flat kk) ∧
            (design .highshelf f q g = some k → k = ratio V steep kk 1 flat kk)) ∧
          (g < 0 →
            (design .lowshelf f q g = some k → k = ratio 1 flat kk 1 steep vkk) ∧
            (design .highshelf f q g = some k → k = ratio 1 flat kk V steep kk))))

/-- The setters of a constructed filter complete on valid parameters with the coefficients of the new design, the delay
words kept (43_biquad.md R162 to R165; half the sample rate as in log entry 25). -/
def Obligations.BqSettersRedesign : Prop :=
  ∀ (s : State) (b : Bq Sys2Proof.Num) (k : BqCoefs Sys2Proof.Num) (w : Word) (x half : Sys2Proof.Num), s.units.bq = some b → dec32 w = some x →
    round32 (1 / 2 * s.straps.sr) = some half →
    (∀ t, s.config.bqDesign t b.freq b.q b.gain = some k →
      exec (.bqSettype t) s = completes s { s.units with bq := some { b with type := t, coefs := k } } 0) ∧
    (0 < x → x < half → 0 < b.q → s.config.bqDesign b.type x b.q b.gain = some k →
      exec (.bqSetfreq w) s = completes s { s.units with bq := some { b with freq := x, coefs := k } } 0) ∧
    (0 < b.freq → b.freq < half → 0 < x → s.config.bqDesign b.type b.freq x b.gain = some k →
      exec (.bqSetq w) s = completes s { s.units with bq := some { b with q := x, coefs := k } } 0) ∧
    (s.config.bqDesign b.type b.freq b.q x = some k →
      exec (.bqSetgain w) s = completes s { s.units with bq := some { b with gain := x, coefs := k } } 0)

/-- A frequency that is not positive or not below half the sample rate, or a Q that is not positive, is rejected with
`ParamRange` and nothing changes (43_biquad.md R151, 60_exceptions.md R245; half the sample rate as in log entry 25). -/
def Obligations.BqRejectsInvalidParameters : Prop :=
  ∀ (s : State) (f q half : Sys2Proof.Num) (fw qw : Word), dec32 fw = some f → dec32 qw = some q →
    round32 (1 / 2 * s.straps.sr) = some half →
    (∀ t gw g, dec32 gw = some g → f ≤ 0 ∨ half ≤ f ∨ q ≤ 0 → exec (.bqInit t fw qw gw) s = faulted s 5) ∧
    (∀ b, s.units.bq = some b → f ≤ 0 ∨ half ≤ f → exec (.bqSetfreq fw) s = faulted s 5) ∧
    (∀ b, s.units.bq = some b → q ≤ 0 → exec (.bqSetq qw) s = faulted s 5)

/-- `BQ.PROCESS` completes with `y = x × a0 + z1` and writes channel `c`'s delay words from the old `z2` and the new `y`;
every other channel's are kept (43_biquad.md R166). -/
def Obligations.BqProcessFiltersOneChannel : Prop :=
  ∀ (s : State) (b : Bq Sys2Proof.Num) (d : Delay Sys2Proof.Num) (c : Nat) (xw r : Word) (x y z1 z2 p0 p1 p2 t1 u1 u2 : Sys2Proof.Num),
    s.units.bq = some b → dec32 xw = some x → c < s.straps.nCh → b.delay[c]? = some d →
    round32 (x * b.coefs.a0) = some p0 → round32 (p0 + d.z1) = some y →
    round32 (x * b.coefs.a1) = some p1 → round32 (p1 + d.z2) = some t1 → round32 (b.coefs.b1 * y) = some u1 →
    round32 (t1 - u1) = some z1 →
    round32 (x * b.coefs.a2) = some p2 → round32 (b.coefs.b2 * y) = some u2 → round32 (p2 - u2) = some z2 →
    enc32 y = some r →
    exec (.bqProcess c xw) s = completes s { s.units with bq := some { b with delay := b.delay.set c ⟨z1, z2⟩ } } r

/-! ### Unit NG -/

/-- `NG.SETTYPE` completes with the memory 0 and the source untouched; `NG.SEED` loads the source, constructed or not, and
with `LFSR16` refuses 0; `NG.GETVALUE` takes one draw for white, two for pink, one for brown (44_noise.md R183 to
R186). -/
def Obligations.NoiseCommandsDraw : Prop :=
  ∀ (s : State) (r : Word),
    (∀ v, exec (.ngSettype v) s = completes s { s.units with ng := some ⟨v, 0⟩ } 0) ∧
    (∀ k n, s.config.noise.seed k = some n → exec (.ngSeed k) s = completes s { s.units with rng := n } 0) ∧
    (∀ k, s.config.noise.seed k = none → exec (.ngSeed k) s = faulted s 5) ∧
    (s.straps.noiseSrc = .reference → exec (.ngSeed 0) s = faulted s 5 ∧
      ∀ k : BitVec 16, k ≠ 0 → exec (.ngSeed k) s = completes s { s.units with rng := k.toNat } 0) ∧
    (∀ g n1 d1 n2 d2, s.units.ng = some g → s.config.noise.next s.units.rng = (n1, d1) →
      s.config.noise.next n1 = (n2, d2) →
      (g.type = .white → enc32 d1 = some r → exec .ngGetvalue s = completes s { s.units with rng := n1 } r) ∧
      (∀ a o, g.type = .pink → round32 (d1 + d2) = some a → round32 (a / 2) = some o → enc32 o = some r →
        exec .ngGetvalue s = completes s { s.units with rng := n2 } r) ∧
      (∀ a o, g.type = .brown → round32 (g.prev + d1) = some a → round32 (a / 2) = some o → enc32 o = some r →
        exec .ngGetvalue s = completes s { s.units with ng := some { g with prev := o }, rng := n1 } r))

/-- `LFSR16`: `seed` refuses 0 and keeps every other word; `next` moves the register and draws from the NEW register; the
first eight states from 0xACE1 and the first draws; and the period: from any state other than 0 the register visits every
state other than 0 (44_noise.md R182, which marks the period as general knowledge). That the hardware draws the quotient
rounded once rests on 00_scope.md R12 and is the reading of log entry 17. -/
def Obligations.LfsrStatesDrawsAndPeriod : Prop :=
  (List.range 8).map (fun k => lfsrStep^[k + 1] 0xACE1#16) =
    [0x5670, 0xAB38, 0x559C, 0x2ACE, 0x1567, 0x8AB3, 0x4559, 0x22AC] ∧
  (∀ s : BitVec 16, (lfsrDraw real s : ℝ) = ((s.toNat : ℝ) - 32768) / 32767) ∧
  (∀ s : BitVec 16, (lfsr16 real).next s.toNat = ((lfsrStep s).toNat, lfsrDraw real (lfsrStep s))) ∧
  (∀ (t : State) (s : BitVec 16) (d : Sys2Proof.Num), t.straps.noiseSrc = .reference →
    round32 (((lfsrStep s).toNat - 32768) / 32767) = some d →
      t.config.noise.next s.toNat = ((lfsrStep s).toNat, d)) ∧
  (∀ s : BitVec 16, (lfsr16 real).seed s = if s = 0 then none else some s.toNat) ∧
  (∀ t : State, t.straps.noiseSrc = .reference → ∀ s : BitVec 16,
    t.config.noise.seed s = if s = 0 then none else some s.toNat) ∧
  ((lfsr16 real).next 0xACE1).2 = -10640 / 32767 ∧ ((lfsr16 real).next 0x5670).2 = 11064 / 32767 ∧
  ((lfsr16 real).next 0xAB38).2 = -10852 / 32767 ∧ ((lfsr16 real).next 0x559C).2 = -21810 / 32767 ∧
  ((lfsr16 real).next 0x2ACE).2 = -27289 / 32767 ∧ ((lfsr16 real).next 0x1567).2 = 2739 / 32767 ∧
  ((lfsr16 real).next 0x8AB3).2 = -15015 / 32767 ∧ ((lfsr16 real).next 0x4559).2 = -23892 / 32767 ∧
  ∀ s t : BitVec 16, s ≠ 0 → t ≠ 0 → ∃ k, k < 65535 ∧ lfsrStep^[k] s = t

/-! ### Unit WT -/

/-- `WT.BUILD` completes with entry `i` the kernel's value at `(TAU × i) ÷ L` for every `i < L`, every valid bit 1, the
phase 0 (45_wavetable.md R191). The clause `Memory.wf`, that the table is in its canonical form, is a choice of the model
and not of the rule: log entry 12. -/
def Obligations.WtBuildFillsTheTable : Prop :=
  ∀ (s : State) (w : Wave) (v : Nat → Sys2Proof.Num),
    (∀ i, i < s.straps.wtLen → ∃ x y, s.config.num.mul tau32 (s.config.num.ofRat i) = some x ∧
      s.config.num.div x (s.config.num.ofRat s.straps.wtLen) = some y ∧ kernel s.config.num w y = some (v i)) →
    ∃ t, exec (.wtBuild w) s = completes s { s.units with wt := ⟨t, 0⟩ } 0 ∧ Memory.wf t = true ∧
      ∀ i, tabRead t i = if i < s.straps.wtLen then some (v i) else none

/-- `WT.LOAD` below the table's length completes, writing that entry and its valid bit and no other entry and not the
phase; `WT.RESET` completes with the phase 0 and the table kept; `WT.RDTAB` of a valid entry completes with its value.
An index beyond the length is `IndexRange`, an entry never written `NotConfigured` (45_wavetable.md R192, R194, R197). -/
def Obligations.WtLoadResetAndRead : Prop :=
  ∀ (s : State) (i : Nat) (vw r : Word) (v : Sys2Proof.Num), dec32 vw = some v →
    (i < s.straps.wtLen → ∃ t, exec (.wtLoad i vw) s = completes s { s.units with wt := ⟨t, s.units.wt.phase⟩ } 0 ∧
      ∀ j, tabRead t j = if j = i then some v else tabRead s.units.wt.tab j) ∧
    exec .wtReset s = completes s { s.units with wt := ⟨s.units.wt.tab, 0⟩ } 0 ∧
    (∀ x, i < s.straps.wtLen → tabRead s.units.wt.tab i = some x → enc32 x = some r →
      exec (.wtRdtab i) s = completes s s.units r) ∧
    (s.straps.wtLen ≤ i → exec (.wtLoad i vw) s = faulted s 4 ∧ exec (.wtRdtab i) s = faulted s 4) ∧
    (i < s.straps.wtLen → tabRead s.units.wt.tab i = none → exec (.wtRdtab i) s = faulted s 3)

/-- The interpolating lookup of both playback commands: 0 at a negative index, from any table; the interpolation of the
two neighbours, wrapped by modulo; `NotConfigured` and no advance where a neighbour was never written. `WT.ATPHASE`
changes nothing, `WT.GETFREQ` reads at the phase before the advance and advances it (45_wavetable.md R193, R195, R196;
that the position is computed before a valid bit is tested is the reading of log entry 21). -/
def Obligations.WtLookupInterpolates : Prop :=
  ∀ (s : State) (w r : Word) (x p y pos v : Sys2Proof.Num), dec32 w = some x →
    (p = x ∨ p = s.units.wt.phase) → round32 (p / tau32) = some y →
    round32 (y * s.config.num.ofRat s.straps.wtLen) = some pos →
    (∀ i0 i1 : Nat, i0 = pos.floor.toNat % s.straps.wtLen → i1 = (pos.floor.toNat + 1) % s.straps.wtLen →
      let value := (pos.floor < 0 ∧ v = 0) ∨ (0 ≤ pos.floor ∧ ∃ a b fr d t,
        tabRead s.units.wt.tab i0 = some a ∧ tabRead s.units.wt.tab i1 = some b ∧
        round32 (pos - s.config.num.ofRat pos.floor) = some fr ∧ round32 (b - a) = some d ∧
        round32 (fr * d) = some t ∧ round32 (a + t) = some v)
      let missing := 0 ≤ pos.floor ∧ (∃ fr, round32 (pos - s.config.num.ofRat pos.floor) = some fr) ∧
        (tabRead s.units.wt.tab i0 = none ∨ tabRead s.units.wt.tab i1 = none)
      (p = x → value → enc32 v = some r → exec (.wtAtphase w) s = completes s s.units r) ∧
      (p = x → missing → exec (.wtAtphase w) s = faulted s 3) ∧
      (∀ a inc q, p = s.units.wt.phase → value → enc32 v = some r → s.straps.sr ≠ 0 → round32 (tau32 * x) = some a →
        round32 (a / s.straps.sr) = some inc → round32 (p + inc) = some q →
        exec (.wtGetfreq w) s = completes s { s.units with wt := ⟨s.units.wt.tab, wrap32 q⟩ } r) ∧
      (p = s.units.wt.phase → missing → exec (.wtGetfreq w) s = faulted s 3))

/-! ### Unit FM -/

/-- `FM.INIT` completes with a new carrier and no operators; `FM.ADDOP` below the capacity completes with a new operator
appended, phase 0, every earlier operator kept; at the capacity it is answered `Capacity` (46_fm.md R211, R216). -/
def Obligations.FmInitAndAddop : Prop :=
  ∀ (s : State) (w : Wave) (fw aw : Word) (f a x inc : Sys2Proof.Num), dec32 fw = some f → dec32 aw = some a →
    s.straps.sr ≠ 0 → round32 (tau32 * f) = some x → round32 (x / s.straps.sr) = some inc →
    exec (.fmInit w fw aw) s = completes s { s.units with fm := some ⟨⟨w, f, a, 0, inc⟩, []⟩ } 0 ∧
    (∀ fm, s.units.fm = some fm → fm.ops.length < s.straps.fmMaxOps →
      exec (.fmAddop w fw aw) s =
        completes s { s.units with fm := some { fm with ops := fm.ops ++ [⟨w, f, a, 0, inc⟩] } } 0) ∧
    (∀ fm, s.units.fm = some fm → fm.ops.length = s.straps.fmMaxOps → exec (.fmAddop w fw aw) s = faulted s 6)

/-- The carrier's setters and reset complete, each writing exactly its own fields of the carrier (46_fm.md R212 to
R215). -/
def Obligations.FmCarrierSetters : Prop :=
  ∀ (s : State) (fm : Fm Sys2Proof.Num), s.units.fm = some fm →
    (∀ w, exec (.fmCsettype w) s =
      completes s { s.units with fm := some { fm with car := { fm.car with type := w } } } 0) ∧
    (∀ fw f x inc, dec32 fw = some f → s.straps.sr ≠ 0 → round32 (tau32 * f) = some x →
      round32 (x / s.straps.sr) = some inc → exec (.fmCsetfreq fw) s =
        completes s { s.units with fm := some { fm with car := { fm.car with freq := f, inc := inc } } } 0) ∧
    (∀ aw a, dec32 aw = some a → exec (.fmCsetamp aw) s =
      completes s { s.units with fm := some { fm with car := { fm.car with amp := a } } } 0) ∧
    exec .fmCreset s = completes s { s.units with fm := some { fm with car := { fm.car with phase := 0 } } } 0

/-- The setters and the reset of an existing operator complete, each writing exactly its own fields of that operator; an
operator number `>= nOps` is `IndexRange` (46_fm.md R210, R218 to R221). -/
def Obligations.FmOperatorSetters : Prop :=
  ∀ (s : State) (fm : Fm Sys2Proof.Num) (k : Nat), s.units.fm = some fm →
    (∀ o, fm.ops[k]? = some o →
      (∀ w, exec (.fmOpsettype w k) s =
        completes s { s.units with fm := some { fm with ops := fm.ops.set k { o with type := w } } } 0) ∧
      (∀ fw f x inc, dec32 fw = some f → s.straps.sr ≠ 0 → round32 (tau32 * f) = some x →
        round32 (x / s.straps.sr) = some inc → exec (.fmOpsetfreq k fw) s =
          completes s { s.units with fm := some { fm with ops := fm.ops.set k { o with freq := f, inc := inc } } } 0) ∧
      (∀ aw a, dec32 aw = some a → exec (.fmOpsetamp k aw) s =
        completes s { s.units with fm := some { fm with ops := fm.ops.set k { o with amp := a } } } 0) ∧
      exec (.fmOpreset k) s =
        completes s { s.units with fm := some { fm with ops := fm.ops.set k { o with phase := 0 } } } 0) ∧
    (fm.ops.length ≤ k → ∀ vw v, dec32 vw = some v →
      (∀ w, exec (.fmOpsettype w k) s = faulted s 4) ∧ exec (.fmOpsetfreq k vw) s = faulted s 4 ∧
      exec (.fmOpsetamp k vw) s = faulted s 4 ∧ exec (.fmOpreset k) s = faulted s 4)

/-- `FM.REMOP i` completes: the operators below `i` keep their numbers, those above move down by one with all five fields,
and there is one fewer; a number `>= nOps` is `IndexRange` (46_fm.md R217, 70_reset_and_hazards.md R270). -/
def Obligations.FmRemopRenumbers : Prop :=
  ∀ (s : State) (fm : Fm Sys2Proof.Num) (k : Nat), s.units.fm = some fm →
    (k < fm.ops.length → ∃ ops, exec (.fmRemop k) s = completes s { s.units with fm := some { fm with ops := ops } } 0 ∧
      ops.length + 1 = fm.ops.length ∧ ∀ j, ops[j]? = if j < k then fm.ops[j]? else fm.ops[j + 1]?) ∧
    (fm.ops.length ≤ k → exec (.fmRemop k) s = faulted s 4)

/-- `FM.SAMPLE` completes: `m k` is the sum of the first `k` operators' samples, taken in ascending order from 0; every
operator and the carrier advance by their own increment once, and the carrier is sampled at its phase plus the whole sum
(46_fm.md R222). -/
def Obligations.FmSampleModulatesTheCarrier : Prop :=
  ∀ (s : State) (fm : Fm Sys2Proof.Num) (m v q : Nat → Sys2Proof.Num) (x k cq out : Sys2Proof.Num) (r : Word), s.units.fm = some fm → m 0 = 0 →
    (∀ j o, fm.ops[j]? = some o → ∃ y, kernel (binary32 s.straps) o.type o.phase = some y ∧
      round32 (y * o.amp) = some (v j) ∧ round32 (m j + v j) = some (m (j + 1)) ∧
      round32 (o.phase + o.inc) = some (q j)) →
    round32 (fm.car.phase + m fm.ops.length) = some x →
    kernel (binary32 s.straps) fm.car.type
      (match s.straps.krnArgMode with | .raw => x | .wrapped => wrap32 x) = some k →
    round32 (fm.car.phase + fm.car.inc) = some cq → round32 (k * fm.car.amp) = some out → enc32 out = some r →
    let fm' : Fm Sys2Proof.Num :=
      ⟨{ fm.car with phase := wrap32 cq }, fm.ops.mapIdx fun j o => { o with phase := wrap32 (q j) }⟩
    exec .fmSample s = completes s { s.units with fm := some fm' } r

/-! ### Faults over all commands -/

/-- A command any of whose operand words has exponent field 255 is answered `BadOperand` and changes nothing, whatever
else is wrong with it (60_exceptions.md R242, R248). -/
def Obligations.BadOperandOverAllCommands : Prop :=
  ∀ (i : Instr) (s : State), (∃ w ∈ operandWords i, expField w = 255) → exec i s = faulted s 2

/-- A command of a unit that has not been constructed, its operand words finite, is answered `NotConfigured` and changes
nothing, whatever its index (60_exceptions.md R243, R248). -/
def Obligations.NotConfiguredOverAllCommands : Prop :=
  ∀ (i : Instr) (s : State), (∀ w ∈ operandWords i, expField w ≠ 255) → unitReady s.units i = false →
    exec i s = faulted s 3

/-- The other rejections. A channel `>= N_CH` is `IndexRange`; a sustain level outside `[0, 1]` is `ParamRange`. And
`NumericFault`, command by command, whenever a computation inside the command has no finite result: the phase increment of
a frequency (the product or the quotient overflows) in every command that takes a frequency, else the kernel, the sample,
the rates and the derivation of the envelope, its recurrence, the filter's design and recurrence, the noise sample, the
table's entries, position and interpolation, the FM sample; and a table entry no word encodes (a state that
`State.Binary32Inv` rules out) (43_biquad.md R166, 42_envelope.md R131, R137, 60_exceptions.md R244, R245, R247). Three
clauses rest on readings of the model: that an overflowing position is `NumericFault` on every table, written or not, on
log entry 21; the binary32 numbers 0x3E99999A, 0x38D1B717 and 0x3089705F for 0.3, 0.0001 and 1e-9 on log entry 14; and
the rounding of half the sample rate in `bqValid` on log entry 25. -/
def Obligations.IndexParameterAndNumericFaults : Prop :=
  (∀ (s : State) (w : Word) (x : Sys2Proof.Num), dec32 w = some x →
    (∀ b c, s.units.bq = some b → s.straps.nCh ≤ c → exec (.bqProcess c w) s = faulted s 4) ∧
    (x < 0 ∨ 1 < x → (∀ e, s.units.env = some e → exec (.envSetsustain w) s = faulted s 5) ∧
      ∀ aw dw rw a d r, dec32 aw = some a → dec32 dw = some d → dec32 rw = some r →
        exec (.envInit aw dw w rw) s = faulted s 5) ∧
    (∀ i y, i < s.straps.wtLen → tabRead s.units.wt.tab i = some y → enc32 y = none →
      exec (.wtRdtab i) s = faulted s 7)) ∧
  -- the phase increment of a frequency
  (∀ (s : State) (f : Sys2Proof.Num), s.straps.sr ≠ 0 → (phaseInc s.config f = none ↔
    round32 (tau32 * f) = none ∨ ∃ x, round32 (tau32 * f) = some x ∧ round32 (x / s.straps.sr) = none)) ∧
  (∀ (s : State) (w : Wave) (fw aw : Word) (f a : Sys2Proof.Num), dec32 fw = some f → dec32 aw = some a →
    phaseInc s.config f = none →
    exec (.oscInit w fw aw) s = faulted s 7 ∧
    (∀ o, s.units.osc = some o → exec (.oscSetfreq fw) s = faulted s 7) ∧
    exec (.fmInit w fw aw) s = faulted s 7 ∧
    (∀ fm, s.units.fm = some fm → exec (.fmCsetfreq fw) s = faulted s 7 ∧
      (fm.ops.length < s.straps.fmMaxOps → exec (.fmAddop w fw aw) s = faulted s 7) ∧
      ∀ k, k < fm.ops.length → exec (.fmOpsetfreq k fw) s = faulted s 7) ∧
    (∀ v, wtLookup s.config s.units.wt.tab s.units.wt.phase = .ok v → exec (.wtGetfreq fw) s = faulted s 7)) ∧
  -- samples and kernels
  (∀ (s : State) (w : Wave) (pw : Word) (p : Sys2Proof.Num), dec32 pw = some p →
    (kernel s.config.num w (karg s.config p) = none → exec (.krnEval w pw) s = faulted s 7) ∧
    (∀ o, s.units.osc = some o →
      (oscGet s.config o = none → exec .oscGetvalue s = faulted s 7) ∧
      (oscGetMod s.config o p = none → exec (.oscGetmod pw) s = faulted s 7) ∧
      (oscAtPhase s.config o p = none → exec (.oscAtphase pw) s = faulted s 7)) ∧
    (∀ fm, s.units.fm = some fm → fmStep s.config fm = none → exec .fmSample s = faulted s 7) ∧
    (∀ g, s.units.ng = some g → noiseSample s.config g s.units.rng = none → exec .ngGetvalue s = faulted s 7) ∧
    (∀ i, i < s.straps.wtLen → wtBuildEntry s.config w i = none → exec (.wtBuild w) s = faulted s 7) ∧
    (wtLookup s.config s.units.wt.tab p = .error .numericFault → exec (.wtAtphase pw) s = faulted s 7) ∧
    (wtLookup s.config s.units.wt.tab s.units.wt.phase = .error .numericFault →
      exec (.wtGetfreq pw) s = faulted s 7) ∧
    (∀ t, wtPosition s.config p = none → wtLookup s.config t p = .error .numericFault) ∧
    (∀ v, wtLookup s.config s.units.wt.tab s.units.wt.phase = .ok v →
      wtAdvance s.config s.units.wt.phase p = none → exec (.wtGetfreq pw) s = faulted s 7)) ∧
  -- the envelope
  (∀ (s : State) (aw dw lw rw : Word) (a d l r : Sys2Proof.Num), dec32 aw = some a → dec32 dw = some d →
    dec32 lw = some l → dec32 rw = some r → 0 ≤ l → l ≤ 1 →
    (round32 (a * s.straps.sr) = none ∨ round32 (d * s.straps.sr) = none ∨ round32 (r * s.straps.sr) = none →
      exec (.envInit aw dw lw rw) s = faulted s 7) ∧
    (∀ ra rd rr, round32 (a * s.straps.sr) = some ra → round32 (d * s.straps.sr) = some rd →
      round32 (r * s.straps.sr) = some rr →
      calcCoef s.config.num ra (finite32 0x3E99999A) = none ∨ calcCoef s.config.num rd (finite32 0x38D1B717) = none ∨
        calcCoef s.config.num rr (finite32 0x38D1B717) = none ∨
        (∃ ac dc rc, calcCoef s.config.num ra (finite32 0x3E99999A) = some ac ∧
          calcCoef s.config.num rd (finite32 0x38D1B717) = some dc ∧
          calcCoef s.config.num rr (finite32 0x38D1B717) = some rc ∧
          s.config.envBase (finite32 0x3E99999A) (finite32 0x38D1B717) l ac dc rc = none) →
      exec (.envInit aw dw lw rw) s = faulted s 7) ∧
    (∀ e, s.units.env = some e →
      (round32 (a * s.straps.sr) = none → exec (.envSetattack aw) s = faulted s 7 ∧
        exec (.envSetdecay aw) s = faulted s 7 ∧ exec (.envSetrelease aw) s = faulted s 7) ∧
      (∀ y, round32 (a * s.straps.sr) = some y →
        (envDerive s.config { e with attackRate := y } = none → exec (.envSetattack aw) s = faulted s 7) ∧
        (envDerive s.config { e with decayRate := y } = none → exec (.envSetdecay aw) s = faulted s 7) ∧
        (envDerive s.config { e with releaseRate := y } = none → exec (.envSetrelease aw) s = faulted s 7)) ∧
      (envDerive s.config { e with sustain := l } = none → exec (.envSetsustain lw) s = faulted s 7) ∧
      (envDerive s.config { e with ratioA := max a (finite32 0x3089705F) } = none →
        exec (.envSetratioa aw) s = faulted s 7) ∧
      (envDerive s.config { e with ratioDR := max a (finite32 0x3089705F) } = none →
        exec (.envSetratiodr aw) s = faulted s 7) ∧
      (envStep s.config.num e = none → exec .envProcess s = faulted s 7))) ∧
  -- the filter
  ∀ (s : State) (t : FType) (fw qw gw : Word) (f q g : Sys2Proof.Num), dec32 fw = some f → dec32 qw = some q →
    dec32 gw = some g →
    (bqValid s.config f q = some true → s.config.bqDesign t f q g = none → exec (.bqInit t fw qw gw) s = faulted s 7) ∧
    ∀ b, s.units.bq = some b →
      (s.config.bqDesign t b.freq b.q b.gain = none → exec (.bqSettype t) s = faulted s 7) ∧
      (bqValid s.config f b.q = some true → s.config.bqDesign b.type f b.q b.gain = none →
        exec (.bqSetfreq fw) s = faulted s 7) ∧
      (bqValid s.config b.freq q = some true → s.config.bqDesign b.type b.freq q b.gain = none →
        exec (.bqSetq qw) s = faulted s 7) ∧
      (s.config.bqDesign b.type b.freq b.q g = none → exec (.bqSetgain gw) s = faulted s 7) ∧
      ∀ c, c < s.straps.nCh → bqFilter s.config.num b.coefs (delayAt s.config.num b c) g = none →
        exec (.bqProcess c gw) s = faulted s 7

/-! ### The whole machine -/

/-- A step that is not a reset clears no `cfg` flag and no valid bit (10_state.md R22). -/
def Obligations.FlagsAreNeverCleared : Prop :=
  ∀ s t : State, s.resetLine = false → step s = .next t →
    (s.units.oscCfg = true → t.units.oscCfg = true) ∧ (s.units.envCfg = true → t.units.envCfg = true) ∧
    (s.units.bqCfg = true → t.units.bqCfg = true) ∧ (s.units.ngCfg = true → t.units.ngCfg = true) ∧
    (s.units.fmCfg = true → t.units.fmCfg = true) ∧
    ∀ i, i < s.straps.wtLen → s.units.tabValid i = true → t.units.tabValid i = true

/-- No command touches a field of another unit, a strap, the words presented or accepted, or the reset input
(42_envelope.md R143, 46_fm.md R223). -/
def Obligations.CommandsTouchOnlyTheirUnit : Prop :=
  ∀ (i : Instr) (s t : State), exec i s = .next t →
    (unitNumber i ≠ 2 → t.units.osc = s.units.osc) ∧ (unitNumber i ≠ 3 → t.units.env = s.units.env) ∧
    (unitNumber i ≠ 4 → t.units.bq = s.units.bq) ∧
    (unitNumber i ≠ 5 → t.units.ng = s.units.ng ∧ t.units.rng = s.units.rng) ∧
    (unitNumber i ≠ 6 → t.units.wt = s.units.wt) ∧ (unitNumber i ≠ 7 → t.units.fm = s.units.fm) ∧
    t.straps = s.straps ∧ t.cmd = s.cmd ∧ t.pkt = s.pkt ∧ t.resetLine = s.resetLine

/-- The pure queries change no state and give the same response again (20_memory.md R58). -/
def Obligations.PureQueriesAreIdempotent : Prop :=
  ∀ (i : Instr) (s t t' : State),
    ((∃ n, i = .sysRdreg n) ∨ (∃ w p, i = .krnEval w p) ∨ (∃ p, i = .oscAtphase p) ∨ (∃ p, i = .wtAtphase p) ∨
      ∃ n, i = .wtRdtab n) →
    exec i s = .next t → exec i t = .next t' →
      t.units = s.units ∧ t'.units = s.units ∧ ∃ a b, t.responses = s.responses ++ [a, b] ∧ t'.responses = t.responses ++ [a, b]

/-- What a command answers and what it leaves in its own unit depends on its own unit and the straps alone: two blocks
that agree on these give the same response and agree on the unit again (42_envelope.md R143, 46_fm.md R223, 20_memory.md
R60). -/
def Obligations.UnitsDoNotInterfere : Prop :=
  ∀ (i : Instr) (s s' t t' : State), s.straps = s'.straps → agreeOn (unitNumber i) s.units s'.units →
    exec i s = .next t → exec i s' = .next t' →
      agreeOn (unitNumber i) t.units t'.units ∧ ∃ a b, t.responses = s.responses ++ [a, b] ∧
        t'.responses = s'.responses ++ [a, b]

/-- The invariants of the state that hold in every instance are kept by every step: phases in one turn, increments and
derived fields and coefficients those of the parameters, parameters in their ranges, the files of the right sizes, output 0
in Idle, the noise memory in `[-1, 1]` and the register of `LFSR16` a word other than 0; the words accepted of a packet in
progress never hold a whole packet; and the straps never change (10_state.md R23 to R32, R34, 30_encoding.md R70). Not among them is `0 <= envOut <= 1` (R26), which in binary32 depends on the open
coefficients and bases (`EnvelopeStagesAreMonotone` states it where it holds). Three clauses rest on choices of the model
and not on the rules: the canonical form of the table (log entry 12), the binary32 number for the least ratio 1e-9 (log
entry 14) and the rounding of half the sample rate in the filter's range (log entry 25). -/
def Obligations.StepKeepsTheInvariants : Prop :=
  ∀ s t : State, step s = .next t → (s.Inv → t.Inv) ∧ (s.PortInv → t.PortInv) ∧ t.straps = s.straps

/-- Every number the units hold stays the value of a finite binary32 word (00_scope.md R12, 92_eei_decisions.md D33). -/
def Obligations.StepKeepsEveryNumberFinite : Prop :=
  ∀ s t : State, s.Binary32Inv → step s = .next t → t.Binary32Inv

/-- The register of `LFSR16` never reaches 0, and the brown noise memory stays in `[-1, 1]` (44_noise.md R182, 10_state.md
R30). -/
def Obligations.StepKeepsTheNoiseBounds : Prop :=
  ∀ s t : State, s.RngInv → s.NoiseInv → step s = .next t → t.RngInv ∧ t.NoiseInv

/-- The state after reset has every invariant, and the block's straps are a configuration the spec allows (10_state.md
R36, 00_scope.md R5, R6; the straps are open within their ranges: log entry 23). The clause `Memory.wf`, and the same
inside `State.Inv`, is the model's canonical form of the table: log entry 12. -/
def Obligations.ResetMeetsTheInvariants : Prop :=
  State.reset.Inv ∧ State.reset.PortInv ∧ State.reset.Binary32Inv ∧ State.reset.RngInv ∧ State.reset.NoiseInv ∧
  strapsLegal State.reset.straps = true ∧ Memory.wf State.reset.units.wt.tab = true
end

