-- ==== Sys2Proof/Laws/State.lean ====
section
/-!
SUPPORT. One lemma per field for every update of the state: a response, a commit, the reset input, the packet placed on
the port. No later proof unfolds a record update.
-/

namespace Sys2Proof.Machine

/-! ### A response -/

@[simp] theorem respond_straps (s : State) (a b : Word) : (s.respond a b).straps = s.straps := rfl
@[simp] theorem respond_units (s : State) (a b : Word) : (s.respond a b).units = s.units := rfl
@[simp] theorem respond_cmd (s : State) (a b : Word) : (s.respond a b).cmd = s.cmd := rfl
@[simp] theorem respond_pkt (s : State) (a b : Word) : (s.respond a b).pkt = s.pkt := rfl
@[simp] theorem respond_rsp (s : State) (a b : Word) : (s.respond a b).rsp = s.responses := rfl
@[simp] theorem respond_sending (s : State) (a b : Word) : (s.respond a b).sending = some (a, b) := rfl
@[simp] theorem respond_responses (s : State) (a b : Word) : (s.respond a b).responses = s.responses ++ [a, b] := rfl
@[simp] theorem respond_resetLine (s : State) (a b : Word) : (s.respond a b).resetLine = s.resetLine := rfl
@[simp] theorem respond_config (s : State) (a b : Word) : (s.respond a b).config = s.config := rfl

/-! ### A response sent whole -/

@[simp] theorem deliver_straps (s : State) : s.deliver.straps = s.straps := rfl
@[simp] theorem deliver_units (s : State) : s.deliver.units = s.units := rfl
@[simp] theorem deliver_cmd (s : State) : s.deliver.cmd = s.cmd := rfl
@[simp] theorem deliver_pkt (s : State) : s.deliver.pkt = s.pkt := rfl
@[simp] theorem deliver_sending (s : State) : s.deliver.sending = none := rfl
@[simp] theorem deliver_rsp (s : State) : s.deliver.rsp = s.responses := rfl
@[simp] theorem deliver_resetLine (s : State) : s.deliver.resetLine = s.resetLine := rfl
@[simp] theorem deliver_config (s : State) : s.deliver.config = s.config := rfl
@[simp] theorem deliver_responses (s : State) : s.deliver.responses = s.responses := by
  simp [State.responses, State.deliver, responseWords]
/-- With no response in progress there is nothing to send. -/
theorem deliver_eq_self {s : State} (h : s.sending = none) : s.deliver = s := by
  cases s; cases h; simp [State.deliver, State.responses, responseWords]

/-! ### Fault entry -/

@[simp] theorem raise_straps (s : State) (e : FaultCode) : (s.raise e).straps = s.straps := rfl
@[simp] theorem raise_units (s : State) (e : FaultCode) : (s.raise e).units = s.units := rfl
@[simp] theorem raise_cmd (s : State) (e : FaultCode) : (s.raise e).cmd = s.cmd := rfl
@[simp] theorem raise_pkt (s : State) (e : FaultCode) : (s.raise e).pkt = s.pkt := rfl
@[simp] theorem raise_rsp (s : State) (e : FaultCode) : (s.raise e).rsp = s.responses := rfl
@[simp] theorem raise_sending (s : State) (e : FaultCode) : (s.raise e).sending = some (e.status, 0) := rfl
@[simp] theorem raise_responses (s : State) (e : FaultCode) : (s.raise e).responses = s.responses ++ [e.status, 0] := rfl
@[simp] theorem raise_resetLine (s : State) (e : FaultCode) : (s.raise e).resetLine = s.resetLine := rfl
@[simp] theorem raise_config (s : State) (e : FaultCode) : (s.raise e).config = s.config := rfl

/-! ### The reset input -/

@[simp] theorem holdReset_straps (s : State) : s.holdReset.straps = s.straps := rfl
@[simp] theorem holdReset_units (s : State) : s.holdReset.units = Units.reset s.config := rfl
@[simp] theorem holdReset_cmd (s : State) : s.holdReset.cmd = s.cmd := rfl
@[simp] theorem holdReset_pkt (s : State) : s.holdReset.pkt = [] := rfl
@[simp] theorem holdReset_sending (s : State) : s.holdReset.sending = none := rfl
@[simp] theorem holdReset_rsp (s : State) : s.holdReset.rsp = s.rsp := rfl
@[simp] theorem holdReset_resetLine (s : State) : s.holdReset.resetLine = s.resetLine := rfl

@[simp] theorem holdReset_config (s : State) : s.holdReset.config = s.config := rfl

@[simp] theorem assertReset_straps (s : State) : s.assertReset.straps = s.straps := rfl
@[simp] theorem assertReset_units (s : State) : s.assertReset.units = Units.reset s.config := rfl
@[simp] theorem assertReset_cmd (s : State) : s.assertReset.cmd = s.cmd := rfl
@[simp] theorem assertReset_pkt (s : State) : s.assertReset.pkt = [] := rfl
@[simp] theorem assertReset_sending (s : State) : s.assertReset.sending = none := rfl
@[simp] theorem assertReset_rsp (s : State) : s.assertReset.rsp = s.rsp := rfl
@[simp] theorem assertReset_resetLine (s : State) : s.assertReset.resetLine = true := rfl

/-- What a release of the reset input can do, once for all: leave the state of reset where the input was asserted, else
nothing. -/
theorem releaseReset_cases (s : State) :
    (s.resetLine = true ∧ s.releaseReset = { s.holdReset with resetLine := false }) ∨
    (s.resetLine = false ∧ s.releaseReset = s) := by
  cases h : s.resetLine
  · exact .inr ⟨rfl, by simp [State.releaseReset, h]⟩
  · exact .inl ⟨rfl, by simp [State.releaseReset, h]⟩

@[simp] theorem releaseReset_resetLine (s : State) : s.releaseReset.resetLine = false := by
  rcases releaseReset_cases s with ⟨-, h⟩ | ⟨h0, h⟩
  · rw [h]
  · rw [h, h0]

@[simp] theorem releaseReset_straps (s : State) : s.releaseReset.straps = s.straps := by
  rcases releaseReset_cases s with ⟨-, h⟩ | ⟨-, h⟩ <;> rw [h]; rfl
@[simp] theorem releaseReset_cmd (s : State) : s.releaseReset.cmd = s.cmd := by
  rcases releaseReset_cases s with ⟨-, h⟩ | ⟨-, h⟩ <;> rw [h]; rfl
@[simp] theorem releaseReset_rsp (s : State) : s.releaseReset.rsp = s.rsp := by
  rcases releaseReset_cases s with ⟨-, h⟩ | ⟨-, h⟩ <;> rw [h]; rfl

/-! ### A packet placed on the port -/

@[simp] theorem withFetchWord_straps (s : State) (n w : Nat) : (s.withFetchWord n w).straps = s.straps :=
  releaseReset_straps s
@[simp] theorem withFetchWord_units (s : State) (n w : Nat) : (s.withFetchWord n w).units = s.releaseReset.units := rfl
@[simp] theorem withFetchWord_cmd (s : State) (n w : Nat) :
    (s.withFetchWord n w).cmd = packetWords n w ++ (s.releaseReset.pkt ++ s.releaseReset.cmd) := rfl
@[simp] theorem withFetchWord_pkt (s : State) (n w : Nat) : (s.withFetchWord n w).pkt = [] := rfl
@[simp] theorem withFetchWord_sending (s : State) (n w : Nat) :
    (s.withFetchWord n w).sending = s.releaseReset.sending := rfl
@[simp] theorem withFetchWord_rsp (s : State) (n w : Nat) : (s.withFetchWord n w).rsp = s.rsp := releaseReset_rsp s
@[simp] theorem withFetchWord_resetLine (s : State) (n w : Nat) : (s.withFetchWord n w).resetLine = false :=
  releaseReset_resetLine s

/-! ### The state after reset -/

@[simp] theorem resetWith_straps (p : Straps) : (State.resetWith p).straps = p := rfl
@[simp] theorem resetWith_units (p : Straps) : (State.resetWith p).units = Units.reset (configOf p) := rfl
@[simp] theorem resetWith_cmd (p : Straps) : (State.resetWith p).cmd = [] := rfl
@[simp] theorem resetWith_pkt (p : Straps) : (State.resetWith p).pkt = [] := rfl
@[simp] theorem resetWith_sending (p : Straps) : (State.resetWith p).sending = none := rfl
@[simp] theorem resetWith_rsp (p : Straps) : (State.resetWith p).rsp = [] := rfl
@[simp] theorem resetWith_resetLine (p : Straps) : (State.resetWith p).resetLine = false := rfl

/-! ### The configuration of a state -/

@[simp] theorem config_num (s : State) : s.config.num = binary32 s.straps := rfl
@[simp] theorem config_sr (s : State) : s.config.sr = s.straps.sr := rfl
@[simp] theorem config_wtLen (s : State) : s.config.wtLen = s.straps.wtLen := rfl
@[simp] theorem config_nCh (s : State) : s.config.nCh = s.straps.nCh := rfl
@[simp] theorem config_fmMaxOps (s : State) : s.config.fmMaxOps = s.straps.fmMaxOps := rfl
@[simp] theorem config_noise (s : State) : s.config.noise = noiseOf s.straps := rfl

/-! ### The commit -/

@[simp] theorem commit_error (s : State) (e : FaultCode) : s.commit (.error e) = s.raise e := rfl

/-- What the last step of a command can do, once for all: the fault raised before it, the encoded result beside the
command's own writes, or `NumericFault` because the result has no encoding (60_exceptions.md R247). -/
theorem finish_cases {α : Type} (enc : α → Option Word) (a : Except FaultCode (Answer α)) :
    (∃ e, a = .error e ∧ finish enc a = .error e) ∨
    (∃ u r w, a = .ok (u, r) ∧ r.encode enc = some w ∧ finish enc a = .ok (u, w)) ∨
    ∃ u v, a = .ok (u, .num v) ∧ enc v = none ∧ finish enc a = .error .numericFault := by
  rcases a with e | ⟨u, r⟩
  · exact .inl ⟨e, rfl, rfl⟩
  · rcases r with _ | v | k
    · exact .inr (.inl ⟨u, .none, 0, rfl, rfl, rfl⟩)
    · rcases h : enc v with _ | w
      · exact .inr (.inr ⟨u, v, rfl, h, by simp [finish, Result.encode, h]⟩)
      · exact .inr (.inl ⟨u, .num v, w, rfl, h, by simp [finish, Result.encode, h]⟩)
    · exact .inr (.inl ⟨u, .nat k, _, rfl, rfl, rfl⟩)

/-- What a commit can do, once for all: the units are replaced and the response is `OK`, or nothing but a fault's
response is added. -/
theorem commit_cases (s : State) (a : Except FaultCode (Answer Num)) :
    (∃ u r w, a = .ok (u, r) ∧ r.encode enc32 = some w ∧
      s.commit a = { s with units := u, rsp := s.responses, sending := some (0, w) }) ∨
    ∃ e, s.commit a = s.raise e := by
  rcases finish_cases enc32 a with ⟨e, -, h⟩ | ⟨u, r, w, ha, hr, h⟩ | ⟨u, v, -, -, h⟩
  · exact .inr ⟨e, by simp [State.commit, h]⟩
  · exact .inl ⟨u, r, w, ha, hr, by simp only [State.commit, h]; rfl⟩
  · exact .inr ⟨.numericFault, by simp [State.commit, h]⟩

end Sys2Proof.Machine
end

