-- ==== Sys2Proof/Laws/Ops.lean ====
section
/-!
SUPPORT. For each shared operation, one lemma that says everything it can do.
-/

namespace Sys2Proof.Machine

variable {α β γ : Type}

/-! ### The table memory -/

/-- A read after a write: the written entry, and every other as before. -/
theorem tabRead_tabWrite (t : List (Nat × α)) (i j : Nat) (v : α) :
    tabRead (tabWrite t i v) j = if j = i then some v else tabRead t j := by
  induction t with
  | nil => simp [tabWrite, tabRead]
  | cons e t ih =>
    obtain ⟨k, w⟩ := e
    rcases lt_trichotomy i k with h | rfl | h
    · have hne : i ≠ k := by omega
      simp only [tabWrite, hne, h, if_true, if_false]
      by_cases hj : j = i
      · simp [tabRead, hj]
      · by_cases hji : j < i
        · have h1 : j ≠ k := by omega
          have h2 : j < k := by omega
          simp [tabRead, hj, hji, h1, h2]
        · simp [tabRead, hj, hji]
    · by_cases hj : j = i
      · simp [tabWrite, tabRead, hj]
      · simp [tabWrite, tabRead, hj]
    · have hne : i ≠ k := by omega
      have hnl : ¬ i < k := by omega
      simp only [tabWrite, hne, hnl, if_false]
      by_cases hj : j = k
      · have : j ≠ i := by omega
        simp [tabRead, hj, hne.symm]
      · by_cases hjk : j < k
        · have : j ≠ i := by omega
          simp [tabRead, hj, hjk, this]
        · simp [tabRead, hj, hjk, ih]

/-- Every index in a canonical table after its first is greater than the first. -/
theorem Memory.wf_cons {i : Nat} {v : α} {t : List (Nat × α)} :
    Memory.wf ((i, v) :: t) = true ↔ (∀ e ∈ t, i < e.1) ∧ Memory.wf t = true := by
  induction t generalizing i v with
  | nil => simp [Memory.wf]
  | cons e t ih =>
    obtain ⟨j, w⟩ := e
    simp only [Memory.wf, Bool.and_eq_true, decide_eq_true_eq, List.mem_cons, forall_eq_or_imp]
    constructor
    · rintro ⟨hij, hw⟩
      exact ⟨⟨hij, fun e he => lt_trans hij ((ih.1 hw).1 e he)⟩, hw⟩
    · rintro ⟨⟨hij, -⟩, hw⟩
      exact ⟨hij, hw⟩

/-- The indices listed after a write. -/
theorem mem_tabWrite {t : List (Nat × α)} {i : Nat} {v : α} {e : Nat × α} (h : e ∈ tabWrite t i v) :
    e = (i, v) ∨ e ∈ t := by
  induction t with
  | nil => simpa [tabWrite] using h
  | cons d t ih =>
    obtain ⟨k, w⟩ := d
    simp only [tabWrite] at h
    split at h
    · rcases List.mem_cons.1 h with h | h
      · exact .inl h
      · exact .inr (List.mem_cons_of_mem _ h)
    · split at h
      · rcases List.mem_cons.1 h with h | h
        · exact .inl h
        · exact .inr h
      · rcases List.mem_cons.1 h with h | h
        · exact .inr (h ▸ List.mem_cons_self)
        · rcases ih h with h | h
          · exact .inl h
          · exact .inr (List.mem_cons_of_mem _ h)

/-- A write keeps the canonical form. -/
theorem tabWrite_wf {t : List (Nat × α)} (i : Nat) (v : α) (h : Memory.wf t = true) :
    Memory.wf (tabWrite t i v) = true := by
  induction t with
  | nil => rfl
  | cons d t ih =>
    obtain ⟨k, w⟩ := d
    have hk := Memory.wf_cons.1 h
    simp only [tabWrite]
    split
    · next hik => exact Memory.wf_cons.2 ⟨hik ▸ hk.1, hk.2⟩
    · split
      · next hlt =>
        refine Memory.wf_cons.2 ⟨fun e he => ?_, h⟩
        rcases List.mem_cons.1 he with rfl | he
        · exact hlt
        · exact lt_trans hlt (hk.1 e he)
      · next hne hnl =>
        refine Memory.wf_cons.2 ⟨fun e he => ?_, ih hk.2⟩
        rcases mem_tabWrite he with rfl | he
        · show k < i
          omega
        · exact hk.1 e he

/-- The indices of a filled table run from the first one on. -/
theorem tabFill_index {v : Nat → Option α} {n i : Nat} {t : List (Nat × α)} (h : tabFill v n i = some t) :
    ∀ e ∈ t, i ≤ e.1 ∧ e.1 < i + n := by
  induction n generalizing i t with
  | zero =>
    obtain rfl : t = [] := by simpa [tabFill] using h
    simp
  | succ n ih =>
    simp only [tabFill, Option.bind_eq_bind, Option.bind_eq_some_iff] at h
    obtain ⟨x, -, t', ht, hp⟩ := h
    obtain rfl : (i, x) :: t' = t := by simpa using hp
    intro e he
    rcases List.mem_cons.1 he with rfl | he
    · exact ⟨le_refl _, by simp⟩
    · have := ih ht e he
      omega

/-- A filled table has the canonical form. -/
theorem tabFill_wf {v : Nat → Option α} {n i : Nat} {t : List (Nat × α)} (h : tabFill v n i = some t) :
    Memory.wf t = true := by
  induction n generalizing i t with
  | zero =>
    obtain rfl : t = [] := by simpa [tabFill] using h
    rfl
  | succ n ih =>
    simp only [tabFill, Option.bind_eq_bind, Option.bind_eq_some_iff] at h
    obtain ⟨x, -, t', ht, hp⟩ := h
    obtain rfl : (i, x) :: t' = t := by simpa using hp
    refine Memory.wf_cons.2 ⟨fun e he => ?_, ih ht⟩
    have := tabFill_index ht e he
    omega

/-- The table after reset has the canonical form. -/
theorem reset_tab_wf : Memory.wf State.reset.units.wt.tab = true := rfl

/-! ### Faults -/

@[simp] theorem numeric_eq_ok {x : Option β} {y : β} : numeric x = .ok y ↔ x = some y := by
  cases x <;> simp [numeric]

@[simp] theorem numeric_some (y : β) : numeric (some y) = .ok y := rfl
@[simp] theorem numeric_none : numeric (none : Option β) = .error .numericFault := rfl

@[simp] theorem require_eq_ok {b : Bool} {e : FaultCode} {y : Unit} : require b e = .ok y ↔ b = true := by
  cases b <;> simp [require]

@[simp] theorem require_true (e : FaultCode) : require true e = .ok () := rfl
@[simp] theorem require_false (e : FaultCode) : require false e = .error e := rfl

@[simp] theorem configured_eq_ok {x : Option β} {y : β} : configured x = .ok y ↔ x = some y := by
  cases x <;> simp [configured]

@[simp] theorem configured_some (y : β) : configured (some y) = .ok y := rfl
@[simp] theorem configured_none : configured (none : Option β) = .error .notConfigured := rfl

@[simp] theorem operand_eq_ok {w : Word} {v : Num} : operand w = .ok v ↔ dec32 w = some v := by
  unfold operand
  cases dec32 w <;> simp

/-- An operand word is refused exactly when its exponent field is 255. -/
theorem operand_error_iff {w : Word} {e : FaultCode} :
    operand w = .error e ↔ expField w = 255 ∧ e = .badOperand := by
  unfold operand dec32
  by_cases h : expField w = 255
  · simp [h, eq_comm]
  · simp [h]

@[simp] theorem operatorAt_eq_ok {fm : Fm α} {i : Nat} {o : Osc α} :
    operatorAt fm i = .ok o ↔ fm.ops[i]? = some o := by
  unfold operatorAt
  cases fm.ops[i]? <;> simp

@[simp] theorem validEntry_eq_ok {t : List (Nat × α)} {i : Nat} {v : α} :
    validEntry t i = .ok v ↔ tabRead t i = some v := configured_eq_ok

/-- A computation after another one: it answers only if both do. -/
theorem bind_eq_ok {x : Except FaultCode β} {f : β → Except FaultCode γ} {y : γ} :
    (x >>= f) = .ok y ↔ ∃ b, x = .ok b ∧ f b = .ok y := by
  cases x <;> simp [bind, Except.bind]

@[simp] theorem ok_bind (b : β) (f : β → Except FaultCode γ) : ((.ok b : Except FaultCode β) >>= f) = f b := rfl
@[simp] theorem error_bind (e : FaultCode) (f : β → Except FaultCode γ) :
    ((.error e : Except FaultCode β) >>= f) = .error e := rfl

/-! ### The phase -/

/-- `wrap` of the hardware instance keeps its value in `[0, TAU)` (00_scope.md R14). -/
theorem wrap32_inTurn (p : Num) : inTurn32 (wrap32 p) = true := by
  have h0 : inTurn32 0 = true := by decide +kernel
  have hother : inTurn32 (wrapOther32 p) = true := by
    unfold wrapOther32
    simp only
    split
    · assumption
    · exact h0
  unfold wrap32
  split
  · split
    · assumption
    · exact hother
  · exact hother

end Sys2Proof.Machine
end

