-- ==== Sys2Proof/Laws/Numerics.lean ====
section
/-!
SUPPORT. The primitives of the hardware instance as roundings of exact arithmetic, its constants, and a command's answer
as one of the two ways it can end.
-/

namespace Sys2Proof.Machine

variable (p : Straps)

/-! ### The primitives of `NUM = binary32` (00_scope.md R12) -/

@[simp] theorem binary32_add (x y : Num) : (binary32 p).add x y = round32 (x + y) := rfl
@[simp] theorem binary32_sub (x y : Num) : (binary32 p).sub x y = round32 (x - y) := rfl
@[simp] theorem binary32_mul (x y : Num) : (binary32 p).mul x y = round32 (x * y) := rfl
@[simp] theorem binary32_abs (x : Num) : (binary32 p).abs x = |x| := rfl
@[simp] theorem binary32_floor (x : Num) : (binary32 p).floor x = x.floor := rfl
@[simp] theorem binary32_sqrt (x : Num) : (binary32 p).sqrt x = sqrtOf p x := rfl
@[simp] theorem binary32_sin (x : Num) : (binary32 p).sin x = prim32 p.prim .sin x := rfl
@[simp] theorem binary32_tan (x : Num) : (binary32 p).tan x = prim32 p.prim .tan x := rfl
@[simp] theorem binary32_exp (x : Num) : (binary32 p).exp x = prim32 p.prim .exp x := rfl
@[simp] theorem binary32_ln (x : Num) : (binary32 p).ln x = prim32 p.prim .ln x := rfl
@[simp] theorem binary32_pow10 (x : Num) : (binary32 p).pow10 x = prim32 p.prim .pow10 x := rfl
@[simp] theorem binary32_lt (x y : Num) : (binary32 p).lt x y = decide (x < y) := rfl
@[simp] theorem binary32_le (x y : Num) : (binary32 p).le x y = decide (x ≤ y) := rfl
@[simp] theorem binary32_pi : (binary32 p).pi = pi32 := rfl
@[simp] theorem binary32_tau : (binary32 p).tau = tau32 := rfl
@[simp] theorem binary32_wrap (x : Num) : (binary32 p).wrap x = wrap32 x := rfl

/-- A quotient by a number that is not 0 is the rounded quotient. -/
theorem binary32_div {y : Num} (h : y ≠ 0) (x : Num) : (binary32 p).div x y = round32 (x / y) := if_neg h

/-- A quotient by 0 is not finite. -/
@[simp] theorem binary32_div_zero (x : Num) : (binary32 p).div x 0 = none := by
  simp [binary32]

/-- What a division can do: its divisor is not 0, and its result is the rounded quotient. -/
theorem binary32_div_eq_some {x y z : Num} :
    (binary32 p).div x y = some z ↔ y ≠ 0 ∧ round32 (x / y) = some z := by
  by_cases h : y = 0
  · subst h; simp
  · simp [binary32_div _ h, h]

theorem tau32_ne_zero : tau32 ≠ 0 := by decide +kernel

/-! ### The constants the rules write -/

@[simp] theorem binary32_ofRat_zero : (binary32 p).ofRat 0 = 0 := by
  show (round32 0).getD 0 = 0
  decide +kernel
@[simp] theorem binary32_ofRat_one : (binary32 p).ofRat 1 = 1 := by
  show (round32 1).getD 0 = 1
  decide +kernel
@[simp] theorem binary32_ofRat_two : (binary32 p).ofRat 2 = 2 := by
  show (round32 2).getD 0 = 2
  decide +kernel
@[simp] theorem binary32_ofRat_neg_one : (binary32 p).ofRat (-1) = -1 := by
  show (round32 (-1)).getD 0 = -1
  decide +kernel
@[simp] theorem binary32_ofRat_half : (binary32 p).ofRat (1 / 2) = 1 / 2 := by
  show (round32 (1 / 2)).getD 0 = 1 / 2
  decide +kernel
@[simp] theorem binary32_ofRat_neg_two : (binary32 p).ofRat (-2) = -2 := by
  show (round32 (-2)).getD 0 = -2
  decide +kernel
@[simp] theorem binary32_ofRat_twenty : (binary32 p).ofRat 20 = 20 := by
  show (round32 20).getD 0 = 20
  decide +kernel
/-- The default attack ratio 0.3 (42_envelope.md R131). -/
theorem binary32_ratioA : (binary32 p).ofRat (3 / 10) = finite32 0x3E99999A := by
  show (round32 (3 / 10)).getD 0 = finite32 0x3E99999A
  decide +kernel
/-- The default decay and release ratio 1e-4 (42_envelope.md R131). -/
theorem binary32_ratioDR : (binary32 p).ofRat (1 / 10000) = finite32 0x38D1B717 := by
  show (round32 (1 / 10000)).getD 0 = finite32 0x38D1B717
  decide +kernel
/-- The least ratio, 1e-9 (42_envelope.md R139). -/
theorem binary32_ratioMin : ratioMin (binary32 p) = finite32 0x3089705F := by
  show (round32 (1 / 1000000000)).getD 0 = finite32 0x3089705F
  decide +kernel

/-- `max` of the hardware instance is the maximum (00_scope.md R15). -/
theorem binary32_maxNum (a b : Num) : maxNum (binary32 p) a b = max a b := by
  by_cases h : b ≤ a
  · simp [maxNum, h]
  · simp [maxNum, h, le_of_not_ge h]

/-! ### The answer of a command (30_encoding.md R76) -/

/-- A command that does not fault and whose result can be encoded completes. -/
theorem answer_ok {s : State} {u : Units Num} {r : Result Num} {w : Word} (h : r.encode enc32 = some w) :
    answer s (.ok (u, r)) = completes s u w := by
  simp only [answer, State.commit, finish, h]; rfl

@[simp] theorem answer_none (s : State) (u : Units Num) : answer s (.ok (u, .none)) = completes s u 0 := answer_ok rfl

@[simp] theorem answer_nat (s : State) (u : Units Num) (k : Nat) :
    answer s (.ok (u, .nat k)) = completes s u (BitVec.ofNat 32 k) := answer_ok rfl

theorem answer_num {s : State} {u : Units Num} {v : Num} {w : Word} (h : enc32 v = some w) :
    answer s (.ok (u, .num v)) = completes s u w := answer_ok h

/-- A result that cannot be encoded is `NumericFault` (60_exceptions.md R247). -/
theorem answer_num_overflow {s : State} {u : Units Num} {v : Num} (h : enc32 v = none) :
    answer s (.ok (u, .num v)) = faulted s 7 := by
  simp only [answer, State.commit, finish, Result.encode, h]; rfl

@[simp] theorem answer_error (s : State) (e : FaultCode) : answer s (.error e) = faulted s e.status := rfl

end Sys2Proof.Machine
end

