-- ==== Sys2Proof/Laws/Packet.lean ====
section
/-!
SUPPORT. The header's fields, and what the framing can answer.
-/

namespace Sys2Proof

/-! ### Each field of a header word is the one it was made of (30_encoding.md R71) -/

@[simp] theorem unitOf_header (u f : BitVec 4) (n : BitVec 3) (s : BitVec 5) (i : BitVec 16) :
    unitOf (header u f n s i) = u := by
  ext k hk
  simp only [unitOf, header, BitVec.getElem_extractLsb', BitVec.getLsbD_cast, BitVec.getLsbD_append]
  have h1 : ¬ 28 + k < 16 := by omega
  have h2 : ¬ 28 + k - 16 < 5 := by omega
  have h3 : ¬ 28 + k - 16 - 5 < 3 := by omega
  have h4 : ¬ 28 + k - 16 - 5 - 3 < 4 := by omega
  have h5 : 28 + k - 16 - 5 - 3 - 4 = k := by omega
  simp [h1, h2, h3, h4, h5, BitVec.getLsbD_eq_getElem hk]

@[simp] theorem funcOf_header (u f : BitVec 4) (n : BitVec 3) (s : BitVec 5) (i : BitVec 16) :
    funcOf (header u f n s i) = f := by
  ext k hk
  simp only [funcOf, header, BitVec.getElem_extractLsb', BitVec.getLsbD_cast, BitVec.getLsbD_append]
  have h1 : ¬ 24 + k < 16 := by omega
  have h2 : ¬ 24 + k - 16 < 5 := by omega
  have h3 : ¬ 24 + k - 16 - 5 < 3 := by omega
  have h4 : 24 + k - 16 - 5 - 3 < 4 := by omega
  have h5 : 24 + k - 16 - 5 - 3 = k := by omega
  simp [h1, h2, h3, h5, hk]

@[simp] theorem nargsOf_header (u f : BitVec 4) (n : BitVec 3) (s : BitVec 5) (i : BitVec 16) :
    nargsOf (header u f n s i) = n := by
  ext k hk
  simp only [nargsOf, header, BitVec.getElem_extractLsb', BitVec.getLsbD_cast, BitVec.getLsbD_append]
  have h1 : ¬ 21 + k < 16 := by omega
  have h2 : ¬ 21 + k - 16 < 5 := by omega
  have h5 : 21 + k - 16 - 5 = k := by omega
  simp [h1, h2, h5, hk]

@[simp] theorem selOf_header (u f : BitVec 4) (n : BitVec 3) (s : BitVec 5) (i : BitVec 16) :
    selOf (header u f n s i) = s := by
  ext k hk
  simp only [selOf, header, BitVec.getElem_extractLsb', BitVec.getLsbD_cast, BitVec.getLsbD_append]
  have h1 : ¬ 16 + k < 16 := by omega
  have h5 : 16 + k - 16 = k := by omega
  simp [hk]

@[simp] theorem idxOf_header (u f : BitVec 4) (n : BitVec 3) (s : BitVec 5) (i : BitVec 16) :
    idxOf (header u f n s i) = i := by
  ext k hk
  simp only [idxOf, header, BitVec.getElem_extractLsb', BitVec.getLsbD_cast, BitVec.getLsbD_append]
  simp [hk]

/-- Two header words with the same fields are the same word. -/
theorem header_fields (h : Word) : header (unitOf h) (funcOf h) (nargsOf h) (selOf h) (idxOf h) = h := by
  ext k hk
  simp only [header, BitVec.getElem_cast, BitVec.getElem_append, unitOf, funcOf, nargsOf, selOf, idxOf,
    BitVec.getElem_extractLsb']
  split
  · simp [BitVec.getLsbD_eq_getElem hk]
  · split
    · have : 16 + (k - 16) = k := by omega
      simp [this, BitVec.getLsbD_eq_getElem hk]
    · split
      · have : 21 + (k - 16 - 5) = k := by omega
        simp [this, BitVec.getLsbD_eq_getElem hk]
      · split
        · have : 24 + (k - 16 - 5 - 3) = k := by omega
          simp [this, BitVec.getLsbD_eq_getElem hk]
        · have : 28 + (k - 16 - 5 - 3 - 4) = k := by omega
          simp [this, BitVec.getLsbD_eq_getElem hk]

/-! ### Framing (30_encoding.md R72) -/

/-- A header followed by as many words as its `nargs` says is taken whole. -/
theorem fetchPacket_append (h : Word) (ops rest : List Word) (hn : ops.length = (nargsOf h).toNat) :
    fetchPacket (h :: (ops ++ rest)) = .packet h ops rest := by
  simp [fetchPacket, ← hn]

/-- What the framing can answer. -/
theorem fetchPacket_cases (ws : List Word) :
    (ws = [] ∧ fetchPacket ws = .idle) ∨
    (∃ h t, ws = h :: t ∧ t.length < (nargsOf h).toNat ∧ fetchPacket ws = .truncated) ∨
    ∃ h ops rest, ws = h :: (ops ++ rest) ∧ ops.length = (nargsOf h).toNat ∧ fetchPacket ws = .packet h ops rest := by
  cases ws with
  | nil => exact .inl ⟨rfl, rfl⟩
  | cons h t =>
    by_cases hn : (nargsOf h).toNat ≤ t.length
    · exact .inr (.inr ⟨h, t.take (nargsOf h).toNat, t.drop (nargsOf h).toNat, by simp, by simp [hn],
        by simp [fetchPacket, hn]⟩)
    · exact .inr (.inl ⟨h, t, rfl, by omega, by simp [fetchPacket, hn]⟩)

/-- The code of a waveform reads back as it. -/
@[simp] theorem waveOfCode_waveCode (w : Wave) : waveOfCode (waveCode w) = some w := by cases w <;> rfl
@[simp] theorem ftypeOfCode_ftypeCode (t : FType) : ftypeOfCode (ftypeCode t) = some t := by cases t <;> rfl
@[simp] theorem variantOfCode_variantCode (v : Variant) : variantOfCode (variantCode v) = some v := by cases v <;> rfl
@[simp] theorem gateOfCode_gateCode (b : Bool) : gateOfCode (gateCode b) = some b := by cases b <;> rfl

end Sys2Proof

namespace Sys2Proof.Machine

/-- What one step can do, once for all: hold the block in reset, wait and send a response in progress, accept the beginning
of a packet, be stuck, or take a packet and run it. -/
theorem step_cases (s : State) :
    (s.resetLine = true ∧ step s = .next s.holdReset) ∨
    (s.resetLine = false ∧ s.pkt = [] ∧ s.cmd = [] ∧ step s = .next s.deliver) ∨
    (s.resetLine = false ∧ fetchPacket (s.pkt ++ s.cmd) = .truncated ∧
      step s = .next { s.deliver with pkt := s.pkt ++ s.cmd, cmd := [] }) ∨
    (s.resetLine = false ∧ s.cmd = [] ∧ s.sending = none ∧ step s = .fault .truncatedPacket) ∨
    ∃ h ops rest, s.resetLine = false ∧ s.pkt ++ s.cmd = h :: (ops ++ rest) ∧ ops.length = (nargsOf h).toNat ∧
      step s = runPacket h ops { s with pkt := [], cmd := rest } := by
  cases hr : s.resetLine with
  | true => exact .inl ⟨rfl, by simp [step, hr]⟩
  | false =>
    refine .inr ?_
    rcases fetchPacket_cases (s.pkt ++ s.cmd) with ⟨h0, hf⟩ | ⟨h, t, -, -, hf⟩ | ⟨h, ops, rest, hc, hl, hf⟩
    · obtain ⟨hp, hc⟩ := List.append_eq_nil_iff.1 h0
      exact .inl ⟨rfl, hp, hc, by simp [step, hr, hf]⟩
    · by_cases hw : (s.cmd.isEmpty && s.sending.isNone) = true
      · have hw' : s.cmd = [] ∧ s.sending = none := by simpa using hw
        exact .inr (.inr (.inl ⟨rfl, hw'.1, hw'.2, by simp only [step, hr, hf, if_pos hw]⟩))
      · exact .inr (.inl ⟨rfl, hf, by simp only [step, hr, hf, if_neg hw]⟩)
    · exact .inr (.inr (.inr ⟨h, ops, rest, rfl, hc, hl, by simp [step, hr, hf]⟩))

/-- What running a packet can do: execute the command it decodes to, or answer `IllegalCommand`. -/
theorem runPacket_cases (h : Word) (ops : List Word) (s : State) :
    (∃ i, decode h ops = .ok i ∧ runPacket h ops s = exec i s) ∨
    ∃ e, decode h ops = .error e ∧ runPacket h ops s = .next (s.raise .illegalCommand) := by
  cases hd : decode h ops with
  | ok i => exact .inl ⟨i, rfl, by simp [runPacket, hd]⟩
  | error e => exact .inr ⟨e, rfl, by simp [runPacket, hd]⟩

end Sys2Proof.Machine
end

