-- ==== Sys2Proof/Laws/PerInstr.lean ====
section
/-!
SUPPORT. What holds of every command as syntax, one lemma per constructor: its packet is a header word and exactly as
many operand words as the header's `nargs` field says, at most four (30_encoding.md R72).
-/

namespace Sys2Proof.Laws.EncodeShape

/-- The packet of a command is a header word and the operand words it announces, at most four (R72). -/
def Statement (i : Instr) : Prop :=
  ∃ h ops, encode i = h :: ops ∧ ops.length = (nargsOf h).toNat ∧ ops.length ≤ 4

/-- The common shape: a header made of fields, and as many words as its `nargs`. -/
theorem shape {i : Instr} (u f : BitVec 4) (n : BitVec 3) (s : BitVec 5) (x : BitVec 16) (ops : List Word)
    (he : encode i = header u f n s x :: ops) (hn : ops.length = n.toNat) (hle : Nat.ble n.toNat 4 = true) :
    Statement i :=
  ⟨_, ops, he, by rw [nargsOf_header, hn], hn ▸ Nat.le_of_ble_eq_true hle⟩

theorem sysRdreg (regno : Nat) : Statement (.sysRdreg regno) :=
  shape _ _ _ _ _ _ rfl rfl rfl

theorem krnEval (w : Wave) (p : Word) : Statement (.krnEval w p) :=
  shape _ _ _ _ _ _ rfl rfl rfl

theorem oscInit (w : Wave) (f a : Word) : Statement (.oscInit w f a) :=
  shape _ _ _ _ _ _ rfl rfl rfl

theorem oscSettype (w : Wave) : Statement (.oscSettype w) :=
  shape _ _ _ _ _ _ rfl rfl rfl

theorem oscSetfreq (f : Word) : Statement (.oscSetfreq f) :=
  shape _ _ _ _ _ _ rfl rfl rfl

theorem oscSetamp (a : Word) : Statement (.oscSetamp a) :=
  shape _ _ _ _ _ _ rfl rfl rfl

theorem oscReset : Statement (.oscReset) :=
  shape _ _ _ _ _ _ rfl rfl rfl

theorem oscGetvalue : Statement (.oscGetvalue) :=
  shape _ _ _ _ _ _ rfl rfl rfl

theorem oscGetmod (m : Word) : Statement (.oscGetmod m) :=
  shape _ _ _ _ _ _ rfl rfl rfl

theorem oscAtphase (p : Word) : Statement (.oscAtphase p) :=
  shape _ _ _ _ _ _ rfl rfl rfl

theorem envInit (attackS decayS sustain releaseS : Word) : Statement (.envInit attackS decayS sustain releaseS) :=
  shape _ _ _ _ _ _ rfl rfl rfl

theorem envSetattack (attackS : Word) : Statement (.envSetattack attackS) :=
  shape _ _ _ _ _ _ rfl rfl rfl

theorem envSetdecay (decayS : Word) : Statement (.envSetdecay decayS) :=
  shape _ _ _ _ _ _ rfl rfl rfl

theorem envSetsustain (sustain : Word) : Statement (.envSetsustain sustain) :=
  shape _ _ _ _ _ _ rfl rfl rfl

theorem envSetrelease (releaseS : Word) : Statement (.envSetrelease releaseS) :=
  shape _ _ _ _ _ _ rfl rfl rfl

theorem envSetratioa (ratio : Word) : Statement (.envSetratioa ratio) :=
  shape _ _ _ _ _ _ rfl rfl rfl

theorem envSetratiodr (ratio : Word) : Statement (.envSetratiodr ratio) :=
  shape _ _ _ _ _ _ rfl rfl rfl

theorem envGate (on : Bool) : Statement (.envGate on) :=
  shape _ _ _ _ _ _ rfl rfl rfl

theorem envProcess : Statement (.envProcess) :=
  shape _ _ _ _ _ _ rfl rfl rfl

theorem bqInit (t : FType) (f q g : Word) : Statement (.bqInit t f q g) :=
  shape _ _ _ _ _ _ rfl rfl rfl

theorem bqSettype (t : FType) : Statement (.bqSettype t) :=
  shape _ _ _ _ _ _ rfl rfl rfl

theorem bqSetfreq (f : Word) : Statement (.bqSetfreq f) :=
  shape _ _ _ _ _ _ rfl rfl rfl

theorem bqSetq (q : Word) : Statement (.bqSetq q) :=
  shape _ _ _ _ _ _ rfl rfl rfl

theorem bqSetgain (g : Word) : Statement (.bqSetgain g) :=
  shape _ _ _ _ _ _ rfl rfl rfl

theorem bqProcess (channel : Nat) (x : Word) : Statement (.bqProcess channel x) :=
  shape _ _ _ _ _ _ rfl rfl rfl

theorem ngSettype (v : Variant) : Statement (.ngSettype v) :=
  shape _ _ _ _ _ _ rfl rfl rfl

theorem ngSeed (seed : BitVec 16) : Statement (.ngSeed seed) :=
  shape _ _ _ _ _ _ rfl rfl rfl

theorem ngGetvalue : Statement (.ngGetvalue) :=
  shape _ _ _ _ _ _ rfl rfl rfl

theorem wtBuild (w : Wave) : Statement (.wtBuild w) :=
  shape _ _ _ _ _ _ rfl rfl rfl

theorem wtLoad (entry : Nat) (v : Word) : Statement (.wtLoad entry v) :=
  shape _ _ _ _ _ _ rfl rfl rfl

theorem wtReset : Statement (.wtReset) :=
  shape _ _ _ _ _ _ rfl rfl rfl

theorem wtGetfreq (f : Word) : Statement (.wtGetfreq f) :=
  shape _ _ _ _ _ _ rfl rfl rfl

theorem wtAtphase (p : Word) : Statement (.wtAtphase p) :=
  shape _ _ _ _ _ _ rfl rfl rfl

theorem wtRdtab (entry : Nat) : Statement (.wtRdtab entry) :=
  shape _ _ _ _ _ _ rfl rfl rfl

theorem fmInit (w : Wave) (f a : Word) : Statement (.fmInit w f a) :=
  shape _ _ _ _ _ _ rfl rfl rfl

theorem fmCsettype (w : Wave) : Statement (.fmCsettype w) :=
  shape _ _ _ _ _ _ rfl rfl rfl

theorem fmCsetfreq (f : Word) : Statement (.fmCsetfreq f) :=
  shape _ _ _ _ _ _ rfl rfl rfl

theorem fmCsetamp (a : Word) : Statement (.fmCsetamp a) :=
  shape _ _ _ _ _ _ rfl rfl rfl

theorem fmCreset : Statement (.fmCreset) :=
  shape _ _ _ _ _ _ rfl rfl rfl

theorem fmAddop (w : Wave) (f a : Word) : Statement (.fmAddop w f a) :=
  shape _ _ _ _ _ _ rfl rfl rfl

theorem fmRemop (op : Nat) : Statement (.fmRemop op) :=
  shape _ _ _ _ _ _ rfl rfl rfl

theorem fmOpsettype (w : Wave) (op : Nat) : Statement (.fmOpsettype w op) :=
  shape _ _ _ _ _ _ rfl rfl rfl

theorem fmOpsetfreq (op : Nat) (f : Word) : Statement (.fmOpsetfreq op f) :=
  shape _ _ _ _ _ _ rfl rfl rfl

theorem fmOpsetamp (op : Nat) (a : Word) : Statement (.fmOpsetamp op a) :=
  shape _ _ _ _ _ _ rfl rfl rfl

theorem fmOpreset (op : Nat) : Statement (.fmOpreset op) :=
  shape _ _ _ _ _ _ rfl rfl rfl

theorem fmSample : Statement (.fmSample) :=
  shape _ _ _ _ _ _ rfl rfl rfl

end Sys2Proof.Laws.EncodeShape
end

