-- ==== Sys2Proof/Laws/Rounding.lean ====
section
/-!
SUPPORT. What the rounding to binary32 can do: the exponent it finds, the bounds a rounding keeps, and with them that every
`OtherEnvBase` obeys the law of R133.
-/

namespace Sys2Proof.Machine

/-! ### The exponent and the integer rounding -/

/-- `floorLog2` is the exponent of a positive quotient. -/
theorem floorLog2_spec {n d : Nat} (hn : n ≠ 0) (hd : d ≠ 0) :
    (2 : ℚ) ^ floorLog2 n d ≤ (n : ℚ) / d ∧ (n : ℚ) / d < (2 : ℚ) ^ (floorLog2 n d + 1) := by
  have hdq : (0 : ℚ) < d := by exact_mod_cast Nat.pos_of_ne_zero hd
  have n1 : (2 : ℚ) ^ (n.log2 : ℤ) ≤ n := by exact_mod_cast Nat.log2_self_le hn
  have n2 : (n : ℚ) < 2 ^ ((n.log2 : ℤ) + 1) := by exact_mod_cast (Nat.lt_log2_self (n := n))
  have d1 : (2 : ℚ) ^ (d.log2 : ℤ) ≤ d := by exact_mod_cast Nat.log2_self_le hd
  have d2 : (d : ℚ) < 2 ^ ((d.log2 : ℤ) + 1) := by exact_mod_cast (Nat.lt_log2_self (n := d))
  set e : ℤ := (n.log2 : ℤ) - (d.log2 : ℤ) with he
  have htest : (if 0 ≤ e then d * 2 ^ e.toNat ≤ n else d ≤ n * 2 ^ (-e).toNat) ↔ (2 : ℚ) ^ e ≤ (n : ℚ) / d := by
    rw [le_div_iff₀ hdq]
    split
    · rename_i h
      have : (2 : ℚ) ^ e = ((2 ^ e.toNat : Nat) : ℚ) := by
        conv_lhs => rw [← Int.toNat_of_nonneg h]
        push_cast; exact zpow_natCast _ _
      rw [this, mul_comm]; exact_mod_cast Iff.rfl
    · rename_i h
      have hk : (2 : ℚ) ^ e = ((2 ^ (-e).toNat : Nat) : ℚ)⁻¹ := by
        have : e = -((-e).toNat : ℤ) := by omega
        conv_lhs => rw [this]
        rw [zpow_neg, zpow_natCast]; push_cast; rfl
      rw [hk, inv_mul_le_iff₀ (by positivity), mul_comm]; exact_mod_cast Iff.rfl
  have hup : (n : ℚ) / d < 2 ^ (e + 1) := by
    rw [div_lt_iff₀ hdq]
    calc (n : ℚ) < 2 ^ ((n.log2 : ℤ) + 1) := n2
      _ = 2 ^ (e + 1) * 2 ^ (d.log2 : ℤ) := by rw [← zpow_add₀ (by norm_num)]; congr 1; omega
      _ ≤ 2 ^ (e + 1) * d := by gcongr
  have hlo : (2 : ℚ) ^ (e - 1) ≤ (n : ℚ) / d := by
    rw [le_div_iff₀ hdq]
    calc (2 : ℚ) ^ (e - 1) * d ≤ 2 ^ (e - 1) * 2 ^ ((d.log2 : ℤ) + 1) := by gcongr
      _ = 2 ^ (n.log2 : ℤ) := by rw [← zpow_add₀ (by norm_num)]; congr 1; omega
      _ ≤ n := n1
  unfold floorLog2
  simp only [← he, htest]
  split
  · rename_i h; exact ⟨h, hup⟩
  · rename_i h; exact ⟨hlo, by simpa using lt_of_not_ge h⟩

theorem roundHalfEven_le {x d k : Nat} (hd : 0 < d) (h : x ≤ k * d) : roundHalfEven x d ≤ k := by
  have hq : x / d ≤ k := by rw [Nat.div_le_iff_le_mul_add_pred hd]; nlinarith
  have hmod := Nat.div_add_mod x d
  have hlt := Nat.mod_lt x hd
  by_cases hk : x / d = k
  · have : x % d = 0 := by rw [hk] at hmod; rw [Nat.mul_comm] at h; omega
    simp [roundHalfEven, this, hk, hd]
  · have : x / d < k := lt_of_le_of_ne hq hk
    unfold roundHalfEven
    dsimp only
    split_ifs <;> omega

theorem le_roundHalfEven {x d k : Nat} (hd : 0 < d) (h : k * d ≤ x) : k ≤ roundHalfEven x d := by
  have hq : k ≤ x / d := (Nat.le_div_iff_mul_le hd).2 h
  unfold roundHalfEven
  dsimp only
  split_ifs <;> omega

/-- `k` units of a last place below 1, brought to the common denominator `d`. -/
theorem units_mul_den (k d : Nat) {u : Int} (hu : u < 0) :
    (k : ℚ) * 2 ^ u * d = k * d / ((2 ^ (-u).toNat : Nat) : ℚ) := by
  have h : u = -((-u).toNat : ℤ) := by omega
  conv_lhs => rw [h, zpow_neg, zpow_natCast]
  push_cast; ring

/-- A quotient at most `k` units of the last place rounds to at most `k` units. -/
theorem roundToUlp_le {n d k : Nat} {u : Int} (hd : d ≠ 0) (hu : u < 0) (h : (n : ℚ) / d ≤ k * 2 ^ u) :
    roundToUlp n d u ≤ k := by
  have hdq : (0 : ℚ) < d := by exact_mod_cast Nat.pos_of_ne_zero hd
  rw [roundToUlp, if_neg (by omega)]
  refine roundHalfEven_le (Nat.pos_of_ne_zero hd) ?_
  rw [div_le_iff₀ hdq, units_mul_den k d hu, le_div_iff₀ (by positivity)] at h
  exact_mod_cast h

/-- A quotient of at least `k` units of the last place rounds to at least `k` units. -/
theorem le_roundToUlp {n d k : Nat} {u : Int} (hd : d ≠ 0) (hu : u < 0) (h : k * 2 ^ u ≤ (n : ℚ) / d) :
    k ≤ roundToUlp n d u := by
  have hdq : (0 : ℚ) < d := by exact_mod_cast Nat.pos_of_ne_zero hd
  rw [roundToUlp, if_neg (by omega)]
  refine le_roundHalfEven (Nat.pos_of_ne_zero hd) ?_
  rw [le_div_iff₀ hdq, units_mul_den k d hu, div_le_iff₀ (by positivity)] at h
  exact_mod_cast h

/-! ### The fields of a rounded number -/

/-- Exponent and fraction of the number nearest `n / d`, as one number. -/
def roundedFields (n d : Nat) : Nat :=
  let u := ulpExponent (floorLog2 n d)
  packFields (roundToUlp n d u) u

theorem enc32_of_ne_zero {v : Num} (h : v ≠ 0) :
    enc32 v = packWord (decide (v.num < 0)) (roundedFields v.num.natAbs v.den) :=
  if_neg (by simpa using h)

theorem roundedFields_le_of_le_two_pow {n d j : Nat} (hn : n ≠ 0) (hd : d ≠ 0) (hj : j ≤ 22)
    (h : (n : ℚ) / d ≤ 2 ^ (j : ℤ)) : roundedFields n d ≤ (127 + j) * 2 ^ 23 := by
  obtain ⟨h1, h2⟩ := floorLog2_spec hn hd
  have he : floorLog2 n d ≤ j := (zpow_le_zpow_iff_right₀ (by norm_num : (1 : ℚ) < 2)).1 (h1.trans h)
  simp only [roundedFields]
  set e := floorLog2 n d
  rcases eq_or_lt_of_le he with heq | hlt
  · have hu : ulpExponent e = (j : ℤ) - 23 := by unfold ulpExponent; omega
    have hm : roundToUlp n d (ulpExponent e) ≤ 2 ^ 23 := by
      refine roundToUlp_le hd (by omega) (h.trans_eq ?_)
      rw [hu, zpow_sub₀ (by norm_num)]; norm_num; ring
    have hun : (ulpExponent e + 149).toNat = j + 126 := by omega
    simp only [packFields, hun]; omega
  · have hu : ulpExponent e ≤ (j : ℤ) - 24 := by unfold ulpExponent; omega
    have hue : e - 23 ≤ ulpExponent e := le_max_left _ _
    have hm : roundToUlp n d (ulpExponent e) ≤ 2 ^ 24 := by
      refine roundToUlp_le hd (by omega) (h2.le.trans ?_)
      have h24 : ((2 ^ 24 : Nat) : ℚ) = 2 ^ (24 : ℤ) := by norm_num
      rw [h24, ← zpow_add₀ (by norm_num)]
      exact zpow_le_zpow_right₀ (by norm_num) (by omega)
    have hun : (ulpExponent e + 149).toNat ≤ j + 125 := by omega
    simp only [packFields]; omega

theorem le_roundedFields_of_one_le {n d : Nat} (hn : n ≠ 0) (hd : d ≠ 0) (h : 1 ≤ (n : ℚ) / d)
    (h' : (n : ℚ) / d ≤ 2 ^ (22 : ℤ)) : 127 * 2 ^ 23 ≤ roundedFields n d := by
  obtain ⟨h1, h2⟩ := floorLog2_spec hn hd
  have he : floorLog2 n d ≤ 22 := (zpow_le_zpow_iff_right₀ (by norm_num : (1 : ℚ) < 2)).1 (h1.trans h')
  have he0 : 0 < floorLog2 n d + 1 := by
    by_contra hc
    have : (2 : ℚ) ^ (floorLog2 n d + 1) ≤ 1 := zpow_le_one_of_nonpos₀ (by norm_num) (by omega)
    linarith
  simp only [roundedFields]
  set e := floorLog2 n d
  have hu : ulpExponent e = e - 23 := by unfold ulpExponent; omega
  have hm : 2 ^ 23 ≤ roundToUlp n d (ulpExponent e) := by
    refine le_roundToUlp hd (by omega) (le_trans (le_of_eq ?_) h1)
    rw [hu, zpow_sub₀ (by norm_num)]; norm_num; ring
  have hun : 126 ≤ (ulpExponent e + 149).toNat := by omega
  simp only [packFields]; omega

/-! ### The value of a packed word -/

theorem fields_ofNat {k : Nat} (hk : k < 2147483648) : expField (BitVec.ofNat 32 k) = k / 2 ^ 23 ∧
    fracField (BitVec.ofNat 32 k) = k % 2 ^ 23 ∧ (BitVec.ofNat 32 k).msb = false := by
  refine ⟨?_, ?_, ?_⟩
  · simp only [expField, BitVec.extractLsb'_toNat, BitVec.toNat_ofNat, Nat.shiftRight_eq_div_pow]; omega
  · simp only [fracField, BitVec.extractLsb'_toNat, BitVec.toNat_ofNat, Nat.shiftRight_eq_div_pow]; omega
  · rw [BitVec.msb_eq_decide]; simp only [BitVec.toNat_ofNat, decide_eq_false_iff_not]; omega

theorem fields_ofNat_neg {k x : Nat} (hk : k < 2147483648) (hx : x = k + 2147483648) : expField (BitVec.ofNat 32 x) = k / 2 ^ 23 ∧
    fracField (BitVec.ofNat 32 x) = k % 2 ^ 23 ∧ (BitVec.ofNat 32 x).msb = true := by
  refine ⟨?_, ?_, ?_⟩
  · simp only [expField, BitVec.extractLsb'_toNat, BitVec.toNat_ofNat, Nat.shiftRight_eq_div_pow]; omega
  · simp only [fracField, BitVec.extractLsb'_toNat, BitVec.toNat_ofNat, Nat.shiftRight_eq_div_pow]; omega
  · rw [BitVec.msb_eq_decide]; simp only [BitVec.toNat_ofNat, decide_eq_true_eq]; omega

/-- The value of the fields `k`, sign apart. -/
def fieldsValue (k : Nat) : Num := magnitude (k / 2 ^ 23) (k % 2 ^ 23)

theorem packWord_eq (neg : Bool) {k : Nat} (h0 : k ≠ 0) (hk : k < 255 * 2 ^ 23) :
    ∃ x, x = k + (if neg then 2147483648 else 0) ∧ packWord neg k = some (BitVec.ofNat 32 x) :=
  ⟨_, rfl, by rw [packWord, if_neg h0, if_pos hk, show (2 : Nat) ^ 31 = 2147483648 by norm_num]⟩

/-- A packed word decodes to the value of its fields, with the sign. -/
theorem packWord_bind_dec32 (neg : Bool) {k : Nat} (hk : k < 255 * 2 ^ 23) :
    (packWord neg k).bind dec32 = some (if neg then -fieldsValue k else fieldsValue k) := by
  by_cases h0 : k = 0
  · subst h0; cases neg <;> decide +kernel
  · have he : k / 2 ^ 23 ≠ 255 := by omega
    obtain ⟨x, hx, hp⟩ := packWord_eq neg h0 hk
    rw [hp, Option.bind_some, dec32]
    cases neg
    · obtain ⟨h1, h2, h3⟩ := fields_ofNat (k := x) (by simp at hx; omega)
      simp only [Bool.false_eq_true, if_false, Nat.add_zero] at hx
      subst hx
      rw [h1, h2, h3, if_neg he]; simp [fieldsValue]
    · obtain ⟨h1, h2, h3⟩ := fields_ofNat_neg (k := k) (x := x) (by omega) (by simpa using hx)
      rw [h1, h2, h3, if_neg he]; simp [fieldsValue]

theorem pow2_eq (e : Int) : pow2 e = (2 : ℚ) ^ e := by
  unfold pow2
  split
  · rename_i h
    conv_rhs => rw [← Int.toNat_of_nonneg h]
    push_cast; exact (zpow_natCast _ _).symm
  · rename_i h
    have : e = -((-e).toNat : ℤ) := by omega
    conv_rhs => rw [this]
    rw [zpow_neg, zpow_natCast]; push_cast; rw [one_div]

theorem fieldsValue_nonneg (k : Nat) : 0 ≤ fieldsValue k := by
  unfold fieldsValue magnitude
  split <;> rw [pow2_eq] <;> positivity

/-- Fields up to those of 1 stand for a number up to 1. -/
theorem fieldsValue_le_one {k : Nat} (hk : k ≤ 127 * 2 ^ 23) : fieldsValue k ≤ 1 := by
  have hm : k % 2 ^ 23 < 2 ^ 23 := Nat.mod_lt _ (by norm_num)
  unfold fieldsValue magnitude
  generalize hmm : k % 2 ^ 23 = m at hm ⊢
  generalize hee : k / 2 ^ 23 = e
  have hmq : (m : ℚ) ≤ 2 ^ 23 := by exact_mod_cast hm.le
  split
  · rw [pow2_eq]
    calc (m : ℚ) * 2 ^ (-149 : ℤ) ≤ 2 ^ 23 * 2 ^ (-149 : ℤ) := by gcongr
      _ ≤ 1 := by norm_num
  · rw [pow2_eq]
    push_cast
    rcases Nat.lt_or_ge e 127 with h | h
    · calc ((2 : ℚ) ^ 23 + m) * 2 ^ ((e : ℤ) - 150) ≤ (2 ^ 23 + 2 ^ 23) * 2 ^ (-24 : ℤ) := by
            gcongr
            · norm_num
            · omega
        _ ≤ 1 := by norm_num
    · have he : e = 127 := by omega
      have h0 : m = 0 := by omega
      subst he h0
      norm_num

/-- Fields from those of 1 on stand for a number from 1 on. -/
theorem one_le_fieldsValue {k : Nat} (hk : 127 * 2 ^ 23 ≤ k) : 1 ≤ fieldsValue k := by
  unfold fieldsValue magnitude
  generalize k % 2 ^ 23 = m
  generalize hee : k / 2 ^ 23 = e
  have he : 127 ≤ e := by omega
  rw [if_neg (by omega), pow2_eq]
  push_cast
  calc (1 : ℚ) = 2 ^ 23 * 2 ^ (-23 : ℤ) := by norm_num
    _ ≤ (2 ^ 23 + m) * 2 ^ ((e : ℤ) - 150) := by
      gcongr
      · linarith [Nat.cast_nonneg (α := ℚ) m]
      · norm_num
      · omega

/-! ### The bounds a rounding keeps -/

theorem round32_of_pos {v : Num} (h : 0 < v) (hk : roundedFields v.num.natAbs v.den < 255 * 2 ^ 23) :
    round32 v = some (fieldsValue (roundedFields v.num.natAbs v.den)) := by
  have hn : ¬ v.num < 0 := by simpa using h.le
  rw [round32, enc32_of_ne_zero h.ne', packWord_bind_dec32 _ hk]; simp [hn]

theorem round32_of_neg {v : Num} (h : v < 0) (hk : roundedFields v.num.natAbs v.den < 255 * 2 ^ 23) :
    round32 v = some (-fieldsValue (roundedFields v.num.natAbs v.den)) := by
  have hn : v.num < 0 := by simpa using h
  rw [round32, enc32_of_ne_zero h.ne, packWord_bind_dec32 _ hk]; simp [hn]

theorem natAbs_div_den (v : Num) : (v.num.natAbs : ℚ) / v.den = |v| := by
  rw [Nat.cast_natAbs]
  conv_rhs => rw [← Rat.num_div_den v]
  rw [abs_div, Nat.abs_cast]; push_cast; rfl

/-- A number in `[0, 1]` rounds to a number in `[0, 1]`. -/
theorem round32_unit {v : Num} (h0 : 0 ≤ v) (h1 : v ≤ 1) : ∃ y, round32 v = some y ∧ 0 ≤ y ∧ y ≤ 1 := by
  rcases eq_or_lt_of_le h0 with rfl | h
  · exact ⟨0, by decide +kernel, le_refl _, by norm_num⟩
  · have hf := roundedFields_le_of_le_two_pow (n := v.num.natAbs) (d := v.den) (j := 0) (by simpa using h.ne')
      v.den_nz (by norm_num) (by rw [natAbs_div_den, abs_of_pos h]; simpa using h1)
    exact ⟨_, round32_of_pos h (by omega), fieldsValue_nonneg _, fieldsValue_le_one (by omega)⟩

/-- A number in `[1, 2]` rounds to a number from 1 on. -/
theorem round32_from_one {v : Num} (h1 : 1 ≤ v) (h2 : v ≤ 2) : ∃ y, round32 v = some y ∧ 1 ≤ y := by
  have h : 0 < v := by linarith
  have hn : v.num.natAbs ≠ 0 := by simpa using h.ne'
  have hf := roundedFields_le_of_le_two_pow (n := v.num.natAbs) (d := v.den) (j := 1) hn
    v.den_nz (by norm_num) (by rw [natAbs_div_den, abs_of_pos h]; simpa using h2)
  have hg := le_roundedFields_of_one_le hn v.den_nz (by rwa [natAbs_div_den, abs_of_pos h])
    (by rw [natAbs_div_den, abs_of_pos h]; norm_num; linarith)
  exact ⟨_, round32_of_pos h (by omega), one_le_fieldsValue hg⟩

/-- A number in `[-1, 0]` rounds to a number up to 0. -/
theorem round32_nonpos {v : Num} (h1 : -1 ≤ v) (h0 : v ≤ 0) : ∃ y, round32 v = some y ∧ y ≤ 0 := by
  rcases eq_or_lt_of_le h0 with rfl | h
  · exact ⟨0, by decide +kernel, le_refl _⟩
  · have hf := roundedFields_le_of_le_two_pow (n := v.num.natAbs) (d := v.den) (j := 0) (by simpa using h.ne)
      v.den_nz (by norm_num) (by rw [natAbs_div_den, abs_of_neg h]; norm_num; linarith)
    exact ⟨_, round32_of_neg h (by omega), by linarith [fieldsValue_nonneg (roundedFields v.num.natAbs v.den)]⟩

/-! ### The law of R133 -/

/-- A base of 1 ends Attack at the first call. -/
theorem stageClimbs_one {coef : Num} (h0 : 0 ≤ coef) (h1 : coef < 1) : StageClimbs 1 coef := by
  intro w x _ hx0 hx1
  obtain ⟨t, ht, ht0, ht1⟩ := round32_unit (mul_nonneg hx0 h0) (mul_le_one₀ hx1 h0 h1.le)
  obtain ⟨y, hy, hy1⟩ := round32_from_one (v := 1 + t) (by linarith) (by linarith)
  have hn : stageNext 1 coef x = some y := by simp [stageNext, ht, hy]
  exact ⟨⟨y, hn, hx1.trans hy1⟩, 1, y, by simp [stageRun, hn], hy1⟩

/-- A base of -1 ends Decay and Release at the first call. -/
theorem stageFalls_neg_one {coef floor : Num} (h0 : 0 ≤ coef) (h1 : coef < 1) (hf : 0 ≤ floor) :
    StageFalls (-1) coef floor := by
  intro w x _ hx0 hx1
  obtain ⟨t, ht, ht0, ht1⟩ := round32_unit (mul_nonneg (hf.trans hx0) h0) (mul_le_one₀ hx1 h0 h1.le)
  obtain ⟨y, hy, hy0⟩ := round32_nonpos (v := -1 + t) (by linarith) (by linarith)
  have hn : stageNext (-1) coef x = some y := by simp [stageNext, ht, hy]
  exact ⟨⟨y, hn, hy0.trans (hf.trans hx0)⟩, 1, y, by simp [stageRun, hn], hy0.trans hf⟩

theorem dec32_one : dec32 0x3F800000 = some 1 := by decide +kernel

theorem dec32_neg_one : dec32 0xBF800000 = some (-1) := by decide +kernel

/-- Every `OtherEnvBase` obeys the law of R133, the block's own among them. -/
theorem otherEnvBase_law : ∀ o : OtherEnvBase, EnvBaseLaw o.bases
  | .atOnce => fun _ _ _ _ _ _ _ _ hs _ =>
    ⟨fun h0 h1 => ⟨1, dec32_one, stageClimbs_one h0 h1⟩,
      fun h0 h1 => ⟨-1, dec32_neg_one, stageFalls_neg_one h0 h1 hs⟩,
      fun h0 h1 => ⟨-1, dec32_neg_one, stageFalls_neg_one h0 h1 le_rfl⟩⟩
  | .lawful _ law => law

end Sys2Proof.Machine
end

