-- ==== Sys2Proof/Machine/Reference.lean ====
section
/-!
DEFINITION. The commands above the wire, over any configuration record: what a command does to the units and what it
returns, as a `Num` and not as a word (00_scope.md R11, R17; 30_encoding.md R74; 92_eei_decisions.md section 7); and the
machine of the reference instance `NUM = real`, over which the rules are written: a command above the wire and then the
last encoding step, at which a result too large for binary32 is `NumericFault` (60_exceptions.md R247, U16).
-/

namespace Sys2Proof.Machine

variable {α : Type}

/-- One command: the units after it and its result, or the fault it raises. `read` takes an operand word to its value
(30_encoding.md R73). -/
def perform (c : Config α) (read : Word → Except FaultCode α) (i : Instr) (u : Units α) :
    Except FaultCode (Answer α) :=
  match i with
  | .sysRdreg regno => sysRdreg c regno u
  | .krnEval w p => do krnEval c w (← read p) u
  | .oscInit w f a => do oscInit c w (← read f) (← read a) u
  | .oscSettype w => oscSettype w u
  | .oscSetfreq f => do oscSetfreq c (← read f) u
  | .oscSetamp a => do oscSetamp (← read a) u
  | .oscReset => oscReset c u
  | .oscGetvalue => oscGetvalue c u
  | .oscGetmod m => do oscGetmod c (← read m) u
  | .oscAtphase p => do oscAtphase c (← read p) u
  | .envInit attackS decayS sustain releaseS => do
    envInit c (← read attackS) (← read decayS) (← read sustain) (← read releaseS) u
  | .envSetattack attackS => do envSetattack c (← read attackS) u
  | .envSetdecay decayS => do envSetdecay c (← read decayS) u
  | .envSetsustain sustain => do envSetsustain c (← read sustain) u
  | .envSetrelease releaseS => do envSetrelease c (← read releaseS) u
  | .envSetratioa ratio => do envSetratioa c (← read ratio) u
  | .envSetratiodr ratio => do envSetratiodr c (← read ratio) u
  | .envGate on => envGate on u
  | .envProcess => envProcess c u
  | .bqInit t f q g => do bqInit c t (← read f) (← read q) (← read g) u
  | .bqSettype t => bqSettype c t u
  | .bqSetfreq f => do bqSetfreq c (← read f) u
  | .bqSetq q => do bqSetq c (← read q) u
  | .bqSetgain g => do bqSetgain c (← read g) u
  | .bqProcess channel x => do bqProcess c channel (← read x) u
  | .ngSettype v => ngSettype c v u
  | .ngSeed seed => ngSeed c seed u
  | .ngGetvalue => ngGetvalue c u
  | .wtBuild w => wtBuild c w u
  | .wtLoad entry v => do wtLoad c entry (← read v) u
  | .wtReset => wtReset c u
  | .wtGetfreq f => do wtGetfreq c (← read f) u
  | .wtAtphase p => do wtAtphase c (← read p) u
  | .wtRdtab entry => wtRdtab c entry u
  | .fmInit w f a => do fmInit c w (← read f) (← read a) u
  | .fmCsettype w => fmCsettype w u
  | .fmCsetfreq f => do fmCsetfreq c (← read f) u
  | .fmCsetamp a => do fmCsetamp (← read a) u
  | .fmCreset => fmCreset c u
  | .fmAddop w f a => do fmAddop c w (← read f) (← read a) u
  | .fmRemop op => fmRemop op u
  | .fmOpsettype w op => fmOpsettype w op u
  | .fmOpsetfreq op f => do fmOpsetfreq c op (← read f) u
  | .fmOpsetamp op a => do fmOpsetamp op (← read a) u
  | .fmOpreset op => fmOpreset c op u
  | .fmSample => fmSample c u

/-- An operand word as a real number (30_encoding.md R73). -/
noncomputable def operandReal (w : Word) : Except FaultCode ℝ := (operand w).map fun v => (v : ℝ)

/-- One command from its operand words to its result word, the last encoding step included: the units after it and the
word returned, or the fault it raises (30_encoding.md R74, 60_exceptions.md R247). -/
def performWord (c : Config α) (read : Word → Except FaultCode α) (enc : α → Option Word) (i : Instr) (u : Units α) :
    Except FaultCode (Units α × Word) :=
  finish enc (perform c read i u)

/-- Commands one after another, each fault leaving the units as they were (20_memory.md R60, 60_exceptions.md R249): the
result words or faults in order and the units at the end. -/
def performAll (c : Config α) (read : Word → Except FaultCode α) (enc : α → Option Word) :
    List Instr → Units α → List (Except FaultCode Word) × Units α
  | [], u => ([], u)
  | i :: is, u =>
    match performWord c read enc i u with
    | .ok (u', w) =>
      let r := performAll c read enc is u'
      (.ok w :: r.1, r.2)
    | .error e =>
      let r := performAll c read enc is u
      (.error e :: r.1, r.2)

/-- One command of the reference instance (00_scope.md R11), its last encoding step included: a result too large for
binary32 is `NumericFault`, its writes dropped (60_exceptions.md R247, 92_eei_decisions.md D33, U16). -/
noncomputable def performReal (c : Config ℝ) (i : Instr) (u : Units ℝ) : Except FaultCode (Units ℝ × Word) :=
  performWord c operandReal encReal i u

/-- Commands of the reference instance one after another. -/
noncomputable def performAllReal (c : Config ℝ) (is : List Instr) (u : Units ℝ) :
    List (Except FaultCode Word) × Units ℝ :=
  performAll c operandReal encReal is u

end Sys2Proof.Machine
end

