-- ==== Sys2Proof/Laws/Units.lean ====
section
/-!
SUPPORT. One specification lemma per function of the units, for proofs to cite instead of unfolding it.
-/

namespace Sys2Proof.Machine

variable {α : Type}

/-- Executing a command is performing it above the wire and answering (30_encoding.md R74, R80). -/
theorem exec_eq_perform (i : Instr) (s : State) : exec i s = answer s (perform s.config operand i s.units) := by
  cases i <;> rfl

/-- Every command answers in one step (70_reset_and_hazards.md R275). -/
theorem exec_eq_answer (i : Instr) (s : State) : ∃ a, exec i s = answer s a := by
  cases i <;> exact ⟨_, rfl⟩

/-! ### Oscillator records (41_oscillator.md R116) -/

theorem phaseInc_eq_some {c : Config α} {f y : α} :
    phaseInc c f = some y ↔ ∃ t, c.num.mul c.num.tau f = some t ∧ c.num.div t c.sr = some y := by
  simp [phaseInc, Option.bind_eq_some_iff]

theorem oscNew_eq_some {c : Config α} {w : Wave} {f a : α} {o : Osc α} :
    oscNew c w f a = some o ↔ ∃ inc, phaseInc c f = some inc ∧ o = ⟨w, f, a, c.num.ofRat 0, inc⟩ := by
  simp only [oscNew, Option.bind_eq_bind, Option.bind_eq_some_iff, Option.pure_def, Option.some.injEq, eq_comm (b := o)]

theorem oscSetFreq_eq_some {c : Config α} {f : α} {o o' : Osc α} :
    oscSetFreq c o f = some o' ↔ ∃ inc, phaseInc c f = some inc ∧ o' = { o with freq := f, inc := inc } := by
  simp only [oscSetFreq, Option.bind_eq_bind, Option.bind_eq_some_iff, Option.pure_def, Option.some.injEq, eq_comm (b := o')]

theorem oscAdvance_eq_some {c : Config α} {o o' : Osc α} :
    oscAdvance c o = some o' ↔ ∃ q, c.num.add o.phase o.inc = some q ∧ o' = { o with phase := c.num.wrap q } := by
  simp only [oscAdvance, Option.bind_eq_bind, Option.bind_eq_some_iff, Option.pure_def, Option.some.injEq, eq_comm (b := o')]

theorem oscGet_eq_some {c : Config α} {o o' : Osc α} {v : α} :
    oscGet c o = some (v, o') ↔
      ∃ k, kernel c.num o.type o.phase = some k ∧ oscAdvance c o = some o' ∧ c.num.mul k o.amp = some v := by
  simp only [oscGet, Option.bind_eq_bind, Option.bind_eq_some_iff, Option.pure_def, Option.some.injEq, Prod.mk.injEq]
  constructor
  · rintro ⟨k, hk, o1, ho, v1, hv, rfl, rfl⟩
    exact ⟨k, hk, ho, hv⟩
  · rintro ⟨k, hk, ho, hv⟩
    exact ⟨k, hk, o', ho, v, hv, rfl, rfl⟩

theorem oscGetMod_eq_some {c : Config α} {o o' : Osc α} {m v : α} :
    oscGetMod c o m = some (v, o') ↔
      ∃ x k, c.num.add o.phase m = some x ∧ kernel c.num o.type (karg c x) = some k ∧ oscAdvance c o = some o' ∧
        c.num.mul k o.amp = some v := by
  simp only [oscGetMod, Option.bind_eq_bind, Option.bind_eq_some_iff, Option.pure_def, Option.some.injEq, Prod.mk.injEq]
  constructor
  · rintro ⟨x, hx, k, hk, o1, ho, v1, hv, rfl, rfl⟩
    exact ⟨x, k, hx, hk, ho, hv⟩
  · rintro ⟨x, k, hx, hk, ho, hv⟩
    exact ⟨x, hx, k, hk, o', ho, v, hv, rfl, rfl⟩

/-! ### The envelope (42_envelope.md R134, R141) -/

theorem envDerive_eq_some {c : Config α} {e e' : Env α} :
    envDerive c e = some e' ↔ ∃ ac dc rc b, calcCoef c.num e.attackRate e.ratioA = some ac ∧
      calcCoef c.num e.decayRate e.ratioDR = some dc ∧ calcCoef c.num e.releaseRate e.ratioDR = some rc ∧
      c.envBase e.ratioA e.ratioDR e.sustain ac dc rc = some b ∧
      e' = { e with attackCoef := ac, decayCoef := dc, releaseCoef := rc, attackBase := b.attack,
                    decayBase := b.decay, releaseBase := b.release } := by
  simp only [envDerive, Option.bind_eq_bind, Option.bind_eq_some_iff, Option.pure_def, Option.some.injEq]
  constructor
  · rintro ⟨ac, ha, dc, hd, rc, hr, b, hb, rfl⟩
    exact ⟨ac, dc, rc, b, ha, hd, hr, hb, rfl⟩
  · rintro ⟨ac, dc, rc, b, ha, hd, hr, hb, rfl⟩
    exact ⟨ac, ha, dc, hd, rc, hr, b, hb, rfl⟩

/-- `ENV.PROCESS` writes the state and the output only (R143). -/
theorem envStep_frame {n : NumOps α} {e e' : Env α} (h : envStep n e = some e') :
    e' = { e with envState := e'.envState, envOut := e'.envOut } := by
  rcases e with ⟨_, _, _, _, _, _, _, _, _, _, _, _, st, _⟩
  cases st <;> simp only [envStep, Option.bind_eq_bind, Option.bind_eq_some_iff, Option.pure_def, Option.some.injEq] at h
  case idle => exact h ▸ rfl
  case sustain => exact h ▸ rfl
  all_goals
    obtain ⟨o, -, rfl⟩ := h
    split <;> rfl

/-! ### The filter (43_biquad.md R153, R166) -/

theorem bqRedesign_eq_some {c : Config α} {b b' : Bq α} :
    bqRedesign c b = some b' ↔
      ∃ k, c.bqDesign b.type b.freq b.q b.gain = some k ∧ b' = { b with coefs := k } := by
  simp only [bqRedesign, Option.bind_eq_bind, Option.bind_eq_some_iff, Option.pure_def, Option.some.injEq, eq_comm (b := b')]

theorem bqFilter_eq_some {n : NumOps α} {k : BqCoefs α} {d : Delay α} {x : α} {r : α × Delay α} :
    bqFilter n k d x = some r ↔ ∃ xa0 y xa1 s1 b1y z1 xa2 b2y z2, n.mul x k.a0 = some xa0 ∧ n.add xa0 d.z1 = some y ∧
      n.mul x k.a1 = some xa1 ∧ n.add xa1 d.z2 = some s1 ∧ n.mul k.b1 y = some b1y ∧ n.sub s1 b1y = some z1 ∧
      n.mul x k.a2 = some xa2 ∧ n.mul k.b2 y = some b2y ∧ n.sub xa2 b2y = some z2 ∧ r = (y, ⟨z1, z2⟩) := by
  simp only [bqFilter, Option.bind_eq_bind, Option.bind_eq_some_iff, Option.pure_def, Option.some.injEq]
  constructor
  · rintro ⟨a, ha, b, hb, c, hc, d', hd, e, he, f, hf, g, hg, i, hi, j, hj, rfl⟩
    exact ⟨a, b, c, d', e, f, g, i, j, ha, hb, hc, hd, he, hf, hg, hi, hj, rfl⟩
  · rintro ⟨a, b, c, d', e, f, g, i, j, ha, hb, hc, hd, he, hf, hg, hi, hj, rfl⟩
    exact ⟨a, ha, b, hb, c, hc, d', hd, e, he, f, hf, g, hg, i, hi, j, hj, rfl⟩

/-! ### The filter's default design (43_biquad.md R152 to R160) -/

theorem bqK_eq_some {n : NumOps α} {sr f k : α} :
    bqK n sr f = some k ↔ ∃ x y, n.mul n.pi f = some x ∧ n.div x sr = some y ∧ n.tan y = some k := by
  simp only [bqK, Option.bind_eq_bind, Option.bind_eq_some_iff]
  exact ⟨fun ⟨x, hx, y, hy, hk⟩ => ⟨x, y, hx, hy, hk⟩, fun ⟨x, y, hx, hy, hk⟩ => ⟨x, hx, y, hy, hk⟩⟩

theorem bqV_eq_some {n : NumOps α} {g v : α} :
    bqV n g = some v ↔ ∃ x, n.div (n.abs g) (n.ofRat 20) = some x ∧ n.pow10 x = some v := by
  simp only [bqV, Option.bind_eq_bind, Option.bind_eq_some_iff]

theorem sum3_eq_some {n : NumOps α} {x y z w : α} :
    sum3 n x y z = some w ↔ ∃ a, n.add x y = some a ∧ n.add a z = some w := by
  simp only [sum3, Option.bind_eq_bind, Option.bind_eq_some_iff]

theorem alt3_eq_some {n : NumOps α} {x y z w : α} :
    alt3 n x y z = some w ↔ ∃ a, n.sub x y = some a ∧ n.add a z = some w := by
  simp only [alt3, Option.bind_eq_bind, Option.bind_eq_some_iff]

theorem oddCoef_eq_some {n : NumOps α} {x y norm w : α} : oddCoef n x y norm = some w ↔
    ∃ a b, n.sub x y = some a ∧ n.mul (n.ofRat 2) a = some b ∧ n.mul b norm = some w := by
  simp only [oddCoef, Option.bind_eq_bind, Option.bind_eq_some_iff]
  exact ⟨fun ⟨a, ha, b, hb, hw⟩ => ⟨a, b, ha, hb, hw⟩, fun ⟨a, b, ha, hb, hw⟩ => ⟨a, ha, b, hb, hw⟩⟩

theorem bqNorm_eq_some {n : NumOps α} {k q : α} {r : α × α × α} : bqNorm n k q = some r ↔
    ∃ kq kk d norm, n.div k q = some kq ∧ n.mul k k = some kk ∧ sum3 n (n.ofRat 1) kq kk = some d ∧
      n.div (n.ofRat 1) d = some norm ∧ r = (kq, kk, norm) := by
  simp only [bqNorm, Option.bind_eq_bind, Option.bind_eq_some_iff, Option.pure_def, Option.some.injEq]
  constructor
  · rintro ⟨kq, h1, kk, h2, d, h3, norm, h4, rfl⟩
    exact ⟨kq, kk, d, norm, h1, h2, h3, h4, rfl⟩
  · rintro ⟨kq, kk, d, norm, h1, h2, h3, h4, rfl⟩
    exact ⟨kq, h1, kk, h2, d, h3, norm, h4, rfl⟩

theorem shelfCoefs_eq_some {n : NumOps α} {x1 y1 z1 x2 y2 z2 : α} {k : BqCoefs α} :
    shelfCoefs n x1 y1 z1 x2 y2 z2 = some k ↔ ∃ d norm s t u, sum3 n x2 y2 z2 = some d ∧
      n.div (n.ofRat 1) d = some norm ∧ sum3 n x1 y1 z1 = some s ∧ n.mul s norm = some k.a0 ∧
      oddCoef n z1 x1 norm = some k.a1 ∧ alt3 n x1 y1 z1 = some t ∧ n.mul t norm = some k.a2 ∧
      oddCoef n z2 x2 norm = some k.b1 ∧ alt3 n x2 y2 z2 = some u ∧ n.mul u norm = some k.b2 := by
  simp only [shelfCoefs, Option.bind_eq_bind, Option.bind_eq_some_iff, Option.pure_def, Option.some.injEq]
  constructor
  · rintro ⟨d, h1, norm, h2, s, h3, a0, h4, a1, h5, t, h6, a2, h7, b1, h8, u, h9, b2, h10, rfl⟩
    exact ⟨d, norm, s, t, u, h1, h2, h3, h4, h5, h6, h7, h8, h9, h10⟩
  · rintro ⟨d, norm, s, t, u, h1, h2, h3, h4, h5, h6, h7, h8, h9, h10⟩
    exact ⟨d, h1, norm, h2, s, h3, _, h4, _, h5, t, h6, _, h7, _, h8, u, h9, _, h10, rfl⟩

/-! ### The operator list (46_fm.md R222) -/

@[simp] theorem fmOperators_nil (c : Config α) (m : α) : fmOperators c [] m = some (m, []) := rfl

theorem fmOperators_cons_eq_some {c : Config α} {o : Osc α} {os : List (Osc α)} {m : α} {r : α × List (Osc α)} :
    fmOperators c (o :: os) m = some r ↔ ∃ v o' x m' os', oscGet c o = some (v, o') ∧ c.num.add m v = some x ∧
      fmOperators c os x = some (m', os') ∧ r = (m', o' :: os') := by
  simp only [fmOperators, Option.bind_eq_bind, Option.bind_eq_some_iff, Option.pure_def, Option.some.injEq, Prod.exists]
  constructor
  · rintro ⟨v, o', ho, x, hx, m', os', hs, rfl⟩
    exact ⟨v, o', x, m', os', ho, hx, hs, rfl⟩
  · rintro ⟨v, o', x, m', os', ho, hx, hs, rfl⟩
    exact ⟨v, o', ho, x, hx, m', os', hs, rfl⟩

end Sys2Proof.Machine
end

