-- ==== Sys2Proof/Laws/Reference.lean ====
section
/-!
SUPPORT. What the reference instance `NUM = real` can do at its last encoding step (60_exceptions.md R247): its encoding
is `enc32` on rational numbers, and no command of it raises `NumericFault` before that step (the lemmas `…_not_numeric`).
-/

namespace Sys2Proof.Machine

/-! ### The encoding -/

/-- The exponent of a rational number read as a real. -/
theorem log_natAbs {v : ℚ} (h : v ≠ 0) : Int.log 2 |(v : ℝ)| = floorLog2 v.num.natAbs v.den := by
  obtain ⟨h1, h2⟩ := floorLog2_spec (n := v.num.natAbs) (d := v.den) (by simpa using h) v.den_nz
  rw [natAbs_div_den] at h1 h2
  have hv : (0 : ℝ) < |(v : ℝ)| := abs_pos.2 (by exact_mod_cast h)
  have h1 := (Rat.cast_le (K := ℝ)).2 h1
  have h2 := (Rat.cast_lt (K := ℝ)).2 h2
  push_cast at h1 h2
  have hle := (Int.zpow_le_iff_le_log (b := 2) (by norm_num) hv).1 (by exact_mod_cast h1)
  have hlt := (Int.lt_zpow_iff_log_lt (b := 2) (by norm_num) hv).1 (by exact_mod_cast h2)
  omega

/-- Rounding a quotient of natural numbers is the integer rounding. -/
theorem roundHalfEvenReal_div (n : ℕ) {d : ℕ} (hd : 0 < d) :
    roundHalfEvenReal ((n : ℝ) / d) = roundHalfEven n d := by
  have hd' : (0 : ℝ) < d := by exact_mod_cast hd
  have hmod : (n : ℝ) / d - (n / d : ℕ) = (n % d : ℕ) / d := by
    rw [sub_eq_iff_eq_add, div_add' _ _ _ hd'.ne', div_left_inj' hd'.ne']
    exact_mod_cast (Nat.mod_add_div' n d).symm
  simp only [roundHalfEvenReal, roundHalfEven, Nat.floor_div_natCast, Nat.floor_natCast, hmod,
    div_lt_div_iff₀ hd' two_pos, div_lt_div_iff₀ two_pos hd', one_mul]
  norm_cast
  simp only [Nat.mul_comm]

theorem roundToUlp_real {v : ℚ} (u : ℤ) :
    roundHalfEvenReal (|(v : ℝ)| / 2 ^ u) = roundToUlp v.num.natAbs v.den u := by
  have hv : |(v : ℝ)| = (v.num.natAbs : ℝ) / v.den := by
    rw [← Rat.cast_abs, ← natAbs_div_den]; push_cast; rfl
  rw [hv, roundToUlp]
  split
  · rename_i h
    obtain ⟨k, rfl⟩ := Int.eq_ofNat_of_zero_le h
    rw [← roundHalfEvenReal_div _ (by positivity), div_div]; push_cast; simp
  · rename_i h
    obtain ⟨k, rfl⟩ : ∃ k : ℕ, u = -k := ⟨(-u).toNat, by omega⟩
    rw [← roundHalfEvenReal_div _ v.den_pos]; push_cast
    simp [div_mul_eq_mul_div]

/-- The encoding of the reference instance is `enc32` on rational numbers (30_encoding.md R74). -/
theorem encReal_ratCast (v : ℚ) : encReal v = enc32 v := by
  by_cases h : v = 0
  · subst h; simp [encReal, enc32]
  · rw [enc32_of_ne_zero h, encReal, if_neg (by exact_mod_cast h)]
    simp [log_natAbs h, roundToUlp_real, roundedFields]

/-! ### No `NumericFault` before the last encoding step -/

/-- A computation over the reals whose value is there raises nothing. -/
theorem numeric_not_numeric {β : Type} {a : Option β} (h : a.isSome) : numeric a ≠ .error .numericFault := by
  obtain ⟨x, rfl⟩ := Option.isSome_iff_exists.1 h
  simp [numeric]

theorem bind_not_numeric {β γ : Type} {a : Except FaultCode β} {f : β → Except FaultCode γ}
    (ha : a ≠ .error .numericFault) (hf : ∀ x, f x ≠ .error .numericFault) : (a >>= f) ≠ .error .numericFault := by
  rcases a with e | x
  · exact fun h => ha (by cases h; rfl)
  · exact hf x

theorem pure_not_numeric {β : Type} (x : β) : (pure x : Except FaultCode β) ≠ .error .numericFault := nofun

theorem ok_not_numeric {β : Type} (x : β) : (.ok x : Except FaultCode β) ≠ .error .numericFault := nofun

theorem indexRange_not_numeric {β : Type} : (.error .indexRange : Except FaultCode β) ≠ .error .numericFault := nofun

theorem operandReal_not_numeric (w : Word) : operandReal w ≠ .error .numericFault := by
  unfold operandReal operand; split <;> simp [Except.map]

theorem configured_not_numeric {β : Type} (a : Option β) : configured a ≠ .error .numericFault := by
  cases a <;> simp [configured]

theorem mapped_not_numeric {β : Type} (a : Option β) : mapped a ≠ .error .numericFault := by
  cases a <;> simp [mapped]

theorem require_not_numeric (b : Bool) {e : FaultCode} (h : e ≠ .numericFault) : require b e ≠ .error .numericFault := by
  cases b <;> simp [require, h]

theorem checkIndex_not_numeric (i n : Nat) : checkIndex i n ≠ .error .numericFault := require_not_numeric _ (by decide)

theorem operatorAt_not_numeric {α : Type} (fm : Fm α) (i : Nat) : operatorAt fm i ≠ .error .numericFault := by
  unfold operatorAt; split <;> simp

theorem ite_not_numeric {β : Type} {p : Prop} [Decidable p] {a b : Except FaultCode β}
    (ha : a ≠ .error .numericFault) (hb : b ≠ .error .numericFault) : (if p then a else b) ≠ .error .numericFault := by
  split <;> assumption

theorem readReg_not_numeric {α : Type} (c : Config α) (u : Units α) (r : Nat) : readReg c u r ≠ .error .numericFault := by
  have hop (k : Nat) : opReg u k ≠ .error .numericFault :=
    bind_not_numeric (require_not_numeric _ (by decide)) fun _ => bind_not_numeric (configured_not_numeric _) fun _ =>
      bind_not_numeric (operatorAt_not_numeric _ _) fun _ => mapped_not_numeric _
  unfold readReg
  repeat' with_reducible refine ite_not_numeric ?_ ?_
  all_goals first
    | with_reducible exact ok_not_numeric _
    | with_reducible exact indexRange_not_numeric
    | with_reducible exact hop _
    | with_reducible exact bind_not_numeric (configured_not_numeric _) fun _ => mapped_not_numeric _
    | exact bind_not_numeric (configured_not_numeric _) fun _ => pure_not_numeric _

theorem isSome_bind {β γ : Type} {a : Option β} {f : β → Option γ} (ha : a.isSome) (hf : ∀ x, (f x).isSome) :
    (a >>= f).isSome := by
  obtain ⟨x, rfl⟩ := Option.isSome_iff_exists.1 ha
  exact hf x

theorem kernel_real_isSome (w : Wave) (p : ℝ) : (kernel real w p).isSome := by
  cases w <;> exact rfl

theorem phaseInc_real_isSome {c : Config ℝ} (h : c.num = real) (f : ℝ) : (phaseInc c f).isSome := by
  simp [phaseInc, h, real]

theorem oscGet_real_isSome {c : Config ℝ} (h : c.num = real) (o : Osc ℝ) : (oscGet c o).isSome := by
  rw [oscGet, oscAdvance, h]
  exact isSome_bind (kernel_real_isSome _ _) fun _ => rfl

theorem oscGetMod_real_isSome {c : Config ℝ} (h : c.num = real) (o : Osc ℝ) (m : ℝ) : (oscGetMod c o m).isSome := by
  rw [oscGetMod, oscAdvance, h]
  exact isSome_bind rfl fun _ => isSome_bind (kernel_real_isSome _ _) fun _ => rfl

theorem oscAtPhase_real_isSome {c : Config ℝ} (h : c.num = real) (o : Osc ℝ) (p : ℝ) : (oscAtPhase c o p).isSome := by
  rw [oscAtPhase, h]
  exact isSome_bind (kernel_real_isSome _ _) fun _ => by split <;> rfl

theorem fmOperators_real_isSome {c : Config ℝ} (h : c.num = real) :
    ∀ (os : List (Osc ℝ)) (m : ℝ), (fmOperators c os m).isSome
  | [], _ => rfl
  | o :: os, m => isSome_bind (oscGet_real_isSome h o) fun _ => isSome_bind (by rw [h]; rfl) fun x =>
    isSome_bind (fmOperators_real_isSome h os x) fun _ => rfl

theorem fmStep_real_isSome {c : Config ℝ} (h : c.num = real) (fm : Fm ℝ) : (fmStep c fm).isSome :=
  isSome_bind (fmOperators_real_isSome h _ _) fun _ => isSome_bind (oscGetMod_real_isSome h _ _) fun _ => rfl

theorem calcCoef_real_isSome (rate ratio : ℝ) : (calcCoef real rate ratio).isSome := by
  unfold calcCoef; split <;> rfl

theorem envDerive_real_isSome {c : Config ℝ} (h : c.num = real) (hb : c.envBase = envBaseDefault real) (e : Env ℝ) :
    (envDerive c e).isSome := by
  rw [envDerive, h, hb]
  exact isSome_bind (calcCoef_real_isSome _ _) fun _ => isSome_bind (calcCoef_real_isSome _ _) fun _ =>
    isSome_bind (calcCoef_real_isSome _ _) fun _ => rfl

theorem envStep_real_isSome (e : Env ℝ) : (envStep real e).isSome := by
  unfold envStep; split <;> rfl

theorem bqDesign_real_isSome (sr : ℝ) (t : FType) (f q g : ℝ) : (bqDesignDefault real sr t f q g).isSome := by
  cases t
  case lowshelf =>
    refine isSome_bind rfl fun k => ?_
    unfold bqLowshelf
    iterate 9 refine isSome_bind rfl fun _ => ?_
    split <;> exact rfl
  case highshelf =>
    refine isSome_bind rfl fun k => ?_
    unfold bqHighshelf
    iterate 7 refine isSome_bind rfl fun _ => ?_
    split <;> exact rfl
  all_goals exact rfl

theorem noiseSample_real_isSome {c : Config ℝ} (h : c.num = real) (g : Ng ℝ) (r : Nat) : (noiseSample c g r).isSome := by
  unfold noiseSample; rw [h]; split <;> rfl

theorem tabFill_isSome {v : Nat → Option ℝ} (h : ∀ i, (v i).isSome) : ∀ n i, (tabFill v n i).isSome
  | 0, _ => rfl
  | n + 1, i => isSome_bind (h i) fun _ => isSome_bind (tabFill_isSome h n (i + 1)) fun _ => rfl

theorem wtLookup_real_not_numeric {c : Config ℝ} (h : c.num = real) (t : List (Nat × ℝ)) (p : ℝ) :
    wtLookup c t p ≠ .error .numericFault := by
  unfold wtLookup
  rw [h]
  refine bind_not_numeric (numeric_not_numeric ?_) fun pos => ?_
  · rw [wtPosition, h]; rfl
  · dsimp only
    split
    · exact pure_not_numeric _
    · exact bind_not_numeric (numeric_not_numeric rfl) fun _ => bind_not_numeric (configured_not_numeric _) fun _ =>
        bind_not_numeric (configured_not_numeric _) fun _ => numeric_not_numeric rfl

/-- Every division, logarithm, root and tangent of the rules has a value over the reals, so that no command of the
reference instance raises `NumericFault` above the wire (60_exceptions.md R247). -/
theorem perform_real_not_numeric (sr : ℝ) (wtLen nCh fmMaxOps : Nat) (mode : KrnArgMode) (scaled : Bool)
    (i : Instr) (u : Units ℝ) :
    perform (referenceConfig sr wtLen nCh fmMaxOps mode scaled) operandReal i u ≠ .error .numericFault := by
  generalize hc : referenceConfig sr wtLen nCh fmMaxOps mode scaled = c
  have h : c.num = real := by rw [← hc]; rfl
  have hb : c.envBase = envBaseDefault real := by rw [← hc]; rfl
  have hq : c.bqDesign = bqDesignDefault real c.sr := by rw [← hc]; rfl
  have hv (f q : ℝ) : requireValid c f q ≠ .error .numericFault :=
    bind_not_numeric (numeric_not_numeric (by rw [bqValid, h]; rfl)) fun _ => require_not_numeric _ (by decide)
  have hr (b : Bq ℝ) : (bqRedesign c b).isSome :=
    isSome_bind (by rw [hq]; exact bqDesign_real_isSome _ _ _ _ _) fun _ => rfl
  have hn (w : Wave) (f a : ℝ) : (oscNew c w f a).isSome := isSome_bind (phaseInc_real_isSome h f) fun _ => rfl
  have hf (o : Osc ℝ) (f : ℝ) : (oscSetFreq c o f).isSome := isSome_bind (phaseInc_real_isSome h f) fun _ => rfl
  have ha (p f : ℝ) : (wtAdvance c p f).isSome :=
    isSome_bind (phaseInc_real_isSome h f) fun _ => isSome_bind (by rw [h]; rfl) fun _ => rfl
  have ht (w : Wave) (i : Nat) : (wtBuildEntry c w i).isSome := by
    rw [wtBuildEntry, h]
    exact isSome_bind rfl fun _ => isSome_bind rfl fun _ => kernel_real_isSome _ _
  have hk (w : Wave) (p : ℝ) : (kernel c.num w p).isSome := by rw [h]; exact kernel_real_isSome w p
  have hm (x y : ℝ) : (c.num.mul x y).isSome := by rw [h]; rfl
  have he (e : Env ℝ) : (envStep c.num e).isSome := by rw [h]; exact envStep_real_isSome e
  have hd (t : FType) (f q g : ℝ) : (c.bqDesign t f q g).isSome := by rw [hq]; exact bqDesign_real_isSome _ _ _ _ _
  have hp (k : BqCoefs ℝ) (d : Delay ℝ) (x : ℝ) : (bqFilter c.num k d x).isSome := by rw [h]; rfl
  have hs (k : BitVec 16) : ngSeed c k u ≠ .error .numericFault := by
    unfold ngSeed; split
    · exact ok_not_numeric _
    · nofun
  cases i <;> simp only [perform]
  all_goals repeat' first
    | exact operandReal_not_numeric _
    | exact pure_not_numeric _
    | exact configured_not_numeric _
    | exact checkIndex_not_numeric _ _
    | exact operatorAt_not_numeric _ _
    | exact readReg_not_numeric _ _ _
    | exact wtLookup_real_not_numeric h _ _
    | exact hv _ _
    | exact require_not_numeric _ (by decide)
    | refine numeric_not_numeric ?_
    | exact hr _ | exact hn _ _ _ | exact hf _ _ | exact ha _ _ | exact hk _ _ | exact hm _ _ | exact he _
    | exact hd _ _ _ _ | exact hp _ _ _ | exact hs _
    | exact oscGet_real_isSome h _
    | exact oscGetMod_real_isSome h _ _
    | exact oscAtPhase_real_isSome h _ _
    | exact noiseSample_real_isSome h _ _
    | exact fmStep_real_isSome h _
    | exact tabFill_isSome (ht _) _ _
    | exact envDerive_real_isSome h hb _
    | refine isSome_bind ?_ fun _ => ?_
    | refine bind_not_numeric ?_ fun _ => ?_

/-- `NumericFault` of the reference instance is the last encoding step's and nothing else's: the command has a result
above the wire, and that result has no encoding (60_exceptions.md R247, 93_implementation_defined.md U16). -/
theorem performReal_numericFault (sr : ℝ) (wtLen nCh fmMaxOps : Nat) (mode : KrnArgMode) (scaled : Bool) (i : Instr)
    (u : Units ℝ) :
    performReal (referenceConfig sr wtLen nCh fmMaxOps mode scaled) i u = .error .numericFault ↔
      ∃ u' v, perform (referenceConfig sr wtLen nCh fmMaxOps mode scaled) operandReal i u = .ok (u', .num v) ∧
        encReal v = none := by
  have hne := perform_real_not_numeric sr wtLen nCh fmMaxOps mode scaled i u
  constructor
  · intro h
    rcases finish_cases encReal (perform (referenceConfig sr wtLen nCh fmMaxOps mode scaled) operandReal i u) with
      ⟨e, ha, hf⟩ | ⟨u', r, w, -, -, hf⟩ | ⟨u', v, ha, hv, -⟩
    · cases hf.symm.trans h; exact absurd ha hne
    · cases hf.symm.trans h
    · exact ⟨u', v, ha, hv⟩
  · rintro ⟨u', v, ha, hv⟩
    simp [performReal, performWord, finish, ha, Result.encode, hv]

end Sys2Proof.Machine
end

