-- ==== Sys2Proof/Machine/Assembler.lean ====
section
/-!
DEFINITION. The textual form of the commands, one a line: `MNEMONIC [sel-name] [#idx] [operand {, operand}]`, with `;`
before a comment (30_encoding.md R81). A line is read as characters; a line that is not of this form is refused.
-/

namespace Sys2Proof.Machine

/-! ### Tokens -/

/-- The characters before the comment (R81). -/
def stripComment : List Char → List Char
  | [] => []
  | c :: cs => if c = ';' then [] else c :: stripComment cs

/-- A token read so far, last character first, put before the tokens that follow it. -/
def flushToken (cur : List Char) (rest : List (List Char)) : List (List Char) :=
  if cur = [] then rest else cur.reverse :: rest

/-- The tokens of a line: runs of characters between blanks; a comma is a token of its own (R81). -/
def tokens : List Char → List Char → List (List Char)
  | [], cur => flushToken cur []
  | c :: cs, cur =>
    if c = ' ' ∨ c = '\t' ∨ c = '\r' then flushToken cur (tokens cs [])
    else if c = ',' then flushToken cur ([','] :: tokens cs [])
    else tokens cs (c :: cur)

/-! ### Numbers -/

/-- A digit below `base` (R81: decimal, or hexadecimal after `0x`). -/
def digitValue (base : Nat) (c : Char) : Option Nat :=
  let n := c.toNat
  let v := if 48 ≤ n ∧ n ≤ 57 then n - 48 else if 97 ≤ n ∧ n ≤ 102 then n - 87 else if 65 ≤ n ∧ n ≤ 70 then n - 55 else 99
  if v < base then some v else none

/-- The digits read into a number after `acc`. -/
def digitsValue (base : Nat) : List Char → Nat → Option Nat
  | [], acc => some acc
  | c :: cs, acc => (digitValue base c).bind fun d => digitsValue base cs (acc * base + d)

/-- A number with at least one digit. -/
def natToken (base : Nat) (cs : List Char) : Option Nat := if cs = [] then none else digitsValue base cs 0

/-- The integer of an `#idx`, decimal or `0x` hexadecimal, of at most 16 bits (R81, R71). -/
def indexToken (cs : List Char) : Option Nat :=
  let v := match cs with
    | '0' :: 'x' :: hs => natToken 16 hs
    | ds => natToken 10 ds
  v.bind fun n => if n < 65536 then some n else none

/-- An unsigned decimal real: digits, and digits after a point (R81). -/
def decimalToken (cs : List Char) : Option Rat :=
  let whole := cs.takeWhile (· ≠ '.')
  match cs.drop whole.length with
  | [] => (natToken 10 whole).map fun n => (n : Rat)
  | _ :: frac =>
    (natToken 10 whole).bind fun n => (natToken 10 frac).map fun f => (n : Rat) + (f : Rat) / ((10 ^ frac.length : Nat) : Rat)

/-- An operand: a decimal real, perhaps after a minus sign, as the word of the binary32 number nearest to it (R81). An
operand whose rounding exceeds the largest finite binary32 number has no word and its line is refused: R81 does not say
what such a line means (DESIGN CHOICE, log entry 26). -/
def operandToken (cs : List Char) : Option Word :=
  match cs with
  | '-' :: ds | '−' :: ds => (decimalToken ds).bind fun v => enc32 (-v)
  | ds => (decimalToken ds).bind enc32

/-- The operands of a line, separated by commas (R81). -/
def operandTokens : List (List Char) → Option (List Word)
  | [] => some []
  | [t] => (operandToken t).map fun w => [w]
  | t :: c :: ts => do
    let w ← operandToken t
    if c = [','] ∧ ts ≠ [] then return w :: (← operandTokens ts) else none

/-! ### Commands -/

/-- The selector names of a row, in the order of their codes; none for a row that does not use `sel` (R77, R81). -/
def selNames (r : OpcodeRow) : List String :=
  if selOf r.mask = 31 then []
  else match (unitOf r.matchBits).toNat with
    | 3 => ["off", "on"]
    | 4 => ["lowpass", "highpass", "bandpass", "lowshelf", "highshelf", "peak", "notch"]
    | 5 => ["white", "pink", "brown"]
    | _ => ["sine", "square", "triangle", "saw"]

/-- The `sel` field of a line and the tokens behind it: a name where the row uses `sel`, nothing where it does not. R81
writes the name in brackets and gives no default: a line that leaves out a name its row uses is refused (DESIGN CHOICE, log
entry 26). -/
def takeSel (r : OpcodeRow) (ts : List (List Char)) : Option (Nat × List (List Char)) :=
  match selNames r with
  | [] => some (0, ts)
  | names =>
    match ts with
    | [] => none
    | t :: rest =>
      let k := names.findIdx fun n => decide (n.toList = t)
      if k < names.length then some (k, rest) else none

/-- The `idx` field of a line and the tokens behind it: `#idx` where the row uses `idx`, nothing where it does not. R81 writes
it in brackets and gives no default: a line that leaves out an index its row uses is refused (DESIGN CHOICE, log entry
26). -/
def takeIdx (r : OpcodeRow) (ts : List (List Char)) : Option (Nat × List (List Char)) :=
  if idxOf r.mask ≠ 0 then some (0, ts)
  else match ts with
    | ('#' :: ds) :: rest => (indexToken ds).map fun n => (n, rest)
    | _ => none

/-- The packet a line with the mnemonic of the row stands for (R81, R78). -/
def assembleRow (r : OpcodeRow) (ts : List (List Char)) : Option (List Word) := do
  let (sel, ts) ← takeSel r ts
  let (idx, ts) ← takeIdx r ts
  let ops ← operandTokens ts
  if ops.length = (nargsOf r.matchBits).toNat then
    return (r.matchBits ||| BitVec.ofNat 32 (sel * 65536 + idx)) :: ops
  else none

/-- The words of one line: exactly one packet (R81). A line that is blank, or blank but for a comment, has no words: R81 says
that every line is one packet and does not say what such a line is (DESIGN CHOICE, log entry 26). -/
def assembleLine (line : List Char) : Option (List Word) :=
  match tokens (stripComment line) [] with
  | [] => some []
  | m :: ts => (opcodeRows.find? fun r => decide (r.mnemonic.toList = m)).bind fun r => assembleRow r ts

/-- The words of the lines, in order; `cur` is the line read so far, last character first. -/
def assembleLines : List Char → List Char → Option (List Word)
  | [], cur => assembleLine cur.reverse
  | c :: cs, cur =>
    if c = '\n' then do
      let ws ← assembleLine cur.reverse
      return ws ++ (← assembleLines cs [])
    else assembleLines cs (c :: cur)

/-- The word stream of a text (R81). -/
def assemble (text : String) : Option (List Word) := assembleLines text.toList []

end Sys2Proof.Machine
end

