-- ==== Sys2Proof/Tests/Slice0.lean ====
section
/-!
SUPPORT. Tests of the model. Every expected value is the spec's: a word written out from 30_encoding.md R71 and R78, an
example of a rule, or a vector of 95_test_vectors.md, named at each test.

Three parts: the decoder and the assembler; one or two commands' responses each, on a block configured as
95_test_vectors.md says (`SR = 8`, `WT_LEN = 4`, `N_CH = 2`, `FM_MAX_OPS = 2`); and, for every statement that has
hypotheses, a state and operands that meet them.
-/

namespace Sys2Proof.Tests

set_option Elab.async false

open Sys2Proof Sys2Proof.Machine

/-! ### Decoding: a word per command, from the fields of R71 and the rows of R78 -/

theorem test_decode_sysRdreg : decode 0x01000200 [] = .ok (.sysRdreg 0x200) := rfl
theorem test_decode_krnEval : decode 0x11230000 [0] = .ok (.krnEval .saw 0) := rfl
theorem test_decode_oscInit : decode 0x21400000 [0x3F800000, 0x40000000] = .ok (.oscInit .sine 0x3F800000 0x40000000) := rfl
theorem test_decode_oscSettype : decode 0x22030000 [] = .ok (.oscSettype .saw) := rfl
theorem test_decode_oscSetfreq : decode 0x23200000 [0x40000000] = .ok (.oscSetfreq 0x40000000) := rfl
theorem test_decode_oscSetamp : decode 0x24200000 [0x3F000000] = .ok (.oscSetamp 0x3F000000) := rfl
theorem test_decode_oscReset : decode 0x25000000 [] = .ok .oscReset := rfl
theorem test_decode_oscGetvalue : decode 0x26000000 [] = .ok .oscGetvalue := rfl
theorem test_decode_oscGetmod : decode 0x27200000 [0x3F000000] = .ok (.oscGetmod 0x3F000000) := rfl
theorem test_decode_oscAtphase : decode 0x28200000 [0] = .ok (.oscAtphase 0) := rfl
theorem test_decode_envInit : decode 0x31800000 [0x3E000000, 0x3E800000, 0x3F000000, 0x3F400000] =
    .ok (.envInit 0x3E000000 0x3E800000 0x3F000000 0x3F400000) := rfl
theorem test_decode_envSetattack : decode 0x32200000 [0x3E800000] = .ok (.envSetattack 0x3E800000) := rfl
theorem test_decode_envSetdecay : decode 0x33200000 [0] = .ok (.envSetdecay 0) := rfl
theorem test_decode_envSetsustain : decode 0x34200000 [0x3F400000] = .ok (.envSetsustain 0x3F400000) := rfl
theorem test_decode_envSetrelease : decode 0x35200000 [0x3E800000] = .ok (.envSetrelease 0x3E800000) := rfl
theorem test_decode_envSetratioa : decode 0x36200000 [0x3E000000] = .ok (.envSetratioa 0x3E000000) := rfl
theorem test_decode_envSetratiodr : decode 0x37200000 [0x3E000000] = .ok (.envSetratiodr 0x3E000000) := rfl
theorem test_decode_envGate : decode 0x38010000 [] = .ok (.envGate true) := rfl
theorem test_decode_envProcess : decode 0x39000000 [] = .ok .envProcess := rfl
theorem test_decode_bqInit : decode 0x41660000 [0x40000000, 0x3F800000, 0] = .ok (.bqInit .notch 0x40000000 0x3F800000 0) := rfl
theorem test_decode_bqSettype : decode 0x42010000 [] = .ok (.bqSettype .highpass) := rfl
theorem test_decode_bqSetfreq : decode 0x43200000 [0x40800000] = .ok (.bqSetfreq 0x40800000) := rfl
theorem test_decode_bqSetq : decode 0x44200000 [0] = .ok (.bqSetq 0) := rfl
theorem test_decode_bqSetgain : decode 0x45200000 [0xC0C00000] = .ok (.bqSetgain 0xC0C00000) := rfl
theorem test_decode_bqProcess : decode 0x46200001 [0x3F000000] = .ok (.bqProcess 1 0x3F000000) := rfl
theorem test_decode_ngSettype : decode 0x51020000 [] = .ok (.ngSettype .brown) := rfl
theorem test_decode_ngSeed : decode 0x5200ACE1 [] = .ok (.ngSeed 0xACE1) := rfl
theorem test_decode_ngGetvalue : decode 0x53000000 [] = .ok .ngGetvalue := rfl
theorem test_decode_wtBuild : decode 0x61020000 [] = .ok (.wtBuild .triangle) := rfl
theorem test_decode_wtLoad : decode 0x62200003 [0xBF800000] = .ok (.wtLoad 3 0xBF800000) := rfl
theorem test_decode_wtReset : decode 0x63000000 [] = .ok .wtReset := rfl
theorem test_decode_wtGetfreq : decode 0x64200000 [0x3F800000] = .ok (.wtGetfreq 0x3F800000) := rfl
theorem test_decode_wtAtphase : decode 0x65200000 [0xBE800000] = .ok (.wtAtphase 0xBE800000) := rfl
theorem test_decode_wtRdtab : decode 0x66000001 [] = .ok (.wtRdtab 1) := rfl
theorem test_decode_fmInit : decode 0x71410000 [0x3F800000, 0x40000000] = .ok (.fmInit .square 0x3F800000 0x40000000) := rfl
theorem test_decode_fmCsettype : decode 0x72020000 [] = .ok (.fmCsettype .triangle) := rfl
theorem test_decode_fmCsetfreq : decode 0x73200000 [0x40000000] = .ok (.fmCsetfreq 0x40000000) := rfl
theorem test_decode_fmCsetamp : decode 0x74200000 [0x3F000000] = .ok (.fmCsetamp 0x3F000000) := rfl
theorem test_decode_fmCreset : decode 0x75000000 [] = .ok .fmCreset := rfl
theorem test_decode_fmAddop : decode 0x76400000 [0x40000000, 0x3F000000] = .ok (.fmAddop .sine 0x40000000 0x3F000000) := rfl
theorem test_decode_fmRemop : decode 0x77000005 [] = .ok (.fmRemop 5) := rfl
theorem test_decode_fmOpsettype : decode 0x78030002 [] = .ok (.fmOpsettype .saw 2) := rfl
theorem test_decode_fmOpsetfreq : decode 0x79200007 [0x40400000] = .ok (.fmOpsetfreq 7 0x40400000) := rfl
theorem test_decode_fmOpsetamp : decode 0x7A200001 [0x3E800000] = .ok (.fmOpsetamp 1 0x3E800000) := rfl
theorem test_decode_fmOpreset : decode 0x7B00FFFF [] = .ok (.fmOpreset 65535) := rfl
theorem test_decode_fmSample : decode 0x7C000000 [] = .ok .fmSample := rfl

/-! Illegal headers (R79, V1.5, V2.10, V3.7, V4.12, V5.7, V9.2). -/

theorem test_illegal_all_zero : decode 0 [] = .error .reservedFunc := rfl
theorem test_illegal_unit : decode 0x9A600000 [0x11111111, 0x22222222, 0x33333333] = .error .reservedUnit := rfl
theorem test_illegal_func : decode 0x2D000000 [] = .error .reservedFunc := rfl
theorem test_illegal_nargs : decode 0x01200000 [0] = .error .wrongNargs := rfl
theorem test_illegal_idx : decode 0x26000001 [] = .error .idxNotZero := rfl
theorem test_illegal_wave : decode 0x11240000 [0] = .error .reservedSel := rfl
theorem test_illegal_ftype : decode 0x42070000 [] = .error .reservedSel := rfl
theorem test_illegal_variant : decode 0x51030000 [] = .error .reservedSel := rfl
theorem test_illegal_gate : decode 0x38020000 [] = .error .reservedSel := rfl
theorem test_illegal_sel : decode 0x26010000 [] = .error .selNotZero := rfl

/-- The packet of two operand words whose bits are read as the opcode table numbers them (R72). -/
theorem test_decodeTableWord : decodeTableWord 32 0x21400000 = some (.oscInit .sine 0 0) := rfl

/-! Well-formedness: each check refuses an index that the 16-bit field cannot hold (R71). -/

theorem test_wf_sysRdreg : (Instr.sysRdreg 65536).wellFormed = false := rfl
theorem test_wf_bqProcess : (Instr.bqProcess 65536 0).wellFormed = false := rfl
theorem test_wf_wtLoad : (Instr.wtLoad 65536 0).wellFormed = false := rfl
theorem test_wf_wtRdtab : (Instr.wtRdtab 65536).wellFormed = false := rfl
theorem test_wf_fmRemop : (Instr.fmRemop 65536).wellFormed = false := rfl
theorem test_wf_fmOpsettype : (Instr.fmOpsettype .saw 65536).wellFormed = false := rfl
theorem test_wf_fmOpsetfreq : (Instr.fmOpsetfreq 65536 0).wellFormed = false := rfl
theorem test_wf_fmOpsetamp : (Instr.fmOpsetamp 65536 0).wellFormed = false := rfl
theorem test_wf_fmOpreset : (Instr.fmOpreset 65536).wellFormed = false := rfl

/-! The assembler: the examples of R81, and a line with a selector the command does not have. -/

theorem test_asm_oscInit : assemble "OSC.INIT sine 1.0, 1.0" = some [0x21400000, 0x3F800000, 0x3F800000] := by
  decide +kernel
theorem test_asm_program : assemble "BQ.PROCESS #1 0.5 ; one sample\nFM.OPSETTYPE saw #2\n\nENV.GATE on" =
    some [0x46200001, 0x3F000000, 0x78030002, 0x38010000] := by decide +kernel
/-- An operand too large for binary32 (log entry 26). -/
theorem test_asm_tooLarge : assemble "OSC.SETAMP 340282356779733661637539395458142568448.0" = none := by decide +kernel
/-- A selector, an index, or either where none is used (log entry 26). -/
theorem test_asm_noDefaults : assemble "KRN.EVAL 0.0" = none ∧ assemble "WT.RDTAB" = none := by decide +kernel
theorem test_asm_refuses : assemble "OSC.RESET sine" = none := by decide +kernel

/-! ### The block of 95_test_vectors.md -/

/-- The configuration of 95_test_vectors.md. The primitives R12 leaves open are fixed at the arguments the tests meet, at
the binary32 words nearest their mathematical values; `tan` at the binary32 neighbour of a quarter of PI is 1. -/
def bench : Straps where
  sr := 8
  wtLen := 4
  nCh := 2
  fmMaxOps := 2
  prim :=
    [⟨.tan, pi32 / 4, 0x3F800000⟩, ⟨.sin, 0, 0⟩, ⟨.sin, tau32 / 4, 0x3F800000⟩, ⟨.sin, -1 / 4, 0xBE7D5777⟩,
      ⟨.pow10, 0, 0x3F800000⟩, ⟨.ln, finite32 0x408AAAAA, 0x3FBBB0EE⟩, ⟨.ln, finite32 0x461C4400, 0x41135DF7⟩,
      ⟨.ln, 9, 0x400C9F54⟩, ⟨.exp, finite32 0xBFBBB0EE, 0x3E6C4EC5⟩, ⟨.exp, finite32 0xBF3BB0EE, 0x3EF5F4F5⟩,
      ⟨.exp, finite32 0xC0935DF7, 0x3C23D4F0⟩,
      ⟨.exp, finite32 0xBF8C9F54, 0x3EAAAAAB⟩]
  sqrt := .reference
  noiseSrc := .reference
  bqDesign := .reference
  envBase := .reference
  krnArgMode := .raw
  atphaseScaled := true

/-- The block right after reset. -/
def fresh : State := State.resetWith bench

/-- The block after the given commands, one after another. -/
def after (is : List Instr) : State :=
  is.foldl (fun s i => match exec i s with | .next t => t | _ => s) fresh

/-- The response words of one command. -/
def reply (i : Instr) (s : State) : List Word :=
  match exec i s with
  | .next t => t.responses.drop s.responses.length
  | _ => []

/-- An oscillator: saw, frequency 2, amplitude 1. -/
def sawOsc : State := after [.oscInit .saw 0x40000000 0x3F800000]
/-- The envelope of V3.1. -/
def envV31 : State := after [.envInit 0x3E800000 0x3E800000 0x3F000000 0x3E800000, .envSetratioa 0x3E000000,
  .envSetratiodr 0x3E000000]
/-- The lowpass filter of V4.1. -/
def lowpassV41 : State := after [.bqInit .lowpass 0x40000000 0x3F800000 0]
/-- The table of V6.3. -/
def sawTable : State := after [.wtBuild .saw]
/-- A synthesizer: a sine carrier of frequency 0 and a saw operator of frequency 0 and depth 0.25 (as in P3). -/
def fmV7 : State := after [.fmInit .sine 0 0x3F800000, .fmAddop .saw 0 0x3E800000]

/-- The straps of 95_test_vectors.md are a configuration of the block (R5, R6). -/
theorem test_bench_legal : strapsLegal bench = true := by decide +kernel

/-! ### Unit SYS (R230, V9.6, R35) -/

theorem test_sysRdreg_flag : reply (.sysRdreg 0x0200) fresh = [0, 0] := by decide +kernel
theorem test_sysRdreg_unconfigured : reply (.sysRdreg 0x0204) fresh = [3, 0] := by decide +kernel

/-! ### Unit KRN (V1.1, V1.5) -/

theorem test_krnEval_saw : reply (.krnEval .saw 0x80000000) fresh = [0, 0xBF800000] := by decide +kernel
theorem test_krnEval_nan : reply (.krnEval .sine 0x7FC00000) fresh = [2, 0] := by decide +kernel

/-! ### Unit OSC (R111 to R119, V2.4, V2.9, V2.10) -/

theorem test_oscInit : reply (.sysRdreg 0x0205) (after [.oscInit .sine 0x3F800000 0x3F800000]) = [0, 0x3F490FDB] := by
  decide +kernel
theorem test_oscSettype : reply .oscGetvalue (after [.oscInit .triangle 0x40000000 0x3F800000, .oscSettype .saw]) =
    [0, 0xBF800000] := by decide +kernel
theorem test_oscSetfreq : reply (.oscSetfreq 0x3F800000) fresh = [3, 0] := by decide +kernel
/-- V9.6: the word of "0.3" reads back as it was sent. -/
theorem test_oscSetamp : reply (.sysRdreg 0x0203) (after [.oscInit .saw 0 0, .oscSetamp 0x3E99999A]) =
    [0, 0x3E99999A] := by decide +kernel
theorem test_oscReset : reply .oscGetvalue (after [.oscInit .saw 0x40000000 0x3F800000, .oscGetvalue, .oscReset]) =
    [0, 0xBF800000] := by decide +kernel
/-- V2.4: the second sample of the saw. -/
theorem test_oscGetvalue : reply .oscGetvalue (after [.oscInit .saw 0x40000000 0x3F800000, .oscGetvalue]) =
    [0, 0xBF000000] := by decide +kernel
/-- R118: a modulation does not move the stored phase; the sample after it is that of V2.4. -/
theorem test_oscGetmod : reply .oscGetvalue (after [.oscInit .saw 0x40000000 0x3F800000, .oscGetmod 0x3F800000]) =
    [0, 0xBF000000] := by decide +kernel
/-- V2.8. -/
theorem test_oscAtphase : reply (.oscAtphase 0) (after [.oscInit .triangle 0x3F800000 0x40000000]) = [0, 0x40000000] := by
  decide +kernel

/-! ### Unit ENV (R131 to R142, V3) -/

/-- R131's example: the attack base 1.3 × 10/13 is 1, and V3.7: a sustain level above 1 is refused. -/
theorem test_envInit : reply (.sysRdreg 0x0303) (after [.envInit 0x3E000000 0x3E800000 0x3F000000 0x3E800000]) =
    [0, 0x3F800000] := by decide +kernel
theorem test_envInit_range : reply (.envInit 0x3E800000 0x3E800000 0x3FC00000 0x3E800000) fresh = [5, 0] := by
  decide +kernel
/-- R135's example: 0.25 seconds are 2 samples. -/
theorem test_envSetattack : reply (.sysRdreg 0x0303) (after [.envInit 0 0 0x3F000000 0, .envSetratioa 0x3E000000,
    .envSetattack 0x3E800000]) = [0, 0x40000000] := by decide +kernel
/-- R136's example: a zero rate has the coefficient 0. -/
theorem test_envSetdecay : reply (.sysRdreg 0x030A) (after [.envInit 0 0 0x3F000000 0, .envSetdecay 0]) = [0, 0] := by
  decide +kernel
/-- V3.7. -/
theorem test_envSetsustain : reply (.envSetsustain 0xBE800000) envV31 = [5, 0] := by decide +kernel
theorem test_envSetrelease : reply (.sysRdreg 0x0305) (after [.envInit 0 0 0x3F000000 0, .envSetratiodr 0x3E000000,
    .envSetrelease 0x3E800000]) = [0, 0x40000000] := by decide +kernel
/-- V3.6. -/
theorem test_envSetratioa : reply (.sysRdreg 0x0307) (after [.envInit 0 0 0x3F000000 0, .envSetratioa 0xBF800000]) =
    [0, 0x3089705F] := by decide +kernel
/-- V3.1: the release base is -1/12. -/
theorem test_envSetratiodr : reply (.sysRdreg 0x030B) envV31 = [0, 0x3EAAAAAB] := by decide +kernel
/-- R142: off in Idle changes nothing. -/
theorem test_envGate_off : reply (.sysRdreg 0x0301) (after [.envInit 0 0 0x3F000000 0, .envGate false]) = [0, 0] := by
  decide +kernel
/-- V3.4: a zero attack takes one call, and the call shows Decay. -/
theorem test_envProcess : reply (.sysRdreg 0x0301) (after [.envInit 0 0 0x3F000000 0, .envGate true, .envProcess]) =
    [0, 2] := by decide +kernel

/-! ### Unit BQ (V4, P2) -/

/-- V4.11: the frequency 4 is half the sample rate. -/
theorem test_bqInit_range : reply (.bqInit .lowpass 0x40800000 0x3F800000 0) fresh = [5, 0] := by decide +kernel
/-- V4.7: the peak filter at 0 dB has a0 = 1. -/
theorem test_bqInit : reply (.sysRdreg 0x0405) (after [.bqInit .peak 0x40000000 0x3F800000 0]) = [0, 0x3F800000] := by
  decide +kernel
/-- V4.4: the highpass coefficient a1 is -2/3. -/
theorem test_bqSettype : reply (.sysRdreg 0x0406) (after [.bqInit .lowpass 0x40000000 0x3F800000 0,
    .bqSettype .highpass]) = [0, 0xBF2AAAAB] := by decide +kernel
/-- V4.11: the rejected frequency leaves the coefficient a0 at 1/3. -/
theorem test_bqSetfreq : reply (.sysRdreg 0x0405) (after [.bqInit .lowpass 0x40000000 0x3F800000 0,
    .bqSetfreq 0x40800000]) = [0, 0x3EAAAAAB] := by decide +kernel
theorem test_bqSetq : reply (.bqSetq 0) lowpassV41 = [5, 0] := by decide +kernel
theorem test_bqSetgain : reply (.bqSetgain 0xC0C00000) lowpassV41 = [0, 0] := by decide +kernel
/-- V4.1: the first sample of the impulse. -/
theorem test_bqProcess : reply (.bqProcess 0 0x3F800000) lowpassV41 = [0, 0x3EAAAAAB] := by decide +kernel
theorem test_bqProcess_channel : reply (.bqProcess 2 0x3F800000) lowpassV41 = [4, 0] := by decide +kernel

/-! ### Unit NG (V5, P4) -/

/-- V5.5: after the switch the first brown sample is d3/2. -/
theorem test_ngSettype : reply .ngGetvalue (after [.ngSettype .brown, .ngGetvalue, .ngGetvalue, .ngSettype .brown]) =
    [0, 0xBE299153] := by decide +kernel
theorem test_ngSeed_zero : reply (.ngSeed 0) fresh = [5, 0] := by decide +kernel
/-- V5.6: the draw after the seed 1 is 0. -/
theorem test_ngSeed : reply .ngGetvalue (after [.ngSeed 1, .ngSettype .white]) = [0, 0] := by decide +kernel
/-- P4, response 13. -/
theorem test_ngGetvalue : reply .ngGetvalue (after [.ngSettype .brown]) = [0, 0xBE26414D] := by decide +kernel

/-! ### Unit WT (V6, P4) -/

/-- V6.1. -/
theorem test_wtBuild : reply (.wtRdtab 1) sawTable = [0, 0xBF000000] := by decide +kernel
/-- V6.5. -/
theorem test_wtLoad : reply (.wtLoad 4 0) fresh = [4, 0] := by decide +kernel
theorem test_wtReset : reply (.sysRdreg 0x0600) (after [.wtBuild .saw, .wtGetfreq 0x3F800000, .wtReset]) = [0, 0] := by
  decide +kernel
/-- V6.5: entry 1 is not written. -/
theorem test_wtGetfreq_partial : reply (.wtGetfreq 0) (after [.wtLoad 0 0x3F000000]) = [3, 0] := by decide +kernel
/-- P4, response 4: half way between 0 and 1. -/
theorem test_wtGetfreq : reply (.wtGetfreq 0x3F800000) (after [.wtLoad 0 0, .wtLoad 1 0x3F800000,
    .wtGetfreq 0x3F800000]) = [0, 0x3F000000] := by decide +kernel
/-- V6.5: a negative index is silence, even from an empty table. -/
theorem test_wtAtphase : reply (.wtAtphase 0xBE800000) fresh = [0, 0] := by decide +kernel
theorem test_wtRdtab_unwritten : reply (.wtRdtab 2) fresh = [3, 0] := by decide +kernel

/-! ### Unit FM (V7, P3) -/

theorem test_fmInit : reply (.sysRdreg 0x0701) (after [.fmInit .sine 0x3F800000 0x3F800000]) = [0, 0] := by
  decide +kernel
theorem test_fmCsettype : reply (.sysRdreg 0x0711) (after [.fmInit .sine 0 0, .fmCsettype .triangle]) = [0, 2] := by
  decide +kernel
theorem test_fmCsetfreq : reply (.sysRdreg 0x0712) (after [.fmInit .sine 0 0, .fmCsetfreq 0x40000000]) =
    [0, 0x40000000] := by decide +kernel
theorem test_fmCsetamp : reply (.sysRdreg 0x0713) (after [.fmInit .sine 0 0, .fmCsetamp 0x3F000000]) =
    [0, 0x3F000000] := by decide +kernel
theorem test_fmCreset : reply (.sysRdreg 0x0714) (after [.fmInit .saw 0x40000000 0, .fmSample, .fmCreset]) = [0, 0] := by
  decide +kernel
/-- V7.6. -/
theorem test_fmAddop_full : reply (.fmAddop .sine 0 0) (after [.fmInit .sine 0 0, .fmAddop .saw 0 0, .fmAddop .saw 0 0]) =
    [6, 0] := by decide +kernel
/-- V7.5: operator 0 is now the old operator 1. -/
theorem test_fmRemop : reply (.sysRdreg 0x0801) (after [.fmInit .sine 0 0, .fmAddop .sine 0 0, .fmAddop .saw 0 0,
    .fmRemop 0]) = [0, 3] := by decide +kernel
theorem test_fmOpsettype : reply (.sysRdreg 0x0801) (after [.fmInit .sine 0 0, .fmAddop .sine 0 0, .fmOpsettype .square 0]) =
    [0, 1] := by decide +kernel
theorem test_fmOpsetfreq : reply (.sysRdreg 0x0802) (after [.fmInit .sine 0 0, .fmAddop .sine 0 0,
    .fmOpsetfreq 0 0x40400000]) = [0, 0x40400000] := by decide +kernel
/-- V7.5. -/
theorem test_fmOpsetamp : reply (.fmOpsetamp 1 0x3E800000) fmV7 = [4, 0] := by decide +kernel
theorem test_fmOpreset : reply (.sysRdreg 0x0804) (after [.fmInit .saw 0 0, .fmAddop .saw 0x40000000 0, .fmSample,
    .fmOpreset 0]) = [0, 0] := by decide +kernel
/-- P3, response 5: the carrier at the phase 0 with the modulation -0.25. -/
theorem test_fmSample : reply .fmSample fmV7 = [0, 0xBE7D5777] := by decide +kernel

/-! ### Every statement that has hypotheses: a state and operands that meet them -/

/-- A number rounded to binary32. -/
def rd (q : Rat) : Rat := (round32 q).getD 0

/-- The state a command leads to. -/
def nextOf (i : Instr) (s : State) : State := match exec i s with | .next t => t | _ => s

theorem exec_nextOf (i : Instr) (s : State) : exec i s = .next (nextOf i s) := by
  obtain ⟨a, h⟩ := exec_eq_answer i s
  simp [nextOf, h, answer]

/-- The block with some units given, the others not constructed. -/
def withUnits (f : Machine.Units Sys2Proof.Num → Machine.Units Sys2Proof.Num) : State := { fresh with units := f fresh.units }

/-- A block with every unit constructed and the table full. -/
def allUnits : State := after [.oscInit .saw 0x40000000 0x3F800000, .envInit 0 0 0x3F000000 0,
  .bqInit .lowpass 0x40000000 0x3F800000 0, .ngSettype .brown, .wtBuild .saw, .fmInit .saw 0 0x3F800000,
  .fmAddop .saw 0 0x3E800000]

theorem witness_DecodeOfEncode : (Instr.fmOpreset 65535).wellFormed = true := rfl

theorem witness_EncodeOfDecode : [0x3E800000#32].length = (nargsOf 0x7A20FFFF).toNat ∧
    decode 0x7A20FFFF [0x3E800000] = .ok (.fmOpsetamp 65535 0x3E800000) := ⟨rfl, rfl⟩

theorem witness_LegalHeadersAreTheOpcodeRows : ([] : List Word).length = (nargsOf 0x38010000).toNat ∧
    decode 0x38010000 [] = .ok (.envGate true) := ⟨rfl, rfl⟩

/-- A reset in the middle of a response, however short, leaves the state of R36; only the response before it was sent whole
(70_reset_and_hazards.md R260, U24). -/
theorem test_resetDropsTheResponse :
    (after [.oscReset, .oscInit .saw 0x40000000 0x3F800000]).assertReset.releaseReset =
      { fresh with rsp := [3, 0] } := by decide +kernel

/-- A reset in the middle of a packet drops the words accepted, and keeps the words presented in the meantime (R260). -/
theorem test_resetDropsThePacket : step { fresh with cmd := [0x21400000, 1] } = .next { fresh with pkt := [0x21400000, 1] } ∧
    ({ fresh with pkt := [0x21400000, 1], cmd := [0x26000000] } : State).assertReset.releaseReset =
      { fresh with cmd := [0x26000000] } := ⟨rfl, rfl⟩

/-- A packet placed in a block held in reset runs on units in their state after reset (R260, R36). -/
theorem test_withFetchWordReleasesReset :
    (({ sawOsc with resetLine := true } : State).withFetchWord 32 0x26000000).units = fresh.units := by decide +kernel

theorem witness_StepRunsTheDecodedCommand :
    let s : State := { fresh with cmd := [0x11230000, 0, 0x26000000] }
    s.resetLine = false ∧ (Instr.krnEval .saw 0).wellFormed = true ∧ s.pkt ++ s.cmd = encode (.krnEval .saw 0) ++ [0x26000000] :=
  ⟨rfl, rfl, rfl⟩

/-- The same with the header accepted before and a response in progress. -/
theorem witness_StepRunsTheDecodedCommand_accepted :
    let s : State := { fresh with pkt := [0x11230000], cmd := [0, 0x26000000], sending := some (0, 0) }
    s.resetLine = false ∧ (Instr.krnEval .saw 0).wellFormed = true ∧
    s.pkt ++ s.cmd = encode (.krnEval .saw 0) ++ [0x26000000] := ⟨rfl, rfl, rfl⟩

theorem witness_IllegalPacketIsConsumedAndAnswered :
    let s : State := { fresh with cmd := [0x9A600000, 1, 2, 3, 0x26000000] }
    s.resetLine = false ∧ [1#32, 2, 3].length = (nargsOf 0x9A600000).toNat ∧
    s.pkt ++ s.cmd = 0x9A600000 :: ([1, 2, 3] ++ [0x26000000]) ∧ ∀ r ∈ opcodeRows, r.selects 0x9A600000 = false :=
  ⟨rfl, rfl, rfl, by decide⟩

/-- Nothing presented; a packet one operand word short, presented and accepted; the reset input at both levels. -/
theorem witness_IdleStuckAndResetSteps :
    let shortOf : State := { fresh with cmd := [0x21400000, 1] }
    let stuck : State := { fresh with pkt := [0x21400000, 1] }
    (fresh.resetLine = false ∧ fresh.pkt = [] ∧ fresh.cmd = []) ∧
    (shortOf.resetLine = false ∧ shortOf.pkt ++ shortOf.cmd = 0x21400000 :: [1] ∧ shortOf.cmd ≠ []) ∧
    (stuck.resetLine = false ∧ stuck.pkt ++ stuck.cmd = 0x21400000 :: [1] ∧ stuck.cmd = [] ∧ stuck.sending = none) ∧
    [1#32].length < (nargsOf 0x21400000).toNat ∧
    ({ fresh with resetLine := true } : State).resetLine = true :=
  ⟨⟨rfl, rfl, rfl⟩, ⟨rfl, rfl, by simp⟩, ⟨rfl, rfl, rfl, rfl⟩, by decide, rfl⟩

theorem witness_ResetLeavesNothingConstructed : bench.noiseSrc = .reference := rfl

theorem witness_WholeStreamIsAnswered : fresh.resetLine = false ∧
    fresh.pkt = [] ∧ decodeStream 3 [0x11230000, 0, 0] = ([.ok (.krnEval .saw 0), .error .reservedFunc], []) := ⟨rfl, rfl, rfl⟩

/-- A value half way between two neighbours. -/
theorem witness_Enc32IsNearestTiesToEven : enc32 (1 + 1 / 16777216) = some 0x3F800000 ∧ dec32 0x3F800000 = some 1 ∧
    dec32 0x3F800001 = some (1 + 1 / 8388608) ∧
    |(1 + 1 / 16777216 : Rat) - 1| = |(1 + 1 / 16777216 : Rat) - (1 + 1 / 8388608)| ∧ (1 : Rat) ≠ 1 + 1 / 8388608 := by
  decide +kernel

/-- The largest finite number, and the two sides of the overflow threshold. -/
theorem witness_Binary32RoundTripAndOverflow : (0x7F7FFFFF : Word) ≠ 0x80000000 ∧
    dec32 0x7F7FFFFF = some 340282346638528859811704183484516925440 ∧ enc32 340282356779733661637539395458142568448 = none ∧
    enc32 340282356779733661637539395458142568447 = some 0x7F7FFFFF := by decide +kernel

theorem witness_SqrtIsCorrectlyRounded : sqrt32 2 = some (11863283 / 8388608) ∧
    dec32 0x3FB504F3 = some (11863283 / 8388608) ∧ dec32 0 = some 0 ∧ (0 : Rat) ≤ 0 ∧
    fresh.straps.sqrt = .reference ∧ ({ bench with sqrt := .other } : Straps).sqrt = .other := by decide +kernel

/-- A root half way between two binary32 numbers, of which 1 has the even word. -/
theorem witness_SqrtIsCorrectlyRounded_tie : sqrt32 ((1 + 1 / 16777216) ^ 2) = some 1 ∧
    dec32 0x3F800001 = some (1 + 1 / 8388608) ∧
    |√(((1 + 1 / 16777216) ^ 2 : Rat) : ℝ) - ((1 : Rat) : ℝ)| =
      |√(((1 + 1 / 16777216) ^ 2 : Rat) : ℝ) - ((1 + 1 / 8388608 : Rat) : ℝ)| := by
  refine ⟨by decide +kernel, by decide +kernel, ?_⟩
  rw [Rat.cast_pow, Real.sqrt_sq (by norm_num)]
  push_cast
  rw [abs_of_nonneg (by norm_num), abs_of_nonpos (by norm_num)]
  norm_num

theorem witness_KernelArgumentModesWrapped : round32 (8 / tau32) = some (rd (8 / tau32)) ∧
    round32 (tau32 * ((rd (8 / tau32)).floor : Rat)) = some tau32 ∧ round32 (8 - tau32) = some (3600421 / 2097152) ∧
    (0 : Rat) ≤ 3600421 / 2097152 ∧ (3600421 / 2097152 : Rat) < tau32 := by decide +kernel

theorem witness_RealKernelsAndRanges : (0 : ℝ) ≤ 0 ∧ (0 : ℝ) < 2 * Real.pi ∧ kernel real .saw 0 = some (-1) :=
  ⟨le_refl _, by positivity, by simp [kernel, sawKernel, real]⟩

theorem witness_KernelArgumentModes :
    (referenceConfig 8 4 2 2 .wrapped true).num = real ∧
    (referenceConfig 8 4 2 2 .wrapped true).krnArgMode = .wrapped ∧
    (referenceConfig 8 4 2 2 .raw true).krnArgMode = .raw := ⟨rfl, rfl, rfl⟩

theorem witness_OscillatorPhaseAfterSamples : (referenceConfig 8 4 2 2 .raw true).num = real ∧
    (referenceConfig 8 4 2 2 .raw true).sr ≠ 0 := ⟨rfl, by simp [referenceConfig]⟩

/-- An envelope with stages of two samples and the ratios 1/8, in any stage, whose derived fields are those of its
parameters. -/
theorem witness_Envelope (st : EnvState) (out : ℝ) : ∃ e : Env ℝ,
    envDerive (referenceConfig 8 4 2 2 .raw true) e = some e ∧ e.attackRate = 2 ∧ 0 < e.ratioA ∧ 0 < e.ratioDR ∧
    0 ≤ e.sustain ∧ e.sustain ≤ 1 ∧ e.envState = st ∧ e.envOut = out := by
  let e0 : Env ℝ := ⟨2, 2, 2, 1 / 2, 1 / 8, 1 / 8, 0, 0, 0, 0, 0, 0, st, out⟩
  obtain ⟨e1, h1⟩ : ∃ e1, envDerive (referenceConfig 8 4 2 2 .raw true) e0 = some e1 := by
    simp [envDerive, calcCoef, referenceConfig, envBaseDefault, real, e0]
  obtain ⟨a, d, r, b, ha, hd, hr, hb, he⟩ := envDerive_eq_some.1 h1
  refine ⟨e1, ?_, ?_⟩
  · rw [envDerive_eq_some]
    exact ⟨a, d, r, b, by rw [he]; exact ha, by rw [he]; exact hd, by rw [he]; exact hr, by rw [he]; exact hb,
      by rw [he]⟩
  · rw [he]
    norm_num [e0]

/-- Attack, Decay and Release at a level that meets their hypotheses, and a step from each. -/
theorem witness_EnvelopeStagesAreMonotone (st : EnvState) : ∃ e e' : Env ℝ,
    envDerive (referenceConfig 8 4 2 2 .raw true) e = some e ∧ 0 < e.ratioA ∧ 0 < e.ratioDR ∧ 0 ≤ e.sustain ∧
    e.sustain ≤ 1 ∧ e.envState = st ∧ e.envOut = 1 ∧ e.sustain ≤ e.envOut ∧ envStep real e = some e' := by
  obtain ⟨e, hd, -, h1, h2, h3, h4, h5, h6⟩ := witness_Envelope st 1
  refine ⟨e, ?_⟩
  have : ∃ e', envStep real e = some e' := by
    cases st <;> simp [envStep, h5, envRecur, real]
  obtain ⟨e', he⟩ := this
  exact ⟨e', hd, h1, h2, h3, h4, h5, h6, by rw [h6]; exact h4, he⟩

theorem witness_EnvelopeStagesTerminate : (referenceConfig 8 4 2 2 .raw true).num = real ∧
    (referenceConfig 8 4 2 2 .raw true).envBase = envBaseDefault real ∧ ∀ st, ∃ e : Env ℝ,
      envDerive (referenceConfig 8 4 2 2 .raw true) e = some e ∧ 0 < e.ratioA ∧ 0 < e.ratioDR ∧ 0 ≤ e.sustain ∧
      e.sustain ≤ 1 ∧ e.envState = st ∧ e.envOut = 0 := by
  refine ⟨rfl, rfl, fun st => ?_⟩
  obtain ⟨e, hd, -, h1, h2, h3, h4, h5, h6⟩ := witness_Envelope st 0
  exact ⟨e, hd, h1, h2, h3, h4, h5, h6⟩

/-- A filter of V4.8, with a boost, no gain and a cut. -/
theorem witness_FilterDesignGainsAndCheckValues : (0 : ℝ) < 8 ∧ (0 : ℝ) < 2 ∧ (2 : ℝ) < 8 / 2 ∧ (0 : ℝ) < 1 ∧
    (0 : ℝ) ≤ 6 ∧ (0 : ℝ) ≤ 0 ∧ (-6 : ℝ) < 0 := by norm_num

/-- A block with other bases than the reference ones, and an envelope whose stages have coefficient 0, in any stage but
Idle, at output 1: its invariant and the ranges of the statements hold, whatever the other bases are. -/
theorem witness_OtherBases (st : EnvState) (hst : st ≠ .idle) : ∃ e : Env Sys2Proof.Num,
    envInv (configOf { bench with envBase := .other }) e = true ∧ dec32 0x3F800000 = some e.envOut ∧ e.envOut = 1 ∧
    e.attackCoef = 0 ∧ e.decayCoef = 0 ∧ e.releaseCoef = 0 ∧ e.sustain ≤ e.envOut ∧ e.envState = st := by
  let p : Straps := { bench with envBase := .other }
  have hr : finite32 0x3089705F ≤ 1 := by decide +kernel
  obtain ⟨ha, hd, hrel⟩ := otherEnvBase_law Config.otherEnvBase 1 1 1 0 0 0 hr hr zero_le_one le_rfl
  obtain ⟨a, ha, -⟩ := ha le_rfl zero_lt_one
  obtain ⟨d, hd, -⟩ := hd le_rfl zero_lt_one
  obtain ⟨r, hrel, -⟩ := hrel le_rfl zero_lt_one
  let e : Env Sys2Proof.Num := ⟨0, 0, 0, 1, 1, 1, 0, 0, 0, a, d, r, st, 1⟩
  have hb : (configOf p).envBase 1 1 1 0 0 0 = some ⟨a, d, r⟩ := by
    simp [configOf, envBaseOf, p, ha, hd, hrel]
  have hc : calcCoef (configOf p).num 0 1 = some 0 := by decide +kernel
  have hderive : envDerive (configOf p) e = some e :=
    envDerive_eq_some.2 ⟨0, 0, 0, ⟨a, d, r⟩, hc, hc, hc, hb, rfl⟩
  have hmin : ratioMin (configOf p).num ≤ 1 := by decide +kernel
  refine ⟨e, ?_, dec32_one, rfl, rfl, rfl, rfl, le_rfl, rfl⟩
  show envInv (configOf p) e = true
  simp only [envInv, hderive, Bool.and_eq_true, Bool.or_eq_true, decide_eq_true_eq]
  exact ⟨⟨⟨⟨⟨zero_le_one, le_rfl⟩, hmin⟩, hmin⟩, trivial⟩, Or.inl hst⟩

/-! Unit SYS. -/

theorem witness_RdregReadsParametersAndFlags : fresh.straps.nCh ≤ 64 ∧ ({ bench with nCh := 64 } : Straps).nCh ≤ 64 ∧
    enc32 fresh.straps.sr = some 0x41000000 ∧ fresh.straps.noiseSrc = .reference ∧
    ({ bench with noiseSrc := .other } : Straps).noiseSrc = .other ∧ enc32 fresh.units.wt.phase = some 0 := by
  decide +kernel

/-- Every unit constructed, the last channel, and the last operator of a file of 256. -/
theorem witness_RdregReadsUnitFields : allUnits.straps.nCh ≤ 64 ∧
    allUnits.units.osc.isSome ∧ allUnits.units.env.isSome ∧ allUnits.units.bq.isSome ∧ allUnits.units.ng.isSome ∧
    allUnits.units.fm.isSome ∧ 1 < allUnits.straps.nCh ∧
    (allUnits.units.bq.bind fun b => b.delay[1]?) = some ⟨0, 0⟩ ∧ enc32 0 = some 0 ∧
    (255 < 256 ∧ (List.replicate 256 (⟨.saw, 0, 1, 0, 0⟩ : Osc Sys2Proof.Num))[255]? = some ⟨.saw, 0, 1, 0, 0⟩) := by
  decide +kernel

/-- The first and the last unmapped numbers of a gap; no unit constructed; the first and last channel above `N_CH`; a file of one operator. -/
theorem witness_RdregFaults : (0x0005 ≤ 0x01FF ∧ 0x040A ≤ 0x047F ∧ 0x1000 ≤ 0xFFFF) ∧ fresh.straps.nCh ≤ 64 ∧ (fresh.straps.nCh ≤ 2 ∧ 2 < 64) ∧ fresh.straps.nCh ≤ 63 ∧
    (fresh.units.osc = none ∧ fresh.units.env = none ∧ fresh.units.bq = none ∧ fresh.units.ng = none ∧
      fresh.units.fm = none) ∧ 0x0483 < 0x0480 + 2 * fresh.straps.nCh ∧
    (fmV7.units.fm.map fun fm => decide (fm.ops.length ≤ 1)) = some true := by decide +kernel

/-! Units KRN and OSC. -/

theorem witness_KrnEvalReturnsTheKernel : dec32 0 = some 0 ∧ fresh.straps.krnArgMode = .raw ∧
    prim32 bench.prim .sin 0 = some 0 ∧ enc32 0 = some 0 ∧
    (round32 (0 / tau32) = some 0 ∧ round32 (0 - 1 / 2) = some (-1 / 2) ∧ round32 (2 * (-1 / 2)) = some (-1) ∧
      round32 (2 * |(-1 : Rat)|) = some 2 ∧ round32 (2 - 1) = some 1 ∧ enc32 1 = some 0x3F800000) ∧
    round32 (2 * 0) = some 0 ∧ round32 (0 - 1) = some (-1) ∧ enc32 (-1) = some 0xBF800000 := by decide +kernel

theorem witness_OscInitMakesTheRecord : dec32 0x40000000 = some 2 ∧ dec32 0x3F800000 = some 1 ∧ fresh.straps.sr ≠ 0 ∧
    round32 (tau32 * 2) = some (2 * tau32) ∧ round32 (2 * tau32 / fresh.straps.sr) = some (tau32 / 4) := by decide +kernel

theorem witness_OscSettersWriteTheirFields : sawOsc.units.osc = some ⟨.saw, 2, 1, 0, tau32 / 4⟩ ∧
    dec32 0x40000000 = some 2 ∧ sawOsc.straps.sr ≠ 0 ∧ round32 (tau32 * 2) = some (2 * tau32) ∧
    round32 (2 * tau32 / sawOsc.straps.sr) = some (tau32 / 4) := by decide +kernel

theorem witness_OscSamplesThenAdvances : sawOsc.units.osc = some ⟨.saw, 2, 1, 0, tau32 / 4⟩ ∧
    round32 (0 + tau32 / 4) = some (tau32 / 4) ∧ round32 (-1 * 1) = some (-1) ∧ enc32 (-1) = some 0xBF800000 ∧
    kernel (binary32 sawOsc.straps) .saw 0 = some (-1) ∧ dec32 0 = some 0 ∧ round32 (0 + 0) = some 0 ∧
    sawOsc.straps.krnArgMode = .raw := by decide +kernel

theorem witness_OscAtphaseQueries : sawOsc.units.osc = some ⟨.saw, 2, 1, 0, tau32 / 4⟩ ∧ dec32 0 = some 0 ∧
    kernel (binary32 sawOsc.straps) .saw 0 = some (-1) ∧ sawOsc.straps.krnArgMode = .raw ∧
    sawOsc.straps.atphaseScaled = true ∧ round32 (-1 * 1) = some (-1) ∧ enc32 (-1) = some 0xBF800000 ∧
    ({ bench with atphaseScaled := false } : Straps).atphaseScaled = false := by decide +kernel

/-! Unit ENV. -/

/-- The rate 0 and the rate 2. -/
theorem witness_EnvelopeCoefficientFormula : (0 : Rat) ≤ 0 ∧ (0 : Rat) < 2 ∧ (1 / 8 : Rat) ≠ 0 ∧
    round32 (1 + 1 / 8) = some (9 / 8) ∧ round32 (9 / 8 / (1 / 8)) = some 9 ∧
    prim32 bench.prim .ln 9 = some (finite32 0x400C9F54) ∧
    round32 (0 - finite32 0x400C9F54) = some (finite32 0xC00C9F54) ∧
    round32 (finite32 0xC00C9F54 / 2) = some (finite32 0xBF8C9F54) ∧
    prim32 bench.prim .exp (finite32 0xBF8C9F54) = some (finite32 0x3EAAAAAB) := by decide +kernel

/-- Bases from the ratios 1/8, the sustain level 1/2 and three coefficients, in binary32; and a reference instance. -/
theorem witness_EnvelopeCoefficientFormula_bases : fresh.straps.envBase = .reference ∧
    (round32 (1 + 1 / 8) = some (9 / 8) ∧ round32 (1 - 1 / 4) = some (3 / 4) ∧ round32 (9 / 8 * (3 / 4)) = some (27 / 32)) ∧
    (round32 (1 / 2 - 1 / 8) = some (3 / 8) ∧ round32 (1 - 1 / 2) = some (1 / 2) ∧
      round32 (3 / 8 * (1 / 2)) = some (3 / 16)) ∧
    (round32 (0 - 1 / 8) = some (-1 / 8) ∧ round32 (1 - 0) = some 1 ∧ round32 (-1 / 8 * 1) = some (-1 / 8)) := by
  decide +kernel

theorem witness_EnvelopeCoefficientFormula_real : (referenceConfig 8 4 2 2 .raw true).num = real ∧
    (referenceConfig 8 4 2 2 .raw true).envBase = envBaseDefault real := ⟨rfl, rfl⟩

/-- The envelope of `ENV.INIT` with zero durations and the sustain level 1/2, 0 and 1. -/
theorem witness_EnvInitMakesTheEnvelope : dec32 0 = some 0 ∧ dec32 0x3F000000 = some (1 / 2) ∧
    dec32 0x3F800000 = some 1 ∧ (0 : Rat) ≤ 0 ∧ (1 : Rat) ≤ 1 ∧ round32 (0 * fresh.straps.sr) = some 0 ∧
    calcCoef fresh.config.num 0 (finite32 0x3E99999A) = some 0 ∧
    calcCoef fresh.config.num 0 (finite32 0x38D1B717) = some 0 ∧
    fresh.config.envBase (finite32 0x3E99999A) (finite32 0x38D1B717) (1 / 2) 0 0 0 =
      some ⟨5452595 / 4194304, 16773861 / 33554432, -13743895 / 137438953472⟩ := by decide +kernel

/-- The envelope of V3.1 in binary32. -/
def envE : Env Sys2Proof.Num :=
  ⟨2, 2, 2, 1 / 2, 1 / 8, 1 / 8, finite32 0x3EAAAAAB, finite32 0x3EAAAAAB, finite32 0x3EAAAAAB, 12582911 / 16777216,
    16777215 / 67108864, -5592405 / 67108864, .idle, 0⟩

/-- Each setter given the value the envelope has; the sustain level at both ends of its range. -/
theorem witness_EnvSettersRederive : envV31.units.env = some envE ∧ dec32 0x3E800000 = some (1 / 4) ∧
    round32 (1 / 4 * envV31.straps.sr) = some 2 ∧ envDerive envV31.config { envE with attackRate := 2 } = some envE ∧
    envDerive envV31.config { envE with decayRate := 2 } = some envE ∧
    envDerive envV31.config { envE with releaseRate := 2 } = some envE ∧
    (envDerive envV31.config { envE with sustain := 0 }).isSome ∧
    (envDerive envV31.config { envE with sustain := 1 }).isSome ∧
    envDerive envV31.config { envE with ratioA := max (1 / 8) (finite32 0x3089705F) } = some envE ∧
    envDerive envV31.config { envE with ratioDR := max (1 / 8) (finite32 0x3089705F) } = some envE := by decide +kernel

theorem witness_EnvGateForcesTheState : envV31.units.env = some envE ∧ envE.envState = .idle ∧
    (withUnits fun u => { u with env := some { envE with envState := .attack } }).units.env =
      some { envE with envState := .attack } := by decide +kernel

/-- The envelope of `ENV.INIT` with zero durations, whose stages take one call. -/
def fastE : Env Sys2Proof.Num :=
  ⟨0, 0, 0, 1 / 2, finite32 0x3E99999A, finite32 0x38D1B717, 0, 0, 0, 5452595 / 4194304, 16773861 / 33554432,
    -13743895 / 137438953472, .idle, 0⟩

/-- The fast envelope, in Release at output 1/2, and a sample of it. -/
theorem witness_EnvelopeOutputStaysInRange :
    let e : Env Sys2Proof.Num := { fastE with envState := .release, envOut := 1 / 2 }
    let s : State := { withUnits (fun u => { u with env := some e }) with pkt := [], cmd := [0x39000000], resetLine := false }
    s.straps.envBase = .reference ∧ unitsInv s.config s.units = true ∧
    (match step s with | .next t => t.units.env.map Env.envOut | _ => none) = some 0 := by decide +kernel

/-- Both branches of each stage: the fast envelope crosses its thresholds, the envelope of V3.1 does not. -/
theorem witness_EnvProcessStepsTheStage : (envE.envState = .idle ∧ enc32 envE.envOut = some 0) ∧
    (round32 (0 * fastE.attackCoef) = some 0 ∧ round32 (fastE.attackBase + 0) = some fastE.attackBase ∧
      1 ≤ fastE.attackBase) ∧
    (round32 (0 * envE.attackCoef) = some 0 ∧ round32 (envE.attackBase + 0) = some envE.attackBase ∧
      envE.attackBase < 1 ∧ (enc32 envE.attackBase).isSome) ∧
    (round32 (1 * fastE.decayCoef) = some 0 ∧ round32 (fastE.decayBase + 0) = some fastE.decayBase ∧
      fastE.decayBase ≤ fastE.sustain ∧ (enc32 fastE.sustain).isSome) ∧
    (round32 (1 * envE.decayCoef) = some envE.decayCoef ∧
      round32 (envE.decayBase + envE.decayCoef) = some (rd (envE.decayBase + envE.decayCoef)) ∧
      envE.sustain < rd (envE.decayBase + envE.decayCoef) ∧ (enc32 (rd (envE.decayBase + envE.decayCoef))).isSome) ∧
    (round32 (1 / 2 * fastE.releaseCoef) = some 0 ∧ round32 (fastE.releaseBase + 0) = some fastE.releaseBase ∧
      fastE.releaseBase ≤ 0) ∧
    (round32 (1 / 2 * envE.releaseCoef) = some (envE.releaseCoef / 2) ∧
      round32 (envE.releaseBase + envE.releaseCoef / 2) = some (rd (envE.releaseBase + envE.releaseCoef / 2)) ∧
      0 < rd (envE.releaseBase + envE.releaseCoef / 2) ∧
      (enc32 (rd (envE.releaseBase + envE.releaseCoef / 2))).isSome) := by decide +kernel

theorem witness_EnvTransitionsAreTheTable : exec (.envGate true) envV31 = .next (nextOf (.envGate true) envV31) ∧
    envV31.units.env.isSome ∧ (nextOf (.envGate true) envV31).units.env.isSome :=
  ⟨exec_nextOf _ _, by decide +kernel, by decide +kernel⟩

/-! Unit BQ. -/

/-- The coefficients of V4.1 in binary32. -/
def kV41 : BqCoefs Sys2Proof.Num := ⟨finite32 0x3EAAAAAB, finite32 0x3F2AAAAB, finite32 0x3EAAAAAB, 0, finite32 0x3EAAAAAB⟩

theorem witness_BqInitMakesTheFilter : dec32 0x40000000 = some 2 ∧ dec32 0x3F800000 = some 1 ∧ dec32 0 = some 0 ∧
    round32 (1 / 2 * fresh.straps.sr) = some 4 ∧ (0 : Rat) < 2 ∧ (2 : Rat) < 4 ∧ (0 : Rat) < 1 ∧
    fresh.config.bqDesign .lowpass 2 1 0 = some kV41 := by decide +kernel

/-- The block of the tests with `pow10` known at 1 too. -/
def shelves : State := State.resetWith { bench with prim := ⟨.pow10, 1, 0x41200000⟩ :: bench.prim }

/-- The default design answers coefficients of every type at a quarter of the sample rate, at 0 dB and at -20 dB, with the
tangent, the gains and the roots the statement names. -/
theorem witness_BqInitMakesTheFilter_design :
    shelves.straps.bqDesign = .reference ∧
    prim32 shelves.straps.prim .tan (rd (rd (pi32 * 2) / shelves.straps.sr)) = some 1 ∧
    (prim32 shelves.straps.prim .pow10 (rd (|(0 : Rat)| / 20)) = some 1 ∧ (0 : Rat) ≤ 0 ∧
      prim32 shelves.straps.prim .pow10 (rd (|(-20 : Rat)| / 20)) = some 10 ∧ (-20 : Rat) < 0) ∧
    (shelves.config.num.sqrt 2).isSome ∧ (shelves.config.num.sqrt (rd (2 * 1))).isSome ∧
    (shelves.config.num.sqrt (rd (2 * 10))).isSome ∧
    (∀ t ∈ [FType.lowpass, .highpass, .bandpass, .lowshelf, .highshelf, .peak, .notch],
      (shelves.config.bqDesign t 2 1 0).isSome ∧ (shelves.config.bqDesign t 2 1 (-20)).isSome) := by decide +kernel

theorem witness_BqSettersRedesign :
    lowpassV41.units.bq = some ⟨.lowpass, 2, 1, 0, kV41, [⟨0, 0⟩, ⟨0, 0⟩]⟩ ∧
    round32 (1 / 2 * lowpassV41.straps.sr) = some 4 ∧
    dec32 0x40000000 = some 2 ∧ dec32 0x3F800000 = some 1 ∧ dec32 0 = some 0 ∧
    lowpassV41.config.bqDesign .lowpass 2 1 0 = some kV41 := by decide +kernel

/-- The frequencies 0 and half the sample rate, and Q = 0. -/
theorem witness_BqRejectsInvalidParameters : dec32 0 = some 0 ∧ dec32 0x40800000 = some 4 ∧
    round32 (1 / 2 * lowpassV41.straps.sr) = some 4 ∧ (0 : Rat) ≤ 0 ∧ (4 : Rat) ≤ 4 ∧
    lowpassV41.units.bq.isSome := by decide +kernel

/-- The last channel. -/
theorem witness_BqProcessFiltersOneChannel :
    lowpassV41.units.bq = some ⟨.lowpass, 2, 1, 0, kV41, [⟨0, 0⟩, ⟨0, 0⟩]⟩ ∧ dec32 0x3F800000 = some 1 ∧
    1 < lowpassV41.straps.nCh ∧ [(⟨0, 0⟩ : Delay Sys2Proof.Num), ⟨0, 0⟩][1]? = some ⟨0, 0⟩ ∧
    round32 (1 * kV41.a0) = some kV41.a0 ∧ round32 (kV41.a0 + 0) = some kV41.a0 ∧
    round32 (1 * kV41.a1) = some kV41.a1 ∧ round32 (kV41.a1 + 0) = some kV41.a1 ∧
    round32 (kV41.b1 * kV41.a0) = some 0 ∧ round32 (kV41.a1 - 0) = some kV41.a1 ∧
    round32 (1 * kV41.a2) = some kV41.a2 ∧ round32 (kV41.b2 * kV41.a0) = some (rd (kV41.b2 * kV41.a0)) ∧
    (round32 (kV41.a2 - rd (kV41.b2 * kV41.a0))).isSome ∧ enc32 kV41.a0 = some 0x3EAAAAAB := by decide +kernel

/-! Unit NG. -/

theorem witness_NoiseCommandsDraw : fresh.config.noise.seed 0xACE1 = some 0xACE1 ∧ fresh.config.noise.seed 0 = none ∧
    fresh.straps.noiseSrc = .reference ∧ (1 : BitVec 16) ≠ 0 ∧
    (let d1 := (fresh.config.noise.next 0xACE1).2
     let d2 := (fresh.config.noise.next 0x5670).2
     fresh.config.noise.next 0xACE1 = (0x5670, d1) ∧ fresh.config.noise.next 0x5670 = (0xAB38, d2) ∧
     (enc32 d1).isSome ∧ round32 (d1 + d2) = some (rd (d1 + d2)) ∧
     round32 (rd (d1 + d2) / 2) = some (rd (d1 + d2) / 2) ∧ (enc32 (rd (d1 + d2) / 2)).isSome ∧
     round32 (0 + d1) = some d1 ∧ round32 (d1 / 2) = some (d1 / 2) ∧ enc32 (d1 / 2) = some 0xBE26414D) ∧
    ([Variant.white, .pink, .brown].all fun v => decide ((after [.ngSettype v]).units.ng = some ⟨v, 0⟩)) = true := by
  decide +kernel

theorem witness_LfsrStatesDrawsAndPeriod : (0xACE1 : BitVec 16) ≠ 0 ∧ fresh.straps.noiseSrc = .reference ∧
    round32 (((lfsrStep 0xACE1).toNat - 32768) / 32767) = some (rd (-10640 / 32767)) := by decide +kernel

/-! Unit WT. -/

theorem witness_WtBuildFillsTheTable (i : Nat) (hi : i < fresh.straps.wtLen) : ∃ x y,
    fresh.config.num.mul tau32 (fresh.config.num.ofRat i) = some x ∧
    fresh.config.num.div x (fresh.config.num.ofRat fresh.straps.wtLen) = some y ∧
    kernel fresh.config.num .saw y = some (([-1, -1 / 2, 0, 1 / 2] : List Rat).getD i 0) := by
  have hi : i < 4 := hi
  refine ⟨rd (tau32 * i), rd (rd (tau32 * i) / 4), ?_⟩
  interval_cases i <;> decide +kernel

/-- The last entry and the first index beyond the table; an entry written and an entry not written. -/
theorem witness_WtLoadResetAndRead : dec32 0xBF800000 = some (-1) ∧ 3 < fresh.straps.wtLen ∧ fresh.straps.wtLen ≤ 4 ∧
    tabRead sawTable.units.wt.tab 3 = some (1 / 2) ∧ enc32 (1 / 2) = some 0x3F000000 ∧
    tabRead fresh.units.wt.tab 3 = none := by decide +kernel

/-- The phase 0 of a full table (position 0), a negative phase, and a table never written. -/
theorem witness_WtLookupInterpolates : dec32 0 = some 0 ∧ sawTable.units.wt.phase = 0 ∧ round32 (0 / tau32) = some 0 ∧
    round32 (0 * sawTable.config.num.ofRat sawTable.straps.wtLen) = some 0 ∧ (0 : Rat).floor = 0 ∧
    tabRead sawTable.units.wt.tab 0 = some (-1) ∧ tabRead sawTable.units.wt.tab 1 = some (-1 / 2) ∧
    round32 (0 - sawTable.config.num.ofRat (0 : Int)) = some 0 ∧ round32 (-1 / 2 - -1) = some (1 / 2) ∧
    round32 (0 * (1 / 2)) = some 0 ∧ round32 (-1 + 0) = some (-1) ∧ enc32 (-1) = some 0xBF800000 ∧
    sawTable.straps.sr ≠ 0 ∧ round32 (tau32 * 0) = some 0 ∧ round32 (0 / sawTable.straps.sr) = some 0 ∧
    round32 (0 + 0) = some 0 ∧ tabRead fresh.units.wt.tab 0 = none ∧
    (dec32 0xBE800000 = some (-1 / 4) ∧ round32 (-1 / 4 / tau32) = some (rd (-1 / 4 / tau32)) ∧
      round32 (rd (-1 / 4 / tau32) * sawTable.config.num.ofRat sawTable.straps.wtLen) =
        some (rd (rd (-1 / 4 / tau32) * 4)) ∧ (rd (rd (-1 / 4 / tau32) * 4)).floor < 0) := by decide +kernel

/-! Unit FM. -/

/-- An empty file, and a full one. -/
theorem witness_FmInitAndAddop : dec32 0x40000000 = some 2 ∧ dec32 0x3F800000 = some 1 ∧ fresh.straps.sr ≠ 0 ∧
    round32 (tau32 * 2) = some (2 * tau32) ∧ round32 (2 * tau32 / fresh.straps.sr) = some (tau32 / 4) ∧
    (fmV7.units.fm.map fun fm => decide (fm.ops.length < fmV7.straps.fmMaxOps)) = some true ∧
    ((after [.fmInit .saw 0 0, .fmAddop .saw 0 0, .fmAddop .saw 0 0]).units.fm.map
      fun fm => decide (fm.ops.length = fresh.straps.fmMaxOps)) = some true := by decide +kernel

/-- The synthesizer of `fmV7`. -/
def fmF : Fm Sys2Proof.Num := ⟨⟨.sine, 0, 1, 0, 0⟩, [⟨.saw, 0, 1 / 4, 0, 0⟩]⟩

theorem witness_FmCarrierSetters : fmV7.units.fm = some fmF ∧ dec32 0 = some 0 ∧ fmV7.straps.sr ≠ 0 ∧
    round32 (tau32 * 0) = some 0 ∧ round32 (0 / fmV7.straps.sr) = some 0 := by decide +kernel

/-- The only operator, and the first number beyond it. -/
theorem witness_FmOperatorSetters : fmV7.units.fm = some fmF ∧ fmF.ops[0]? = some ⟨.saw, 0, 1 / 4, 0, 0⟩ ∧
    fmF.ops.length ≤ 1 ∧ dec32 0 = some 0 ∧ fmV7.straps.sr ≠ 0 ∧ round32 (tau32 * 0) = some 0 ∧
    round32 (0 / fmV7.straps.sr) = some 0 := by decide +kernel

theorem witness_FmRemopRenumbers : fmV7.units.fm = some fmF ∧ 0 < fmF.ops.length ∧ fmF.ops.length ≤ 1 := by decide +kernel

theorem witness_FmSampleModulatesTheCarrier :
    let m : Nat → Sys2Proof.Num := fun j => if j = 0 then 0 else -1 / 4
    fmV7.units.fm = some fmF ∧ m 0 = 0 ∧
    (∀ j o, fmF.ops[j]? = some o → ∃ y, kernel (binary32 fmV7.straps) o.type o.phase = some y ∧
      round32 (y * o.amp) = some (-1 / 4) ∧ round32 (m j + -1 / 4) = some (m (j + 1)) ∧
      round32 (o.phase + o.inc) = some 0) ∧
    round32 (fmF.car.phase + m fmF.ops.length) = some (-1 / 4) ∧ fmV7.straps.krnArgMode = .raw ∧
    kernel (binary32 fmV7.straps) fmF.car.type (-1 / 4) = some (finite32 0xBE7D5777) ∧
    round32 (fmF.car.phase + fmF.car.inc) = some 0 ∧
    round32 (finite32 0xBE7D5777 * fmF.car.amp) = some (finite32 0xBE7D5777) ∧
    enc32 (finite32 0xBE7D5777) = some 0xBE7D5777 := by
  refine ⟨by decide +kernel, rfl, ?_, by decide +kernel, by decide +kernel, by decide +kernel,
    by decide +kernel, by decide +kernel, by decide +kernel⟩
  intro j o h
  rcases j with _ | j
  · obtain rfl : ⟨.saw, 0, 1 / 4, 0, 0⟩ = o := Option.some.inj h
    exact ⟨-1, by decide +kernel⟩
  · simp [fmF] at h

/-! Faults over all commands. -/

theorem witness_BadOperandOverAllCommands :
    ∃ w ∈ operandWords (.bqProcess 5 0x7FC00000), expField w = 255 := ⟨0x7FC00000, by simp [operandWords, encode], rfl⟩

theorem witness_NotConfiguredOverAllCommands : (∀ w ∈ operandWords (.bqProcess 5 0x3F800000), expField w ≠ 255) ∧
    unitReady fresh.units (.bqProcess 5 0x3F800000) = false := by
  refine ⟨fun w hw => ?_, rfl⟩
  obtain rfl : w = 0x3F800000 := by simpa [operandWords, encode] using hw
  decide

/-- The first channel beyond `N_CH`; sustain levels on both sides of the range; the largest frequency; an entry that
cannot be encoded. -/
theorem witness_IndexParameterAndNumericFaults : (lowpassV41.units.bq.isSome ∧ lowpassV41.straps.nCh ≤ 2) ∧
    (dec32 0xBE800000 = some (-1 / 4) ∧ (-1 / 4 : Rat) < 0) ∧ (dec32 0x3FC00000 = some (3 / 2) ∧ (1 : Rat) < 3 / 2) ∧
    envV31.units.env.isSome ∧ dec32 0 = some 0 ∧ sawOsc.units.osc.isSome ∧
    (dec32 0x7F7FFFFF = some 340282346638528859811704183484516925440 ∧ round32 (tau32 * 340282346638528859811704183484516925440) = none) ∧
    (0 < fresh.straps.wtLen ∧ enc32 340282366920938463463374607431768211456 = none ∧
      tabRead (withUnits fun u => { u with wt := ⟨[(0, 340282366920938463463374607431768211456)], 0⟩ }).units.wt.tab 0 = some 340282366920938463463374607431768211456) := by
  decide +kernel

/-- Each clause of a failing phase increment: the product and the quotient. -/
theorem witness_NumericFaults_phaseInc : fresh.straps.sr ≠ 0 ∧
    phaseInc fresh.config 340282346638528859811704183484516925440 = none ∧
    (round32 (tau32 * 1) = some tau32 ∧ round32 (tau32 / (1 / 340282346638528859811704183484516925440)) = none) ∧
    (fmV7.units.fm.map fun fm => decide (fm.ops.length < fmV7.straps.fmMaxOps ∧ 0 < fm.ops.length)) = some true ∧
    (wtLookup sawTable.config sawTable.units.wt.tab sawTable.units.wt.phase).toOption = some (-1) ∧
    wtAdvance sawTable.config sawTable.units.wt.phase 340282346638528859811704183484516925440 = none := by
  decide +kernel

/-- The straps of the tests with primitives that answer infinity. -/
def infinite : Straps :=
  { bench with prim := [⟨.sin, 0, 0x7F800000⟩, ⟨.tan, pi32 / 4, 0x7F800000⟩, ⟨.ln, 9, 0x7F800000⟩,
    ⟨.ln, finite32 0x408AAAAA, 0x7F800000⟩] }

/-- Failing samples: a sine that is not finite, and a memory no word encodes. -/
theorem witness_NumericFaults_samples :
    let c := configOf infinite
    kernel c.num .sine (karg c 0) = none ∧ oscGet c ⟨.sine, 0, 1, 0, 0⟩ = none ∧
    oscGetMod c ⟨.sine, 0, 1, 0, 0⟩ 0 = none ∧ oscAtPhase c ⟨.sine, 0, 1, 0, 0⟩ 0 = none ∧
    fmStep c ⟨⟨.sine, 0, 1, 0, 0⟩, []⟩ = none ∧ noiseSample c ⟨.brown, 2 ^ 200⟩ 0xACE1 = none ∧
    (0 < infinite.wtLen ∧ wtBuildEntry c .sine 0 = none) ∧
    wtPosition { c with wtLen := 65536 } 340282346638528859811704183484516925440 = none := by decide +kernel

/-- Failing derivations, recurrences and designs, on valid parameters. -/
theorem witness_NumericFaults_envelopeAndFilter :
    let c := configOf infinite
    round32 (340282346638528859811704183484516925440 * infinite.sr) = none ∧ round32 (1 / 4 * infinite.sr) = some 2 ∧
    calcCoef c.num 2 (finite32 0x3E99999A) = none ∧ envDerive c envE = none ∧
    envStep c.num { envE with envState := .attack, envOut := 2 ^ 127, attackCoef := 2 ^ 127 } = none ∧
    bqValid c 2 1 = some true ∧ c.bqDesign .lowpass 2 1 0 = none ∧
    (1 < infinite.nCh ∧ bqFilter c.num ⟨2 ^ 127, 0, 0, 0, 0⟩ ⟨0, 0⟩ 2 = none) := by decide +kernel

/-- A block of the reference instance whose filter multiplies by `2^127`. -/
noncomputable def loudReal : Machine.Units ℝ :=
  { Machine.Units.reset (referenceConfig 8 4 2 2 .raw true) with
    bq := some ⟨.lowpass, 2, 1, 0, ⟨2 ^ 127, 0, 0, 0, 0⟩, [⟨0, 0⟩, ⟨0, 0⟩]⟩ }

/-- `NUM = real`: a filtered sample of `2^129`, too large for binary32, is `NumericFault` at the last encoding step, and
the delay words stay as they were (60_exceptions.md R247, 93_implementation_defined.md U16). -/
theorem test_realEncodingFault :
    performAllReal (referenceConfig 8 4 2 2 .raw true) [.bqProcess 0 0x40800000] loudReal =
      ([Except.error .numericFault], loudReal) := by
  have hx : operandReal 0x40800000 = .ok ((4 : Rat) : ℝ) := by
    rw [operandReal, operand, show dec32 0x40800000 = some 4 by decide +kernel]; rfl
  have he : encReal (((4 : Rat) : ℝ) * 2 ^ 127 + 0) = none := by
    have h : ((4 : Rat) : ℝ) * 2 ^ 127 + 0 = ((4 * 2 ^ 127 : Rat) : ℝ) := by norm_num
    rw [h, encReal_ratCast]; decide +kernel
  have hp : ∃ u', perform (referenceConfig 8 4 2 2 .raw true) operandReal (.bqProcess 0 0x40800000) loudReal =
      .ok (u', .num (((4 : Rat) : ℝ) * 2 ^ 127 + 0)) := by
    show ∃ u', (operandReal 0x40800000 >>= fun x => bqProcess (referenceConfig 8 4 2 2 .raw true) 0 x loudReal) = _
    rw [hx]; exact ⟨_, rfl⟩
  obtain ⟨u', hp⟩ := hp
  have hf := (performReal_numericFault 8 4 2 2 .raw true _ loudReal).2 ⟨u', _, hp, he⟩
  rw [performReal] at hf
  rw [performAllReal, performAll, hf]; rfl

/-! The whole machine. -/

/-- With the packet of `FM.SAMPLE` presented, the step is that command. -/
theorem step_fmSample (s : State) : ∃ t, step { s with pkt := [], cmd := [0x7C000000], resetLine := false } = .next t :=
  ⟨_, exec_nextOf .fmSample { s with pkt := [], cmd := [], resetLine := false }⟩

/-- A command of the block with every unit constructed. -/
def stepped : State := nextOf .fmSample allUnits

theorem witness_FlagsAreNeverCleared :
    let s : State := { allUnits with pkt := [], cmd := [0x7C000000], resetLine := false }
    s.resetLine = false ∧ (∃ t, step s = .next t) ∧ s.units.oscCfg = true ∧ s.units.envCfg = true ∧
    s.units.bqCfg = true ∧ s.units.ngCfg = true ∧ s.units.fmCfg = true ∧ 3 < s.straps.wtLen ∧ s.units.tabValid 3 = true :=
  ⟨rfl, step_fmSample _, by decide +kernel, by decide +kernel, by decide +kernel, by decide +kernel, by decide +kernel,
    by decide +kernel, by decide +kernel⟩

theorem witness_CommandsTouchOnlyTheirUnit : exec .fmSample allUnits = .next stepped ∧ unitNumber .fmSample ≠ 2 ∧
    unitNumber .fmSample ≠ 3 ∧ unitNumber .fmSample ≠ 4 ∧ unitNumber .fmSample ≠ 5 ∧ unitNumber .fmSample ≠ 6 ∧
    unitNumber .oscReset ≠ 7 := ⟨exec_nextOf _ _, by decide, by decide, by decide, by decide, by decide, by decide⟩

theorem witness_PureQueriesAreIdempotent : ∃ t t', exec (.oscAtphase 0) sawOsc = .next t ∧
    exec (.oscAtphase 0) t = .next t' := ⟨_, _, exec_nextOf _ _, exec_nextOf _ _⟩

/-- Two blocks that agree on unit OSC and on nothing else. -/
theorem witness_UnitsDoNotInterfere : sawOsc.straps = allUnits.straps ∧
    agreeOn (unitNumber .oscGetvalue) sawOsc.units allUnits.units ∧
    exec .oscGetvalue sawOsc = .next (nextOf .oscGetvalue sawOsc) ∧
    exec .oscGetvalue allUnits = .next (nextOf .oscGetvalue allUnits) :=
  ⟨by decide +kernel, by show sawOsc.units.osc = allUnits.units.osc; decide +kernel, exec_nextOf _ _, exec_nextOf _ _⟩

theorem witness_StepKeepsTheInvariants : allUnits.Inv ∧
    ∃ t, step { allUnits with pkt := [], cmd := [0x7C000000], resetLine := false } = .next t :=
  ⟨by show unitsInv allUnits.config allUnits.units = true; decide +kernel, step_fmSample _⟩

theorem witness_StepKeepsEveryNumberFinite : allUnits.Binary32Inv := by
  have h : ∀ v ∈ unitsNums allUnits.units, round32 v = some v := by decide +kernel
  intro v hv
  obtain ⟨w, -, hw⟩ := Option.bind_eq_some_iff.1 (h v hv)
  exact ⟨w, hw⟩

theorem witness_StepKeepsTheNoiseBounds : allUnits.RngInv ∧ allUnits.NoiseInv := by
  refine ⟨fun _ => by decide +kernel, fun g hg => ?_⟩
  have h : allUnits.units.ng = some ⟨.brown, 0⟩ := by decide +kernel
  obtain rfl : ⟨.brown, 0⟩ = g := Option.some.inj (h.symm.trans hg)
  decide +kernel

end Sys2Proof.Tests
end

section
/-!
PROOFS. 00_scope.md R12 and R14: `wrap` stays in one turn, and the square root of R12 is correctly rounded.
-/

namespace Sys2Proof.Machine

/-! ### `wrap` (00_scope.md R14) -/

theorem real_wrap_eq (p : ℝ) : real.wrap p = p - 2 * Real.pi * (⌊p / (2 * Real.pi)⌋ : ℝ) := rfl

theorem real_wrap_nonneg (p : ℝ) : 0 ≤ real.wrap p := by
  rw [real_wrap_eq, mul_comm]
  exact Int.sub_floor_div_mul_nonneg p Real.two_pi_pos

theorem real_wrap_lt_two_pi (p : ℝ) : real.wrap p < 2 * Real.pi := by
  rw [real_wrap_eq, mul_comm _ (⌊_⌋ : ℝ)]
  exact Int.sub_floor_div_mul_lt p Real.two_pi_pos

/-- `wrap32_inTurn` as two inequalities. -/
theorem wrap32_range (p : Num) : 0 ≤ wrap32 p ∧ wrap32 p < tau32 := by
  simpa [inTurn32] using wrap32_inTurn p

/-- Settles O15: over the reals by the law of the floored quotient, in binary32 by the test `wrap32` makes of its own
value. -/
theorem wrapStaysInOneTurn : Obligations.WrapStaysInOneTurn :=
  ⟨fun p => ⟨real_wrap_eq p, real_wrap_nonneg p, real_wrap_lt_two_pi p⟩, wrap32_range⟩

/-! ### The nearest integer -/

/-- `m` is the integer nearest `r`, the even one of two that are as near. -/
def IsNearestEven (r : ℝ) (m : ℕ) : Prop := |r - m| ≤ 1 / 2 ∧ (|r - m| = 1 / 2 → m % 2 = 0)

namespace IsNearestEven

variable {r : ℝ} {m : ℕ}

/-- No integer is nearer, and `m` is even where another one is as near. -/
theorem le_dist (h : IsNearestEven r m) (k : ℤ) :
    |r - m| ≤ |r - k| ∧ (|r - m| = |r - k| → (m : ℤ) ≠ k → m % 2 = 0) := by
  rcases eq_or_ne (m : ℤ) k with rfl | hk
  · exact ⟨by simp, fun _ hne => absurd rfl hne⟩
  · have hone : (1 : ℝ) ≤ |(m : ℝ) - k| := by exact_mod_cast Int.one_le_abs (sub_ne_zero.2 hk)
    have htri : |(m : ℝ) - k| ≤ |r - m| + |r - k| := by
      rw [abs_sub_comm r m]
      exact abs_sub_le _ _ _
    obtain ⟨hle, htie⟩ := h
    exact ⟨by linarith, fun heq _ => htie (by linarith)⟩

theorem le_of_le {k : ℕ} (h : IsNearestEven r m) (hk : r ≤ k) : m ≤ k := by
  have hlt : (m : ℝ) < k + 1 := by linarith [abs_le.1 h.1]
  exact Nat.lt_succ_iff.1 (by exact_mod_cast hlt)

theorem ge_of_ge {k : ℕ} (h : IsNearestEven r m) (hk : k ≤ r) : k ≤ m := by
  have hlt : (k : ℝ) < m + 1 := by linarith [abs_le.1 h.1]
  exact Nat.lt_succ_iff.1 (by exact_mod_cast hlt)

end IsNearestEven

/-! ### The binary32 numbers as units of a last place -/

/-- Every finite binary32 number is a 24-bit integer times a power of 2 between those of the first and the last binade
(30_encoding.md R73). -/
theorem dec32_eq_units {w : Word} {y : Num} (h : dec32 w = some y) :
    ∃ k t : ℤ, |k| < 2 ^ 24 ∧ -149 ≤ t ∧ t ≤ 104 ∧ y = k * 2 ^ t := by
  have hfrac : fracField w < 2 ^ 23 := (w.extractLsb' 0 23).isLt
  have hexp : expField w < 2 ^ 8 := (w.extractLsb' 23 8).isLt
  have hmag (he : expField w ≠ 255) : ∃ (k : ℕ) (t : ℤ), k < 2 ^ 24 ∧ -149 ≤ t ∧ t ≤ 104 ∧
      magnitude (expField w) (fracField w) = k * 2 ^ t := by
    unfold magnitude
    split
    · exact ⟨fracField w, -149, by omega, by omega, by omega, by rw [pow2_eq]⟩
    · exact ⟨2 ^ 23 + fracField w, expField w - 150, by omega, by omega, by omega, by rw [pow2_eq]⟩
  unfold dec32 at h
  split at h
  · cases h
  next he =>
    obtain ⟨k, t, hk, h1, h2, hm⟩ := hmag he
    rw [hm] at h
    cases hs : w.msb
    · exact ⟨k, t, by rw [Nat.abs_cast]; exact_mod_cast hk, h1, h2, by simpa [hs] using h.symm⟩
    · exact ⟨-k, t, by rw [abs_neg, Nat.abs_cast]; exact_mod_cast hk, h1, h2, by simpa [hs] using h.symm⟩

/-- The value of the fields of `m` units of the last place `2^u`: `m` is subnormal only at the least last place, and may
be the `2^24` that carries into the exponent. -/
theorem fieldsValue_packFields {m : ℕ} {u : ℤ} (hu : -149 ≤ u) (hlo : u = -149 ∨ 2 ^ 23 ≤ m) (hhi : m ≤ 2 ^ 24) :
    fieldsValue (packFields m u) = m * 2 ^ u := by
  obtain ⟨j, rfl⟩ : ∃ j : ℕ, u = j - 149 := ⟨(u + 149).toNat, by omega⟩
  have hk : packFields m ((j : ℤ) - 149) = j * 2 ^ 23 + m := by simp [packFields]
  rw [hk, fieldsValue, magnitude]
  rcases Nat.lt_or_ge m (2 ^ 23) with hsub | hnorm
  · obtain rfl : j = 0 := by omega
    rw [if_pos (by omega), pow2_eq, show (0 * 2 ^ 23 + m) % 2 ^ 23 = m by omega]
    norm_num
  · rw [if_neg (by omega), pow2_eq]
    rcases Nat.lt_or_ge m (2 ^ 24) with hlt | hcarry
    · rw [show (j * 2 ^ 23 + m) / 2 ^ 23 = j + 1 by omega, show 2 ^ 23 + (j * 2 ^ 23 + m) % 2 ^ 23 = m by omega]
      congr 2; push_cast; ring
    · obtain rfl : m = 2 ^ 24 := by omega
      rw [show (j * 2 ^ 23 + 2 ^ 24) / 2 ^ 23 = j + 2 by omega,
        show 2 ^ 23 + (j * 2 ^ 23 + 2 ^ 24) % 2 ^ 23 = 2 ^ 23 by omega,
        show ((j + 2 : ℕ) : ℤ) - 150 = (j - 149) + 1 by push_cast; ring, zpow_add_one₀ (by norm_num)]
      push_cast; ring

/-- The unsigned word of the fields `k` is `k`. -/
theorem packWord_false_eq_some {k : ℕ} {w : Word} :
    packWord false k = some w ↔ k < 255 * 2 ^ 23 ∧ BitVec.ofNat 32 k = w := by
  unfold packWord
  split
  next h0 => simp [h0]
  next => split <;> simp_all

/-- The lowest bit of the word of `m` units of the last place is the parity of `m`. -/
theorem getLsbD_ofNat_packFields (m : ℕ) (u : ℤ) :
    (BitVec.ofNat 32 (packFields m u)).getLsbD 0 = decide (m % 2 = 1) := by
  simp only [BitVec.getLsbD_ofNat, packFields, Nat.testBit_zero, decide_true, Bool.true_and, Nat.zero_lt_succ]
  congr 1
  simp only [eq_iff_iff]
  omega

/-- A real number `r` rounded to an integer number of units of its last place: no binary32 number is nearer to `r`, and
the number of units is even where another one is as near. -/
theorem le_dist_of_isNearestEven {r : ℝ} {m : ℕ} {u : ℤ} (hm : IsNearestEven (r / 2 ^ u) m)
    (hr : u = -149 ∨ 2 ^ 23 * 2 ^ u ≤ r) {w : Word} {y : Num} (hy : dec32 w = some y) :
    |r - m * 2 ^ u| ≤ |r - y| ∧ (|r - m * 2 ^ u| = |r - y| → (m * 2 ^ u : ℝ) ≠ y → m % 2 = 0) := by
  have hpos : (0 : ℝ) < 2 ^ u := by positivity
  have hscale (a : ℝ) : |r - a * 2 ^ u| = |r / 2 ^ u - a| * 2 ^ u := by
    rw [← abs_of_pos hpos, ← abs_mul, abs_of_pos hpos, sub_mul, div_mul_cancel₀ _ hpos.ne']
  obtain ⟨k, t, hk, ht, -, rfl⟩ := dec32_eq_units hy
  push_cast
  rcases le_or_gt u t with hut | htu
  · -- a number on the grid of `2^u`
    obtain ⟨j, rfl⟩ : ∃ j : ℕ, t = u + j := ⟨(t - u).toNat, by omega⟩
    have hgrid : (k : ℝ) * 2 ^ (u + (j : ℤ)) = ((k * 2 ^ j : ℤ) : ℝ) * 2 ^ u := by
      rw [zpow_add₀ (by norm_num)]; push_cast; rw [zpow_natCast]; ring
    obtain ⟨hle, htie⟩ := hm.le_dist (k * 2 ^ j)
    rw [hgrid, hscale, hscale]
    refine ⟨by gcongr, fun heq hne => htie (mul_right_cancel₀ hpos.ne' heq) fun h => hne ?_⟩
    rw [← h]; norm_cast
  · -- a number below the binade of `r`, whose least number is nearer
    have hr' : 2 ^ 23 * 2 ^ u ≤ r := hr.resolve_left (by omega)
    have hlt : (k : ℝ) * 2 ^ t < 2 ^ 23 * 2 ^ u := by
      calc (k : ℝ) * 2 ^ t < 2 ^ 24 * 2 ^ t := by
            gcongr
            exact_mod_cast (le_abs_self k).trans_lt hk
        _ = 2 ^ 23 * 2 ^ (t + 1) := by rw [zpow_add_one₀ (by norm_num)]; ring
        _ ≤ 2 ^ 23 * 2 ^ u := by gcongr <;> [norm_num; omega]
    have hbound : |r - m * 2 ^ u| < |r - k * 2 ^ t| := by
      calc |r - m * 2 ^ u| = |r / 2 ^ u - m| * 2 ^ u := hscale m
        _ ≤ |r / 2 ^ u - (2 ^ 23 : ℤ)| * 2 ^ u := mul_le_mul_of_nonneg_right (hm.le_dist _).1 hpos.le
        _ = |r - 2 ^ 23 * 2 ^ u| := by rw [← hscale]; norm_cast
        _ < |r - k * 2 ^ t| := by
          rw [abs_of_nonneg (by linarith), abs_of_nonneg (by linarith)]; linarith
    exact ⟨hbound.le, fun heq => absurd heq hbound.ne⟩

/-! ### The integer square root -/

/-- The search finds the integer part of the root of `n / d`, once that lies below `s + 2^k`. -/
theorem isqrtBits_spec {n d : ℕ} : ∀ k s : ℕ, d * s ^ 2 ≤ n → n < d * (s + 2 ^ k) ^ 2 →
    d * isqrtBits n d k s ^ 2 ≤ n ∧ n < d * (isqrtBits n d k s + 1) ^ 2
  | 0, _, hlo, hhi => ⟨hlo, hhi⟩
  | k + 1, s, hlo, hhi => by
    unfold isqrtBits
    split
    next hbit => exact isqrtBits_spec k _ hbit (by rwa [add_assoc, ← two_mul, ← pow_succ'])
    next hbit => exact isqrtBits_spec k s hlo (not_le.1 hbit)

theorem half_lt_sqrt_div {n d : ℕ} (hd : 0 < d) (a : ℕ) : (a : ℝ) / 2 < √((n : ℝ) / d) ↔ d * a ^ 2 < 4 * n := by
  have hd' : (0 : ℝ) < d := by exact_mod_cast hd
  rw [Real.lt_sqrt (by positivity), lt_div_iff₀ hd', div_pow, ← Nat.cast_lt (α := ℝ)]
  push_cast
  constructor <;> intro h <;> linarith

theorem sqrt_div_lt_half {n d : ℕ} (hd : 0 < d) (a : ℕ) : √((n : ℝ) / d) < a / 2 ↔ 4 * n < d * a ^ 2 := by
  have hd' : (0 : ℝ) < d := by exact_mod_cast hd
  rw [Real.sqrt_lt (by positivity) (by positivity), div_lt_iff₀ hd', div_pow, ← Nat.cast_lt (α := ℝ)]
  push_cast
  constructor <;> intro h <;> linarith

/-- The number of units `sqrt32` chooses for the root of `n / d`. -/
def sqrtUnits (n d : ℕ) : ℕ :=
  let s := isqrtBits n d 25 0
  if d * (2 * s + 1) ^ 2 < 4 * n then s + 1
  else if d * (2 * s + 1) ^ 2 = 4 * n ∧ s % 2 = 1 then s + 1 else s

/-- `sqrtUnits` is the integer nearest the root, ties to even. -/
theorem sqrtUnits_isNearestEven {n d : ℕ} (hd : 0 < d) (hn : n < d * (2 ^ 25) ^ 2) :
    IsNearestEven √((n : ℝ) / d) (sqrtUnits n d) := by
  obtain ⟨hlo, hhi⟩ := isqrtBits_spec (n := n) (d := d) 25 0 (by simp) (by simpa using hn)
  unfold sqrtUnits
  generalize isqrtBits n d 25 0 = s at hlo hhi
  have h0 := (sqrt_div_lt_half (n := n) hd (2 * s)).not.2 (by nlinarith)
  have h1 := (half_lt_sqrt_div (n := n) hd (2 * (s + 1))).not.2 (by nlinarith)
  have hgt := half_lt_sqrt_div (n := n) hd (2 * s + 1)
  have hlt := sqrt_div_lt_half (n := n) hd (2 * s + 1)
  generalize √((n : ℝ) / d) = r at h0 h1 hgt hlt
  push_cast at h0 h1 hgt hlt
  dsimp only
  split_ifs with hup htie
  · have hr := hgt.2 hup
    have habs : |r - (s + 1 : ℕ)| = s + 1 - r := by rw [abs_of_nonpos (by push_cast; linarith)]; push_cast; ring
    rw [IsNearestEven, habs]
    exact ⟨by linarith, fun h => by linarith⟩
  · have hr : r = (2 * s + 1) / 2 :=
      le_antisymm (not_lt.1 (hgt.not.2 hup)) (not_lt.1 (hlt.not.2 (by omega)))
    have habs : |r - (s + 1 : ℕ)| = 1 / 2 := by rw [abs_of_nonpos (by push_cast; linarith)]; push_cast; linarith
    exact ⟨habs.le, fun _ => by omega⟩
  · have hr := not_lt.1 (hgt.not.2 hup)
    have habs : |r - s| = r - s := abs_of_nonneg (by linarith)
    rw [IsNearestEven, habs]
    refine ⟨by linarith, fun h => ?_⟩
    have := hlt.not.1 (by linarith)
    omega

/-! ### The square root (00_scope.md R12) -/

/-- The exponent of the last place of the root of a positive number. -/
def sqrtUlp (v : Num) : ℤ := ulpExponent (floorLog2 v.num.natAbs v.den / 2)

/-- The root of a positive number lies between `2^23` and `2^24` units of its last place, or in the subnormal binade
below. -/
theorem sqrt_range {v : Num} (hv : 0 < v) :
    (sqrtUlp v = -149 ∨ 2 ^ 23 * 2 ^ sqrtUlp v ≤ √(v : ℝ)) ∧ √(v : ℝ) < 2 ^ 24 * 2 ^ sqrtUlp v := by
  obtain ⟨hlo, hhi⟩ := floorLog2_spec (n := v.num.natAbs) (d := v.den) (by simpa using hv.ne') v.den_nz
  rw [natAbs_div_den, abs_of_pos hv] at hlo hhi
  unfold sqrtUlp ulpExponent
  generalize floorLog2 v.num.natAbs v.den = e at hlo hhi
  replace hlo := (Rat.cast_le (K := ℝ)).2 hlo
  replace hhi := (Rat.cast_lt (K := ℝ)).2 hhi
  push_cast at hlo hhi
  have hsq (j : ℤ) : ((2 : ℝ) ^ j) ^ 2 = 2 ^ (2 * j) := by rw [← zpow_natCast, ← zpow_mul, mul_comm]; rfl
  have hge : (2 : ℝ) ^ (e / 2) ≤ √(v : ℝ) := by
    rw [Real.le_sqrt' (by positivity), hsq]
    exact le_trans (zpow_le_zpow_right₀ (by norm_num) (by omega)) hlo
  have hlt : √(v : ℝ) < 2 ^ (e / 2 + 1) := by
    rw [Real.sqrt_lt' (by positivity), hsq]
    exact lt_of_lt_of_le hhi (zpow_le_zpow_right₀ (by norm_num) (by omega))
  constructor
  · refine or_iff_not_imp_left.2 fun hu => le_trans (le_of_eq ?_) hge
    rw [show max (e / 2 - 23) (-149) = e / 2 - 23 by omega, ← zpow_natCast, ← zpow_add₀ (by norm_num)]
    congr 1; push_cast; ring
  · refine lt_of_lt_of_le hlt ?_
    rw [← zpow_natCast, ← zpow_add₀ (by norm_num)]
    exact zpow_le_zpow_right₀ (by norm_num) (by push_cast; omega)

/-- The quotient whose root `sqrt32` takes is the operand in units of the last place, squared. -/
theorem sqrt32_of_pos {v : Num} (hv : 0 < v) : ∃ n d : ℕ, 0 < d ∧ √((n : ℝ) / d) = √(v : ℝ) / 2 ^ sqrtUlp v ∧
    sqrt32 v = (packWord false (packFields (sqrtUnits n d) (sqrtUlp v))).bind dec32 := by
  have hnum : ¬ v.num < 0 := by simpa using hv.le
  have hdef : sqrt32 v = (packWord false (packFields (sqrtUnits
      (if 0 ≤ sqrtUlp v then v.num.natAbs else v.num.natAbs * 2 ^ (2 * (-sqrtUlp v)).toNat)
      (if 0 ≤ sqrtUlp v then v.den * 2 ^ (2 * sqrtUlp v).toNat else v.den)) (sqrtUlp v))).bind dec32 := by
    unfold sqrt32
    rw [if_neg (by simpa using hv.ne'), if_neg hnum]
    rfl
  refine ⟨_, _, ?_, ?_, hdef⟩
  · split <;> positivity
  · have hquot : (v : ℝ) = (v.num.natAbs : ℝ) / v.den := by
      conv_lhs => rw [← abs_of_pos hv, ← natAbs_div_den]
      push_cast; rfl
    rw [← Real.sqrt_sq (show (0 : ℝ) ≤ 2 ^ sqrtUlp v by positivity), ← Real.sqrt_div' _ (by positivity), hquot]
    congr 1
    generalize sqrtUlp v = u
    split
    next hu =>
      obtain ⟨j, rfl⟩ := Int.eq_ofNat_of_zero_le hu
      rw [show (2 * (j : ℤ)).toNat = j * 2 by omega, zpow_natCast, div_div, ← pow_mul]
      push_cast; rfl
    next hu =>
      obtain ⟨j, rfl⟩ : ∃ j : ℕ, u = -j := ⟨(-u).toNat, by omega⟩
      rw [show (2 * - -(j : ℤ)).toNat = j * 2 by omega, zpow_neg, zpow_natCast, inv_pow, div_inv_eq_mul, ← pow_mul]
      push_cast; ring

/-- The units of the root of a positive number: the nearest number of them, and the value and the word they pack to. -/
theorem sqrt32_units {v : Num} (hv : 0 < v) : ∃ m : ℕ, IsNearestEven (√(v : ℝ) / 2 ^ sqrtUlp v) m ∧ m ≤ 2 ^ 24 ∧
    fieldsValue (packFields m (sqrtUlp v)) = m * 2 ^ sqrtUlp v ∧
    sqrt32 v = (packWord false (packFields m (sqrtUlp v))).bind dec32 := by
  obtain ⟨n, d, hd, hroot, hdef⟩ := sqrt32_of_pos hv
  obtain ⟨hlo, hhi⟩ := sqrt_range hv
  have hpos : (0 : ℝ) < 2 ^ sqrtUlp v := by positivity
  have hlo' : sqrtUlp v = -149 ∨ ((2 ^ 23 : ℕ) : ℝ) ≤ √(v : ℝ) / 2 ^ sqrtUlp v :=
    hlo.imp_right fun h => by rw [le_div_iff₀ hpos]; exact_mod_cast h
  have hhi' : √(v : ℝ) / 2 ^ sqrtUlp v < ((2 ^ 24 : ℕ) : ℝ) := by rw [div_lt_iff₀ hpos]; exact_mod_cast hhi
  have hn : n < d * (2 ^ 25) ^ 2 := by
    have := (sqrt_div_lt_half (n := n) hd (2 ^ 25)).1 (by rw [hroot]; norm_num at hhi' ⊢; exact hhi')
    omega
  have hnear := sqrtUnits_isNearestEven hd hn
  rw [hroot] at hnear
  have hm := hnear.le_of_le hhi'.le
  exact ⟨_, hnear, hm, fieldsValue_packFields (le_max_right _ _) (hlo'.imp_right hnear.ge_of_ge) hm, hdef⟩

theorem sqrt32_of_neg {v : Num} (hv : v < 0) : sqrt32 v = none := by
  have hnum : v.num < 0 := by simpa using hv
  unfold sqrt32
  rw [if_neg hnum.ne, if_pos hnum]

/-- Every result of `sqrt32` is the binary32 number nearest the root, ties to even. -/
theorem sqrt32_nearest {v x : Num} (h : sqrt32 v = some x) : ∃ u, dec32 u = some x ∧
    ∀ (w : Word) (y : Num), dec32 w = some y → |√(v : ℝ) - x| ≤ |√(v : ℝ) - y| ∧
      (|√(v : ℝ) - x| = |√(v : ℝ) - y| → x ≠ y → u.getLsbD 0 = false) := by
  rcases lt_trichotomy v 0 with hv | rfl | hv
  · rw [sqrt32_of_neg hv] at h
    cases h
  · obtain rfl : 0 = x := Option.some.inj h
    exact ⟨0, by decide +kernel, fun w y _ => ⟨by simp, fun _ _ => rfl⟩⟩
  · obtain ⟨m, hnear, -, hval, hdef⟩ := sqrt32_units hv
    obtain ⟨u, hu, hx⟩ := Option.bind_eq_some_iff.1 (hdef ▸ h)
    obtain ⟨hk, rfl⟩ := packWord_false_eq_some.1 hu
    have hxm : x = m * 2 ^ sqrtUlp v := by
      rw [hdef, packWord_bind_dec32 false hk] at h
      simpa [hval] using h.symm
    have hxr : (x : ℝ) = m * 2 ^ sqrtUlp v := by rw [hxm]; push_cast; rfl
    refine ⟨_, hx, fun w y hy => ?_⟩
    obtain ⟨hle, htie⟩ := le_dist_of_isNearestEven hnear (sqrt_range hv).1 hy
    rw [hxr]
    refine ⟨hle, fun heq hne => ?_⟩
    rw [getLsbD_ofNat_packFields, htie heq (by rw [← hxr]; exact_mod_cast hne)]
    rfl

/-- The root of a binary32 number that is not negative is far from the largest finite number. -/
theorem sqrt32_isSome {w : Word} {v : Num} (hw : dec32 w = some v) (h0 : 0 ≤ v) : (sqrt32 v).isSome = true := by
  rcases h0.eq_or_lt with rfl | hv
  · rfl
  · obtain ⟨m, -, hm, -, hdef⟩ := sqrt32_units hv
    obtain ⟨k, t, hk, -, ht, hkt⟩ := dec32_eq_units hw
    have hv128 : v < 2 ^ (128 : ℤ) := by
      calc v = k * 2 ^ t := hkt
        _ < 2 ^ 24 * 2 ^ t := by gcongr; exact_mod_cast (le_abs_self k).trans_lt hk
        _ ≤ 2 ^ 24 * 2 ^ (104 : ℤ) := by gcongr; norm_num
        _ = 2 ^ (128 : ℤ) := by norm_num
    have hlog := (floorLog2_spec (n := v.num.natAbs) (d := v.den) (by simpa using hv.ne') v.den_nz).1
    rw [natAbs_div_den, abs_of_pos hv] at hlog
    have he := (zpow_lt_zpow_iff_right₀ (by norm_num : (1 : ℚ) < 2)).1 (hlog.trans_lt hv128)
    have hu : sqrtUlp v ≤ 40 := by unfold sqrtUlp ulpExponent; omega
    have hfields : packFields m (sqrtUlp v) < 255 * 2 ^ 23 := by unfold packFields; omega
    rw [hdef, packWord_bind_dec32 false hfields]
    rfl

/-- Settles O14: the number of units `sqrt32` chooses is the integer nearest the root in units of its last place, and a
binary32 number off that grid lies in a lower binade, so farther away. -/
theorem sqrtIsCorrectlyRounded : Obligations.SqrtIsCorrectlyRounded := by
  refine ⟨fun _ _ => sqrt32_nearest, fun _ _ => sqrt32_isSome, fun s v => ⟨fun h => ?_, fun h => ?_⟩⟩
  all_goals rw [config_num, binary32_sqrt, sqrtOf, h]

end Sys2Proof.Machine
end

section
/-!
PROOFS. 00_scope.md R12 and 92_eei_decisions.md D33: every number the units hold stays the value of a finite binary32
word. What a step can do to the units comes first, then the rules for computations that may fault, then each unit.
-/

namespace Sys2Proof.Machine

/-! ### What a step can do to the units -/

/-- The units after a command are those before it, or those the command leaves above the wire; the straps are never
written. -/
theorem exec_units_cases {i : Instr} {s t : State} (h : exec i s = .next t) :
    t.straps = s.straps ∧ (t.units = s.units ∨ ∃ r, perform s.config operand i s.units = .ok (t.units, r)) := by
  rw [exec_eq_perform, answer] at h
  obtain rfl : s.commit (perform s.config operand i s.units) = t := by simpa using h
  rcases commit_cases s (perform s.config operand i s.units) with ⟨u, r, w, ha, -, hc⟩ | ⟨e, hc⟩
  · rw [hc]; exact ⟨rfl, .inr ⟨r, ha⟩⟩
  · rw [hc]; exact ⟨rfl, .inl rfl⟩

/-- The units after a step are those before it, those of the reset, or those a command leaves above the wire; the straps
are never written. -/
theorem step_units_cases {s t : State} (h : step s = .next t) :
    t.straps = s.straps ∧ (t.units = s.units ∨ t.units = Units.reset s.config ∨
      ∃ i r, perform s.config operand i s.units = .ok (t.units, r)) := by
  rcases step_cases s with ⟨-, hs⟩ | ⟨-, -, -, hs⟩ | ⟨-, -, hs⟩ | ⟨-, -, -, hs⟩ | ⟨hd, ops, rest, -, -, -, hs⟩
  all_goals rw [hs] at h
  · cases h; exact ⟨rfl, .inr (.inl rfl)⟩
  · cases h; exact ⟨rfl, .inl rfl⟩
  · cases h; exact ⟨rfl, .inl rfl⟩
  · cases h
  · rcases runPacket_cases hd ops { s with pkt := [], cmd := rest } with ⟨i, -, hr⟩ | ⟨e, -, hr⟩
    · obtain ⟨hstraps, hunits⟩ := exec_units_cases (hr ▸ h)
      exact ⟨hstraps, hunits.imp_right fun ⟨r, hp⟩ => .inr ⟨i, r, hp⟩⟩
    · rw [hr] at h
      cases h; exact ⟨rfl, .inl rfl⟩

/-! ### Rules for a computation that may fault -/

/-- Where the computation does not fault, its value has the property. -/
def Ensures {β : Type} (P : β → Prop) (a : Except FaultCode β) : Prop := ∀ b, a = .ok b → P b

namespace Ensures

variable {β γ : Type} {P : β → Prop} {Q : γ → Prop}

theorem ok {b : β} (h : P b) : Ensures P (.ok b) := by
  rintro _ ⟨⟩; exact h

theorem pure {b : β} (h : P b) : Ensures P (Pure.pure b) := ok h

theorem error (e : FaultCode) : Ensures P (.error e) := nofun

theorem bind {a : Except FaultCode β} {f : β → Except FaultCode γ} (ha : Ensures P a)
    (hf : ∀ b, P b → Ensures Q (f b)) : Ensures Q (a >>= f) := by
  intro c hc
  obtain ⟨b, hb, hfb⟩ := bind_eq_ok.1 hc
  exact hf b (ha b hb) c hfb

/-- A first computation of whose value nothing is needed but that there is one. -/
theorem after {a : Except FaultCode β} {f : β → Except FaultCode γ} (hf : ∀ b, a = .ok b → Ensures Q (f b)) :
    Ensures Q (a >>= f) := bind (P := fun b => a = .ok b) (fun _ h => h) hf

theorem numeric {x : Option β} (h : ∀ b, x = some b → P b) : Ensures P (numeric x) := fun b hb => h b (numeric_eq_ok.1 hb)

theorem configured {x : Option β} (h : ∀ b, x = some b → P b) : Ensures P (configured x) :=
  fun b hb => h b (configured_eq_ok.1 hb)

end Ensures

/-! ### Finite numbers -/

/-- `v` is the value of a finite binary32 word (00_scope.md R12). -/
def IsFinite32 (v : Num) : Prop := ∃ w, dec32 w = some v

theorem isFinite32_zero : IsFinite32 0 := ⟨0, by decide +kernel⟩

theorem isFinite32_finite32 (w : Word) : IsFinite32 (finite32 w) := by
  unfold finite32
  cases h : dec32 w with
  | none => exact isFinite32_zero
  | some v => exact ⟨w, h⟩

theorem round32_isFinite32 {v y : Num} (h : round32 v = some y) : IsFinite32 y := by
  obtain ⟨w, -, hw⟩ := Option.bind_eq_some_iff.1 h
  exact ⟨w, hw⟩

theorem operand_ensures (w : Word) : Ensures IsFinite32 (operand w) := fun _ h => ⟨w, operand_eq_ok.1 h⟩

/-! ### Every operation of the hardware numerics has a finite result, whatever its operands -/

section Operations

variable {p : Straps}

theorem ofRat_isFinite32 (p : Straps) (q : Rat) : IsFinite32 ((binary32 p).ofRat q) := by
  show IsFinite32 ((round32 q).getD 0)
  cases h : round32 q with
  | none => exact isFinite32_zero
  | some v => exact round32_isFinite32 h

theorem div_isFinite32 (p : Straps) {x y z : Num} (h : (binary32 p).div x y = some z) : IsFinite32 z :=
  round32_isFinite32 (binary32_div_eq_some p |>.1 h).2

theorem prim32_isFinite32 {tab : List PrimPoint} {fn : Prim} {x z : Num} (h : prim32 tab fn x = some z) :
    IsFinite32 z := ⟨_, h⟩

theorem wrapOther32_isFinite32 (x : Num) : IsFinite32 (wrapOther32 x) := by
  unfold wrapOther32
  dsimp only
  split
  · exact isFinite32_finite32 _
  · exact isFinite32_zero

theorem wrapFormula32_isFinite32 {x q : Num} (h : wrapFormula32 x = some q) : IsFinite32 q := by
  simp only [wrapFormula32, Option.bind_eq_bind, Option.bind_eq_some_iff] at h
  obtain ⟨_, -, _, -, hq⟩ := h
  exact round32_isFinite32 hq

theorem wrap32_isFinite32 (x : Num) : IsFinite32 (wrap32 x) := by
  unfold wrap32
  split
  next q hq =>
    split
    · exact wrapFormula32_isFinite32 hq
    · exact wrapOther32_isFinite32 x
  next => exact wrapOther32_isFinite32 x

theorem sign_isFinite32 (x : Num) : IsFinite32 (sign (binary32 p) x) := by
  unfold sign
  split
  · exact ofRat_isFinite32 p _
  · split <;> exact ofRat_isFinite32 p _

theorem maxNum_isFinite32 {a b : Num} (ha : IsFinite32 a) (hb : IsFinite32 b) : IsFinite32 (maxNum (binary32 p) a b) := by
  unfold maxNum
  split <;> assumption

/-- A kernel ends in a subtraction, a primitive or a sign. -/
theorem kernel_isFinite32 {w : Wave} {x v : Num} (h : kernel (binary32 p) w x = some v) : IsFinite32 v := by
  cases w with
  | sine => exact prim32_isFinite32 h
  | square =>
    obtain ⟨s, -, hs⟩ := Option.bind_eq_some_iff.1 h
    cases hs
    exact sign_isFinite32 s
  | triangle =>
    simp only [kernel, triangleKernel, Option.bind_eq_bind, Option.bind_eq_some_iff] at h
    obtain ⟨_, -, _, -, _, -, _, -, hv⟩ := h
    exact round32_isFinite32 hv
  | saw =>
    simp only [kernel, sawKernel, Option.bind_eq_bind, Option.bind_eq_some_iff] at h
    obtain ⟨_, -, _, -, hv⟩ := h
    exact round32_isFinite32 hv

theorem phaseInc_isFinite32 {f v : Num} (h : phaseInc (configOf p) f = some v) : IsFinite32 v := by
  obtain ⟨_, -, hv⟩ := phaseInc_eq_some.1 h
  exact div_isFinite32 p hv

end Operations

/-! ### The records of the units -/

/-- The numbers of an oscillator record are finite. -/
structure OscFinite (o : Osc Num) : Prop where
  freq : IsFinite32 o.freq
  amp : IsFinite32 o.amp
  phase : IsFinite32 o.phase
  inc : IsFinite32 o.inc

/-- The numbers of the envelope are finite. -/
structure EnvFinite (e : Env Num) : Prop where
  attackRate : IsFinite32 e.attackRate
  decayRate : IsFinite32 e.decayRate
  releaseRate : IsFinite32 e.releaseRate
  sustain : IsFinite32 e.sustain
  ratioA : IsFinite32 e.ratioA
  ratioDR : IsFinite32 e.ratioDR
  attackCoef : IsFinite32 e.attackCoef
  decayCoef : IsFinite32 e.decayCoef
  releaseCoef : IsFinite32 e.releaseCoef
  attackBase : IsFinite32 e.attackBase
  decayBase : IsFinite32 e.decayBase
  releaseBase : IsFinite32 e.releaseBase
  envOut : IsFinite32 e.envOut

/-- The filter's coefficients are finite. -/
structure CoefsFinite (k : BqCoefs Num) : Prop where
  a0 : IsFinite32 k.a0
  a1 : IsFinite32 k.a1
  a2 : IsFinite32 k.a2
  b1 : IsFinite32 k.b1
  b2 : IsFinite32 k.b2

/-- The delay words of a channel are finite. -/
structure DelayFinite (d : Delay Num) : Prop where
  z1 : IsFinite32 d.z1
  z2 : IsFinite32 d.z2

/-- The numbers of the filter are finite. -/
structure BqFinite (b : Bq Num) : Prop where
  freq : IsFinite32 b.freq
  q : IsFinite32 b.q
  gain : IsFinite32 b.gain
  coefs : CoefsFinite b.coefs
  delay : ∀ d ∈ b.delay, DelayFinite d

/-- The numbers of the synthesizer are finite. -/
structure FmFinite (f : Fm Num) : Prop where
  car : OscFinite f.car
  ops : ∀ o ∈ f.ops, OscFinite o

/-- Every number the units hold is finite, unit by unit. -/
structure UnitsFinite (u : Units Num) : Prop where
  osc : ∀ o, u.osc = some o → OscFinite o
  env : ∀ e, u.env = some e → EnvFinite e
  bq : ∀ b, u.bq = some b → BqFinite b
  ng : ∀ g, u.ng = some g → IsFinite32 g.prev
  wtPhase : IsFinite32 u.wt.phase
  wtTab : ∀ e ∈ u.wt.tab, IsFinite32 e.2
  fm : ∀ f, u.fm = some f → FmFinite f

theorem oscFinite_iff {o : Osc Num} : OscFinite o ↔ ∀ v ∈ oscNums o, IsFinite32 v := by
  simp only [oscNums, List.forall_mem_cons]
  exact ⟨fun ⟨h1, h2, h3, h4⟩ => ⟨h1, h2, h3, h4, by simp⟩, fun ⟨h1, h2, h3, h4, _⟩ => ⟨h1, h2, h3, h4⟩⟩

theorem envFinite_iff {e : Env Num} : EnvFinite e ↔ ∀ v ∈ envNums e, IsFinite32 v := by
  simp only [envNums, List.forall_mem_cons]
  constructor
  · rintro ⟨h1, h2, h3, h4, h5, h6, h7, h8, h9, h10, h11, h12, h13⟩
    exact ⟨h1, h2, h3, h4, h5, h6, h7, h8, h9, h10, h11, h12, h13, by simp⟩
  · rintro ⟨h1, h2, h3, h4, h5, h6, h7, h8, h9, h10, h11, h12, h13, -⟩
    exact ⟨h1, h2, h3, h4, h5, h6, h7, h8, h9, h10, h11, h12, h13⟩

theorem bqFinite_iff {b : Bq Num} : BqFinite b ↔ ∀ v ∈ bqNums b, IsFinite32 v := by
  have hdelay : (∀ d ∈ b.delay, DelayFinite d) ↔ ∀ v ∈ b.delay.flatMap fun d => [d.z1, d.z2], IsFinite32 v := by
    simp only [List.forall_mem_flatMap, List.forall_mem_cons]
    exact forall₂_congr fun d _ => ⟨fun ⟨h1, h2⟩ => ⟨h1, h2, by simp⟩, fun ⟨h1, h2, _⟩ => ⟨h1, h2⟩⟩
  simp only [bqNums, List.forall_mem_append, List.forall_mem_cons, ← hdelay]
  constructor
  · rintro ⟨h1, h2, h3, ⟨h4, h5, h6, h7, h8⟩, hd⟩
    exact ⟨⟨h1, h2, h3, h4, h5, h6, h7, h8, by simp⟩, hd⟩
  · rintro ⟨⟨h1, h2, h3, h4, h5, h6, h7, h8, -⟩, hd⟩
    exact ⟨h1, h2, h3, ⟨h4, h5, h6, h7, h8⟩, hd⟩

theorem fmFinite_iff {f : Fm Num} : FmFinite f ↔ ∀ v ∈ oscNums f.car ++ f.ops.flatMap oscNums, IsFinite32 v := by
  simp only [List.forall_mem_append, List.forall_mem_flatMap, ← oscFinite_iff]
  exact ⟨fun ⟨h1, h2⟩ => ⟨h1, h2⟩, fun ⟨h1, h2⟩ => ⟨h1, h2⟩⟩

/-- The invariant of the state, unit by unit. -/
theorem binary32Inv_iff {s : State} : s.Binary32Inv ↔ UnitsFinite s.units := by
  have hinv : s.Binary32Inv ↔ ∀ v ∈ unitsNums s.units, IsFinite32 v := Iff.rfl
  rw [hinv]
  simp only [unitsNums, List.forall_mem_append, List.forall_mem_flatMap, List.forall_mem_cons, List.forall_mem_map,
    Option.mem_toList, ← oscFinite_iff, ← envFinite_iff, ← bqFinite_iff]
  constructor
  · rintro ⟨⟨⟨⟨⟨h1, h2⟩, h3⟩, h4⟩, h5, h6⟩, h7⟩
    exact ⟨h1, h2, h3, h4, h5, h6, fun f hf => ⟨(h7 f hf).1, (h7 f hf).2⟩⟩
  · rintro ⟨h1, h2, h3, h4, h5, h6, h7⟩
    exact ⟨⟨⟨⟨⟨h1, h2⟩, h3⟩, h4⟩, h5, h6⟩, fun f hf => ⟨(h7 f hf).car, (h7 f hf).ops⟩⟩

/-! ### A unit replaced -/

namespace UnitsFinite

variable {u : Units Num}

theorem reset {c : Config Num} (h : IsFinite32 (c.num.ofRat 0)) : UnitsFinite (Units.reset c) where
  osc := by rintro _ ⟨⟩
  env := by rintro _ ⟨⟩
  bq := by rintro _ ⟨⟩
  ng := by rintro _ ⟨⟩
  wtPhase := h
  wtTab := nofun
  fm := by rintro _ ⟨⟩

theorem setOsc (hu : UnitsFinite u) {o : Osc Num} (h : OscFinite o) : UnitsFinite { u with osc := some o } :=
  { hu with osc := by rintro _ ⟨⟩; exact h }

theorem setEnv (hu : UnitsFinite u) {e : Env Num} (h : EnvFinite e) : UnitsFinite { u with env := some e } :=
  { hu with env := by rintro _ ⟨⟩; exact h }

theorem setBq (hu : UnitsFinite u) {b : Bq Num} (h : BqFinite b) : UnitsFinite { u with bq := some b } :=
  { hu with bq := by rintro _ ⟨⟩; exact h }

theorem setNg (hu : UnitsFinite u) {g : Ng Num} (h : IsFinite32 g.prev) (r : Nat) :
    UnitsFinite { u with ng := some g, rng := r } :=
  { hu with ng := by rintro _ ⟨⟩; exact h }

theorem setRng (hu : UnitsFinite u) (r : Nat) : UnitsFinite { u with rng := r } := { hu with }

theorem setWt (hu : UnitsFinite u) {x : Num} (hx : IsFinite32 x) {t : List (Nat × Num)}
    (ht : ∀ e ∈ t, IsFinite32 e.2) : UnitsFinite { u with wt := ⟨t, x⟩ } :=
  { hu with wtPhase := hx, wtTab := ht }

theorem setFm (hu : UnitsFinite u) {f : Fm Num} (h : FmFinite f) : UnitsFinite { u with fm := some f } :=
  { hu with fm := by rintro _ ⟨⟩; exact h }

end UnitsFinite

section Commands

variable {p : Straps} {u : Units Num}

/-- The command, where it does not fault, leaves finite numbers in the units. -/
abbrev EnsuresFinite (a : Except FaultCode (Answer Num)) : Prop := Ensures (fun b => UnitsFinite b.1) a

/-! ### Units SYS and KRN write nothing -/

theorem sysRdreg_ensuresFinite (hu : UnitsFinite u) (r : Nat) : EnsuresFinite (sysRdreg (configOf p) r u) :=
  .after fun _ _ => .pure hu

theorem krnEval_ensuresFinite (hu : UnitsFinite u) (w : Wave) (x : Num) :
    EnsuresFinite (krnEval (configOf p) w x u) :=
  .after fun _ _ => .pure hu

/-! ### Unit OSC and the oscillator records of unit FM (41_oscillator.md R116) -/

theorem oscNew_oscFinite {w : Wave} {f a : Num} (hf : IsFinite32 f) (ha : IsFinite32 a) {o : Osc Num}
    (h : oscNew (configOf p) w f a = some o) : OscFinite o := by
  obtain ⟨inc, hinc, rfl⟩ := oscNew_eq_some.1 h
  exact ⟨hf, ha, ofRat_isFinite32 p 0, phaseInc_isFinite32 hinc⟩

theorem oscSetFreq_oscFinite {f : Num} (hf : IsFinite32 f) {o o' : Osc Num} (ho : OscFinite o)
    (h : oscSetFreq (configOf p) o f = some o') : OscFinite o' := by
  obtain ⟨inc, hinc, rfl⟩ := oscSetFreq_eq_some.1 h
  exact { ho with freq := hf, inc := phaseInc_isFinite32 hinc }

theorem oscAdvance_oscFinite {o o' : Osc Num} (ho : OscFinite o) (h : oscAdvance (configOf p) o = some o') :
    OscFinite o' := by
  obtain ⟨q, -, rfl⟩ := oscAdvance_eq_some.1 h
  exact { ho with phase := wrap32_isFinite32 q }

theorem oscGet_oscFinite {o : Osc Num} (ho : OscFinite o) {r : Num × Osc Num} (h : oscGet (configOf p) o = some r) :
    OscFinite r.2 := by
  obtain ⟨_, -, hadv, -⟩ := oscGet_eq_some.1 h
  exact oscAdvance_oscFinite ho hadv

theorem oscGetMod_oscFinite {o : Osc Num} (ho : OscFinite o) {m : Num} {r : Num × Osc Num}
    (h : oscGetMod (configOf p) o m = some r) : OscFinite r.2 := by
  obtain ⟨_, _, -, -, hadv, -⟩ := oscGetMod_eq_some.1 h
  exact oscAdvance_oscFinite ho hadv

theorem oscReset_oscFinite {o : Osc Num} (ho : OscFinite o) :
    OscFinite { o with phase := (configOf p).num.ofRat 0 } :=
  { ho with phase := ofRat_isFinite32 p 0 }

theorem oscInit_ensuresFinite (hu : UnitsFinite u) (w : Wave) {f a : Num} (hf : IsFinite32 f) (ha : IsFinite32 a) :
    EnsuresFinite (oscInit (configOf p) w f a u) :=
  .bind (.numeric fun _ => oscNew_oscFinite hf ha) fun _ ho => .pure (hu.setOsc ho)

theorem oscSettype_ensuresFinite (hu : UnitsFinite u) (w : Wave) : EnsuresFinite (oscSettype w u) :=
  .bind (.configured hu.osc) fun _ ho => .pure (hu.setOsc { ho with })

theorem oscSetfreq_ensuresFinite (hu : UnitsFinite u) {f : Num} (hf : IsFinite32 f) :
    EnsuresFinite (oscSetfreq (configOf p) f u) :=
  .bind (.configured hu.osc) fun _ ho => .bind (.numeric fun _ => oscSetFreq_oscFinite hf ho) fun _ ho' =>
    .pure (hu.setOsc ho')

theorem oscSetamp_ensuresFinite (hu : UnitsFinite u) {a : Num} (ha : IsFinite32 a) : EnsuresFinite (oscSetamp a u) :=
  .bind (.configured hu.osc) fun _ ho => .pure (hu.setOsc { ho with amp := ha })

theorem oscReset_ensuresFinite (hu : UnitsFinite u) : EnsuresFinite (oscReset (configOf p) u) :=
  .bind (.configured hu.osc) fun _ ho => .pure (hu.setOsc (oscReset_oscFinite ho))

theorem oscGetvalue_ensuresFinite (hu : UnitsFinite u) : EnsuresFinite (oscGetvalue (configOf p) u) :=
  .bind (.configured hu.osc) fun _ ho => .bind (.numeric fun _ => oscGet_oscFinite ho) fun _ ho' =>
    .pure (hu.setOsc ho')

theorem oscGetmod_ensuresFinite (hu : UnitsFinite u) (m : Num) : EnsuresFinite (oscGetmod (configOf p) m u) :=
  .bind (.configured hu.osc) fun _ ho => .bind (.numeric fun _ => oscGetMod_oscFinite ho) fun _ ho' =>
    .pure (hu.setOsc ho')

theorem oscAtphase_ensuresFinite (hu : UnitsFinite u) (x : Num) : EnsuresFinite (oscAtphase (configOf p) x u) :=
  .after fun _ _ => .after fun _ _ => .pure hu

/-! ### Unit ENV -/

theorem calcCoef_isFinite32 {rate ratio v : Num} (h : calcCoef (binary32 p) rate ratio = some v) : IsFinite32 v := by
  unfold calcCoef at h
  split at h
  · simp only [Option.bind_eq_bind, Option.bind_eq_some_iff] at h
    obtain ⟨_, -, _, -, _, -, _, -, _, -, hv⟩ := h
    exact prim32_isFinite32 hv
  · cases h
    exact ofRat_isFinite32 p 0

theorem envBaseOf_reference (h : p.envBase = .reference) : envBaseOf p = envBaseDefault (binary32 p) := by
  unfold envBaseOf
  rw [h]

theorem envBaseOf_other (h : p.envBase = .other) (ra rdr s ac dc rc : Num) :
    envBaseOf p ra rdr s ac dc rc =
      let w := Config.otherEnvBase.bases ra rdr s ac dc rc
      (do return ⟨← dec32 w.attack, ← dec32 w.decay, ← dec32 w.release⟩) := by
  unfold envBaseOf
  rw [h]

theorem envBaseOf_isFinite32 {ra rdr s ac dc rc : Num} {b : EnvBases Num}
    (h : envBaseOf p ra rdr s ac dc rc = some b) : IsFinite32 b.attack ∧ IsFinite32 b.decay ∧ IsFinite32 b.release := by
  cases hb : p.envBase
  · rw [envBaseOf_reference hb] at h
    simp only [envBaseDefault, Option.bind_eq_bind, Option.bind_eq_some_iff, Option.pure_def, Option.some.injEq] at h
    obtain ⟨_, -, _, -, a, ha, _, -, _, -, d, hd, _, -, _, -, r, hr, rfl⟩ := h
    exact ⟨round32_isFinite32 ha, round32_isFinite32 hd, round32_isFinite32 hr⟩
  · rw [envBaseOf_other hb] at h
    simp only [Option.bind_eq_bind, Option.bind_eq_some_iff, Option.pure_def, Option.some.injEq] at h
    obtain ⟨a, ha, d, hd, r, hr, rfl⟩ := h
    exact ⟨⟨_, ha⟩, ⟨_, hd⟩, ⟨_, hr⟩⟩

theorem envDerive_envFinite {e e' : Env Num} (he : EnvFinite e) (h : envDerive (configOf p) e = some e') :
    EnvFinite e' := by
  obtain ⟨ac, dc, rc, b, hac, hdc, hrc, hb, rfl⟩ := envDerive_eq_some.1 h
  obtain ⟨ha, hd, hr⟩ := envBaseOf_isFinite32 hb
  exact { he with
    attackCoef := calcCoef_isFinite32 hac, decayCoef := calcCoef_isFinite32 hdc, releaseCoef := calcCoef_isFinite32 hrc
    attackBase := ha, decayBase := hd, releaseBase := hr }

theorem envRecur_isFinite32 {b x k o : Num} (h : envRecur (binary32 p) b x k = some o) : IsFinite32 o := by
  obtain ⟨_, -, ho⟩ := Option.bind_eq_some_iff.1 h
  exact round32_isFinite32 ho

theorem envStep_envFinite {e e' : Env Num} (he : EnvFinite e) (h : envStep (binary32 p) e = some e') :
    EnvFinite e' := by
  unfold envStep at h
  split at h
  · cases h; exact he
  · obtain ⟨o, ho, hr⟩ := Option.bind_eq_some_iff.1 h
    cases hr
    split
    · exact { he with envOut := ofRat_isFinite32 p 1 }
    · exact { he with envOut := envRecur_isFinite32 ho }
  · obtain ⟨o, ho, hr⟩ := Option.bind_eq_some_iff.1 h
    cases hr
    split
    · exact { he with envOut := he.sustain }
    · exact { he with envOut := envRecur_isFinite32 ho }
  · cases h; exact he
  · obtain ⟨o, ho, hr⟩ := Option.bind_eq_some_iff.1 h
    cases hr
    split
    · exact { he with envOut := ofRat_isFinite32 p 0 }
    · exact { he with envOut := envRecur_isFinite32 ho }

theorem envInit_ensuresFinite (hu : UnitsFinite u) (a d : Num) {s : Num} (hs : IsFinite32 s) (r : Num) :
    EnsuresFinite (envInit (configOf p) a d s r u) := by
  refine .after fun _ _ => .bind (.numeric fun e' h => ?_) fun _ he => .pure (hu.setEnv he)
  simp only [Option.bind_eq_bind, Option.bind_eq_some_iff] at h
  obtain ⟨ra, ha, rd, hd, rr, hr, h⟩ := h
  have hzero : IsFinite32 ((configOf p).num.ofRat 0) := ofRat_isFinite32 p 0
  refine envDerive_envFinite ?_ h
  exact ⟨round32_isFinite32 ha, round32_isFinite32 hd, round32_isFinite32 hr, hs, ofRat_isFinite32 p (3 / 10),
    ofRat_isFinite32 p (1 / 10000), hzero, hzero, hzero, hzero, hzero, hzero, hzero⟩

/-- A rate is a product of the operand and the sample rate (42_envelope.md R135, R136, R138). -/
theorem envDerive_rate_envFinite {f : Num → Env Num} (hf : ∀ rate, IsFinite32 rate → EnvFinite (f rate)) {x y : Num}
    {e' : Env Num} (h : ((configOf p).num.mul x y >>= fun rate => envDerive (configOf p) (f rate)) = some e') :
    EnvFinite e' := by
  obtain ⟨rate, hrate, h⟩ := Option.bind_eq_some_iff.1 h
  exact envDerive_envFinite (hf rate (round32_isFinite32 hrate)) h

theorem envSetattack_ensuresFinite (hu : UnitsFinite u) (a : Num) :
    EnsuresFinite (envSetattack (configOf p) a u) :=
  .bind (.configured hu.env) fun e he =>
    .bind (.numeric fun _ => envDerive_rate_envFinite (f := fun r => { e with attackRate := r }) fun _ h =>
      { he with attackRate := h }) fun _ he' => .pure (hu.setEnv he')

theorem envSetdecay_ensuresFinite (hu : UnitsFinite u) (d : Num) : EnsuresFinite (envSetdecay (configOf p) d u) :=
  .bind (.configured hu.env) fun e he =>
    .bind (.numeric fun _ => envDerive_rate_envFinite (f := fun r => { e with decayRate := r }) fun _ h =>
      { he with decayRate := h }) fun _ he' => .pure (hu.setEnv he')

theorem envSetrelease_ensuresFinite (hu : UnitsFinite u) (r : Num) :
    EnsuresFinite (envSetrelease (configOf p) r u) :=
  .bind (.configured hu.env) fun e he =>
    .bind (.numeric fun _ => envDerive_rate_envFinite (f := fun r => { e with releaseRate := r }) fun _ h =>
      { he with releaseRate := h }) fun _ he' => .pure (hu.setEnv he')

theorem envSetsustain_ensuresFinite (hu : UnitsFinite u) {s : Num} (hs : IsFinite32 s) :
    EnsuresFinite (envSetsustain (configOf p) s u) :=
  .bind (.configured hu.env) fun _ he => .after fun _ _ =>
    .bind (.numeric fun _ => envDerive_envFinite { he with sustain := hs }) fun _ he' => .pure (hu.setEnv he')

/-- A target ratio is the operand or the least ratio (42_envelope.md R139, R140). -/
theorem clampedRatio_isFinite32 {x : Num} (hx : IsFinite32 x) :
    IsFinite32 (maxNum (configOf p).num x (ratioMin (configOf p).num)) :=
  maxNum_isFinite32 hx (ofRat_isFinite32 p _)

theorem envSetratioa_ensuresFinite (hu : UnitsFinite u) {x : Num} (hx : IsFinite32 x) :
    EnsuresFinite (envSetratioa (configOf p) x u) :=
  .bind (.configured hu.env) fun _ he =>
    .bind (.numeric fun _ => envDerive_envFinite { he with ratioA := clampedRatio_isFinite32 hx }) fun _ he' =>
      .pure (hu.setEnv he')

theorem envSetratiodr_ensuresFinite (hu : UnitsFinite u) {x : Num} (hx : IsFinite32 x) :
    EnsuresFinite (envSetratiodr (configOf p) x u) :=
  .bind (.configured hu.env) fun _ he =>
    .bind (.numeric fun _ => envDerive_envFinite { he with ratioDR := clampedRatio_isFinite32 hx }) fun _ he' =>
      .pure (hu.setEnv he')

theorem envGate_ensuresFinite (hu : UnitsFinite u) (on : Bool) : EnsuresFinite (envGate on u) :=
  .bind (.configured hu.env) fun _ he => .pure (hu.setEnv { he with })

theorem envProcess_ensuresFinite (hu : UnitsFinite u) : EnsuresFinite (envProcess (configOf p) u) :=
  .bind (.configured hu.env) fun _ he => .bind (.numeric fun _ => envStep_envFinite he) fun _ he' =>
    .pure (hu.setEnv he')

/-! ### Unit BQ -/

theorem oddCoef_isFinite32 {x y norm v : Num} (h : oddCoef (binary32 p) x y norm = some v) : IsFinite32 v := by
  obtain ⟨_, _, -, -, hv⟩ := oddCoef_eq_some.1 h
  exact round32_isFinite32 hv

theorem bqLowpass_coefsFinite {k q : Num} {b : BqCoefs Num} (h : bqLowpass (binary32 p) k q = some b) :
    CoefsFinite b := by
  simp only [bqLowpass, Option.bind_eq_bind, Option.bind_eq_some_iff, Option.pure_def, Option.some.injEq, Prod.exists] at h
  obtain ⟨_, _, _, -, a0, ha0, a1, ha1, b1, hb1, _, -, b2, hb2, rfl⟩ := h
  exact ⟨round32_isFinite32 ha0, round32_isFinite32 ha1, round32_isFinite32 ha0, oddCoef_isFinite32 hb1,
    round32_isFinite32 hb2⟩

theorem bqHighpass_coefsFinite {k q : Num} {b : BqCoefs Num} (h : bqHighpass (binary32 p) k q = some b) :
    CoefsFinite b := by
  simp only [bqHighpass, Option.bind_eq_bind, Option.bind_eq_some_iff, Option.pure_def, Option.some.injEq, Prod.exists] at h
  obtain ⟨_, _, _, -, a0, ha0, a1, ha1, b1, hb1, _, -, b2, hb2, rfl⟩ := h
  exact ⟨round32_isFinite32 ha0, round32_isFinite32 ha1, round32_isFinite32 ha0, oddCoef_isFinite32 hb1,
    round32_isFinite32 hb2⟩

theorem bqBandpass_coefsFinite {k q : Num} {b : BqCoefs Num} (h : bqBandpass (binary32 p) k q = some b) :
    CoefsFinite b := by
  simp only [bqBandpass, Option.bind_eq_bind, Option.bind_eq_some_iff, Option.pure_def, Option.some.injEq, Prod.exists] at h
  obtain ⟨_, _, _, -, a0, ha0, a2, ha2, b1, hb1, _, -, b2, hb2, rfl⟩ := h
  exact ⟨round32_isFinite32 ha0, ofRat_isFinite32 p 0, round32_isFinite32 ha2, oddCoef_isFinite32 hb1,
    round32_isFinite32 hb2⟩

theorem bqNotch_coefsFinite {k q : Num} {b : BqCoefs Num} (h : bqNotch (binary32 p) k q = some b) :
    CoefsFinite b := by
  simp only [bqNotch, Option.bind_eq_bind, Option.bind_eq_some_iff, Option.pure_def, Option.some.injEq, Prod.exists] at h
  obtain ⟨_, _, _, -, _, -, a0, ha0, a1, ha1, _, -, b2, hb2, rfl⟩ := h
  exact ⟨round32_isFinite32 ha0, oddCoef_isFinite32 ha1, round32_isFinite32 ha0, oddCoef_isFinite32 ha1,
    round32_isFinite32 hb2⟩

theorem shelfCoefs_coefsFinite {x1 y1 z1 x2 y2 z2 : Num} {b : BqCoefs Num}
    (h : shelfCoefs (binary32 p) x1 y1 z1 x2 y2 z2 = some b) : CoefsFinite b := by
  obtain ⟨_, _, _, _, _, -, -, -, ha0, ha1, -, ha2, hb1, -, hb2⟩ := shelfCoefs_eq_some.1 h
  exact ⟨round32_isFinite32 ha0, oddCoef_isFinite32 ha1, round32_isFinite32 ha2, oddCoef_isFinite32 hb1,
    round32_isFinite32 hb2⟩

theorem bqLowshelf_coefsFinite {k g : Num} {b : BqCoefs Num} (h : bqLowshelf (binary32 p) k g = some b) :
    CoefsFinite b := by
  simp only [bqLowshelf, Option.bind_eq_bind, Option.bind_eq_some_iff] at h
  obtain ⟨_, -, _, -, _, -, _, -, _, -, _, -, _, -, _, -, _, -, h⟩ := h
  split at h <;> exact shelfCoefs_coefsFinite h

theorem bqHighshelf_coefsFinite {k g : Num} {b : BqCoefs Num} (h : bqHighshelf (binary32 p) k g = some b) :
    CoefsFinite b := by
  simp only [bqHighshelf, Option.bind_eq_bind, Option.bind_eq_some_iff] at h
  obtain ⟨_, -, _, -, _, -, _, -, _, -, _, -, _, -, h⟩ := h
  split at h <;> exact shelfCoefs_coefsFinite h

theorem bqPeak_coefsFinite {k q g : Num} {b : BqCoefs Num} (h : bqPeak (binary32 p) k q g = some b) :
    CoefsFinite b := by
  obtain ⟨v, -, h⟩ := Option.bind_eq_some_iff.1 h
  obtain ⟨kk, -, h⟩ := Option.bind_eq_some_iff.1 h
  obtain ⟨_, -, h⟩ := Option.bind_eq_some_iff.1 h
  obtain ⟨thin, -, h⟩ := Option.bind_eq_some_iff.1 h
  obtain ⟨_, -, h⟩ := Option.bind_eq_some_iff.1 h
  obtain ⟨wide, -, h⟩ := Option.bind_eq_some_iff.1 h
  generalize (if (binary32 p).le ((binary32 p).ofRat 0) g then (wide, thin) else (thin, wide)) = sides at h
  obtain ⟨num, den⟩ := sides
  simp only [Option.bind_eq_bind, Option.bind_eq_some_iff, Option.pure_def, Option.some.injEq] at h
  obtain ⟨_, -, _, -, _, -, a0, ha0, a1, ha1, _, -, a2, ha2, _, -, b2, hb2, rfl⟩ := h
  exact ⟨round32_isFinite32 ha0, oddCoef_isFinite32 ha1, round32_isFinite32 ha2, oddCoef_isFinite32 ha1,
    round32_isFinite32 hb2⟩

theorem bqDesignDefault_coefsFinite {sr : Num} {t : FType} {f q g : Num} {b : BqCoefs Num}
    (h : bqDesignDefault (binary32 p) sr t f q g = some b) : CoefsFinite b := by
  obtain ⟨k, -, h⟩ := Option.bind_eq_some_iff.1 h
  cases t with
  | lowpass => exact bqLowpass_coefsFinite h
  | highpass => exact bqHighpass_coefsFinite h
  | bandpass => exact bqBandpass_coefsFinite h
  | lowshelf => exact bqLowshelf_coefsFinite h
  | highshelf => exact bqHighshelf_coefsFinite h
  | peak => exact bqPeak_coefsFinite h
  | notch => exact bqNotch_coefsFinite h

theorem bqDesignOf_reference (h : p.bqDesign = .reference) : bqDesignOf p = bqDesignDefault (binary32 p) p.sr := by
  unfold bqDesignOf
  rw [h]

theorem bqDesignOf_other (h : p.bqDesign = .other) (t : FType) (f q g : Num) :
    bqDesignOf p t f q g =
      let w := Config.otherBqDesign t f q g
      some ⟨finite32 w.a0, finite32 w.a1, finite32 w.a2, finite32 w.b1, finite32 w.b2⟩ := by
  unfold bqDesignOf
  rw [h]

theorem bqDesignOf_coefsFinite {t : FType} {f q g : Num} {b : BqCoefs Num} (h : bqDesignOf p t f q g = some b) :
    CoefsFinite b := by
  cases hd : p.bqDesign
  · exact bqDesignDefault_coefsFinite (bqDesignOf_reference hd ▸ h)
  · rw [bqDesignOf_other hd] at h
    cases h
    exact ⟨isFinite32_finite32 _, isFinite32_finite32 _, isFinite32_finite32 _, isFinite32_finite32 _,
      isFinite32_finite32 _⟩

theorem bqRedesign_bqFinite {b b' : Bq Num} (hb : BqFinite b) (h : bqRedesign (configOf p) b = some b') :
    BqFinite b' := by
  obtain ⟨k, hk, rfl⟩ := bqRedesign_eq_some.1 h
  exact { hb with coefs := bqDesignOf_coefsFinite hk }

theorem bqFilter_delayFinite {k : BqCoefs Num} {d : Delay Num} {x : Num} {r : Num × Delay Num}
    (h : bqFilter (binary32 p) k d x = some r) : DelayFinite r.2 := by
  obtain ⟨_, _, _, _, _, _, _, _, _, -, -, -, -, -, hz1, -, -, hz2, rfl⟩ := bqFilter_eq_some.1 h
  exact ⟨round32_isFinite32 hz1, round32_isFinite32 hz2⟩

theorem bqInit_ensuresFinite (hu : UnitsFinite u) (t : FType) {f q g : Num} (hf : IsFinite32 f) (hq : IsFinite32 q)
    (hg : IsFinite32 g) : EnsuresFinite (bqInit (configOf p) t f q g u) :=
  .after fun _ _ => .bind (.numeric fun _ => bqDesignOf_coefsFinite) fun _ hk =>
    .pure (hu.setBq ⟨hf, hq, hg, hk, fun _ hd => (List.eq_of_mem_replicate hd).symm ▸
      ⟨ofRat_isFinite32 p 0, ofRat_isFinite32 p 0⟩⟩)

theorem bqSettype_ensuresFinite (hu : UnitsFinite u) (t : FType) : EnsuresFinite (bqSettype (configOf p) t u) :=
  .bind (.configured hu.bq) fun _ hb => .bind (.numeric fun _ => bqRedesign_bqFinite { hb with }) fun _ hb' =>
    .pure (hu.setBq hb')

theorem bqSetfreq_ensuresFinite (hu : UnitsFinite u) {f : Num} (hf : IsFinite32 f) :
    EnsuresFinite (bqSetfreq (configOf p) f u) :=
  .bind (.configured hu.bq) fun _ hb => .after fun _ _ =>
    .bind (.numeric fun _ => bqRedesign_bqFinite { hb with freq := hf }) fun _ hb' => .pure (hu.setBq hb')

theorem bqSetq_ensuresFinite (hu : UnitsFinite u) {q : Num} (hq : IsFinite32 q) :
    EnsuresFinite (bqSetq (configOf p) q u) :=
  .bind (.configured hu.bq) fun _ hb => .after fun _ _ =>
    .bind (.numeric fun _ => bqRedesign_bqFinite { hb with q := hq }) fun _ hb' => .pure (hu.setBq hb')

theorem bqSetgain_ensuresFinite (hu : UnitsFinite u) {g : Num} (hg : IsFinite32 g) :
    EnsuresFinite (bqSetgain (configOf p) g u) :=
  .bind (.configured hu.bq) fun _ hb =>
    .bind (.numeric fun _ => bqRedesign_bqFinite { hb with gain := hg }) fun _ hb' => .pure (hu.setBq hb')

theorem bqProcess_ensuresFinite (hu : UnitsFinite u) (c : Nat) (x : Num) :
    EnsuresFinite (bqProcess (configOf p) c x u) :=
  .bind (.configured hu.bq) fun _ hb => .after fun _ _ => .bind (.numeric fun _ => bqFilter_delayFinite) fun _ hd =>
    .pure (hu.setBq { hb with delay := fun d hmem => (List.mem_or_eq_of_mem_set hmem).elim (hb.delay d) (· ▸ hd) })

/-! ### Unit NG -/

/-- The previous value changes with the brown variant only, to a quotient (44_noise.md R186). -/
theorem noiseSample_prev_isFinite32 {g : Ng Num} (hg : IsFinite32 g.prev) {rng : Nat} {r : Num × Ng Num × Nat}
    (h : noiseSample (configOf p) g rng = some r) : IsFinite32 r.2.1.prev := by
  unfold noiseSample at h
  split at h
  · cases h; exact hg
  · simp only [Option.bind_eq_bind, Option.bind_eq_some_iff, Option.pure_def, Option.some.injEq] at h
    obtain ⟨_, -, _, -, rfl⟩ := h
    exact hg
  · simp only [Option.bind_eq_bind, Option.bind_eq_some_iff, Option.pure_def, Option.some.injEq] at h
    obtain ⟨_, -, _, ho, rfl⟩ := h
    exact div_isFinite32 p ho

theorem ngSettype_ensuresFinite (hu : UnitsFinite u) (v : Variant) : EnsuresFinite (ngSettype (configOf p) v u) :=
  .pure (hu.setNg (g := ⟨v, _⟩) (ofRat_isFinite32 p 0) u.rng)

theorem ngSeed_ensuresFinite (hu : UnitsFinite u) (k : BitVec 16) : EnsuresFinite (ngSeed (configOf p) k u) := by
  unfold ngSeed
  split
  · exact .ok (hu.setRng _)
  · exact .error _

theorem ngGetvalue_ensuresFinite (hu : UnitsFinite u) : EnsuresFinite (ngGetvalue (configOf p) u) :=
  .bind (.configured hu.ng) fun _ hg => .bind (.numeric fun _ => noiseSample_prev_isFinite32 hg) fun _ hg' =>
    .pure (hu.setNg hg' _)

/-! ### Unit WT -/

/-- Every entry of a filled table is a value of the function it is filled with. -/
theorem exists_of_mem_tabFill {α : Type} {v : Nat → Option α} {n i : Nat} {t : List (Nat × α)}
    (h : tabFill v n i = some t) {e : Nat × α} (he : e ∈ t) : ∃ j, v j = some e.2 := by
  induction n generalizing i t with
  | zero => cases h; cases he
  | succ n ih =>
    simp only [tabFill, Option.bind_eq_bind, Option.bind_eq_some_iff, Option.pure_def, Option.some.injEq] at h
    obtain ⟨x, hx, t', ht, rfl⟩ := h
    rcases List.mem_cons.1 he with rfl | he
    · exact ⟨i, hx⟩
    · exact ih ht he

theorem wtBuildEntry_isFinite32 {w : Wave} {i : Nat} {v : Num} (h : wtBuildEntry (configOf p) w i = some v) :
    IsFinite32 v := by
  simp only [wtBuildEntry, Option.bind_eq_bind, Option.bind_eq_some_iff] at h
  obtain ⟨_, -, _, -, hv⟩ := h
  exact kernel_isFinite32 hv

theorem wtAdvance_isFinite32 {x f v : Num} (h : wtAdvance (configOf p) x f = some v) : IsFinite32 v := by
  simp only [wtAdvance, Option.bind_eq_bind, Option.bind_eq_some_iff, Option.pure_def, Option.some.injEq] at h
  obtain ⟨_, -, y, -, rfl⟩ := h
  exact wrap32_isFinite32 y

theorem wtBuild_ensuresFinite (hu : UnitsFinite u) (w : Wave) : EnsuresFinite (wtBuild (configOf p) w u) := by
  refine .after fun t ht => .pure (hu.setWt (ofRat_isFinite32 p 0) fun e he => ?_)
  obtain ⟨_, hj⟩ := exists_of_mem_tabFill (numeric_eq_ok.1 ht) he
  exact wtBuildEntry_isFinite32 hj

theorem wtLoad_ensuresFinite (hu : UnitsFinite u) (i : Nat) {v : Num} (hv : IsFinite32 v) :
    EnsuresFinite (wtLoad (configOf p) i v u) := by
  refine .after fun _ _ => .pure (hu.setWt hu.wtPhase fun e he => ?_)
  rcases mem_tabWrite he with rfl | he
  · exact hv
  · exact hu.wtTab e he

theorem wtReset_ensuresFinite (hu : UnitsFinite u) : EnsuresFinite (wtReset (configOf p) u) :=
  .pure (hu.setWt (ofRat_isFinite32 p 0) hu.wtTab)

theorem wtGetfreq_ensuresFinite (hu : UnitsFinite u) (f : Num) : EnsuresFinite (wtGetfreq (configOf p) f u) :=
  .after fun _ _ => .bind (.numeric fun _ => wtAdvance_isFinite32) fun _ hx => .pure (hu.setWt hx hu.wtTab)

theorem wtAtphase_ensuresFinite (hu : UnitsFinite u) (x : Num) : EnsuresFinite (wtAtphase (configOf p) x u) :=
  .after fun _ _ => .pure hu

theorem wtRdtab_ensuresFinite (hu : UnitsFinite u) (i : Nat) : EnsuresFinite (wtRdtab (configOf p) i u) :=
  .after fun _ _ => .after fun _ _ => .pure hu

/-! ### Unit FM -/

theorem fmOperators_oscFinite {os : List (Osc Num)} (hos : ∀ o ∈ os, OscFinite o) {m : Num}
    {r : Num × List (Osc Num)} (h : fmOperators (configOf p) os m = some r) : ∀ o ∈ r.2, OscFinite o := by
  induction os generalizing m r with
  | nil => cases h; exact nofun
  | cons o os ih =>
    obtain ⟨v, o', x, m', os', ho, -, hrec, rfl⟩ := fmOperators_cons_eq_some.1 h
    obtain ⟨hhead, htail⟩ := List.forall_mem_cons.1 hos
    exact List.forall_mem_cons.2 ⟨oscGet_oscFinite hhead ho, ih htail hrec⟩

theorem fmStep_fmFinite {fm : Fm Num} (hfm : FmFinite fm) {r : Num × Fm Num} (h : fmStep (configOf p) fm = some r) :
    FmFinite r.2 := by
  simp only [fmStep, Option.bind_eq_bind, Option.bind_eq_some_iff, Option.pure_def, Option.some.injEq, Prod.exists] at h
  obtain ⟨m, os, hos, out, car, hcar, rfl⟩ := h
  exact ⟨oscGetMod_oscFinite hfm.car hcar, fmOperators_oscFinite hfm.ops hos⟩

theorem FmFinite.setOp {fm : Fm Num} (hfm : FmFinite fm) (i : Nat) {o : Osc Num} (ho : OscFinite o) :
    FmFinite (fmSetOp fm i o) :=
  { hfm with ops := fun o' hmem => (List.mem_or_eq_of_mem_set hmem).elim (hfm.ops o') (· ▸ ho) }

theorem operatorAt_ensures {fm : Fm Num} (hfm : FmFinite fm) (i : Nat) : Ensures OscFinite (operatorAt fm i) :=
  fun o h => hfm.ops o (List.mem_of_getElem? (operatorAt_eq_ok.1 h))

theorem fmInit_ensuresFinite (hu : UnitsFinite u) (w : Wave) {f a : Num} (hf : IsFinite32 f) (ha : IsFinite32 a) :
    EnsuresFinite (fmInit (configOf p) w f a u) :=
  .bind (.numeric fun _ => oscNew_oscFinite hf ha) fun _ ho => .pure (hu.setFm ⟨ho, nofun⟩)

theorem fmCsettype_ensuresFinite (hu : UnitsFinite u) (w : Wave) : EnsuresFinite (fmCsettype w u) :=
  .bind (.configured hu.fm) fun _ hfm => .pure (hu.setFm { hfm with car := { hfm.car with } })

theorem fmCsetfreq_ensuresFinite (hu : UnitsFinite u) {f : Num} (hf : IsFinite32 f) :
    EnsuresFinite (fmCsetfreq (configOf p) f u) :=
  .bind (.configured hu.fm) fun _ hfm => .bind (.numeric fun _ => oscSetFreq_oscFinite hf hfm.car) fun _ ho =>
    .pure (hu.setFm { hfm with car := ho })

theorem fmCsetamp_ensuresFinite (hu : UnitsFinite u) {a : Num} (ha : IsFinite32 a) : EnsuresFinite (fmCsetamp a u) :=
  .bind (.configured hu.fm) fun _ hfm => .pure (hu.setFm { hfm with car := { hfm.car with amp := ha } })

theorem fmCreset_ensuresFinite (hu : UnitsFinite u) : EnsuresFinite (fmCreset (configOf p) u) :=
  .bind (.configured hu.fm) fun _ hfm => .pure (hu.setFm { hfm with car := oscReset_oscFinite hfm.car })

theorem fmAddop_ensuresFinite (hu : UnitsFinite u) (w : Wave) {f a : Num} (hf : IsFinite32 f) (ha : IsFinite32 a) :
    EnsuresFinite (fmAddop (configOf p) w f a u) :=
  .bind (.configured hu.fm) fun _ hfm => .after fun _ _ => .bind (.numeric fun _ => oscNew_oscFinite hf ha) fun _ ho =>
    .pure (hu.setFm { hfm with ops := List.forall_mem_append.2 ⟨hfm.ops, List.forall_mem_singleton.2 ho⟩ })

theorem fmRemop_ensuresFinite (hu : UnitsFinite u) (i : Nat) : EnsuresFinite (fmRemop i u) :=
  .bind (.configured hu.fm) fun _ hfm => .after fun _ _ =>
    .pure (hu.setFm { hfm with ops := fun o hmem => hfm.ops o (List.mem_of_mem_eraseIdx hmem) })

theorem fmOpsettype_ensuresFinite (hu : UnitsFinite u) (w : Wave) (i : Nat) : EnsuresFinite (fmOpsettype w i u) :=
  .bind (.configured hu.fm) fun _ hfm => .bind (operatorAt_ensures hfm i) fun _ ho =>
    .pure (hu.setFm (hfm.setOp i { ho with }))

theorem fmOpsetfreq_ensuresFinite (hu : UnitsFinite u) (i : Nat) {f : Num} (hf : IsFinite32 f) :
    EnsuresFinite (fmOpsetfreq (configOf p) i f u) :=
  .bind (.configured hu.fm) fun _ hfm => .bind (operatorAt_ensures hfm i) fun _ ho =>
    .bind (.numeric fun _ => oscSetFreq_oscFinite hf ho) fun _ ho' => .pure (hu.setFm (hfm.setOp i ho'))

theorem fmOpsetamp_ensuresFinite (hu : UnitsFinite u) (i : Nat) {a : Num} (ha : IsFinite32 a) :
    EnsuresFinite (fmOpsetamp i a u) :=
  .bind (.configured hu.fm) fun _ hfm => .bind (operatorAt_ensures hfm i) fun _ ho =>
    .pure (hu.setFm (hfm.setOp i { ho with amp := ha }))

theorem fmOpreset_ensuresFinite (hu : UnitsFinite u) (i : Nat) : EnsuresFinite (fmOpreset (configOf p) i u) :=
  .bind (.configured hu.fm) fun _ hfm => .bind (operatorAt_ensures hfm i) fun _ ho =>
    .pure (hu.setFm (hfm.setOp i (oscReset_oscFinite ho)))

theorem fmSample_ensuresFinite (hu : UnitsFinite u) : EnsuresFinite (fmSample (configOf p) u) :=
  .bind (.configured hu.fm) fun _ hfm => .bind (.numeric fun _ => fmStep_fmFinite hfm) fun _ hfm' =>
    .pure (hu.setFm hfm')

/-! ### Every command, and a step -/

/-- A command that reads one operand word. -/
theorem ensuresFinite_operand {w : Word} {f : Num → Except FaultCode (Answer Num)}
    (h : ∀ x, IsFinite32 x → EnsuresFinite (f x)) : EnsuresFinite (operand w >>= f) := .bind (operand_ensures w) h

theorem perform_ensuresFinite (hu : UnitsFinite u) (i : Instr) :
    EnsuresFinite (perform (configOf p) operand i u) := by
  cases i with
  | sysRdreg r => exact sysRdreg_ensuresFinite hu r
  | krnEval w _ => exact ensuresFinite_operand fun x _ => krnEval_ensuresFinite hu w x
  | oscInit w _ _ =>
    exact ensuresFinite_operand fun _ hf => ensuresFinite_operand fun _ ha => oscInit_ensuresFinite hu w hf ha
  | oscSettype w => exact oscSettype_ensuresFinite hu w
  | oscSetfreq _ => exact ensuresFinite_operand fun _ => oscSetfreq_ensuresFinite hu
  | oscSetamp _ => exact ensuresFinite_operand fun _ => oscSetamp_ensuresFinite hu
  | oscReset => exact oscReset_ensuresFinite hu
  | oscGetvalue => exact oscGetvalue_ensuresFinite hu
  | oscGetmod _ => exact ensuresFinite_operand fun m _ => oscGetmod_ensuresFinite hu m
  | oscAtphase _ => exact ensuresFinite_operand fun x _ => oscAtphase_ensuresFinite hu x
  | envInit _ _ _ _ =>
    exact ensuresFinite_operand fun a _ => ensuresFinite_operand fun d _ => ensuresFinite_operand fun _ hs =>
      ensuresFinite_operand fun r _ => envInit_ensuresFinite hu a d hs r
  | envSetattack _ => exact ensuresFinite_operand fun a _ => envSetattack_ensuresFinite hu a
  | envSetdecay _ => exact ensuresFinite_operand fun d _ => envSetdecay_ensuresFinite hu d
  | envSetsustain _ => exact ensuresFinite_operand fun _ => envSetsustain_ensuresFinite hu
  | envSetrelease _ => exact ensuresFinite_operand fun r _ => envSetrelease_ensuresFinite hu r
  | envSetratioa _ => exact ensuresFinite_operand fun _ => envSetratioa_ensuresFinite hu
  | envSetratiodr _ => exact ensuresFinite_operand fun _ => envSetratiodr_ensuresFinite hu
  | envGate on => exact envGate_ensuresFinite hu on
  | envProcess => exact envProcess_ensuresFinite hu
  | bqInit t _ _ _ =>
    exact ensuresFinite_operand fun _ hf => ensuresFinite_operand fun _ hq => ensuresFinite_operand fun _ hg =>
      bqInit_ensuresFinite hu t hf hq hg
  | bqSettype t => exact bqSettype_ensuresFinite hu t
  | bqSetfreq _ => exact ensuresFinite_operand fun _ => bqSetfreq_ensuresFinite hu
  | bqSetq _ => exact ensuresFinite_operand fun _ => bqSetq_ensuresFinite hu
  | bqSetgain _ => exact ensuresFinite_operand fun _ => bqSetgain_ensuresFinite hu
  | bqProcess c _ => exact ensuresFinite_operand fun x _ => bqProcess_ensuresFinite hu c x
  | ngSettype v => exact ngSettype_ensuresFinite hu v
  | ngSeed k => exact ngSeed_ensuresFinite hu k
  | ngGetvalue => exact ngGetvalue_ensuresFinite hu
  | wtBuild w => exact wtBuild_ensuresFinite hu w
  | wtLoad n _ => exact ensuresFinite_operand fun _ => wtLoad_ensuresFinite hu n
  | wtReset => exact wtReset_ensuresFinite hu
  | wtGetfreq _ => exact ensuresFinite_operand fun f _ => wtGetfreq_ensuresFinite hu f
  | wtAtphase _ => exact ensuresFinite_operand fun x _ => wtAtphase_ensuresFinite hu x
  | wtRdtab n => exact wtRdtab_ensuresFinite hu n
  | fmInit w _ _ =>
    exact ensuresFinite_operand fun _ hf => ensuresFinite_operand fun _ ha => fmInit_ensuresFinite hu w hf ha
  | fmCsettype w => exact fmCsettype_ensuresFinite hu w
  | fmCsetfreq _ => exact ensuresFinite_operand fun _ => fmCsetfreq_ensuresFinite hu
  | fmCsetamp _ => exact ensuresFinite_operand fun _ => fmCsetamp_ensuresFinite hu
  | fmCreset => exact fmCreset_ensuresFinite hu
  | fmAddop w _ _ =>
    exact ensuresFinite_operand fun _ hf => ensuresFinite_operand fun _ ha => fmAddop_ensuresFinite hu w hf ha
  | fmRemop n => exact fmRemop_ensuresFinite hu n
  | fmOpsettype w n => exact fmOpsettype_ensuresFinite hu w n
  | fmOpsetfreq n _ => exact ensuresFinite_operand fun _ => fmOpsetfreq_ensuresFinite hu n
  | fmOpsetamp n _ => exact ensuresFinite_operand fun _ => fmOpsetamp_ensuresFinite hu n
  | fmOpreset n => exact fmOpreset_ensuresFinite hu n
  | fmSample => exact fmSample_ensuresFinite hu

end Commands

/-- Settles O58: the units after a step are the old ones, the reset ones, or what a command leaves above the wire, and
every number a command stores is an operand or the result of a rounding. -/
theorem stepKeepsEveryNumberFinite : Obligations.StepKeepsEveryNumberFinite := by
  intro s t hs hstep
  rw [binary32Inv_iff] at hs ⊢
  obtain ⟨-, hu | hu | ⟨i, r, hp⟩⟩ := step_units_cases hstep
  · rw [hu]; exact hs
  · rw [hu]; exact .reset (ofRat_isFinite32 s.straps 0)
  · exact perform_ensuresFinite hs i _ hp

end Sys2Proof.Machine
end

section
/-!
PROOFS. 10_state.md R22: no step but a reset clears a flag. What a step can do to the units comes first: the writes a
command can make, one constructor for each kind.
-/

namespace Sys2Proof.Machine

/-! ### What a command can write -/

variable {α : Type}

/-- What a command that does not fault can leave in the units. -/
inductive UnitWrite (c : Config α) (u : Units α) : Units α → Prop
  | keep : UnitWrite c u u
  | osc (o : Osc α) : UnitWrite c u { u with osc := some o }
  | env (e : Env α) : UnitWrite c u { u with env := some e }
  | bq (b : Bq α) : UnitWrite c u { u with bq := some b }
  | ngType (v : Variant) : UnitWrite c u { u with ng := some ⟨v, c.num.ofRat 0⟩ }
  | ngSeed {k : BitVec 16} {r : Nat} (h : c.noise.seed k = some r) : UnitWrite c u { u with rng := r }
  | ngDraw {g g' : Ng α} {v : α} {r : Nat} (hg : u.ng = some g) (h : noiseSample c g u.rng = some (v, g', r)) :
      UnitWrite c u { u with ng := some g', rng := r }
  | wtBuild {f : Nat → Option α} {t : List (Nat × α)} (h : tabFill f c.wtLen 0 = some t) (p : α) :
      UnitWrite c u { u with wt := ⟨t, p⟩ }
  | wtLoad (i : Nat) (v : α) : UnitWrite c u { u with wt := { u.wt with tab := tabWrite u.wt.tab i v } }
  | wtPhase (p : α) : UnitWrite c u { u with wt := { u.wt with phase := p } }
  | fm (f : Fm α) : UnitWrite c u { u with fm := some f }

/-- The command, where it does not fault, makes one of the writes of `UnitWrite`. -/
abbrev EnsuresWrite (c : Config α) (u : Units α) (a : Except FaultCode (Answer α)) : Prop :=
  Ensures (fun b => UnitWrite c u b.1) a

theorem ngGetvalue_ensuresWrite (c : Config α) (u : Units α) : EnsuresWrite c u (ngGetvalue c u) :=
  .after fun _ hg => .after fun _ h => .pure (.ngDraw (configured_eq_ok.1 hg) (numeric_eq_ok.1 h))

theorem ngSeed_ensuresWrite (c : Config α) (k : BitVec 16) (u : Units α) : EnsuresWrite c u (ngSeed c k u) := by
  unfold Machine.ngSeed
  split
  next h => exact .ok (.ngSeed h)
  next => exact .error _

theorem wtBuild_ensuresWrite (c : Config α) (w : Wave) (u : Units α) : EnsuresWrite c u (wtBuild c w u) :=
  .after fun _ h => .pure (.wtBuild (numeric_eq_ok.1 h) _)

/-- Every command is a chain of checks and computations that ends in one write, and `Ensures.after` passes over the
chain. The commands are grouped by the write they end in. -/
theorem perform_ensuresWrite (c : Config α) (read : Word → Except FaultCode α) (i : Instr) (u : Units α) :
    EnsuresWrite c u (perform c read i u) := by
  cases i with
  | ngSettype v => exact .pure (.ngType v)
  | ngSeed k => exact ngSeed_ensuresWrite c k u
  | ngGetvalue => exact ngGetvalue_ensuresWrite c u
  | wtBuild w => exact wtBuild_ensuresWrite c w u
  | wtLoad => exact .after fun _ _ => .after fun _ _ => .pure (.wtLoad _ _)
  | wtReset => exact .pure (.wtPhase _)
  | wtGetfreq => exact .after fun _ _ => .after fun _ _ => .after fun _ _ => .pure (.wtPhase _)
  | sysRdreg | krnEval | oscAtphase | wtAtphase | wtRdtab =>
    repeat refine .after fun _ _ => ?_
    exact .pure .keep
  | oscInit | oscSettype | oscSetfreq | oscSetamp | oscReset | oscGetvalue | oscGetmod =>
    repeat refine .after fun _ _ => ?_
    exact .pure (.osc _)
  | envInit | envSetattack | envSetdecay | envSetsustain | envSetrelease | envSetratioa | envSetratiodr | envGate
  | envProcess =>
    repeat refine .after fun _ _ => ?_
    exact .pure (.env _)
  | bqInit | bqSettype | bqSetfreq | bqSetq | bqSetgain | bqProcess =>
    repeat refine .after fun _ _ => ?_
    exact .pure (.bq _)
  | fmInit | fmCsettype | fmCsetfreq | fmCsetamp | fmCreset | fmAddop | fmRemop | fmOpsettype | fmOpsetfreq
  | fmOpsetamp | fmOpreset | fmSample =>
    repeat refine .after fun _ _ => ?_
    exact .pure (.fm _)

/-- The units after a step: those of the reset where the block is held in it, else those of one write. -/
theorem step_units_reset_or_write {s t : State} (h : step s = .next t) :
    (s.resetLine = true ∧ t.units = Units.reset s.config) ∨
    (s.resetLine = false ∧ UnitWrite s.config s.units t.units) := by
  rcases step_cases s with ⟨hr, hs⟩ | ⟨hr, -, -, hs⟩ | ⟨hr, -, hs⟩ | ⟨-, -, -, hs⟩ | ⟨hd, ops, rest, hr, -, -, hs⟩
  all_goals rw [hs] at h
  · cases h; exact .inl ⟨hr, rfl⟩
  · cases h; exact .inr ⟨hr, .keep⟩
  · cases h; exact .inr ⟨hr, .keep⟩
  · cases h
  · refine .inr ⟨hr, ?_⟩
    rcases runPacket_cases hd ops { s with pkt := [], cmd := rest } with ⟨i, -, hp⟩ | ⟨e, -, hp⟩
    · obtain ⟨-, hu | ⟨r, hu⟩⟩ := exec_units_cases (hp ▸ h)
      · rw [hu]; exact .keep
      · exact perform_ensuresWrite _ _ i _ _ hu
    · rw [hp] at h
      cases h; exact .keep

/-! ### Flags -/

/-- A filled table has an entry at every index it was filled at. -/
theorem tabRead_tabFill_isSome {v : Nat → Option α} {n i j : Nat} {t : List (Nat × α)} (h : tabFill v n i = some t)
    (hij : i ≤ j) (hj : j < i + n) : (tabRead t j).isSome = true := by
  induction n generalizing i t with
  | zero => omega
  | succ n ih =>
    simp only [tabFill, Option.bind_eq_bind, Option.bind_eq_some_iff, Option.pure_def, Option.some.injEq] at h
    obtain ⟨x, -, t', ht, rfl⟩ := h
    rcases hij.eq_or_lt with rfl | hlt
    · simp [tabRead]
    · have hne : j ≠ i := by omega
      have hnl : ¬ j < i := by omega
      rw [tabRead, if_neg hne, if_neg hnl]
      exact ih ht hlt (by omega)

theorem tabRead_tabWrite_isSome {t : List (Nat × α)} {j : Nat} (i : Nat) (v : α) (h : (tabRead t j).isSome = true) :
    (tabRead (tabWrite t i v) j).isSome = true := by
  rw [tabRead_tabWrite]
  split
  · rfl
  · exact h

/-- Every flag set in `u` is set in `u'`: the `cfg` flags, and the valid bits below the length `n` of the table. -/
structure FlagsKept (n : Nat) (u u' : Units α) : Prop where
  osc : u.oscCfg = true → u'.oscCfg = true
  env : u.envCfg = true → u'.envCfg = true
  bq : u.bqCfg = true → u'.bqCfg = true
  ng : u.ngCfg = true → u'.ngCfg = true
  fm : u.fmCfg = true → u'.fmCfg = true
  tab : ∀ i, i < n → u.tabValid i = true → u'.tabValid i = true

theorem FlagsKept.refl (n : Nat) (u : Units α) : FlagsKept n u u := ⟨id, id, id, id, id, fun _ _ => id⟩

/-- A write sets the flag of the unit it writes and keeps the other units; no write takes a table entry away. -/
theorem UnitWrite.flagsKept {c : Config α} {u u' : Units α} (h : UnitWrite c u u') : FlagsKept c.wtLen u u' := by
  have hu := FlagsKept.refl c.wtLen u
  cases h with
  | keep => exact hu
  | osc => exact { hu with osc := fun _ => rfl }
  | env => exact { hu with env := fun _ => rfl }
  | bq => exact { hu with bq := fun _ => rfl }
  | ngType => exact { hu with ng := fun _ => rfl }
  | ngSeed => exact { hu with }
  | ngDraw => exact { hu with ng := fun _ => rfl }
  | wtBuild ht => exact { hu with tab := fun i hi _ => tabRead_tabFill_isSome ht (Nat.zero_le i) (by omega) }
  | wtLoad i v => exact { hu with tab := fun _ _ => tabRead_tabWrite_isSome i v }
  | wtPhase => exact { hu with }
  | fm => exact { hu with fm := fun _ => rfl }

/-- Settles O53: with the reset input not asserted the units after a step are those of one write, and no write clears a
flag. -/
theorem flagsAreNeverCleared : Obligations.FlagsAreNeverCleared := by
  intro s t hr h
  rcases step_units_reset_or_write h with ⟨hreset, -⟩ | ⟨-, hw⟩
  · rw [hr] at hreset; cases hreset
  · obtain ⟨hosc, henv, hbq, hng, hfm, htab⟩ := hw.flagsKept
    exact ⟨hosc, henv, hbq, hng, hfm, htab⟩

end Sys2Proof.Machine
end

section
/-!
PROOFS. 44_noise.md R182 and 10_state.md R30: the register of `LFSR16` never reaches 0, and the brown noise memory
stays in `[-1, 1]`, a mean of numbers in `[-1, 1]` rounded twice.
-/

namespace Sys2Proof.Machine

/-! ### The bounds a rounding keeps -/

/-- Fields up to those of `2^j` stand for a number up to `2^j`. -/
theorem fieldsValue_le_two_pow {k j : ℕ} (hk : k ≤ (127 + j) * 2 ^ 23) : fieldsValue k ≤ 2 ^ j := by
  have hbound {m : ℕ} {u a : ℤ} (hm : (m : ℚ) ≤ 2 ^ a) (hau : a + u ≤ j) : (m : ℚ) * 2 ^ u ≤ 2 ^ j := by
    calc (m : ℚ) * 2 ^ u ≤ 2 ^ a * 2 ^ u := by gcongr
      _ = 2 ^ (a + u) := (zpow_add₀ (by norm_num) a u).symm
      _ ≤ 2 ^ (j : ℤ) := zpow_le_zpow_right₀ (by norm_num) hau
      _ = 2 ^ j := zpow_natCast _ _
  unfold fieldsValue magnitude
  split
  · rw [pow2_eq]
    refine hbound (a := 23) ?_ (by omega)
    exact_mod_cast (Nat.mod_lt k (by norm_num : 0 < 2 ^ 23)).le
  · rw [pow2_eq]
    rcases Nat.lt_or_ge (k / 2 ^ 23) (127 + j) with hlt | hge
    · refine hbound (a := 24) ?_ (by omega)
      have hm : 2 ^ 23 + k % 2 ^ 23 ≤ 2 ^ 24 := by omega
      exact_mod_cast hm
    · refine hbound (a := 23) ?_ (by omega)
      have hm : 2 ^ 23 + k % 2 ^ 23 ≤ 2 ^ 23 := by omega
      exact_mod_cast hm

/-- A number of magnitude at most `2^j` rounds to one. -/
theorem abs_round32_le {v : Num} {j : ℕ} (hj : j ≤ 22) (h : |v| ≤ 2 ^ j) {y : Num} (hy : round32 v = some y) :
    |y| ≤ 2 ^ j := by
  rcases eq_or_ne v 0 with rfl | h0
  · have h00 : round32 0 = some 0 := by decide +kernel
    obtain rfl : 0 = y := Option.some.inj (h00.symm.trans hy)
    simp
  · have hf := roundedFields_le_of_le_two_pow (n := v.num.natAbs) (d := v.den) (by simpa using h0) v.den_nz hj
      (by rw [natAbs_div_den]; exact_mod_cast h)
    have hval := fieldsValue_le_two_pow hf
    have hnn := fieldsValue_nonneg (roundedFields v.num.natAbs v.den)
    rcases lt_or_gt_of_ne h0 with hneg | hpos
    · obtain rfl := Option.some.inj ((round32_of_neg hneg (by omega)).symm.trans hy)
      rwa [abs_neg, abs_of_nonneg hnn]
    · obtain rfl := Option.some.inj ((round32_of_pos hpos (by omega)).symm.trans hy)
      rwa [abs_of_nonneg hnn]

/-- Half the sum of two numbers in `[-1, 1]`, rounded twice, lies in `[-1, 1]`. -/
theorem abs_mean_le_one (p : Straps) {x y s z : Num} (hx : |x| ≤ 1) (hy : |y| ≤ 1)
    (hs : (binary32 p).add x y = some s) (hz : (binary32 p).div s ((binary32 p).ofRat 2) = some z) : |z| ≤ 1 := by
  have hsum : |s| ≤ 2 ^ 1 := abs_round32_le (by norm_num) (by linarith [abs_add_le x y]) hs
  rw [binary32_ofRat_two] at hz
  obtain ⟨-, hz⟩ := (binary32_div_eq_some p).1 hz
  have hhalf : |s / 2| ≤ 2 ^ 0 := by rw [abs_div, abs_two]; linarith
  simpa using abs_round32_le (by norm_num) hhalf hz

/-! ### The random source -/

/-- Only 1 is shifted to 0, and from 1 the tap sum is 1. -/
theorem lfsrStep_ne_zero {s : BitVec 16} (h : s ≠ 0) : lfsrStep s ≠ 0 := by
  intro h0
  obtain ⟨hbit, hshift⟩ := BitVec.or_eq_zero_iff.1 h0
  obtain rfl : s = 1 := by bv_omega
  exact absurd hbit (by decide)

/-- `LFSR16` draws from `[-1, 1]` in every state but 0. -/
theorem abs_lfsrDraw_le_one (p : Straps) {s : BitVec 16} (h : s ≠ 0) : |lfsrDraw (binary32 p) s| ≤ 1 := by
  have hpos : (1 : ℚ) ≤ s.toNat := by
    exact_mod_cast Nat.one_le_iff_ne_zero.2 fun h0 => h (BitVec.eq_of_toNat_eq h0)
  have hlt : (s.toNat : ℚ) ≤ 65535 := by exact_mod_cast Nat.lt_succ_iff.1 s.isLt
  have hd : |((s.toNat : ℚ) - 32768) / 32767| ≤ 2 ^ 0 := by
    rw [abs_le]; constructor
    · rw [le_div_iff₀ (by norm_num)]; linarith
    · rw [div_le_iff₀ (by norm_num)]; linarith
  show |(round32 _).getD 0| ≤ 1
  cases hr : round32 (((s.toNat : ℚ) - 32768) / 32767) with
  | none => simp
  | some y => simpa using abs_round32_le (by norm_num) hd hr

/-! ### The bounds of a noise generator -/

/-- Where the strap selects `LFSR16`, its register is a 16-bit word other than 0: `State.RngInv`, of straps and a
register. -/
def RngBound (p : Straps) (r : ℕ) : Prop := p.noiseSrc = .reference → 1 ≤ r ∧ r ≤ 65535

theorem ofNat16_ne_zero {r : ℕ} (h : 1 ≤ r ∧ r ≤ 65535) : BitVec.ofNat 16 r ≠ 0 := by
  bv_omega

theorem toNat16_bounds {k : BitVec 16} (h : k ≠ 0) : 1 ≤ k.toNat ∧ k.toNat ≤ 65535 := by
  bv_omega

theorem abs_inUnitRange_le_one (v : Num) : |inUnitRange v| ≤ 1 := by
  unfold inUnitRange
  split
  next h => exact abs_le.2 h
  next => simp

theorem rngBound_reset (p : Straps) : RngBound p (noiseOf p).resetState := by
  intro hp
  simp [noiseOf, hp, lfsr16]

theorem rngBound_seed {p : Straps} {k : BitVec 16} {r : ℕ} (h : (noiseOf p).seed k = some r) : RngBound p r := by
  intro hp
  simp only [noiseOf, hp, lfsr16, Option.ite_none_left_eq_some, Option.some.injEq] at h
  obtain ⟨hk, rfl⟩ := h
  exact toNat16_bounds hk

theorem rngBound_next {p : Straps} {r : ℕ} (h : RngBound p r) : RngBound p ((noiseOf p).next r).1 := by
  intro hp
  simp only [noiseOf, hp, lfsr16]
  exact toNat16_bounds (lfsrStep_ne_zero (ofNat16_ne_zero (h hp)))

theorem abs_draw_le_one {p : Straps} {r : ℕ} (h : RngBound p r) : |((noiseOf p).next r).2| ≤ 1 := by
  cases hp : p.noiseSrc with
  | reference =>
    simp only [noiseOf, hp, lfsr16]
    exact abs_lfsrDraw_le_one p (lfsrStep_ne_zero (ofNat16_ne_zero (h hp)))
  | other =>
    simp only [noiseOf, hp, otherNoise]
    exact abs_inUnitRange_le_one _

/-- The bounds of unit NG: those of the register, and the brown noise memory in `[-1, 1]`. -/
structure NoiseBounds (p : Straps) (u : Units Num) : Prop where
  rng : RngBound p u.rng
  prev : ∀ g, u.ng = some g → |g.prev| ≤ 1

theorem noiseBounds_iff {s : State} : NoiseBounds s.straps s.units ↔ s.RngInv ∧ s.NoiseInv :=
  ⟨fun ⟨hr, hg⟩ => ⟨hr, fun g h => abs_le.1 (hg g h)⟩, fun ⟨hr, hg⟩ => ⟨hr, fun g h => abs_le.2 (hg g h)⟩⟩

theorem noiseBounds_reset (p : Straps) : NoiseBounds p (Units.reset (configOf p)) where
  rng := rngBound_reset p
  prev := by rintro _ ⟨⟩

/-- A sample leaves a memory in `[-1, 1]`: only brown writes it, and with the mean of it and a draw. -/
theorem noiseSample_bounds {p : Straps} {g g' : Ng Num} {r r' : ℕ} {v : Num} (hr : RngBound p r) (hg : |g.prev| ≤ 1)
    (h : noiseSample (configOf p) g r = some (v, g', r')) : RngBound p r' ∧ |g'.prev| ≤ 1 := by
  unfold noiseSample at h
  split at h
  · cases h; exact ⟨rngBound_next hr, hg⟩
  · simp only [Option.bind_eq_bind, Option.bind_eq_some_iff, Option.pure_def, Option.some.injEq, Prod.mk.injEq] at h
    obtain ⟨_, -, _, -, -, rfl, rfl⟩ := h
    exact ⟨rngBound_next (rngBound_next hr), hg⟩
  · simp only [Option.bind_eq_bind, Option.bind_eq_some_iff, Option.pure_def, Option.some.injEq, Prod.mk.injEq] at h
    obtain ⟨_, hs, _, ho, -, rfl, rfl⟩ := h
    exact ⟨rngBound_next hr, abs_mean_le_one p hg (abs_draw_le_one hr) hs ho⟩

theorem UnitWrite.noiseBounds {p : Straps} {u u' : Units Num} (h : UnitWrite (configOf p) u u')
    (hu : NoiseBounds p u) : NoiseBounds p u' := by
  cases h with
  | ngType v =>
    refine { hu with prev := ?_ }
    rintro _ ⟨⟩
    simp [configOf]
  | ngSeed h => exact { hu with rng := rngBound_seed h }
  | ngDraw hg h =>
    obtain ⟨hr, hprev⟩ := noiseSample_bounds hu.rng (hu.prev _ hg) h
    exact ⟨hr, by rintro _ ⟨⟩; exact hprev⟩
  | keep | osc | env | bq | wtBuild | wtLoad | wtPhase | fm => exact { hu with }

/-- Settles O59: the bounds hold of the reset, and every write keeps them. -/
theorem stepKeepsTheNoiseBounds : Obligations.StepKeepsTheNoiseBounds := by
  intro s t hrng hnoise h
  have hs := noiseBounds_iff.2 ⟨hrng, hnoise⟩
  rw [← noiseBounds_iff, (step_units_cases h).1]
  rcases step_units_reset_or_write h with ⟨-, hu⟩ | ⟨-, hw⟩
  · rw [hu]; exact noiseBounds_reset s.straps
  · exact hw.noiseBounds hs

end Sys2Proof.Machine
end

section
/-!
PROOFS. 10_state.md R35 and 47_system.md R230: `SYS.RDREG` completes with the value of every mapped register. What
`readReg` answers comes first, one lemma per block of the register map.
-/

namespace Sys2Proof.Machine

/-! ### The register map (10_state.md R35) -/

@[simp] theorem mapped_some {β : Type} (x : β) : mapped (some x) = .ok x := rfl

section RegisterMap

variable {α : Type} {c : Config α} {u : Units α} {r : ℕ}

/-- From 0x0500 on no register is a delay word, however many channels there are. -/
theorem readReg_eq_of_delays_below (hn : c.nCh ≤ 64) (hr : 0x0500 ≤ r) :
    readReg c u r = readReg { c with nCh := 0 } u r := by
  have h : ¬ (0x0480 ≤ r ∧ r < 0x0480 + 2 * c.nCh) := by omega
  have h0 : ¬ (0x0480 ≤ r ∧ r < 0x0480 + 2 * 0) := by omega
  have h3 : r ≠ 0x0003 := by omega
  simp only [readReg, h, h0, h3, if_false]

theorem readReg_osc (hlo : 0x0201 ≤ r) (hhi : r ≤ 0x0205) :
    readReg c u r = configured u.osc >>= fun o => mapped (oscField o (r - 0x0200)) := by
  unfold readReg
  repeat rw [if_neg (by omega)]
  rw [if_pos ⟨hlo, hhi⟩]

theorem readReg_env (hlo : 0x0301 ≤ r) (hhi : r ≤ 0x030E) :
    readReg c u r = configured u.env >>= fun e => mapped (envField e (r - 0x0300)) := by
  unfold readReg
  repeat rw [if_neg (by omega)]
  rw [if_pos ⟨hlo, hhi⟩]

theorem readReg_bq (hlo : 0x0401 ≤ r) (hhi : r ≤ 0x0409) :
    readReg c u r = configured u.bq >>= fun b => mapped (bqField b (r - 0x0400)) := by
  unfold readReg
  repeat rw [if_neg (by omega)]
  rw [if_pos ⟨hlo, hhi⟩]

theorem readReg_delay (hlo : 0x0480 ≤ r) (hhi : r < 0x0480 + 2 * c.nCh) :
    readReg c u r = configured u.bq >>= fun b => .ok (delayField c.num b (r - 0x0480)) := by
  unfold readReg
  repeat rw [if_neg (by omega)]
  exact if_pos ⟨hlo, hhi⟩

theorem readReg_ng (hn : c.nCh ≤ 64) (hlo : 0x0501 ≤ r) (hhi : r ≤ 0x0502) :
    readReg c u r = configured u.ng >>= fun g => mapped (ngField g (r - 0x0500)) := by
  unfold readReg
  repeat rw [if_neg (by omega)]
  rw [if_pos ⟨hlo, hhi⟩]

theorem readReg_fmCount (hn : c.nCh ≤ 64) :
    readReg c u 0x0701 = configured u.fm >>= fun fm => .ok (.nat fm.ops.length) :=
  readReg_eq_of_delays_below hn (by norm_num)

theorem readReg_fmCar (hn : c.nCh ≤ 64) (hlo : 0x0711 ≤ r) (hhi : r ≤ 0x0715) :
    readReg c u r = configured u.fm >>= fun fm => mapped (oscField fm.car (r - 0x0710)) := by
  unfold readReg
  repeat rw [if_neg (by omega)]
  rw [if_pos ⟨hlo, hhi⟩]

theorem readReg_op (hn : c.nCh ≤ 64) (hlo : 0x0800 ≤ r) (hhi : r ≤ 0x0FFF) :
    readReg c u r = opReg u (r - 0x0800) := by
  unfold readReg
  repeat rw [if_neg (by omega)]
  rw [if_pos ⟨hlo, hhi⟩]

theorem delayAt_of_getElem? {n : NumOps α} {b : Bq α} {ch : ℕ} {d : Delay α} (h : b.delay[ch]? = some d) :
    delayAt n b ch = d := by
  simp [delayAt, List.getD, h]

theorem delayField_even (n : NumOps α) (b : Bq α) (ch : ℕ) : delayField n b (2 * ch) = .num (delayAt n b ch).z1 := by
  simp [delayField]

theorem delayField_odd (n : NumOps α) (b : Bq α) (ch : ℕ) :
    delayField n b (2 * ch + 1) = .num (delayAt n b ch).z2 := by
  have hdiv : (2 * ch + 1) / 2 = ch := by omega
  simp [delayField, hdiv]

theorem readReg_delay_z1 {ch : ℕ} (hch : ch < c.nCh) :
    readReg c u (0x0480 + 2 * ch) = configured u.bq >>= fun b => .ok (.num (delayAt c.num b ch).z1) := by
  simp only [readReg_delay (c := c) (u := u) (r := 0x0480 + 2 * ch) (by omega) (by omega), Nat.add_sub_cancel_left,
    delayField_even]

theorem readReg_delay_z2 {ch : ℕ} (hch : ch < c.nCh) :
    readReg c u (0x0481 + 2 * ch) = configured u.bq >>= fun b => .ok (.num (delayAt c.num b ch).z2) := by
  have hoff : 0x0481 + 2 * ch - 0x0480 = 2 * ch + 1 := by omega
  simp only [readReg_delay (c := c) (u := u) (r := 0x0481 + 2 * ch) (by omega) (by omega), hoff, delayField_odd]

theorem oscField_of_mem {o : Osc α} {j : ℕ} {v : α}
    (h : (j, v) ∈ [(2, o.freq), (3, o.amp), (4, o.phase), (5, o.inc)]) :
    1 ≤ j ∧ j ≤ 5 ∧ oscField o j = some (.num v) := by
  simp only [List.mem_cons, Prod.mk.injEq, List.not_mem_nil, or_false] at h
  rcases h with ⟨rfl, rfl⟩ | ⟨rfl, rfl⟩ | ⟨rfl, rfl⟩ | ⟨rfl, rfl⟩ <;> exact ⟨by norm_num, by norm_num, rfl⟩

/-- Field `j` of operator `k`. -/
theorem readReg_operator (hn : c.nCh ≤ 64) {k j : ℕ} (hk : k < 256) (h1 : 1 ≤ j) (h5 : j ≤ 5) :
    readReg c u (0x0800 + 8 * k + j) =
      configured u.fm >>= fun fm => operatorAt fm k >>= fun o => mapped (oscField o j) := by
  have hoff : 0x0800 + 8 * k + j - 0x0800 = 8 * k + j := by omega
  have hdiv : (8 * k + j) / 8 = k := by omega
  have hmod : (8 * k + j) % 8 = j := by omega
  rw [readReg_op hn (by omega) (by omega), hoff, opReg, hdiv, hmod]
  simp [h1, h5]

end RegisterMap

/-! ### `SYS.RDREG` (47_system.md R230) -/

section ReadRegister

variable {s : State}

/-- A register whose value has an encoding is read, and nothing is written. -/
theorem rdreg_completes {n : ℕ} {x : Result Num} {w : Word} (hr : readReg s.config s.units n = .ok x)
    (hx : x.encode enc32 = some w) : exec (.sysRdreg n) s = completes s s.units w := by
  rw [exec_eq_perform, perform, sysRdreg, hr, ok_bind]
  exact answer_ok hx

theorem rdreg_faults {n : ℕ} {e : FaultCode} (hr : readReg s.config s.units n = .error e) :
    exec (.sysRdreg n) s = faulted s e.status := by
  rw [exec_eq_perform, perform, sysRdreg, hr, error_bind, answer_error]

theorem rdreg_num {n : ℕ} {v : Num} {w : Word} (hr : readReg s.config s.units n = .ok (.num v))
    (hv : enc32 v = some w) : exec (.sysRdreg n) s = completes s s.units w := rdreg_completes hr hv

theorem rdreg_nat {n k : ℕ} (hr : readReg s.config s.units n = .ok (.nat k)) :
    exec (.sysRdreg n) s = completes s s.units (BitVec.ofNat 32 k) := rdreg_completes hr rfl

/-- A selector code is returned as the number it is. -/
theorem rdreg_code {n m : ℕ} {k : BitVec m} (hr : readReg s.config s.units n = .ok (.nat k.toNat)) :
    exec (.sysRdreg n) s = completes s s.units (k.setWidth 32) := by
  rw [← BitVec.ofNat_toNat]
  exact rdreg_nat hr

theorem rdreg_flag {n : ℕ} {b : Bool} (hr : readReg s.config s.units n = .ok (.nat (flagNat b))) :
    exec (.sysRdreg n) s = completes s s.units (if b then 1 else 0) := by
  rw [rdreg_nat hr]
  cases b <;> rfl

/-- A list of registers that hold numbers. -/
theorem rdreg_nums {regs : List (ℕ × Num)} (h : ∀ e ∈ regs, readReg s.config s.units e.1 = .ok (.num e.2)) :
    ∀ n v r, (n, v) ∈ regs → enc32 v = some r → exec (.sysRdreg n) s = completes s s.units r :=
  fun _ _ _ hm => rdreg_num (h _ hm)

end ReadRegister

/-- Settles O22: the channel count, which the delay words depend on, does not reach the registers above them. -/
theorem rdregReadsParametersAndFlags : Obligations.RdregReadsParametersAndFlags := by
  intro s hn
  have above {n : ℕ} (h : 0x0500 ≤ n) := readReg_eq_of_delays_below (c := s.config) (u := s.units) hn h
  refine ⟨fun r => rdreg_num rfl, rdreg_nat rfl, rdreg_nat rfl, rdreg_nat rfl, rdreg_flag rfl, rdreg_flag rfl,
    rdreg_flag rfl, rdreg_flag (above le_rfl), rdreg_flag (above (by norm_num)), fun hsrc => rdreg_nat ?_,
    fun hsrc => rdreg_faults (e := .indexRange) ?_, fun r => rdreg_num (above (by norm_num)),
    rdreg_nat (above (by norm_num))⟩
  · have hreadable : s.config.noise.readable = true := by simp [noiseOf, hsrc, lfsr16]
    exact (above (by norm_num)).trans (if_pos hreadable)
  · have hreadable : ¬ s.config.noise.readable = true := by simp [noiseOf, hsrc, otherNoise]
    exact (above (by norm_num)).trans (if_neg hreadable)

/-- Settles O23: each block of the map by its `readReg_…` lemma, each register of a block by its field. -/
theorem rdregReadsUnitFields : Obligations.RdregReadsUnitFields := by
  intro s hn
  have hc : s.config.nCh ≤ 64 := hn
  refine ⟨fun o ho => ⟨rdreg_code ?_, rdreg_nums ?_⟩, fun e he => ⟨rdreg_nat ?_, rdreg_nums ?_⟩,
    fun b hb => ⟨rdreg_code ?_, rdreg_nums ?_⟩, fun g hg => ⟨rdreg_code ?_, fun r => rdreg_num ?_⟩,
    fun fm hfm => ⟨rdreg_nat ?_, rdreg_code ?_, rdreg_nums ?_⟩,
    fun b ch d r hb hch hd => ⟨rdreg_num ?_, rdreg_num ?_⟩,
    fun fm k o hfm hk ho => ⟨rdreg_code ?_, fun j v r hj => rdreg_num ?_⟩⟩
  · simp [readReg_osc, ho, oscField]
  · simp [readReg_osc, ho, oscField]
  · simp [readReg_env, he, envField]
  · simp [readReg_env, he, envField]
  · simp [readReg_bq, hb, bqField]
  · simp [readReg_bq, hb, bqField]
  · simp [readReg_ng hc, hg, ngField]
  · simp [readReg_ng hc, hg, ngField]
  · simp [readReg_fmCount hc, hfm]
  · simp [readReg_fmCar hc, hfm, oscField]
  · simp [readReg_fmCar hc, hfm, oscField]
  · rw [readReg_delay_z1 hch, hb, configured_some, ok_bind, delayAt_of_getElem? hd]
  · rw [readReg_delay_z2 hch, hb, configured_some, ok_bind, delayAt_of_getElem? hd]
  · simp [readReg_operator hc hk, hfm, operatorAt_eq_ok.2 ho, oscField]
  · obtain ⟨hj1, hj5, hfield⟩ := oscField_of_mem hj
    rw [readReg_operator hc hk hj1 hj5, hfm, configured_some, ok_bind, operatorAt_eq_ok.2 ho, ok_bind, hfield]
    rfl

end Sys2Proof.Machine
end

section
/-!
PROOFS. 10_state.md R36 and 00_scope.md R5, R6: the state after reset has every invariant, and the block's straps are
legal. The sample rate is a binary32 number because a finite binary32 number is its own rounding.
-/

namespace Sys2Proof.Machine

/-! ### A binary32 number rounds to itself -/

/-- A number of `m` units of a last place is rounded to `m` units of it. -/
theorem roundToUlp_of_eq {v : Num} {m : ℕ} {u : ℤ} (h : |v| = m * 2 ^ u) :
    roundToUlp v.num.natAbs v.den u = m := by
  have hquot : |(v : ℝ)| / 2 ^ u = m := by
    rw [div_eq_iff (by positivity), ← Rat.cast_abs, h]
    push_cast; rfl
  rw [← roundToUlp_real, hquot]
  simp [roundHalfEvenReal]

/-- The exponent of the last place a number is rounded to. -/
def lastPlace (v : Num) : ℤ := ulpExponent (floorLog2 v.num.natAbs v.den)

theorem lastPlace_ge (v : Num) : -149 ≤ lastPlace v := le_max_right _ _

/-- A number other than 0 lies between `2^23` and `2^24` units of its last place, or in the subnormal binade below. -/
theorem lastPlace_range {v : Num} (h0 : v ≠ 0) :
    (lastPlace v = -149 ∨ 2 ^ 23 * 2 ^ lastPlace v ≤ |v|) ∧ |v| < 2 ^ 24 * 2 ^ lastPlace v := by
  obtain ⟨hlo, hhi⟩ := floorLog2_spec (n := v.num.natAbs) (d := v.den) (by simpa using h0) v.den_nz
  rw [natAbs_div_den] at hlo hhi
  unfold lastPlace ulpExponent
  generalize floorLog2 v.num.natAbs v.den = e at hlo hhi
  rw [← zpow_natCast, ← zpow_natCast, ← zpow_add₀ (by norm_num), ← zpow_add₀ (by norm_num)]
  push_cast
  refine ⟨or_iff_not_imp_left.2 fun hne => ?_, hhi.trans_le (zpow_le_zpow_right₀ (by norm_num) (by omega))⟩
  rwa [show 23 + max (e - 23) (-149) = e by omega]

/-- A finite binary32 number is a whole number of units of its last place. -/
theorem exists_units_of_dec32 {w : Word} {v : Num} (h : dec32 w = some v) (h0 : v ≠ 0) :
    lastPlace v ≤ 104 ∧ ∃ m : ℕ, |v| = m * 2 ^ lastPlace v := by
  obtain ⟨k, t, hk, ht, ht', hv⟩ := dec32_eq_units h
  have habs : |v| = (|k| : ℤ) * 2 ^ t := by
    rw [hv, abs_mul, abs_of_pos (by positivity : (0 : ℚ) < 2 ^ t)]; push_cast; rfl
  have hlt : lastPlace v ≤ t := by
    refine (lastPlace_range h0).1.elim (fun h => by omega) fun hlo => ?_
    have hpow : (2 : ℚ) ^ (23 + lastPlace v) < 2 ^ (24 + t) := by
      calc (2 : ℚ) ^ (23 + lastPlace v) = 2 ^ 23 * 2 ^ lastPlace v := zpow_add₀ two_ne_zero _ _
        _ ≤ (|k| : ℤ) * 2 ^ t := hlo.trans_eq habs
        _ < 2 ^ 24 * 2 ^ t := by gcongr; exact_mod_cast hk
        _ = 2 ^ (24 + t) := by rw [zpow_add₀ two_ne_zero]; rfl
    have := (zpow_lt_zpow_iff_right₀ (by norm_num : (1 : ℚ) < 2)).1 hpow
    omega
  obtain ⟨j, hj⟩ : ∃ j : ℕ, t = j + lastPlace v := ⟨(t - lastPlace v).toNat, by omega⟩
  refine ⟨by omega, k.natAbs * 2 ^ j, ?_⟩
  rw [habs, hj, zpow_add₀ two_ne_zero, zpow_natCast]
  push_cast [Nat.cast_natAbs]; ring

/-- The fields found for a finite binary32 number other than 0 are those of its magnitude. -/
theorem roundedFields_of_dec32 {w : Word} {v : Num} (h : dec32 w = some v) (h0 : v ≠ 0) :
    roundedFields v.num.natAbs v.den < 255 * 2 ^ 23 ∧ fieldsValue (roundedFields v.num.natAbs v.den) = |v| := by
  obtain ⟨hu, m, hm⟩ := exists_units_of_dec32 h h0
  obtain ⟨hlo, hhi⟩ := lastPlace_range h0
  have hge := lastPlace_ge v
  have hfields : roundedFields v.num.natAbs v.den = packFields m (lastPlace v) :=
    congrArg (packFields · _) (roundToUlp_of_eq hm)
  have hpos : (0 : ℚ) < 2 ^ lastPlace v := by positivity
  rw [hm] at hlo hhi
  have hmlt : m < 2 ^ 24 := by exact_mod_cast lt_of_mul_lt_mul_right hhi hpos.le
  have hmge : lastPlace v = -149 ∨ 2 ^ 23 ≤ m :=
    hlo.imp_right fun hle => by exact_mod_cast le_of_mul_le_mul_right hle hpos
  rw [hfields, fieldsValue_packFields hge hmge hmlt.le, hm]
  exact ⟨by unfold packFields; omega, rfl⟩

/-- A finite binary32 number is its own rounding (00_scope.md R12). -/
theorem round32_of_isFinite32 {v : Num} (h : IsFinite32 v) : round32 v = some v := by
  obtain ⟨w, hw⟩ := h
  rcases lt_trichotomy v 0 with hneg | rfl | hpos
  · obtain ⟨hk, hval⟩ := roundedFields_of_dec32 hw hneg.ne
    rw [round32_of_neg hneg hk, hval, abs_of_neg hneg, neg_neg]
  · decide +kernel
  · obtain ⟨hk, hval⟩ := roundedFields_of_dec32 hw hpos.ne'
    rw [round32_of_pos hpos hk, hval, abs_of_pos hpos]

theorem isBinary32_iff {v : Num} : isBinary32 v = true ↔ IsFinite32 v := by
  simp only [isBinary32, decide_eq_true_eq]
  exact ⟨round32_isFinite32, round32_of_isFinite32⟩

/-! ### The state after reset -/

theorem blockStraps_sr : 0 < blockStraps.sr ∧ IsFinite32 blockStraps.sr := by
  unfold blockStraps
  dsimp only
  split
  next h => exact ⟨h, isFinite32_finite32 _⟩
  next => exact ⟨one_pos, 0x3F800000, dec32_one⟩

/-- The open straps lie in their ranges by their types, and the sample rate by the choice of `blockStraps`. -/
theorem blockStraps_legal : strapsLegal blockStraps = true := by
  obtain ⟨hpos, hfin⟩ := blockStraps_sr
  have hwt : blockStraps.wtLen = Config.wtLenLessOne.val + 1 := rfl
  have hch : blockStraps.nCh = Config.nChLessOne.val + 1 := rfl
  have hfm : blockStraps.fmMaxOps = Config.fmMaxOpsStrap.val := rfl
  have := Config.wtLenLessOne.isLt
  have := Config.nChLessOne.isLt
  have := Config.fmMaxOpsStrap.isLt
  simp only [strapsLegal, Bool.and_eq_true, decide_eq_true_eq]
  exact ⟨⟨⟨⟨⟨⟨hpos, isBinary32_iff.2 hfin⟩, by omega⟩, by omega⟩, by omega⟩, by omega⟩, by omega⟩

theorem rngInv_reset (p : Straps) : rngInv (configOf p) (configOf p).noise.resetState = true := by
  cases hp : p.noiseSrc <;> simp [rngInv, configOf, noiseOf, hp, lfsr16, otherNoise]

theorem wtInv_reset (p : Straps) : wtInv (configOf p) ⟨[], (configOf p).num.ofRat 0⟩ = true := by
  have hphase : phaseInRange 0 = true := by decide +kernel
  simp [wtInv, Memory.wf, configOf, hphase]

/-- After reset no unit is constructed, and the invariants left are those of the random source and the table. -/
theorem unitsInv_reset (p : Straps) : unitsInv (configOf p) (Units.reset (configOf p)) = true := by
  simp [unitsInv, Units.reset, ifConfigured, rngInv_reset, wtInv_reset]

/-- Settles O60: nothing is constructed after reset, and every open strap lies in its range. -/
theorem resetMeetsTheInvariants : Obligations.ResetMeetsTheInvariants := by
  have hfinite : State.reset.Binary32Inv := binary32Inv_iff.2 (.reset (ofRat_isFinite32 blockStraps 0))
  have hnoise : NoiseBounds blockStraps State.reset.units := noiseBounds_reset blockStraps
  obtain ⟨hrng, hprev⟩ := (noiseBounds_iff (s := State.reset)).1 hnoise
  exact ⟨unitsInv_reset blockStraps, .inl rfl, hfinite, hrng, hprev, blockStraps_legal, reset_tab_wf⟩

end Sys2Proof.Machine
end

section
/-!
PROOFS. 20_memory.md R56 and 30_encoding.md R78: words come back from the bytes of a serialising transport, and commands from
the words of their packets.
-/

namespace Sys2Proof

/-! ### The byte transport (20_memory.md R56) -/

theorem map_toNat_bytesOfWord (w : Word) : (bytesOfWord w).map BitVec.toNat =
    [w.toNat % 256, w.toNat / 256 % 256, w.toNat / 65536 % 256, w.toNat / 16777216] := by
  have hw : w.toNat < 4294967296 := w.isLt
  have htop : w.toNat / 16777216 % 256 = w.toNat / 16777216 := Nat.mod_eq_of_lt (by omega)
  simp [bytesOfWord, BitVec.extractLsb'_toNat, Nat.shiftRight_eq_div_pow, htop]

/-- The four bytes of a word, put back in their places. -/
theorem append_extractLsb'_bytes (w : Word) :
    (w.extractLsb' 24 8 ++ w.extractLsb' 16 8 ++ w.extractLsb' 8 8 ++ w.extractLsb' 0 8).cast (by decide) = w := by
  have h16 : w.extractLsb' 24 8 ++ w.extractLsb' 16 8 = w.extractLsb' 16 16 :=
    BitVec.extractLsb'_append_extractLsb'_eq_extractLsb' rfl
  have h8 : w.extractLsb' 16 16 ++ w.extractLsb' 8 8 = w.extractLsb' 8 24 :=
    BitVec.extractLsb'_append_extractLsb'_eq_extractLsb' rfl
  have h0 : w.extractLsb' 8 24 ++ w.extractLsb' 0 8 = w.extractLsb' 0 32 :=
    BitVec.extractLsb'_append_extractLsb'_eq_extractLsb' rfl
  rw [h16, h8, h0]
  exact BitVec.extractLsb'_eq_self

theorem wordsOfBytes_bytesOfWord_append (w : Word) (bs : List Byte) :
    wordsOfBytes (bytesOfWord w ++ bs) = (wordsOfBytes bs).map (w :: ·) := by
  simp only [bytesOfWord, List.cons_append, List.nil_append, wordsOfBytes, append_extractLsb'_bytes]

theorem wordsOfBytes_flatMap_bytesOfWord (ws : List Word) : wordsOfBytes (ws.flatMap bytesOfWord) = some ws := by
  induction ws with
  | nil => rfl
  | cons w ws ih => rw [List.flatMap_cons, wordsOfBytes_bytesOfWord_append, ih, Option.map_some]

/-- Settles O5: each byte is eight bits of the word in their place, and a list of words by induction on it. -/
theorem transportBytesAreLittleEndian : Obligations.TransportBytesAreLittleEndian :=
  ⟨map_toNat_bytesOfWord, wordsOfBytes_flatMap_bytesOfWord⟩

/-! ### A command's packet decodes to it (30_encoding.md R78) -/

section HeaderFields

variable {u f : BitVec 4} {n : BitVec 3} {s : BitVec 5} {x : BitVec 16}

theorem noIdx_header (k : Decoded) : noIdx (header u f n s 0) k = k := if_pos (idxOf_header u f n s 0)
theorem noSel_header (k : Decoded) : noSel (header u f n 0 x) k = k := if_pos (selOf_header u f n 0 x)
theorem withWave_header (w : Wave) (k : Wave → Decoded) : withWave (header u f n (waveCode w) x) k = k w := by
  simp [withWave]
theorem withFType_header (t : FType) (k : FType → Decoded) : withFType (header u f n (ftypeCode t) x) k = k t := by
  simp [withFType]
theorem withVariant_header (v : Variant) (k : Variant → Decoded) :
    withVariant (header u f n (variantCode v) x) k = k v := by
  simp [withVariant]
theorem withGate_header (b : Bool) (k : Bool → Decoded) : withGate (header u f n (gateCode b) x) k = k b := by
  simp [withGate]

/-- An index that fits its field is read back from it. -/
theorem idxOf_header_ofNat {i : ℕ} (hi : idxFits i = true) : (idxOf (header u f n s (.ofNat 16 i))).toNat = i := by
  rw [idxOf_header, BitVec.toNat_ofNat]
  exact Nat.mod_eq_of_lt (of_decide_eq_true hi)

end HeaderFields

/-- A command's packet is a header word and the operand words it announces. -/
theorem encode_shape (i : Instr) : Laws.EncodeShape.Statement i := by
  cases i <;> exact Laws.EncodeShape.shape _ _ _ _ _ _ rfl rfl rfl

/-- The decoder, given a command's own header and operand words, finds the arm of its unit and function, and each field of
the header passes that arm's check. The commands are grouped by the fields their packets use. -/
theorem decode_of_encode_eq {i : Instr} {h : Word} {ops : List Word} (hw : i.wellFormed = true)
    (he : encode i = h :: ops) : decode h ops = .ok i := by
  cases i
  all_goals
    obtain ⟨rfl, rfl⟩ := List.cons.inj he
    rw [decode, unitOf_header, funcOf_header]
  case krnEval | oscInit | oscSettype | wtBuild | fmInit | fmCsettype | fmAddop =>
    exact (noIdx_header _).trans (withWave_header _ _)
  case bqInit | bqSettype => exact (noIdx_header _).trans (withFType_header _ _)
  case ngSettype => exact (noIdx_header _).trans (withVariant_header _ _)
  case envGate => exact (noIdx_header _).trans (withGate_header _ _)
  case ngSeed k => exact (noSel_header _).trans (by rw [idxOf_header])
  case fmOpsettype => exact (withWave_header _ _).trans (by rw [idxOf_header_ofNat hw])
  case sysRdreg | bqProcess | wtLoad | wtRdtab | fmRemop | fmOpsetfreq | fmOpsetamp | fmOpreset =>
    exact (noSel_header _).trans (by rw [idxOf_header_ofNat hw])
  all_goals exact (noIdx_header _).trans (noSel_header _)

end Sys2Proof
end

section
/-!
PROOFS. 20_memory.md R58, R60 and 30_encoding.md R70: the step that runs the command whose packet is presented, the answer to
a whole stream, and the queries that change nothing.
-/

namespace Sys2Proof.Machine

/-! ### The step that runs a command (20_memory.md R60, 30_encoding.md R80) -/

/-- With a whole packet at the head of the words accepted and presented, a step takes it and runs it. -/
theorem step_of_packet {s : State} {h : Word} {ops rest : List Word} (hr : s.resetLine = false)
    (hc : fetchPacket (s.pkt ++ s.cmd) = .packet h ops rest) :
    step s = runPacket h ops { s with pkt := [], cmd := rest } := by
  simp only [step, hr, hc]

/-- Settles O6: the framing takes exactly the command's packet, and the decoder reads the command back from it. -/
theorem stepRunsTheDecodedCommand : Obligations.StepRunsTheDecodedCommand := by
  intro s i rest hr hw hc
  obtain ⟨h, ops, he, hn, -⟩ := encode_shape i
  have hf : fetchPacket (s.pkt ++ s.cmd) = .packet h ops rest := by
    rw [hc, he]; exact fetchPacket_append h ops rest hn
  rw [step_of_packet hr hf, runPacket, decode_of_encode_eq hw he]

/-! ### A whole stream (20_memory.md R60) -/

/-- `t` is `s` after one response of two words, with the words of the command port and the straps as they were. -/
structure AnsweredOnce (s t : State) : Prop where
  pkt : t.pkt = s.pkt
  cmd : t.cmd = s.cmd
  resetLine : t.resetLine = s.resetLine
  straps : t.straps = s.straps
  responses : ∃ a b, t.responses = s.responses ++ [a, b]

theorem raise_answeredOnce (s : State) (e : FaultCode) : AnsweredOnce s (s.raise e) :=
  ⟨rfl, rfl, rfl, rfl, _, _, rfl⟩

theorem commit_answeredOnce (s : State) (a : Except FaultCode (Answer Num)) : AnsweredOnce s (s.commit a) := by
  rcases commit_cases s a with ⟨u, r, w, -, -, hc⟩ | ⟨e, hc⟩
  · rw [hc]; exact ⟨rfl, rfl, rfl, rfl, _, _, rfl⟩
  · rw [hc]; exact raise_answeredOnce s e

/-- Every packet, legal or not, is answered once. -/
theorem runPacket_answeredOnce (h : Word) (ops : List Word) (s : State) :
    ∃ t, runPacket h ops s = .next t ∧ AnsweredOnce s t := by
  rcases runPacket_cases h ops s with ⟨i, -, hp⟩ | ⟨e, -, hp⟩
  · exact ⟨_, hp.trans (exec_eq_perform i s), commit_answeredOnce s _⟩
  · exact ⟨_, hp, raise_answeredOnce s _⟩

/-- A run whose first step answers goes on from there. -/
theorem run_succ_of_step {s t : State} (h : step s = .next t) (k : ℕ) :
    Host.Core.run Sys2Proof.core (k + 1) s = Host.Core.run Sys2Proof.core k t := by
  have hstep : Sys2Proof.core.step s = .next t := h
  simp only [Host.Core.run, hstep]

/-- What a stream that decodes with nothing left over can be: empty, or a packet and such a stream behind it. -/
theorem decodeStream_whole_cases {fuel : ℕ} {ws : List Word} {ds : List Decoded} (h : decodeStream fuel ws = (ds, [])) :
    (ws = [] ∧ ds = []) ∨
    ∃ k hd ops rest ds', fetchPacket ws = .packet hd ops rest ∧ decodeStream k rest = (ds', []) ∧
      ds = decode hd ops :: ds' := by
  cases fuel with
  | zero =>
    obtain ⟨rfl, rfl⟩ : [] = ds ∧ ws = [] := by simpa [decodeStream] using h
    exact .inl ⟨rfl, rfl⟩
  | succ k =>
    rw [decodeStream] at h
    rcases fetchPacket_cases ws with ⟨hws, hf⟩ | ⟨hd, t, hws, -, hf⟩ | ⟨hd, ops, rest, -, -, hf⟩
    · obtain rfl : [] = ds := by simpa [hf] using h
      exact .inl ⟨hws, rfl⟩
    · obtain ⟨-, rfl⟩ : [] = ds ∧ ws = [] := by simpa [hf] using h
      cases hws
    · obtain ⟨hds, hleft⟩ : decode hd ops :: (decodeStream k rest).1 = ds ∧ (decodeStream k rest).2 = [] := by
        simpa [hf] using h
      exact .inr ⟨k, hd, ops, rest, _, hf, Prod.ext rfl hleft, hds.symm⟩

/-- A run with a step for each packet of a stream with nothing left over, whatever fuel the stream was read with. -/
theorem run_answers_stream {fuel : ℕ} {s : State} {ds : List Decoded} (hr : s.resetLine = false)
    (h : decodeStream fuel (s.pkt ++ s.cmd) = (ds, [])) :
    ∃ t, Host.Core.run Sys2Proof.core ds.length s = .next t ∧ t.pkt = [] ∧ t.cmd = [] ∧
      t.responses.length = s.responses.length + 2 * ds.length ∧ t.straps = s.straps := by
  induction ds generalizing fuel s with
  | nil =>
    rcases decodeStream_whole_cases h with ⟨hws, -⟩ | ⟨_, _, _, _, _, -, -, hds⟩
    · obtain ⟨hp, hc⟩ := List.append_eq_nil_iff.1 hws
      exact ⟨s, rfl, hp, hc, rfl, rfl⟩
    · cases hds
  | cons d ds ih =>
    rcases decodeStream_whole_cases h with ⟨-, hds⟩ | ⟨k, hd, ops, rest, ds', hf, hrest, hds⟩
    · cases hds
    · obtain ⟨-, rfl⟩ := List.cons.inj hds
      obtain ⟨t, ht, ha⟩ := runPacket_answeredOnce hd ops { s with pkt := [], cmd := rest }
      obtain ⟨a, b, hresp⟩ := ha.responses
      obtain ⟨t', hrun, hpkt, hcmd, hlen, hstraps⟩ := ih (s := t) (ha.resetLine.trans hr)
        (by rw [ha.pkt, ha.cmd]; exact hrest)
      refine ⟨t', ?_, hpkt, hcmd, ?_, hstraps.trans ha.straps⟩
      · rw [List.length_cons, run_succ_of_step ((step_of_packet hr hf).trans ht), hrun]
      · have hone : t.responses.length = s.responses.length + 2 := by rw [hresp, List.length_append]; rfl
        rw [hlen, hone, List.length_cons]
        omega

/-- Settles O11, by induction on the packets. -/
theorem wholeStreamIsAnswered : Obligations.WholeStreamIsAnswered :=
  fun _ _ hr h => run_answers_stream hr h

/-! ### The queries (20_memory.md R58) -/

/-- A command that leaves the units as they are answers with the same two words in every state with these units. -/
theorem commit_eq_respond {u : Units Num} {a : Except FaultCode (Answer Num)} (ha : Ensures (fun b => b.1 = u) a) :
    ∃ x y, ∀ s : State, s.units = u → s.commit a = s.respond x y := by
  rcases finish_cases enc32 a with ⟨e, -, hf⟩ | ⟨u', r, w, hok, -, hf⟩ | ⟨u', v, -, -, hf⟩
  · exact ⟨e.status, 0, fun s _ => by rw [State.commit, hf]; rfl⟩
  · refine ⟨0, w, fun s hs => ?_⟩
    obtain rfl : u' = s.units := (ha _ hok).trans hs.symm
    rw [State.commit, hf]
  · exact ⟨FaultCode.numericFault.status, 0, fun s _ => by rw [State.commit, hf]; rfl⟩

/-- Settles O55: a query's answer is a function of the straps and the units, and it writes neither. -/
theorem pureQueriesAreIdempotent : Obligations.PureQueriesAreIdempotent := by
  intro i s t t' hi ht ht'
  have hquery : Ensures (fun b => b.1 = s.units) (perform s.config operand i s.units) := by
    rcases hi with ⟨n, rfl⟩ | ⟨w, p, rfl⟩ | ⟨p, rfl⟩ | ⟨p, rfl⟩ | ⟨n, rfl⟩
    all_goals
      repeat refine .after fun _ _ => ?_
      exact .pure rfl
  obtain ⟨x, y, hresp⟩ := commit_eq_respond hquery
  have hexec {r : State} (hs : r.straps = s.straps) (hu : r.units = s.units) : exec i r = .next (r.respond x y) := by
    have hc : r.config = s.config := congrArg configOf hs
    rw [exec_eq_perform, answer, hc, hu, hresp r hu]
  obtain rfl : s.respond x y = t := by simpa [hexec rfl rfl] using ht
  obtain rfl : (s.respond x y).respond x y = t' := by simpa [hexec (respond_straps s x y) (respond_units s x y)] using ht'
  exact ⟨rfl, rfl, x, y, rfl, rfl⟩

end Sys2Proof.Machine
end

section
/-!
PROOFS. 10_state.md R23 to R34 and 30_encoding.md R70: every step keeps the invariants of the units and of the port, and the
straps. The invariant of each record comes first as a structure, with what keeps it; then every command, and a step.
-/

namespace Sys2Proof.Machine

variable {p : Straps}

/-! ### Oscillator records (10_state.md R23) -/

/-- `oscInv` as a structure. -/
structure OscLawful (p : Straps) (o : Osc Num) : Prop where
  phase : phaseInRange o.phase = true
  inc : phaseInc (configOf p) o.freq = some o.inc

theorem oscInv_iff {o : Osc Num} : oscInv (configOf p) o = true ↔ OscLawful p o := by
  simp only [oscInv, Bool.and_eq_true, decide_eq_true_eq]
  exact ⟨fun ⟨hphase, hinc⟩ => ⟨hphase, hinc⟩, fun ⟨hphase, hinc⟩ => ⟨hphase, hinc⟩⟩

theorem phaseInRange_ofRat_zero (p : Straps) : phaseInRange ((configOf p).num.ofRat 0) = true := by
  show phaseInRange ((binary32 p).ofRat 0) = true
  rw [binary32_ofRat_zero]
  decide +kernel

theorem phaseInRange_wrap (p : Straps) (x : Num) : phaseInRange ((configOf p).num.wrap x) = true := wrap32_inTurn x

theorem oscNew_lawful {w : Wave} {f a : Num} {o : Osc Num} (h : oscNew (configOf p) w f a = some o) :
    OscLawful p o := by
  obtain ⟨inc, hinc, rfl⟩ := oscNew_eq_some.1 h
  exact ⟨phaseInRange_ofRat_zero p, hinc⟩

namespace OscLawful

variable {o o' : Osc Num}

theorem setFreq (ho : OscLawful p o) {f : Num} (h : oscSetFreq (configOf p) o f = some o') : OscLawful p o' := by
  obtain ⟨inc, hinc, rfl⟩ := oscSetFreq_eq_some.1 h
  exact ⟨ho.phase, hinc⟩

theorem resetPhase (ho : OscLawful p o) : OscLawful p { o with phase := (configOf p).num.ofRat 0 } :=
  ⟨phaseInRange_ofRat_zero p, ho.inc⟩

theorem advance (ho : OscLawful p o) (h : oscAdvance (configOf p) o = some o') : OscLawful p o' := by
  obtain ⟨q, -, rfl⟩ := oscAdvance_eq_some.1 h
  exact ⟨phaseInRange_wrap p q, ho.inc⟩

theorem get (ho : OscLawful p o) {r : Num × Osc Num} (h : oscGet (configOf p) o = some r) : OscLawful p r.2 := by
  obtain ⟨_, -, hadv, -⟩ := oscGet_eq_some.1 h
  exact ho.advance hadv

theorem getMod (ho : OscLawful p o) {m : Num} {r : Num × Osc Num} (h : oscGetMod (configOf p) o m = some r) :
    OscLawful p r.2 := by
  obtain ⟨_, _, -, -, hadv, -⟩ := oscGetMod_eq_some.1 h
  exact ho.advance hadv

end OscLawful

/-! ### The envelope (10_state.md R24 to R26) -/

/-- The invariants of the envelope that do not speak of its derived fields. -/
structure EnvBounds (p : Straps) (e : Env Num) : Prop where
  sustain_nonneg : 0 ≤ e.sustain
  sustain_le_one : e.sustain ≤ 1
  ratioA : ratioMin (configOf p).num ≤ e.ratioA
  ratioDR : ratioMin (configOf p).num ≤ e.ratioDR
  idle : e.envState = .idle → e.envOut = 0

/-- `envInv` as a structure. -/
structure EnvLawful (p : Straps) (e : Env Num) : Prop extends EnvBounds p e where
  derived : envDerive (configOf p) e = some e

theorem envInv_iff {e : Env Num} : envInv (configOf p) e = true ↔ EnvLawful p e := by
  simp only [envInv, Bool.and_eq_true, Bool.or_eq_true, decide_eq_true_eq, ne_eq, ← imp_iff_not_or]
  constructor
  · rintro ⟨⟨⟨⟨⟨h0, h1⟩, ha⟩, hdr⟩, hd⟩, hidle⟩
    exact ⟨⟨h0, h1, ha, hdr, hidle⟩, hd⟩
  · rintro ⟨⟨h0, h1, ha, hdr, hidle⟩, hd⟩
    exact ⟨⟨⟨⟨⟨h0, h1⟩, ha⟩, hdr⟩, hd⟩, hidle⟩

/-- The derived fields depend on the parameters only: what `envDerive` writes keeps the bounds and is derived already. -/
theorem EnvBounds.lawful_of_derive {e e' : Env Num} (he : EnvBounds p e) (h : envDerive (configOf p) e = some e') :
    EnvLawful p e' := by
  obtain ⟨ac, dc, rc, b, hac, hdc, hrc, hb, rfl⟩ := envDerive_eq_some.1 h
  exact ⟨{ he with }, envDerive_eq_some.2 ⟨ac, dc, rc, b, hac, hdc, hrc, hb, rfl⟩⟩

/-- A rate is computed from the operand and the sample rate before the fields are derived (42_envelope.md R135, R136,
R138). -/
theorem EnvBounds.lawful_of_derive_rate {f : Num → Env Num} (hf : ∀ rate, EnvBounds p (f rate)) {a : Option Num}
    {e' : Env Num} (h : (a >>= fun rate => envDerive (configOf p) (f rate)) = some e') : EnvLawful p e' := by
  obtain ⟨rate, -, h⟩ := Option.bind_eq_some_iff.1 h
  exact (hf rate).lawful_of_derive h

/-- The state and the output are read by no derived field. -/
theorem EnvLawful.setDynamic {e : Env Num} (he : EnvLawful p e) {st : EnvState} {x : Num} (hidle : st = .idle → x = 0) :
    EnvLawful p { e with envState := st, envOut := x } := by
  obtain ⟨ac, dc, rc, b, hac, hdc, hrc, hb, heq⟩ := envDerive_eq_some.1 he.derived
  refine ⟨{ he with idle := hidle }, envDerive_eq_some.2 ⟨ac, dc, rc, b, hac, hdc, hrc, hb, ?_⟩⟩
  exact congrArg (fun d : Env Num => { d with envState := st, envOut := x }) heq

/-- The gate never enters `Idle` (42_envelope.md R142). -/
theorem eq_idle_of_gateState {on : Bool} {st : EnvState} (h : gateState on st = .idle) : st = .idle := by
  cases on with
  | true => cases h
  | false =>
    cases st with
    | idle => rfl
    | attack | decay | sustain | release => cases h

theorem EnvLawful.gate {e : Env Num} (he : EnvLawful p e) (on : Bool) :
    EnvLawful p { e with envState := gateState on e.envState } :=
  he.setDynamic fun hidle => he.idle (eq_idle_of_gateState hidle)

/-- Only Release enters `Idle`, with the output 0 (42_envelope.md R141). -/
theorem EnvLawful.step {e e' : Env Num} (he : EnvLawful p e) (h : envStep (configOf p).num e = some e') :
    EnvLawful p e' := by
  cases hst : e.envState <;> simp only [envStep, hst] at h
  case idle | sustain => cases h; exact he
  all_goals
    obtain ⟨o, -, hr⟩ := Option.bind_eq_some_iff.1 h
    cases hr
    split
  case release.refl.isTrue => exact he.setDynamic fun _ => binary32_ofRat_zero p
  all_goals exact he.setDynamic nofun

theorem sustainValid_iff {x : Num} : sustainValid (configOf p).num x = true ↔ 0 ≤ x ∧ x ≤ 1 := by
  show sustainValid (binary32 p) x = true ↔ _
  simp [sustainValid]

/-- The two default ratios are above the least one (42_envelope.md R131). -/
theorem ratioMin_le_defaults (p : Straps) : ratioMin (configOf p).num ≤ (configOf p).num.ofRat (3 / 10) ∧
    ratioMin (configOf p).num ≤ (configOf p).num.ofRat (1 / 10000) := by
  show ratioMin (binary32 p) ≤ (binary32 p).ofRat (3 / 10) ∧ ratioMin (binary32 p) ≤ (binary32 p).ofRat (1 / 10000)
  rw [binary32_ratioMin, binary32_ratioA, binary32_ratioDR]
  decide +kernel

theorem ratioMin_le_maxNum (p : Straps) (x : Num) :
    ratioMin (configOf p).num ≤ maxNum (configOf p).num x (ratioMin (configOf p).num) := by
  show ratioMin (binary32 p) ≤ maxNum (binary32 p) x (ratioMin (binary32 p))
  rw [binary32_maxNum]
  exact le_max_right _ _

/-! ### The filter (10_state.md R27 to R29) -/

/-- `bqInv` as a structure. -/
structure BqLawful (p : Straps) (b : Bq Num) : Prop where
  valid : bqValid (configOf p) b.freq b.q = some true
  designed : (configOf p).bqDesign b.type b.freq b.q b.gain = some b.coefs
  delay : b.delay.length = (configOf p).nCh

theorem bqInv_iff {b : Bq Num} : bqInv (configOf p) b = true ↔ BqLawful p b := by
  simp only [bqInv, Bool.and_eq_true, decide_eq_true_eq]
  exact ⟨fun ⟨⟨hv, hd⟩, hl⟩ => ⟨hv, hd, hl⟩, fun ⟨hv, hd, hl⟩ => ⟨⟨hv, hd⟩, hl⟩⟩

theorem requireValid_eq_ok {f q : Num} {y : Unit} :
    requireValid (configOf p) f q = .ok y ↔ bqValid (configOf p) f q = some true := by
  simp [requireValid, bind_eq_ok]

/-- The coefficients are computed again from whatever parameters were validated. -/
theorem bqRedesign_lawful {b b' : Bq Num} (hv : bqValid (configOf p) b.freq b.q = some true)
    (hl : b.delay.length = (configOf p).nCh) (h : bqRedesign (configOf p) b = some b') : BqLawful p b' := by
  obtain ⟨k, hk, rfl⟩ := bqRedesign_eq_some.1 h
  exact ⟨hv, hk, hl⟩

/-! ### The wavetable (10_state.md R31) -/

/-- `wtInv` as a structure. -/
structure WtLawful (p : Straps) (w : Wt Num) : Prop where
  canonical : Memory.wf w.tab = true
  index : ∀ e ∈ w.tab, e.1 < (configOf p).wtLen
  phase : phaseInRange w.phase = true

theorem wtInv_iff {w : Wt Num} : wtInv (configOf p) w = true ↔ WtLawful p w := by
  simp only [wtInv, Bool.and_eq_true, List.all_eq_true, decide_eq_true_eq]
  exact ⟨fun ⟨⟨hc, hi⟩, hp⟩ => ⟨hc, hi, hp⟩, fun ⟨hc, hi, hp⟩ => ⟨⟨hc, hi⟩, hp⟩⟩

theorem wtBuild_lawful {f : Nat → Option Num} {t : List (Nat × Num)} (h : tabFill f (configOf p).wtLen 0 = some t) :
    WtLawful p ⟨t, (configOf p).num.ofRat 0⟩ where
  canonical := tabFill_wf h
  index e he := by simpa using (tabFill_index h e he).2
  phase := phaseInRange_ofRat_zero p

theorem WtLawful.load {w : Wt Num} (hw : WtLawful p w) {i : Nat} (hi : i < (configOf p).wtLen) (v : Num) :
    WtLawful p { w with tab := tabWrite w.tab i v } where
  canonical := tabWrite_wf i v hw.canonical
  index e he := by
    rcases mem_tabWrite he with rfl | he
    · exact hi
    · exact hw.index e he
  phase := hw.phase

theorem wtAdvance_inRange {x f y : Num} (h : wtAdvance (configOf p) x f = some y) : phaseInRange y = true := by
  simp only [wtAdvance, Option.bind_eq_bind, Option.bind_eq_some_iff, Option.pure_def, Option.some.injEq] at h
  obtain ⟨_, -, z, -, rfl⟩ := h
  exact phaseInRange_wrap p z

/-! ### The synthesizer (10_state.md R32) -/

/-- `fmInv` as a structure. -/
structure FmLawful (p : Straps) (f : Fm Num) : Prop where
  car : OscLawful p f.car
  ops : ∀ o ∈ f.ops, OscLawful p o
  count : f.ops.length ≤ (configOf p).fmMaxOps

theorem fmInv_iff {f : Fm Num} : fmInv (configOf p) f = true ↔ FmLawful p f := by
  simp only [fmInv, Bool.and_eq_true, List.all_eq_true, decide_eq_true_eq, oscInv_iff]
  exact ⟨fun ⟨⟨hc, ho⟩, hl⟩ => ⟨hc, ho, hl⟩, fun ⟨hc, ho, hl⟩ => ⟨⟨hc, ho⟩, hl⟩⟩

/-- A sample advances every operator and drops none (46_fm.md R222). -/
theorem fmOperators_lawful {os : List (Osc Num)} (hos : ∀ o ∈ os, OscLawful p o) {m : Num} {r : Num × List (Osc Num)}
    (h : fmOperators (configOf p) os m = some r) : (∀ o ∈ r.2, OscLawful p o) ∧ r.2.length = os.length := by
  induction os generalizing m r with
  | nil => cases h; exact ⟨nofun, rfl⟩
  | cons o os ih =>
    obtain ⟨v, o', x, m', os', ho, -, hrec, rfl⟩ := fmOperators_cons_eq_some.1 h
    obtain ⟨hhead, htail⟩ := List.forall_mem_cons.1 hos
    obtain ⟨hlawful, hlen⟩ := ih htail hrec
    exact ⟨List.forall_mem_cons.2 ⟨hhead.get ho, hlawful⟩, congrArg Nat.succ hlen⟩

namespace FmLawful

variable {f : Fm Num}

theorem sample (hf : FmLawful p f) {r : Num × Fm Num} (h : fmStep (configOf p) f = some r) : FmLawful p r.2 := by
  simp only [fmStep, Option.bind_eq_bind, Option.bind_eq_some_iff, Option.pure_def, Option.some.injEq, Prod.exists] at h
  obtain ⟨m, os, hos, out, car, hcar, rfl⟩ := h
  obtain ⟨hlawful, hlen⟩ := fmOperators_lawful hf.ops hos
  exact ⟨hf.car.getMod hcar, hlawful, hlen.trans_le hf.count⟩

theorem addOp (hf : FmLawful p f) {o : Osc Num} (ho : OscLawful p o) (hl : f.ops.length < (configOf p).fmMaxOps) :
    FmLawful p { f with ops := f.ops ++ [o] } where
  car := hf.car
  ops := List.forall_mem_append.2 ⟨hf.ops, List.forall_mem_singleton.2 ho⟩
  count := by simpa using hl

theorem removeOp (hf : FmLawful p f) (i : Nat) : FmLawful p { f with ops := f.ops.eraseIdx i } where
  car := hf.car
  ops o hmem := hf.ops o (List.mem_of_mem_eraseIdx hmem)
  count := (List.length_eraseIdx_le f.ops i).trans hf.count

theorem setOp (hf : FmLawful p f) (i : Nat) {o : Osc Num} (ho : OscLawful p o) : FmLawful p (fmSetOp f i o) where
  car := hf.car
  ops o' hmem := (List.mem_or_eq_of_mem_set hmem).elim (hf.ops o') (· ▸ ho)
  count := by simpa [fmSetOp] using hf.count

theorem operatorAt_ensures (hf : FmLawful p f) (i : Nat) : Ensures (OscLawful p) (operatorAt f i) :=
  fun o h => hf.ops o (List.mem_of_getElem? (operatorAt_eq_ok.1 h))

end FmLawful

/-! ### The units -/

/-- `unitsInv` as a structure, unit by unit. -/
structure UnitsLawful (p : Straps) (u : Units Num) : Prop where
  osc : ∀ o, u.osc = some o → OscLawful p o
  env : ∀ e, u.env = some e → EnvLawful p e
  bq : ∀ b, u.bq = some b → BqLawful p b
  noise : NoiseBounds p u
  wt : WtLawful p u.wt
  fm : ∀ f, u.fm = some f → FmLawful p f

theorem ifConfigured_eq_true {β : Type} {inv : β → Bool} {x : Option β} :
    ifConfigured inv x = true ↔ ∀ y, x = some y → inv y = true := by
  cases x <;> simp [ifConfigured]

theorem rngInv_iff {r : ℕ} : rngInv (configOf p) r = true ↔ RngBound p r := by
  cases hp : p.noiseSrc <;> simp [rngInv, RngBound, configOf, noiseOf, hp, lfsr16, otherNoise]

theorem ngInv_iff {g : Ng Num} : ngInv g = true ↔ |g.prev| ≤ 1 := by
  simp [ngInv, abs_le]

theorem unitsInv_iff {u : Units Num} : unitsInv (configOf p) u = true ↔ UnitsLawful p u := by
  simp only [unitsInv, Bool.and_eq_true, ifConfigured_eq_true, oscInv_iff, envInv_iff, bqInv_iff, ngInv_iff, rngInv_iff,
    wtInv_iff, fmInv_iff]
  constructor
  · rintro ⟨⟨⟨⟨⟨⟨hosc, henv⟩, hbq⟩, hng⟩, hrng⟩, hwt⟩, hfm⟩
    exact ⟨hosc, henv, hbq, ⟨hrng, hng⟩, hwt, hfm⟩
  · rintro ⟨hosc, henv, hbq, ⟨hrng, hng⟩, hwt, hfm⟩
    exact ⟨⟨⟨⟨⟨⟨hosc, henv⟩, hbq⟩, hng⟩, hrng⟩, hwt⟩, hfm⟩

namespace UnitsLawful

variable {u : Units Num}

theorem setOsc (hu : UnitsLawful p u) {o : Osc Num} (h : OscLawful p o) : UnitsLawful p { u with osc := some o } :=
  { hu with osc := by rintro _ ⟨⟩; exact h, noise := { hu.noise with } }

theorem setEnv (hu : UnitsLawful p u) {e : Env Num} (h : EnvLawful p e) : UnitsLawful p { u with env := some e } :=
  { hu with env := by rintro _ ⟨⟩; exact h, noise := { hu.noise with } }

theorem setBq (hu : UnitsLawful p u) {b : Bq Num} (h : BqLawful p b) : UnitsLawful p { u with bq := some b } :=
  { hu with bq := by rintro _ ⟨⟩; exact h, noise := { hu.noise with } }

theorem setWt (hu : UnitsLawful p u) {w : Wt Num} (h : WtLawful p w) : UnitsLawful p { u with wt := w } :=
  { hu with wt := h, noise := { hu.noise with } }

theorem setFm (hu : UnitsLawful p u) {f : Fm Num} (h : FmLawful p f) : UnitsLawful p { u with fm := some f } :=
  { hu with fm := by rintro _ ⟨⟩; exact h, noise := { hu.noise with } }

end UnitsLawful

/-- The command, where it does not fault, leaves the units with their invariants. -/
abbrev EnsuresLawful (p : Straps) (a : Except FaultCode (Answer Num)) : Prop := Ensures (fun b => UnitsLawful p b.1) a

/-! ### Every command, unit by unit -/

section Commands

variable {u : Units Num}

theorem envInit_ensuresLawful (hu : UnitsLawful p u) (a d s r : Num) :
    EnsuresLawful p (envInit (configOf p) a d s r u) := by
  refine .after fun _ hs => .bind (.numeric fun e' h => ?_) fun _ he => .pure (hu.setEnv he)
  obtain ⟨h0, h1⟩ := sustainValid_iff.1 (require_eq_ok.1 hs)
  obtain ⟨ha, hdr⟩ := ratioMin_le_defaults p
  simp only [Option.bind_eq_bind, Option.bind_eq_some_iff] at h
  obtain ⟨_, -, _, -, _, -, h⟩ := h
  exact EnvBounds.lawful_of_derive ⟨h0, h1, ha, hdr, fun _ => binary32_ofRat_zero p⟩ h

theorem envSetsustain_ensuresLawful (hu : UnitsLawful p u) (s : Num) :
    EnsuresLawful p (envSetsustain (configOf p) s u) := by
  refine .bind (.configured hu.env) fun e he => .after fun _ hs => .bind (.numeric fun e' h => ?_) fun _ he' =>
    .pure (hu.setEnv he')
  obtain ⟨h0, h1⟩ := sustainValid_iff.1 (require_eq_ok.1 hs)
  have hbounds : EnvBounds p { e with sustain := s } := { he with sustain_nonneg := h0, sustain_le_one := h1 }
  exact hbounds.lawful_of_derive h

/-- A setter of unit ENV that computes a new rate and derives the fields again (42_envelope.md R135, R136, R138). -/
theorem envSetRate_ensuresLawful (hu : UnitsLawful p u) {x y : Num} {f : Env Num → Num → Env Num}
    (hf : ∀ e rate, EnvLawful p e → EnvBounds p (f e rate)) :
    EnsuresLawful p (configured u.env >>= fun e =>
      numeric ((configOf p).num.mul x y >>= fun rate => envDerive (configOf p) (f e rate)) >>= fun e' =>
        pure ({ u with env := some e' }, .none)) :=
  .bind (.configured hu.env) fun e he =>
    .bind (.numeric fun _ => EnvBounds.lawful_of_derive_rate fun rate => hf e rate he) fun _ he' =>
      .pure (hu.setEnv he')

theorem envSetratioa_ensuresLawful (hu : UnitsLawful p u) (x : Num) :
    EnsuresLawful p (envSetratioa (configOf p) x u) :=
  .bind (.configured hu.env) fun _ he =>
    .bind (.numeric fun _ => EnvBounds.lawful_of_derive { he with ratioA := ratioMin_le_maxNum p x }) fun _ he' =>
      .pure (hu.setEnv he')

theorem envSetratiodr_ensuresLawful (hu : UnitsLawful p u) (x : Num) :
    EnsuresLawful p (envSetratiodr (configOf p) x u) :=
  .bind (.configured hu.env) fun _ he =>
    .bind (.numeric fun _ => EnvBounds.lawful_of_derive { he with ratioDR := ratioMin_le_maxNum p x }) fun _ he' =>
      .pure (hu.setEnv he')

theorem envProcess_ensuresLawful (hu : UnitsLawful p u) : EnsuresLawful p (envProcess (configOf p) u) :=
  .bind (.configured hu.env) fun _ he => .bind (.numeric fun _ => he.step) fun _ he' => .pure (hu.setEnv he')

theorem bqInit_ensuresLawful (hu : UnitsLawful p u) (t : FType) (f q g : Num) :
    EnsuresLawful p (bqInit (configOf p) t f q g u) :=
  .after fun _ hv => .after fun _ hk => .pure (hu.setBq
    ⟨requireValid_eq_ok.1 hv, numeric_eq_ok.1 hk, List.length_replicate⟩)

theorem bqSettype_ensuresLawful (hu : UnitsLawful p u) (t : FType) : EnsuresLawful p (bqSettype (configOf p) t u) :=
  .bind (.configured hu.bq) fun _ hb => .bind (.numeric fun _ => bqRedesign_lawful hb.valid hb.delay) fun _ hb' =>
    .pure (hu.setBq hb')

theorem bqSetgain_ensuresLawful (hu : UnitsLawful p u) (g : Num) : EnsuresLawful p (bqSetgain (configOf p) g u) :=
  .bind (.configured hu.bq) fun _ hb => .bind (.numeric fun _ => bqRedesign_lawful hb.valid hb.delay) fun _ hb' =>
    .pure (hu.setBq hb')

theorem bqSetfreq_ensuresLawful (hu : UnitsLawful p u) (f : Num) : EnsuresLawful p (bqSetfreq (configOf p) f u) :=
  .bind (.configured hu.bq) fun _ hb => .after fun _ hv =>
    .bind (.numeric fun _ => bqRedesign_lawful (requireValid_eq_ok.1 hv) hb.delay) fun _ hb' => .pure (hu.setBq hb')

theorem bqSetq_ensuresLawful (hu : UnitsLawful p u) (q : Num) : EnsuresLawful p (bqSetq (configOf p) q u) :=
  .bind (.configured hu.bq) fun _ hb => .after fun _ hv =>
    .bind (.numeric fun _ => bqRedesign_lawful (requireValid_eq_ok.1 hv) hb.delay) fun _ hb' => .pure (hu.setBq hb')

theorem bqProcess_ensuresLawful (hu : UnitsLawful p u) (c : Nat) (x : Num) :
    EnsuresLawful p (bqProcess (configOf p) c x u) :=
  .bind (.configured hu.bq) fun _ hb => .after fun _ _ => .after fun _ _ =>
    .pure (hu.setBq { hb with delay := List.length_set.trans hb.delay })

theorem ngSettype_ensuresLawful (hu : UnitsLawful p u) (v : Variant) :
    EnsuresLawful p (ngSettype (configOf p) v u) :=
  .pure { hu with noise := (UnitWrite.ngType v).noiseBounds hu.noise }

theorem ngSeed_ensuresLawful (hu : UnitsLawful p u) (k : BitVec 16) : EnsuresLawful p (ngSeed (configOf p) k u) := by
  unfold ngSeed
  split
  next h => exact .ok { hu with noise := (UnitWrite.ngSeed h).noiseBounds hu.noise }
  next => exact .error _

theorem ngGetvalue_ensuresLawful (hu : UnitsLawful p u) : EnsuresLawful p (ngGetvalue (configOf p) u) :=
  .after fun _ hg => .after fun _ h => .pure { hu with
    noise := (UnitWrite.ngDraw (configured_eq_ok.1 hg) (numeric_eq_ok.1 h)).noiseBounds hu.noise }

theorem wtBuild_ensuresLawful (hu : UnitsLawful p u) (w : Wave) : EnsuresLawful p (wtBuild (configOf p) w u) :=
  .after fun _ ht => .pure (hu.setWt (wtBuild_lawful (numeric_eq_ok.1 ht)))

theorem wtLoad_ensuresLawful (hu : UnitsLawful p u) (i : Nat) (v : Num) :
    EnsuresLawful p (wtLoad (configOf p) i v u) :=
  .after fun _ hi => .pure (hu.setWt (hu.wt.load (of_decide_eq_true (require_eq_ok.1 hi)) v))

theorem wtGetfreq_ensuresLawful (hu : UnitsLawful p u) (f : Num) : EnsuresLawful p (wtGetfreq (configOf p) f u) :=
  .after fun _ _ => .bind (.numeric fun _ => wtAdvance_inRange) fun _ hx => .pure (hu.setWt { hu.wt with phase := hx })

theorem fmAddop_ensuresLawful (hu : UnitsLawful p u) (w : Wave) (f a : Num) :
    EnsuresLawful p (fmAddop (configOf p) w f a u) :=
  .bind (.configured hu.fm) fun _ hfm => .after fun _ hl => .bind (.numeric fun _ => oscNew_lawful) fun _ ho =>
    .pure (hu.setFm (hfm.addOp ho (of_decide_eq_true (require_eq_ok.1 hl))))

theorem perform_ensuresLawful (hu : UnitsLawful p u) (i : Instr) :
    EnsuresLawful p (perform (configOf p) operand i u) := by
  cases i with
  | sysRdreg | krnEval | oscAtphase | wtAtphase | wtRdtab =>
    repeat refine .after fun _ _ => ?_
    exact .pure hu
  | oscInit =>
    exact .after fun _ _ => .after fun _ _ => .bind (.numeric fun _ => oscNew_lawful) fun _ ho => .pure (hu.setOsc ho)
  | oscSettype => exact .bind (.configured hu.osc) fun _ ho => .pure (hu.setOsc { ho with })
  | oscSetfreq =>
    exact .after fun _ _ => .bind (.configured hu.osc) fun _ ho => .bind (.numeric fun _ => ho.setFreq) fun _ ho' =>
      .pure (hu.setOsc ho')
  | oscSetamp => exact .after fun _ _ => .bind (.configured hu.osc) fun _ ho => .pure (hu.setOsc { ho with })
  | oscReset => exact .bind (.configured hu.osc) fun _ ho => .pure (hu.setOsc ho.resetPhase)
  | oscGetvalue =>
    exact .bind (.configured hu.osc) fun _ ho => .bind (.numeric fun _ => ho.get) fun _ ho' => .pure (hu.setOsc ho')
  | oscGetmod =>
    exact .after fun _ _ => .bind (.configured hu.osc) fun _ ho => .bind (.numeric fun _ => ho.getMod) fun _ ho' =>
      .pure (hu.setOsc ho')
  | envInit =>
    exact .after fun a _ => .after fun d _ => .after fun s _ => .after fun r _ => envInit_ensuresLawful hu a d s r
  | envSetattack =>
    exact .after fun _ _ => envSetRate_ensuresLawful hu (f := fun e r => { e with attackRate := r }) fun _ _ he =>
      { he with }
  | envSetdecay =>
    exact .after fun _ _ => envSetRate_ensuresLawful hu (f := fun e r => { e with decayRate := r }) fun _ _ he =>
      { he with }
  | envSetrelease =>
    exact .after fun _ _ => envSetRate_ensuresLawful hu (f := fun e r => { e with releaseRate := r }) fun _ _ he =>
      { he with }
  | envSetsustain => exact .after fun s _ => envSetsustain_ensuresLawful hu s
  | envSetratioa => exact .after fun x _ => envSetratioa_ensuresLawful hu x
  | envSetratiodr => exact .after fun x _ => envSetratiodr_ensuresLawful hu x
  | envGate on => exact .bind (.configured hu.env) fun _ he => .pure (hu.setEnv (he.gate on))
  | envProcess => exact envProcess_ensuresLawful hu
  | bqInit t => exact .after fun f _ => .after fun q _ => .after fun g _ => bqInit_ensuresLawful hu t f q g
  | bqSettype t => exact bqSettype_ensuresLawful hu t
  | bqSetfreq => exact .after fun f _ => bqSetfreq_ensuresLawful hu f
  | bqSetq => exact .after fun q _ => bqSetq_ensuresLawful hu q
  | bqSetgain => exact .after fun g _ => bqSetgain_ensuresLawful hu g
  | bqProcess c => exact .after fun x _ => bqProcess_ensuresLawful hu c x
  | ngSettype v => exact ngSettype_ensuresLawful hu v
  | ngSeed k => exact ngSeed_ensuresLawful hu k
  | ngGetvalue => exact ngGetvalue_ensuresLawful hu
  | wtBuild w => exact wtBuild_ensuresLawful hu w
  | wtLoad n => exact .after fun v _ => wtLoad_ensuresLawful hu n v
  | wtReset => exact .pure (hu.setWt { hu.wt with phase := phaseInRange_ofRat_zero p })
  | wtGetfreq => exact .after fun f _ => wtGetfreq_ensuresLawful hu f
  | fmInit =>
    exact .after fun _ _ => .after fun _ _ => .bind (.numeric fun _ => oscNew_lawful) fun _ ho =>
      .pure (hu.setFm ⟨ho, nofun, Nat.zero_le _⟩)
  | fmCsettype =>
    exact .bind (.configured hu.fm) fun _ hf => .pure (hu.setFm { hf with car := { hf.car with } })
  | fmCsetfreq =>
    exact .after fun _ _ => .bind (.configured hu.fm) fun _ hf => .bind (.numeric fun _ => hf.car.setFreq) fun _ ho =>
      .pure (hu.setFm { hf with car := ho })
  | fmCsetamp =>
    exact .after fun _ _ => .bind (.configured hu.fm) fun _ hf => .pure (hu.setFm { hf with car := { hf.car with } })
  | fmCreset => exact .bind (.configured hu.fm) fun _ hf => .pure (hu.setFm { hf with car := hf.car.resetPhase })
  | fmAddop w => exact .after fun f _ => .after fun a _ => fmAddop_ensuresLawful hu w f a
  | fmRemop n => exact .bind (.configured hu.fm) fun _ hf => .after fun _ _ => .pure (hu.setFm (hf.removeOp n))
  | fmOpsettype w n =>
    exact .bind (.configured hu.fm) fun _ hf => .bind (hf.operatorAt_ensures n) fun _ ho =>
      .pure (hu.setFm (hf.setOp n { ho with }))
  | fmOpsetfreq n =>
    exact .after fun _ _ => .bind (.configured hu.fm) fun _ hf => .bind (hf.operatorAt_ensures n) fun _ ho =>
      .bind (.numeric fun _ => ho.setFreq) fun _ ho' => .pure (hu.setFm (hf.setOp n ho'))
  | fmOpsetamp n =>
    exact .after fun _ _ => .bind (.configured hu.fm) fun _ hf => .bind (hf.operatorAt_ensures n) fun _ ho =>
      .pure (hu.setFm (hf.setOp n { ho with }))
  | fmOpreset n =>
    exact .bind (.configured hu.fm) fun _ hf => .bind (hf.operatorAt_ensures n) fun _ ho =>
      .pure (hu.setFm (hf.setOp n ho.resetPhase))
  | fmSample =>
    exact .bind (.configured hu.fm) fun _ hf => .bind (.numeric fun _ => hf.sample) fun _ hf' => .pure (hu.setFm hf')

end Commands

/-! ### The command port, and a step -/

/-- The words accepted of a packet in progress are kept while the block waits, dropped by a reset, a packet cut short while
it is accepted, and none once a packet is taken. -/
theorem step_keeps_portInv {s t : State} (h : step s = .next t) (hs : s.PortInv) : t.PortInv := by
  rcases step_cases s with ⟨-, hc⟩ | ⟨-, -, -, hc⟩ | ⟨-, htr, hc⟩ | ⟨-, -, -, hc⟩ | ⟨hd, ops, rest, -, -, -, hc⟩
  all_goals rw [hc] at h
  · cases h; exact .inl rfl
  · cases h; exact hs
  · cases h; exact .inr htr
  · cases h
  · obtain ⟨t', ht, ha⟩ := runPacket_answeredOnce hd ops { s with pkt := [], cmd := rest }
    obtain rfl : t' = t := by simpa using ht.symm.trans h
    exact .inl (by rw [ha.pkt]; rfl)

/-- Settles O57: the units after a step are the old ones, the reset ones, or what a command leaves above the wire, and
every record a command writes meets the invariants of its unit. -/
theorem stepKeepsTheInvariants : Obligations.StepKeepsTheInvariants := by
  intro s t h
  obtain ⟨hstraps, hunits⟩ := step_units_cases h
  have hconfig : t.config = configOf s.straps := congrArg configOf hstraps
  refine ⟨fun hs => ?_, step_keeps_portInv h, hstraps⟩
  have hlawful : UnitsLawful s.straps s.units := unitsInv_iff.1 hs
  rw [State.Inv, hconfig]
  rcases hunits with hu | hu | ⟨i, r, hp⟩
  · rw [hu]; exact hs
  · rw [hu]; exact unitsInv_reset s.straps
  · exact unitsInv_iff.2 (perform_ensuresLawful hlawful i _ hp)

end Sys2Proof.Machine
end

section
/-!
PROOFS. 30_encoding.md R71 to R81: decoder and encoder are inverse to each other, and the legal headers are those the rows of
the opcode map select. What each check of the decoder accepts comes first.
-/

namespace Sys2Proof

/-- Settles O1: the framing takes exactly the packet, and the decoder reads the command back from it. -/
theorem decodeOfEncode : Obligations.DecodeOfEncode := by
  intro i rest hw
  obtain ⟨h, ops, he, hn, -⟩ := encode_shape i
  exact ⟨h, ops, he, by rw [he]; exact fetchPacket_append h ops rest hn, decode_of_encode_eq hw he⟩

/-- Settles O4, by evaluation of the decoder on each packet. -/
theorem workedPacketsDecode : Obligations.WorkedPacketsDecode := by
  unfold Obligations.WorkedPacketsDecode
  repeat' apply And.intro
  all_goals rfl

/-! ### The selector codes (30_encoding.md R77) -/

theorem waveOfCode_eq_some {c : BitVec 5} {w : Wave} : waveOfCode c = some w ↔ c = waveCode w := by
  refine ⟨?_, fun h => h ▸ waveOfCode_waveCode w⟩
  revert c; cases w <;> decide

theorem ftypeOfCode_eq_some {c : BitVec 5} {t : FType} : ftypeOfCode c = some t ↔ c = ftypeCode t := by
  refine ⟨?_, fun h => h ▸ ftypeOfCode_ftypeCode t⟩
  revert c; cases t <;> decide

theorem variantOfCode_eq_some {c : BitVec 5} {v : Variant} : variantOfCode c = some v ↔ c = variantCode v := by
  refine ⟨?_, fun h => h ▸ variantOfCode_variantCode v⟩
  revert c; cases v <;> decide

theorem gateOfCode_eq_some {c : BitVec 5} {b : Bool} : gateOfCode c = some b ↔ c = gateCode b := by
  refine ⟨?_, fun h => h ▸ gateOfCode_gateCode b⟩
  revert c; cases b <;> decide

theorem waveCode_le (w : Wave) : (waveCode w).toNat ≤ 3 := by cases w <;> decide
theorem ftypeCode_le (t : FType) : (ftypeCode t).toNat ≤ 6 := by cases t <;> decide
theorem variantCode_le (v : Variant) : (variantCode v).toNat ≤ 2 := by cases v <;> decide
theorem gateCode_le (b : Bool) : (gateCode b).toNat ≤ 1 := by cases b <;> decide

/-! ### The command a check of the decoder answers (30_encoding.md R75) -/

section Checks

variable {h : Word} {ops : List Word} {i : Instr}

theorem args0_eq_ok {k : Decoded} : args0 ops k = .ok i ↔ ops = [] ∧ k = .ok i := by
  rcases ops with _ | ⟨a, _⟩ <;> simp [args0]

theorem args1_eq_ok {k : Word → Decoded} : args1 ops k = .ok i ↔ ∃ a, ops = [a] ∧ k a = .ok i := by
  rcases ops with _ | ⟨a, _ | ⟨b, _⟩⟩ <;> simp [args1]

theorem args2_eq_ok {k : Word → Word → Decoded} : args2 ops k = .ok i ↔ ∃ a b, ops = [a, b] ∧ k a b = .ok i := by
  rcases ops with _ | ⟨a, _ | ⟨b, _ | ⟨c, _⟩⟩⟩ <;> simp [args2]

theorem args3_eq_ok {k : Word → Word → Word → Decoded} :
    args3 ops k = .ok i ↔ ∃ a b c, ops = [a, b, c] ∧ k a b c = .ok i := by
  rcases ops with _ | ⟨a, _ | ⟨b, _ | ⟨c, _ | ⟨d, _⟩⟩⟩⟩ <;> simp [args3]

theorem args4_eq_ok {k : Word → Word → Word → Word → Decoded} :
    args4 ops k = .ok i ↔ ∃ a b c d, ops = [a, b, c, d] ∧ k a b c d = .ok i := by
  rcases ops with _ | ⟨a, _ | ⟨b, _ | ⟨c, _ | ⟨d, _ | ⟨e, _⟩⟩⟩⟩⟩ <;> simp [args4]

theorem ite_error_eq_ok {q : Prop} [Decidable q] {k : Decoded} {e : Illegal} :
    (if q then k else .error e) = .ok i ↔ q ∧ k = .ok i := by
  split <;> simp [*]

theorem noIdx_eq_ok {k : Decoded} : noIdx h k = .ok i ↔ idxOf h = 0 ∧ k = .ok i := ite_error_eq_ok

theorem noSel_eq_ok {k : Decoded} : noSel h k = .ok i ↔ selOf h = 0 ∧ k = .ok i := ite_error_eq_ok

theorem withFType_eq_ok {k : FType → Decoded} : withFType h k = .ok i ↔ ∃ t, selOf h = ftypeCode t ∧ k t = .ok i := by
  simp only [withFType, ← ftypeOfCode_eq_some]
  cases ftypeOfCode (selOf h) <;> simp

theorem withVariant_eq_ok {k : Variant → Decoded} :
    withVariant h k = .ok i ↔ ∃ v, selOf h = variantCode v ∧ k v = .ok i := by
  simp only [withVariant, ← variantOfCode_eq_some]
  cases variantOfCode (selOf h) <;> simp

theorem withGate_eq_ok {k : Bool → Decoded} : withGate h k = .ok i ↔ ∃ b, selOf h = gateCode b ∧ k b = .ok i := by
  simp only [withGate, ← gateOfCode_eq_some]
  cases gateOfCode (selOf h) <;> simp

theorem withWave_eq_ok {k : Wave → Decoded} : withWave h k = .ok i ↔ ∃ w, selOf h = waveCode w ∧ k w = .ok i := by
  simp only [withWave, ← waveOfCode_eq_some]
  cases waveOfCode (selOf h) <;> simp

end Checks

theorem eq_ofNat_of_toNat_eq {m k : ℕ} {b : BitVec m} (h : b.toNat = k) : b = .ofNat m k := by
  rw [← h, BitVec.ofNat_toNat, BitVec.setWidth_eq]

theorem idxFits_toNat (x : BitVec 16) : idxFits x.toNat = true := decide_eq_true x.isLt

/-! ### A packet the decoder accepts is its command's (30_encoding.md R79) -/

/-- In each arm of the decoder the unit and the function are known, and the arm's checks fix the operand words, the selector
and the index: every field of the header is the one `encode` writes. -/
theorem encode_of_decode_header {u f : BitVec 4} {n : BitVec 3} {s : BitVec 5} {x : BitVec 16} {ops : List Word}
    {i : Instr} (hn : n = .ofNat 3 ops.length) : decode (header u f n s x) ops = .ok i →
    i.wellFormed = true ∧ encode i = header u f n s x :: ops := by
  rw [decode, unitOf_header, funcOf_header]
  split
  all_goals
    simp only [args0_eq_ok, args1_eq_ok, args2_eq_ok, args3_eq_ok, args4_eq_ok, noIdx_eq_ok, noSel_eq_ok,
      withWave_eq_ok, withFType_eq_ok, withVariant_eq_ok, withGate_eq_ok, selOf_header, idxOf_header, Except.ok.injEq,
      reduceCtorEq, forall_exists_index, and_imp, false_imp_iff]
  all_goals
    rename_i hu hf
    obtain rfl := eq_ofNat_of_toNat_eq hu
    obtain rfl := eq_ofNat_of_toNat_eq hf
    intros
    subst_vars
    simp [encode, Instr.wellFormed, idxFits_toNat]

/-- Settles O2: a header word is the one made of its fields. -/
theorem encodeOfDecode : Obligations.EncodeOfDecode := by
  intro h ops i hn hd
  rw [← header_fields h] at hd ⊢
  exact encode_of_decode_header (eq_ofNat_of_toNat_eq hn.symm) hd

/-! ### The rows of the opcode map, field by field (30_encoding.md R78) -/

theorem unitOf_and (a b : Word) : unitOf (a &&& b) = unitOf a &&& unitOf b := BitVec.extractLsb'_and
theorem funcOf_and (a b : Word) : funcOf (a &&& b) = funcOf a &&& funcOf b := BitVec.extractLsb'_and
theorem nargsOf_and (a b : Word) : nargsOf (a &&& b) = nargsOf a &&& nargsOf b := BitVec.extractLsb'_and
theorem selOf_and (a b : Word) : selOf (a &&& b) = selOf a &&& selOf b := BitVec.extractLsb'_and
theorem idxOf_and (a b : Word) : idxOf (a &&& b) = idxOf a &&& idxOf b := BitVec.extractLsb'_and

/-- Two words are the same when their header fields are. -/
theorem word_eq_iff_fields {a b : Word} : a = b ↔ unitOf a = unitOf b ∧ funcOf a = funcOf b ∧ nargsOf a = nargsOf b ∧
    selOf a = selOf b ∧ idxOf a = idxOf b := by
  refine ⟨fun h => h ▸ ⟨rfl, rfl, rfl, rfl, rfl⟩, fun ⟨hu, hf, hn, hs, hx⟩ => ?_⟩
  rw [← header_fields a, hu, hf, hn, hs, hx, header_fields]

/-- Every row fixes the unit, the function and `nargs`; its mask leaves `idx` free or whole, and allows the selectors up to
the last one. -/
theorem opcodeRows_fields : ∀ r ∈ opcodeRows, unitOf r.mask = .allOnes 4 ∧ funcOf r.mask = .allOnes 4 ∧
    nargsOf r.mask = .allOnes 3 ∧ selOf r.matchBits = 0 ∧ idxOf r.matchBits = 0 ∧
    (idxOf r.mask = 0 ∨ idxOf r.mask = .allOnes 16) ∧
    ∀ s : BitVec 5, s.toNat ≤ r.selLast → s &&& selOf r.mask = 0 := by decide

/-- A header selects a row when it has the row's unit, function and `nargs`, a legal selector, and an index only where the
row has one. -/
theorem selects_iff {r : OpcodeRow} (hr : r ∈ opcodeRows) (h : Word) : r.selects h = true ↔
    unitOf h = unitOf r.matchBits ∧ funcOf h = funcOf r.matchBits ∧ nargsOf h = nargsOf r.matchBits ∧
    (selOf h).toNat ≤ r.selLast ∧ (idxOf r.mask = 0 ∨ idxOf h = 0) := by
  obtain ⟨hu, hf, hn, hs, hx, hidx, hsel⟩ := opcodeRows_fields r hr
  simp only [OpcodeRow.selects, Bool.and_eq_true, decide_eq_true_eq, word_eq_iff_fields, unitOf_and, funcOf_and,
    nargsOf_and, selOf_and, idxOf_and, hu, hf, hn, hs, hx, BitVec.and_allOnes]
  have hsel' := hsel (selOf h)
  have hne : BitVec.allOnes 16 ≠ 0 := by decide
  rcases hidx with h0 | h1
  · simp [h0]; tauto
  · simp only [h1, BitVec.and_allOnes, hne]; tauto

theorem opcodeRows_nodup :
    (opcodeRows.map fun r => (unitOf r.matchBits, funcOf r.matchBits)).Nodup := by decide

/-! ### The decoder accepts what a row selects -/

/-- The decoder answers a command. -/
def Accepts (d : Decoded) : Prop := ∃ i, d = .ok i

namespace Accepts

variable {h : Word} {ops : List Word}

theorem ok (i : Instr) : Accepts (.ok i) := ⟨i, rfl⟩

theorem args0 {k : Decoded} (hn : ops.length = 0) (hk : Accepts k) : Accepts (args0 ops k) := by
  obtain rfl := List.length_eq_zero_iff.1 hn
  exact hk

theorem args1 {k : Word → Decoded} (hn : ops.length = 1) (hk : ∀ a, Accepts (k a)) : Accepts (args1 ops k) := by
  obtain ⟨a, rfl⟩ := List.length_eq_one_iff.1 hn
  exact hk a

theorem args2 {k : Word → Word → Decoded} (hn : ops.length = 2) (hk : ∀ a b, Accepts (k a b)) :
    Accepts (args2 ops k) := by
  obtain ⟨a, b, rfl⟩ := List.length_eq_two.1 hn
  exact hk a b

theorem args3 {k : Word → Word → Word → Decoded} (hn : ops.length = 3) (hk : ∀ a b c, Accepts (k a b c)) :
    Accepts (args3 ops k) := by
  obtain ⟨a, b, c, rfl⟩ := List.length_eq_three.1 hn
  exact hk a b c

theorem args4 {k : Word → Word → Word → Word → Decoded} (hn : ops.length = 4) (hk : ∀ a b c d, Accepts (k a b c d)) :
    Accepts (args4 ops k) := by
  obtain ⟨a, t, rfl⟩ := List.exists_cons_of_length_eq_add_one hn
  obtain ⟨b, c, d, rfl⟩ := List.length_eq_three.1 (Nat.succ.inj hn)
  exact hk a b c d

theorem noIdx {k : Decoded} (hx : idxOf h = 0) (hk : Accepts k) : Accepts (noIdx h k) := by
  rwa [Sys2Proof.noIdx, if_pos hx]

theorem noSel {k : Decoded} (hs : (selOf h).toNat ≤ 0) (hk : Accepts k) : Accepts (noSel h k) := by
  rwa [Sys2Proof.noSel, if_pos (BitVec.eq_of_toNat_eq (Nat.le_zero.1 hs))]

theorem withWave {k : Wave → Decoded} (hs : (selOf h).toNat ≤ 3) (hk : ∀ w, Accepts (k w)) :
    Accepts (withWave h k) := by
  have hcode : ∀ s : BitVec 5, s.toNat ≤ 3 → (waveOfCode s).isSome := by decide
  obtain ⟨w, hw⟩ := Option.isSome_iff_exists.1 (hcode _ hs)
  rw [Sys2Proof.withWave, hw]
  exact hk w

theorem withFType {k : FType → Decoded} (hs : (selOf h).toNat ≤ 6) (hk : ∀ t, Accepts (k t)) :
    Accepts (withFType h k) := by
  have hcode : ∀ s : BitVec 5, s.toNat ≤ 6 → (ftypeOfCode s).isSome := by decide
  obtain ⟨t, ht⟩ := Option.isSome_iff_exists.1 (hcode _ hs)
  rw [Sys2Proof.withFType, ht]
  exact hk t

theorem withVariant {k : Variant → Decoded} (hs : (selOf h).toNat ≤ 2) (hk : ∀ v, Accepts (k v)) :
    Accepts (withVariant h k) := by
  have hcode : ∀ s : BitVec 5, s.toNat ≤ 2 → (variantOfCode s).isSome := by decide
  obtain ⟨v, hv⟩ := Option.isSome_iff_exists.1 (hcode _ hs)
  rw [Sys2Proof.withVariant, hv]
  exact hk v

theorem withGate {k : Bool → Decoded} (hs : (selOf h).toNat ≤ 1) (hk : ∀ b, Accepts (k b)) :
    Accepts (withGate h k) := by
  have hcode : ∀ s : BitVec 5, s.toNat ≤ 1 → (gateOfCode s).isSome := by decide
  obtain ⟨b, hb⟩ := Option.isSome_iff_exists.1 (hcode _ hs)
  rw [Sys2Proof.withGate, hb]
  exact hk b

end Accepts

/-- The fields of a selected header lead the decoder to the row's arm, whose checks on the operand words, the index and the
selector are what the row's `nargs`, mask and last selector say. -/
theorem accepts_of_selects {r : OpcodeRow} (hr : r ∈ opcodeRows) {h : Word} {ops : List Word}
    (hn : ops.length = (nargsOf h).toNat) (hs : r.selects h = true) : Accepts (decode h ops) := by
  obtain ⟨hu, hf, hna, hsel, hidx⟩ := (selects_iff hr h).1 hs
  rw [hna] at hn
  rw [decode, hu, hf]
  clear hu hf hna hs
  fin_cases hr
  all_goals
    first
      | refine .args0 hn ?_
      | refine .args1 hn fun _ => ?_
      | refine .args2 hn fun _ _ => ?_
      | refine .args3 hn fun _ _ _ => ?_
      | refine .args4 hn fun _ _ _ _ => ?_
    try refine .noIdx (hidx.resolve_left (of_decide_eq_false rfl)) ?_
    first
      | exact .noSel hsel (.ok _)
      | exact .withWave hsel fun _ => .ok _
      | exact .withFType hsel fun _ => .ok _
      | exact .withVariant hsel fun _ => .ok _
      | exact .withGate hsel fun _ => .ok _

/-! ### The row of a command -/

/-- The rows stand in the order of the constructors, and each selects the packets of its command. -/
theorem exists_row_of_encode {i : Instr} {h : Word} {ops : List Word} (he : encode i = h :: ops) :
    ∃ r ∈ opcodeRows, r.selects h = true ∧ r.mnemonic = mnemonicOf i := by
  suffices hrow : ∃ r, opcodeRows[i.ctorIdx]? = some r ∧ r.mnemonic = mnemonicOf i ∧
      (unitOf h = unitOf r.matchBits ∧ funcOf h = funcOf r.matchBits ∧ nargsOf h = nargsOf r.matchBits ∧
      (selOf h).toNat ≤ r.selLast ∧ (idxOf r.mask = 0 ∨ idxOf h = 0)) by
    obtain ⟨r, hr, hm, hfields⟩ := hrow
    exact ⟨r, List.mem_of_getElem? hr, (selects_iff (List.mem_of_getElem? hr) h).2 hfields, hm⟩
  cases i
  all_goals
    obtain ⟨rfl, -⟩ := List.cons.inj he
    refine ⟨_, rfl, rfl, unitOf_header .., funcOf_header .., nargsOf_header .., ?_, ?_⟩
    · rw [selOf_header]
      first
      | exact waveCode_le _
      | exact ftypeCode_le _
      | exact variantCode_le _
      | exact gateCode_le _
      | exact le_rfl
    · first
      | exact .inl rfl
      | exact .inr (idxOf_header ..)

/-- Two rows differ in the unit or in the function. -/
theorem eq_of_selects {q r : OpcodeRow} (hq : q ∈ opcodeRows) (hr : r ∈ opcodeRows) {h : Word}
    (hqs : q.selects h = true) (hrs : r.selects h = true) : q = r := by
  obtain ⟨hu, hf, -⟩ := (selects_iff hq h).1 hqs
  obtain ⟨hu', hf', -⟩ := (selects_iff hr h).1 hrs
  exact List.inj_on_of_nodup_map opcodeRows_nodup hq hr (Prod.ext (hu.symm.trans hu') (hf.symm.trans hf'))

/-- Settles O3: a decoded packet is its command's, and so the row's; and the decoder accepts what a row selects. -/
theorem legalHeadersAreTheOpcodeRows : Obligations.LegalHeadersAreTheOpcodeRows := by
  intro h ops hn
  have hrow {i : Instr} (hd : decode h ops = .ok i) :
      ∃ r ∈ opcodeRows, r.selects h = true ∧ r.mnemonic = mnemonicOf i :=
    exists_row_of_encode (encodeOfDecode h ops i hn hd).2
  refine ⟨⟨fun ⟨i, hd⟩ => ?_, fun ⟨r, hr, hs⟩ => accepts_of_selects hr hn hs⟩, fun i hd => ?_⟩
  · obtain ⟨r, hr, hs, -⟩ := hrow hd
    exact ⟨r, hr, hs⟩
  · obtain ⟨r, hr, hs, hm⟩ := hrow hd
    exact ⟨r, hr, hs, hm, fun q hq hqs => eq_of_selects hq hr hqs hs⟩

end Sys2Proof
end

section
/-!
PROOFS. 30_encoding.md R73, R74 and R76: every command is answered once; a result is encoded as the nearest binary32 number,
and a binary32 number as itself.
-/

namespace Sys2Proof.Machine

/-! ### The answer to a command (30_encoding.md R76) -/

/-- Settles O10: a command ends in a commit, which answers `OK` or enters one of the seven faults. -/
theorem everyCommandAnswersOnce : Obligations.EveryCommandAnswersOnce := by
  intro i s
  rw [exec_eq_perform, answer]
  rcases commit_cases s (perform s.config operand i s.units) with ⟨u, -, w, -, -, hc⟩ | ⟨e, hc⟩
  · exact .inl ⟨u, w, by rw [hc]; rfl⟩
  · exact .inr ⟨e.status, by cases e <;> decide, by cases e <;> decide, by rw [hc]; rfl⟩

/-! ### The number of units a value is rounded to (30_encoding.md R74) -/

theorem roundHalfEvenReal_isNearestEven {x : ℝ} (hx : 0 ≤ x) : IsNearestEven x (roundHalfEvenReal x) := by
  have hlo := Nat.floor_le hx
  have hhi := Nat.lt_floor_add_one x
  unfold roundHalfEvenReal IsNearestEven
  dsimp only
  split_ifs with hdown hup heven
  · rw [abs_of_nonneg (by linarith)]
    exact ⟨hdown.le, fun h => absurd h hdown.ne⟩
  · push_cast
    rw [abs_of_nonpos (by linarith)]
    exact ⟨by linarith, fun h => by linarith⟩
  · rw [abs_of_nonneg (by linarith)]
    exact ⟨not_lt.1 hup, fun _ => heven⟩
  · push_cast
    rw [abs_of_nonpos (by linarith)]
    exact ⟨by linarith, fun _ => by omega⟩

/-- The number of units of its last place that `v` is rounded to. -/
def lastPlaceUnits (v : ℚ) : ℕ := roundToUlp v.num.natAbs v.den (lastPlace v)

theorem roundedFields_eq_packFields (v : ℚ) :
    roundedFields v.num.natAbs v.den = packFields (lastPlaceUnits v) (lastPlace v) := rfl

theorem lastPlaceUnits_isNearestEven (v : ℚ) :
    IsNearestEven (((|v| : ℚ) : ℝ) / 2 ^ lastPlace v) (lastPlaceUnits v) := by
  rw [lastPlaceUnits, ← roundToUlp_real, Rat.cast_abs]
  exact roundHalfEvenReal_isNearestEven (by positivity)

theorem lastPlace_range_real {v : ℚ} (h0 : v ≠ 0) :
    (lastPlace v = -149 ∨ 2 ^ 23 * 2 ^ lastPlace v ≤ ((|v| : ℚ) : ℝ)) ∧ ((|v| : ℚ) : ℝ) < 2 ^ 24 * 2 ^ lastPlace v := by
  obtain ⟨hlo, hhi⟩ := lastPlace_range h0
  refine ⟨hlo.imp_right fun h => ?_, ?_⟩
  · simpa using (Rat.cast_le (K := ℝ)).2 h
  · simpa using (Rat.cast_lt (K := ℝ)).2 hhi

theorem lastPlaceUnits_range {v : ℚ} (h0 : v ≠ 0) :
    (lastPlace v = -149 ∨ 2 ^ 23 ≤ lastPlaceUnits v) ∧ lastPlaceUnits v ≤ 2 ^ 24 := by
  obtain ⟨hlo, hhi⟩ := lastPlace_range_real h0
  have hpos : (0 : ℝ) < 2 ^ lastPlace v := by positivity
  have hnear := lastPlaceUnits_isNearestEven v
  refine ⟨hlo.imp_right fun h => hnear.ge_of_ge ?_, hnear.le_of_le ?_⟩
  · rw [le_div_iff₀ hpos]; exact_mod_cast h
  · rw [div_le_iff₀ hpos]; exact_mod_cast hhi.le

theorem fieldsValue_roundedFields {v : ℚ} (h0 : v ≠ 0) :
    fieldsValue (roundedFields v.num.natAbs v.den) = lastPlaceUnits v * 2 ^ lastPlace v := by
  obtain ⟨hlo, hhi⟩ := lastPlaceUnits_range h0
  rw [roundedFields_eq_packFields, fieldsValue_packFields (lastPlace_ge v) hlo hhi]

/-! ### The packed word -/

theorem packWord_eq_none {neg : Bool} {k : ℕ} : packWord neg k = none ↔ 255 * 2 ^ 23 ≤ k := by
  unfold packWord
  split_ifs <;> simp <;> omega

theorem packWord_eq_some {neg : Bool} {k : ℕ} {w : Word} (h : packWord neg k = some w) :
    k < 255 * 2 ^ 23 ∧ dec32 w = some (if neg then -fieldsValue k else fieldsValue k) := by
  have hk : k < 255 * 2 ^ 23 := by
    by_contra hk
    rw [packWord_eq_none.2 (not_lt.1 hk)] at h
    cases h
  exact ⟨hk, by rw [← packWord_bind_dec32 neg hk, h]; rfl⟩

/-- The sign does not reach the lowest bit. -/
theorem getLsbD_of_packWord {neg : Bool} {m : ℕ} {u : ℤ} {w : Word} (h : packWord neg (packFields m u) = some w)
    (hm : m % 2 = 0) : w.getLsbD 0 = false := by
  obtain ⟨hk, -⟩ := packWord_eq_some h
  rcases eq_or_ne (packFields m u) 0 with h0 | h0
  · rw [h0] at h
    obtain rfl := Option.some.inj h
    rfl
  · obtain ⟨x, hx, hw⟩ := packWord_eq neg h0 hk
    obtain rfl := Option.some.inj (hw.symm.trans h)
    have hxm : x % 2 = 0 := by
      unfold packFields at hx
      split_ifs at hx <;> omega
    simp [BitVec.getLsbD_ofNat, -BitVec.getLsbD_eq_getElem, hxm]

/-- Flipping the sign bit negates the value. -/
theorem dec32_neg {w : Word} {y : Num} (h : dec32 w = some y) : dec32 (w ^^^ 0x80000000) = some (-y) := by
  have hexp : expField (w ^^^ 0x80000000) = expField w := by
    rw [expField, BitVec.extractLsb'_xor]; simp [expField]
  have hfrac : fracField (w ^^^ 0x80000000) = fracField w := by
    rw [fracField, BitVec.extractLsb'_xor]; simp [fracField]
  have hsign : (w ^^^ 0x80000000).msb = !w.msb := by
    rw [BitVec.msb_xor, show (0x80000000 : Word).msb = true by decide, Bool.xor_true]
  unfold dec32 at h ⊢
  rw [hexp, hfrac, hsign]
  split at h
  · cases h
  next he =>
    obtain rfl := Option.some.inj h
    rw [if_neg he]
    cases w.msb <;> simp

/-! ### The nearest number -/

/-- No binary32 number is nearer to a magnitude than the one it rounds to. -/
theorem le_dist_lastPlaceUnits {v : ℚ} (h0 : v ≠ 0) {w : Word} {y : ℚ} (hy : dec32 w = some y) :
    |(|v|) - lastPlaceUnits v * 2 ^ lastPlace v| ≤ |(|v|) - y| ∧
    (|(|v|) - lastPlaceUnits v * 2 ^ lastPlace v| = |(|v|) - y| → (lastPlaceUnits v * 2 ^ lastPlace v : ℚ) ≠ y →
      lastPlaceUnits v % 2 = 0) := by
  obtain ⟨hle, htie⟩ := le_dist_of_isNearestEven (lastPlaceUnits_isNearestEven v) (lastPlace_range_real h0).1 hy
  refine ⟨(Rat.cast_le (K := ℝ)).1 (by push_cast at hle ⊢; exact hle), fun heq hne => htie ?_ fun h => hne ?_⟩
  · have heq := congrArg (Rat.cast (K := ℝ)) heq
    push_cast at heq ⊢
    exact heq
  · exact Rat.cast_injective (α := ℝ) (by push_cast at h ⊢; exact h)

/-- The magnitude is rounded and the sign put back, which keeps every distance. -/
theorem enc32_nearest {v : ℚ} {w : Word} (h : enc32 v = some w) : ∃ x, dec32 w = some x ∧
    ∀ (w' : Word) (y : Num), dec32 w' = some y →
      |v - x| ≤ |v - y| ∧ (|v - x| = |v - y| → x ≠ y → w.getLsbD 0 = false) := by
  rcases eq_or_ne v 0 with rfl | h0
  · obtain rfl : 0 = w := Option.some.inj h
    exact ⟨0, by decide +kernel, fun _ _ _ => ⟨by simp, fun _ _ => rfl⟩⟩
  · rw [enc32_of_ne_zero h0] at h
    obtain ⟨-, hx⟩ := packWord_eq_some h
    rw [fieldsValue_roundedFields h0] at hx
    refine ⟨_, hx, fun w' y hy => ?_⟩
    rw [roundedFields_eq_packFields] at h
    have heven := getLsbD_of_packWord h
    rcases lt_or_gt_of_ne h0 with hneg | hpos
    · have hnum : v.num < 0 := by simpa using hneg
      obtain ⟨hle, htie⟩ := le_dist_lastPlaceUnits h0 (dec32_neg hy)
      have hdist (z : Num) : |v - -z| = |(|v|) - z| := by rw [abs_of_neg hneg, ← abs_neg]; congr 1; ring
      have hdist' : |v - y| = |(|v|) - -y| := by rw [← hdist, neg_neg]
      simp only [hnum, decide_true, if_true, hdist, hdist']
      exact ⟨hle, fun heq hne => heven (htie heq fun h => hne (by rw [h, neg_neg]))⟩
    · have hnum : ¬ v.num < 0 := by simpa using hpos.le
      obtain ⟨hle, htie⟩ := le_dist_lastPlaceUnits h0 hy
      rw [abs_of_pos hpos] at hle htie
      simp only [hnum, decide_false, Bool.false_eq_true, if_false]
      exact ⟨hle, fun heq hne => heven (htie heq hne)⟩

/-- Settles O12, by the nearest number of units of the last place. -/
theorem enc32IsNearestTiesToEven : Obligations.Enc32IsNearestTiesToEven := fun _ _ => enc32_nearest

/-! ### Words and values (30_encoding.md R73) -/

/-- Every field number is that of a number of units of a last place. -/
theorem exists_packFields (k : ℕ) :
    ∃ (m : ℕ) (u : ℤ), -149 ≤ u ∧ (u = -149 ∨ 2 ^ 23 ≤ m) ∧ m < 2 ^ 24 ∧ k = packFields m u := by
  rcases Nat.lt_or_ge k (2 ^ 24) with hk | hk
  · exact ⟨k, -149, le_rfl, .inl rfl, hk, by simp [packFields]⟩
  · refine ⟨2 ^ 23 + k % 2 ^ 23, (k / 2 ^ 23 : ℕ) - 150, by omega, .inr (by omega), by omega, ?_⟩
    unfold packFields
    omega

/-- The next fields stand for one unit more, also where that unit carries into the exponent. -/
theorem fieldsValue_strictMono : StrictMono fieldsValue := by
  refine strictMono_nat_of_lt_succ fun k => ?_
  obtain ⟨m, u, hu, hlo, hhi, rfl⟩ := exists_packFields k
  have hnext : packFields m u + 1 = packFields (m + 1) u := Nat.add_assoc _ _ _
  rw [hnext, fieldsValue_packFields hu hlo hhi.le, fieldsValue_packFields hu (hlo.imp_right Nat.le_succ_of_le) hhi]
  gcongr
  exact Nat.lt_succ_self m

/-- A finite word is its sign and the fields below it. -/
theorem exists_fields_of_dec32 {w : Word} {v : Num} (h : dec32 w = some v) : ∃ k < 255 * 2 ^ 23,
    w = BitVec.ofNat 32 (k + if w.msb then 2 ^ 31 else 0) ∧ v = if w.msb then -fieldsValue k else fieldsValue k := by
  have hw : w.toNat < 4294967296 := w.isLt
  have hexp : expField w = w.toNat % 2147483648 / 2 ^ 23 := by
    simp only [expField, BitVec.extractLsb'_toNat, Nat.shiftRight_eq_div_pow]; omega
  have hfrac : fracField w = w.toNat % 2147483648 % 2 ^ 23 := by
    simp only [fracField, BitVec.extractLsb'_toNat, Nat.shiftRight_eq_div_pow]; omega
  unfold dec32 at h
  split at h
  · cases h
  next he =>
    refine ⟨w.toNat % 2147483648, by omega, BitVec.eq_of_toNat_eq ?_, ?_⟩
    · rw [BitVec.msb_eq_decide]
      simp only [BitVec.toNat_ofNat, decide_eq_true_eq]
      split_ifs <;> omega
    · rw [hexp, hfrac] at h
      exact (Option.some.inj h).symm

/-- The fields found for the value of a word are the word's own, because different fields have different values. -/
theorem enc32_of_dec32 {w : Word} {v : Num} (hw : w ≠ 0x80000000) (h : dec32 w = some v) : enc32 v = some w := by
  obtain ⟨k, hk, hword, hv⟩ := exists_fields_of_dec32 h
  have habs : |v| = fieldsValue k := by
    rw [hv]; split_ifs <;> simp [abs_of_nonneg (fieldsValue_nonneg k)]
  have hzero : fieldsValue 0 = 0 := by decide +kernel
  rcases eq_or_ne v 0 with rfl | h0
  · obtain rfl : k = 0 := fieldsValue_strictMono.injective (by rw [hzero, ← habs, abs_zero])
    have hs : ¬ w.msb = true := fun hs => hw (by rw [hword, if_pos hs]; rfl)
    rw [hword, if_neg hs]
    rfl
  · have hk0 : k ≠ 0 := by
      rintro rfl
      exact h0 (abs_eq_zero.1 (habs.trans hzero))
    have hfields : roundedFields v.num.natAbs v.den = k :=
      fieldsValue_strictMono.injective ((roundedFields_of_dec32 h h0).2.trans habs)
    have hpos : 0 < fieldsValue k := habs ▸ abs_pos.2 h0
    have hsign : decide (v.num < 0) = w.msb := by
      rw [hv]; cases w.msb <;> simp [hpos, hpos.le]
    rw [enc32_of_ne_zero h0, hfields, hsign, packWord, if_neg hk0, if_pos hk, ← hword]

/-! ### Overflow (30_encoding.md R74) -/

/-- A tie between the largest 24-bit integer and the next one goes to the next one, which is even. -/
theorem IsNearestEven.two_pow_24_le_iff {r : ℝ} {m : ℕ} (h : IsNearestEven r m) : 2 ^ 24 ≤ m ↔ 2 ^ 24 - 1 / 2 ≤ r := by
  obtain ⟨hle, htie⟩ := h
  obtain ⟨hlo, hhi⟩ := abs_le.1 hle
  constructor
  · intro hm
    have hm : ((2 ^ 24 : ℕ) : ℝ) ≤ m := Nat.cast_le.2 hm
    push_cast at hm
    linarith
  · intro hr
    by_contra hm
    have hge : 2 ^ 24 ≤ m + 1 := by exact_mod_cast (by linarith : (2 : ℝ) ^ 24 ≤ m + 1)
    obtain rfl : m = 2 ^ 24 - 1 := by omega
    have hhalf : |r - (2 ^ 24 - 1 : ℕ)| = 1 / 2 := by
      refine le_antisymm hle (le_abs.2 (.inl ?_))
      norm_num at hr ⊢
      linarith
    exact absurd (htie hhalf) (by norm_num)

/-- The largest fields are those of a last place `2^104`; there the rounding decides, and elsewhere the last place. -/
theorem enc32_eq_none_iff {v : ℚ} : enc32 v = none ↔ (2 : ℚ) ^ 128 - 2 ^ 103 ≤ |v| := by
  rcases eq_or_ne v 0 with rfl | h0
  · simp [enc32]; norm_num
  rw [enc32_of_ne_zero h0, packWord_eq_none, roundedFields_eq_packFields]
  obtain ⟨hlo, hhi⟩ := lastPlace_range h0
  obtain ⟨hm, hm'⟩ := lastPlaceUnits_range h0
  have hnear := lastPlaceUnits_isNearestEven v
  generalize lastPlaceUnits v = m at hm hm' hnear
  generalize lastPlace v = u at hlo hhi hm hnear
  rcases lt_trichotomy u 104 with hu | rfl | hu
  · refine iff_of_false (by unfold packFields; omega) (not_le.2 ?_)
    calc |v| < 2 ^ 24 * 2 ^ u := hhi
      _ ≤ 2 ^ 24 * 2 ^ (103 : ℤ) := by gcongr <;> [norm_num; omega]
      _ ≤ 2 ^ 128 - 2 ^ 103 := by norm_num
  · have hfields : 255 * 2 ^ 23 ≤ packFields m 104 ↔ 2 ^ 24 ≤ m := by
      rw [packFields, show ((104 : ℤ) + 149).toNat = 253 by rfl]; omega
    rw [hfields, hnear.two_pow_24_le_iff, le_div_iff₀ (by positivity), ← Rat.cast_le (K := ℝ)]
    norm_num
  · refine iff_of_true (by have := hm.resolve_left (by omega); unfold packFields; omega) ?_
    calc (2 : ℚ) ^ 128 - 2 ^ 103 ≤ 2 ^ 23 * 2 ^ (105 : ℤ) := by norm_num
      _ ≤ 2 ^ 23 * 2 ^ u := by gcongr <;> [norm_num; omega]
      _ ≤ |v| := hlo.resolve_left (by omega)

/-- Settles O13: different fields have different values, and the last place `2^104` decides what overflows. -/
theorem binary32RoundTripAndOverflow : Obligations.Binary32RoundTripAndOverflow :=
  ⟨fun _ _ => enc32_of_dec32, by decide +kernel, by decide +kernel, rfl, fun _ => enc32_eq_none_iff⟩

end Sys2Proof.Machine
end

section
/-!
PROOFS. 40_kernel.md: the four kernels over the reals and rounded to binary32, the argument they are called with, and
`KRN.EVAL`.
-/

namespace Sys2Proof.Machine

/-! ### The kernels over exact real arithmetic (40_kernel.md R101 to R104) -/

theorem sign_real (x : ℝ) : sign real x = SignType.sign x := by
  rcases lt_trichotomy x 0 with hx | rfl | hx
  · simp [sign, real, hx, hx.not_gt]
  · simp [sign, real]
  · simp [sign, real, hx]

theorem kernel_real_sine (p : ℝ) : kernel real .sine p = some (Real.sin p) := rfl

theorem kernel_real_square (p : ℝ) : kernel real .square p = some (SignType.sign (Real.sin p) : ℝ) :=
  congrArg some (sign_real _)

theorem kernel_real_triangle (p : ℝ) :
    kernel real .triangle p = some (2 * |2 * (p / (2 * Real.pi) - 1 / 2)| - 1) := by
  simp [kernel, triangleKernel, real]

theorem kernel_real_saw (p : ℝ) : kernel real .saw p = some (2 * (p / (2 * Real.pi)) - 1) := by
  simp [kernel, sawKernel, real]

/-- On one turn `p ÷ TAU` lies in `[0, 1)`, which bounds the triangle and the saw; the sine and its sign are bounded
everywhere. -/
theorem kernel_real_range {p : ℝ} (h0 : 0 ≤ p) (h1 : p < 2 * Real.pi) {w : Wave} {v : ℝ} (h : kernel real w p = some v) :
    -1 ≤ v ∧ v ≤ 1 ∧ (w = .saw → v < 1) := by
  have hturn0 : 0 ≤ p / (2 * Real.pi) := div_nonneg h0 Real.two_pi_pos.le
  have hturn1 : p / (2 * Real.pi) < 1 := (div_lt_one Real.two_pi_pos).2 h1
  cases w with
  | sine =>
    rw [kernel_real_sine] at h
    obtain rfl := Option.some.inj h
    exact ⟨Real.neg_one_le_sin p, Real.sin_le_one p, nofun⟩
  | square =>
    rw [kernel_real_square] at h
    obtain rfl := Option.some.inj h
    cases SignType.sign (Real.sin p) <;> simp
  | triangle =>
    rw [kernel_real_triangle] at h
    obtain rfl := Option.some.inj h
    have hfold : |2 * (p / (2 * Real.pi) - 1 / 2)| ≤ 1 := abs_le.2 ⟨by linarith, by linarith⟩
    exact ⟨by linarith [abs_nonneg (2 * (p / (2 * Real.pi) - 1 / 2))], by linarith, nofun⟩
  | saw =>
    rw [kernel_real_saw] at h
    obtain rfl := Option.some.inj h
    exact ⟨by linarith, by linarith, fun _ => by linarith⟩

/-- Settles O16, kernel by kernel. -/
theorem realKernelsAndRanges : Obligations.RealKernelsAndRanges := fun p =>
  ⟨kernel_real_sine p, kernel_real_square p, kernel_real_triangle p, kernel_real_saw p,
    fun h0 h1 _ _ h => kernel_real_range h0 h1 h⟩

/-! ### The argument of a kernel (40_kernel.md R105) -/

section Argument

variable {α : Type} {c : Config α}

theorem karg_raw (h : c.krnArgMode = .raw) (p : α) : karg c p = p := by rw [karg, h]

theorem karg_wrapped (h : c.krnArgMode = .wrapped) (p : α) : karg c p = c.num.wrap p := by rw [karg, h]

end Argument

/-- The floor of `p ÷ TAU` counts one turn more. -/
theorem real_wrap_periodic : Function.Periodic real.wrap (2 * Real.pi) := by
  intro p
  have hfloor : ⌊(p + 2 * Real.pi) / (2 * Real.pi)⌋ = ⌊p / (2 * Real.pi)⌋ + 1 := by
    rw [add_div, div_self Real.two_pi_pos.ne', Int.floor_add_one]
  rw [real_wrap_eq, real_wrap_eq, hfloor]
  push_cast
  ring

theorem exists_kernel_real_wrap (w : Wave) (p : ℝ) : ∃ v, kernel real w (real.wrap p) = some v ∧ -1 ≤ v ∧ v ≤ 1 := by
  obtain ⟨v, hv⟩ := Option.isSome_iff_exists.1 (kernel_real_isSome w (real.wrap p))
  obtain ⟨hlo, hhi, -⟩ := kernel_real_range (real_wrap_nonneg p) (real_wrap_lt_two_pi p) hv
  exact ⟨v, hv, hlo, hhi⟩

theorem kernel_real_saw_turn_add (p : ℝ) :
    kernel real .saw (2 * Real.pi + p) = some (2 * (p / (2 * Real.pi)) - 1 + 2) := by
  rw [kernel_real_saw, add_div, div_self Real.two_pi_pos.ne']
  ring_nf

theorem wrapFormula32_eq_some {p q : Num} : wrapFormula32 p = some q ↔ ∃ x t, round32 (p / tau32) = some x ∧
    round32 (tau32 * (x.floor : Rat)) = some t ∧ round32 (p - t) = some q := by
  simp [wrapFormula32, Option.bind_eq_some_iff]

theorem wrap32_of_formula {p q : Num} (h : wrapFormula32 p = some q) (h0 : 0 ≤ q) (h1 : q < tau32) : wrap32 p = q := by
  have hin : inTurn32 q = true := by simp [inTurn32, h0, h1]
  simp [wrap32, h, hin]

/-- Settles O17: `wrap` is periodic and lands in the turn on which the kernels are bounded; raw, the saw is linear. -/
theorem kernelArgumentModes : Obligations.KernelArgumentModes := by
  refine ⟨fun p x t q hx ht hq => wrap32_of_formula (wrapFormula32_eq_some.2 ⟨x, t, hx, ht, hq⟩),
    fun c w p hnum => ⟨fun hmode => ?_, fun hmode => ?_⟩⟩
  · rw [karg_wrapped hmode, karg_wrapped hmode, hnum, real_wrap_periodic]
    exact ⟨rfl, exists_kernel_real_wrap w p⟩
  · exact ⟨karg_raw hmode p, _, kernel_real_saw p, kernel_real_saw_turn_add p⟩

/-! ### The kernels rounded to binary32 (40_kernel.md R101 to R104) -/

section Binary32

variable (st : Straps)

theorem sign_binary32 (x : Num) : sign (binary32 st) x = if 0 < x then 1 else if x < 0 then -1 else 0 := by
  simp [sign]

/-- The word of a sign. -/
theorem enc32_sign (x : Num) :
    enc32 (sign (binary32 st) x) = some (if 0 < x then 0x3F800000 else if x < 0 then 0xBF800000 else 0) := by
  rw [sign_binary32]
  split_ifs
  · exact enc32_of_dec32 (by decide) dec32_one
  · exact enc32_of_dec32 (by decide) dec32_neg_one
  · rfl

theorem kernel_binary32_sine (x : Num) : kernel (binary32 st) .sine x = prim32 st.prim .sin x := rfl

theorem kernel_binary32_square {x v : Num} (h : prim32 st.prim .sin x = some v) :
    kernel (binary32 st) .square x = some (sign (binary32 st) v) := by
  simp [kernel, squareKernel, h]

theorem kernel_binary32_triangle {x v : Num} : kernel (binary32 st) .triangle x = some v ↔ ∃ a b c d,
    round32 (x / tau32) = some a ∧ round32 (a - 1 / 2) = some b ∧ round32 (2 * b) = some c ∧
    round32 (2 * |c|) = some d ∧ round32 (d - 1) = some v := by
  simp [kernel, triangleKernel, binary32_div st tau32_ne_zero, Option.bind_eq_some_iff, -one_div]

theorem kernel_binary32_saw {x v : Num} : kernel (binary32 st) .saw x = some v ↔ ∃ a b,
    round32 (x / tau32) = some a ∧ round32 (2 * a) = some b ∧ round32 (b - 1) = some v := by
  simp [kernel, sawKernel, binary32_div st tau32_ne_zero, Option.bind_eq_some_iff]

end Binary32

/-! ### `KRN.EVAL` (40_kernel.md R106) -/

theorem exec_krnEval_of_kernel {s : State} {w : Wave} {pw r : Word} {p v : Num} (hp : dec32 pw = some p)
    (hv : kernel (binary32 s.straps) w (karg s.config p) = some v) (hr : enc32 v = some r) :
    exec (.krnEval w pw) s = completes s s.units r := by
  have hread : operand pw = .ok p := operand_eq_ok.2 hp
  have heval : krnEval s.config w p s.units = .ok (s.units, .num v) := by
    rw [krnEval, config_num, hv]; rfl
  rw [exec_eq_perform, perform, hread, ok_bind, heval, answer_num hr]

/-- Settles O25, kernel by kernel at the argument of the switch. -/
theorem krnEvalReturnsTheKernel : Obligations.KrnEvalReturnsTheKernel := by
  intro s pw r p x hp hraw hwrapped
  have hx : karg s.config p = x := by
    cases hmode : s.straps.krnArgMode with
    | raw => rw [karg_raw hmode, hraw hmode]
    | wrapped => rw [karg_wrapped hmode, hwrapped hmode, config_num, binary32_wrap]
  have hcompletes {w : Wave} {r : Word} {v : Num} (hv : kernel (binary32 s.straps) w x = some v)
      (hr : enc32 v = some r) : exec (.krnEval w pw) s = completes s s.units r :=
    exec_krnEval_of_kernel hp (by rw [hx, hv]) hr
  refine ⟨fun v hv => ?sine, fun v hv => ?square, fun a b c d v ha hb hc hd hv => ?triangle,
    fun a b v ha hb hv => ?saw⟩
  case sine => exact hcompletes hv
  case square => exact hcompletes (kernel_binary32_square _ hv) (enc32_sign _ v)
  case triangle => exact hcompletes ((kernel_binary32_triangle _).2 ⟨a, b, c, d, ha, hb, hc, hd, hv⟩)
  case saw => exact hcompletes ((kernel_binary32_saw _).2 ⟨a, b, ha, hb, hv⟩)

end Sys2Proof.Machine
end

section
/-!
PROOFS. 41_oscillator.md: the phase of an oscillator over the reals, the record functions rounded to binary32 (R116,
shared with unit FM), and the commands of unit OSC.
-/

namespace Sys2Proof.Machine

/-! ### The phase over exact real arithmetic (41_oscillator.md R120) -/

theorem real_wrap_zero : real.wrap 0 = 0 := by simp [real_wrap_eq]

/-- A phase wrapped before it is advanced ends where it would have without: `wrap` takes away whole turns only. -/
theorem real_wrap_wrap_add (p x : ℝ) : real.wrap (real.wrap p + x) = real.wrap (p + x) := by
  have hturns : real.wrap p + x = p + x - ⌊p / (2 * Real.pi)⌋ * (2 * Real.pi) := by rw [real_wrap_eq]; ring
  rw [hturns, real_wrap_periodic.sub_int_mul_eq]

section Real

variable {c : Config ℝ} (hnum : c.num = real)
include hnum

theorem oscNew_real (w : Wave) (f a : ℝ) : oscNew c w f a = some ⟨w, f, a, 0, 2 * Real.pi * f / c.sr⟩ := by
  have hinc : phaseInc c f = some (2 * Real.pi * f / c.sr) :=
    phaseInc_eq_some.2 ⟨2 * Real.pi * f, by rw [hnum]; rfl, by rw [hnum]; rfl⟩
  have hzero : c.num.ofRat 0 = 0 := by rw [hnum]; exact Rat.cast_zero
  exact oscNew_eq_some.2 ⟨_, hinc, by rw [hzero]⟩

theorem oscAdvance_real (o : Osc ℝ) : oscAdvance c o = some { o with phase := real.wrap (o.phase + o.inc) } :=
  oscAdvance_eq_some.2 ⟨o.phase + o.inc, by rw [hnum]; rfl, by rw [hnum]⟩

/-- Advances only add up: `p` is the phase as it would be had it never been wrapped. -/
theorem oscRun_real {o : Osc ℝ} {p : ℝ} (hp : o.phase = real.wrap p) (n : ℕ) :
    oscRun c n o = some { o with phase := real.wrap (p + n * o.inc) } := by
  induction n generalizing o p with
  | zero => simp [oscRun, ← hp]
  | succ n ih =>
    have hnext : real.wrap (o.phase + o.inc) = real.wrap (p + o.inc) := by rw [hp, real_wrap_wrap_add]
    rw [oscRun, oscAdvance_real hnum, Option.bind_some, ih hnext]
    push_cast
    ring_nf

end Real

/-- Settles O18, by induction on the number of samples (`oscRun_real`), from the phase 0. -/
theorem oscillatorPhaseAfterSamples : Obligations.OscillatorPhaseAfterSamples := by
  intro c w f a n hnum _
  refine ⟨_, _, oscNew_real hnum w f a, oscRun_real hnum real_wrap_zero.symm n, ?_, rfl, rfl, rfl, rfl⟩
  rw [zero_add]

/-! ### The record functions rounded to binary32 (41_oscillator.md R110, R116) -/

section Binary32

variable {s : State} {o : Osc Num}

theorem phaseInc_binary32 {f x inc : Num} (hsr : s.straps.sr ≠ 0) (hx : round32 (tau32 * f) = some x)
    (hinc : round32 (x / s.straps.sr) = some inc) : phaseInc s.config f = some inc :=
  phaseInc_eq_some.2 ⟨x, hx, by rw [config_num, config_sr, binary32_div _ hsr, hinc]⟩

theorem oscNew_binary32 {w : Wave} {f a inc : Num} (hinc : phaseInc s.config f = some inc) :
    oscNew s.config w f a = some ⟨w, f, a, 0, inc⟩ :=
  oscNew_eq_some.2 ⟨inc, hinc, by rw [config_num, binary32_ofRat_zero]⟩

theorem oscAdvance_binary32 {q : Num} (hq : round32 (o.phase + o.inc) = some q) :
    oscAdvance s.config o = some { o with phase := wrap32 q } :=
  oscAdvance_eq_some.2 ⟨q, hq, rfl⟩

theorem oscGet_binary32 {k q v : Num} (hk : kernel (binary32 s.straps) o.type o.phase = some k)
    (hq : round32 (o.phase + o.inc) = some q) (hv : round32 (k * o.amp) = some v) :
    oscGet s.config o = some (v, { o with phase := wrap32 q }) :=
  oscGet_eq_some.2 ⟨k, hk, oscAdvance_binary32 hq, hv⟩

theorem karg_eq_of_mode {x y : Num} (hraw : s.straps.krnArgMode = .raw → y = x)
    (hwrapped : s.straps.krnArgMode = .wrapped → y = wrap32 x) : karg s.config x = y := by
  cases hmode : s.straps.krnArgMode with
  | raw => rw [karg_raw hmode, hraw hmode]
  | wrapped => rw [karg_wrapped hmode, hwrapped hmode, config_num, binary32_wrap]

/-- A kernel at `y`, the argument the switch `KRN_ARG_MODE` makes of the phase `x` (40_kernel.md R105). -/
theorem kernel_karg {w : Wave} {x y k : Num} (hraw : s.straps.krnArgMode = .raw → y = x)
    (hwrapped : s.straps.krnArgMode = .wrapped → y = wrap32 x) (hk : kernel (binary32 s.straps) w y = some k) :
    kernel (binary32 s.straps) w (karg s.config x) = some k := by
  rw [karg_eq_of_mode hraw hwrapped, hk]

theorem oscGetMod_binary32 {m x k q v : Num} (hx : round32 (o.phase + m) = some x)
    (hk : kernel (binary32 s.straps) o.type (karg s.config x) = some k) (hq : round32 (o.phase + o.inc) = some q)
    (hv : round32 (k * o.amp) = some v) : oscGetMod s.config o m = some (v, { o with phase := wrap32 q }) :=
  oscGetMod_eq_some.2 ⟨x, k, hx, hk, oscAdvance_binary32 hq, hv⟩

theorem oscAtPhase_scaled {p k v : Num} (hmode : s.straps.atphaseScaled = true)
    (hk : kernel (binary32 s.straps) o.type (karg s.config p) = some k) (hv : round32 (k * o.amp) = some v) :
    oscAtPhase s.config o p = some v := by
  rw [oscAtPhase, config_num, hk]
  exact (if_pos hmode).trans hv

theorem oscAtPhase_unscaled {p k : Num} (hmode : s.straps.atphaseScaled = false)
    (hk : kernel (binary32 s.straps) o.type (karg s.config p) = some k) : oscAtPhase s.config o p = some k := by
  rw [oscAtPhase, config_num, hk]
  exact if_neg (Bool.eq_false_iff.1 hmode)

end Binary32

/-! ### The commands (41_oscillator.md R111 to R119) -/

/-- A command that performs without a fault, to a result that has an encoding, completes. -/
theorem exec_of_perform {i : Instr} {s : State} {u : Units Num} {x : Result Num} {r : Word}
    (h : perform s.config operand i s.units = .ok (u, x)) (hr : x.encode enc32 = some r) :
    exec i s = completes s u r := by
  rw [exec_eq_perform, h, answer_ok hr]

section Commands

variable {s : State} {o o' : Osc Num}

theorem exec_oscInit {w : Wave} {fw aw : Word} {f a : Num} (hf : dec32 fw = some f) (ha : dec32 aw = some a)
    (hnew : oscNew s.config w f a = some o) :
    exec (.oscInit w fw aw) s = completes s { s.units with osc := some o } 0 := by
  refine exec_of_perform (x := .none) ?_ rfl
  rw [perform, operand_eq_ok.2 hf, ok_bind, operand_eq_ok.2 ha, ok_bind, oscInit, hnew]
  rfl

section Constructed

variable (ho : s.units.osc = some o)
include ho

theorem exec_oscSettype (w : Wave) :
    exec (.oscSettype w) s = completes s { s.units with osc := some { o with type := w } } 0 := by
  refine exec_of_perform (x := .none) ?_ rfl
  rw [perform, oscSettype, ho]
  rfl

theorem exec_oscSetfreq {fw : Word} {f : Num} (hf : dec32 fw = some f) (hset : oscSetFreq s.config o f = some o') :
    exec (.oscSetfreq fw) s = completes s { s.units with osc := some o' } 0 := by
  refine exec_of_perform (x := .none) ?_ rfl
  rw [perform, operand_eq_ok.2 hf, ok_bind, oscSetfreq, ho, configured_some, ok_bind, hset]
  rfl

theorem exec_oscSetamp {aw : Word} {a : Num} (ha : dec32 aw = some a) :
    exec (.oscSetamp aw) s = completes s { s.units with osc := some { o with amp := a } } 0 := by
  refine exec_of_perform (x := .none) ?_ rfl
  rw [perform, operand_eq_ok.2 ha, ok_bind, oscSetamp, ho]
  rfl

theorem exec_oscReset : exec .oscReset s = completes s { s.units with osc := some { o with phase := 0 } } 0 := by
  refine exec_of_perform (x := .none) ?_ rfl
  rw [perform, oscReset, ho, config_num, binary32_ofRat_zero]
  rfl

theorem exec_oscGetvalue {v : Num} {r : Word} (hget : oscGet s.config o = some (v, o')) (hr : enc32 v = some r) :
    exec .oscGetvalue s = completes s { s.units with osc := some o' } r := by
  refine exec_of_perform (x := .num v) ?_ hr
  rw [perform, oscGetvalue, ho, configured_some, ok_bind, hget]
  rfl

theorem exec_oscGetmod {mw r : Word} {m v : Num} (hm : dec32 mw = some m)
    (hget : oscGetMod s.config o m = some (v, o')) (hr : enc32 v = some r) :
    exec (.oscGetmod mw) s = completes s { s.units with osc := some o' } r := by
  refine exec_of_perform (x := .num v) ?_ hr
  rw [perform, operand_eq_ok.2 hm, ok_bind, oscGetmod, ho, configured_some, ok_bind, hget]
  rfl

theorem exec_oscAtphase {pw r : Word} {p v : Num} (hp : dec32 pw = some p)
    (hat : oscAtPhase s.config o p = some v) (hr : enc32 v = some r) :
    exec (.oscAtphase pw) s = completes s s.units r := by
  refine exec_of_perform (x := .num v) ?_ hr
  rw [perform, operand_eq_ok.2 hp, ok_bind, oscAtphase, ho, configured_some, ok_bind, hat]
  rfl

end Constructed

end Commands

/-- Settles O26: the record is `oscNew`'s. -/
theorem oscInitMakesTheRecord : Obligations.OscInitMakesTheRecord :=
  fun _ _ _ _ _ _ _ _ hf ha hsr hx hinc => exec_oscInit hf ha (oscNew_binary32 (phaseInc_binary32 hsr hx hinc))

/-- Settles O27, command by command; only `OSC.SETFREQ` can fault, in the increment. -/
theorem oscSettersWriteTheirFields : Obligations.OscSettersWriteTheirFields :=
  fun _ _ ho => ⟨exec_oscSettype ho,
    fun _ _ _ _ hf hsr hx hinc =>
      exec_oscSetfreq ho hf (oscSetFreq_eq_some.2 ⟨_, phaseInc_binary32 hsr hx hinc, rfl⟩),
    fun _ _ => exec_oscSetamp ho, exec_oscReset ho⟩

/-- Settles O28: both commands advance by `oscAdvance`, which does not see the modulation. -/
theorem oscSamplesThenAdvances : Obligations.OscSamplesThenAdvances := by
  intro s o q k v r ho hq hv hr
  refine ⟨fun hk => exec_oscGetvalue ho (oscGet_binary32 hk hq hv) hr, fun mw m x hm hx hk => ?_⟩
  have harg := kernel_karg (x := x) (fun hmode => by rw [hmode]) (fun hmode => by rw [hmode]) hk
  exact exec_oscGetmod ho hm (oscGetMod_binary32 hx harg hq hv) hr

/-- Settles O29, for each setting of the scaling switch. -/
theorem oscAtphaseQueries : Obligations.OscAtphaseQueries := by
  intro s o pw r p k ho hp hk
  have harg := kernel_karg (x := p) (fun hmode => by rw [hmode]) (fun hmode => by rw [hmode]) hk
  exact ⟨fun v hmode hv => exec_oscAtphase ho hp (oscAtPhase_scaled hmode harg hv),
    fun hmode => exec_oscAtphase ho hp (oscAtPhase_unscaled hmode harg)⟩

end Sys2Proof.Machine
end

section
/-!
PROOFS. 42_envelope.md R143, 46_fm.md R223 and 20_memory.md R60: a command writes its own unit only, and what it answers
and writes there depends on that unit and the straps alone.
-/

namespace Sys2Proof.Machine

variable {α : Type}

theorem unitNumber_of_encode {i : Instr} {n f : BitVec 4} {k : BitVec 3} {s : BitVec 5} {x : BitVec 16}
    {ops : List Word} (h : encode i = header n f k s x :: ops) : unitNumber i = n.toNat := by
  rw [unitNumber, h, List.headD_cons, unitOf_header]

/-! ### The unit a command writes -/

/-- `u'` differs from `u` in the fields of unit `n` only (30_encoding.md R71). -/
structure WritesOnly (n : ℕ) (u u' : Units α) : Prop where
  osc : n ≠ 2 → u'.osc = u.osc
  env : n ≠ 3 → u'.env = u.env
  bq : n ≠ 4 → u'.bq = u.bq
  ng : n ≠ 5 → u'.ng = u.ng
  rng : n ≠ 5 → u'.rng = u.rng
  wt : n ≠ 6 → u'.wt = u.wt
  fm : n ≠ 7 → u'.fm = u.fm

namespace WritesOnly

variable {u : Units α}

theorem refl (n : ℕ) (u : Units α) : WritesOnly n u u :=
  ⟨fun _ => rfl, fun _ => rfl, fun _ => rfl, fun _ => rfl, fun _ => rfl, fun _ => rfl, fun _ => rfl⟩

theorem setOsc (o : Osc α) : WritesOnly 2 u { u with osc := some o } := { refl 2 u with osc := fun h => absurd rfl h }

theorem setEnv (e : Env α) : WritesOnly 3 u { u with env := some e } := { refl 3 u with env := fun h => absurd rfl h }

theorem setBq (b : Bq α) : WritesOnly 4 u { u with bq := some b } := { refl 4 u with bq := fun h => absurd rfl h }

theorem setNoise (g : Option (Ng α)) (r : ℕ) : WritesOnly 5 u { u with ng := g, rng := r } :=
  { refl 5 u with ng := fun h => absurd rfl h, rng := fun h => absurd rfl h }

theorem setWt (w : Wt α) : WritesOnly 6 u { u with wt := w } := { refl 6 u with wt := fun h => absurd rfl h }

theorem setFm (f : Fm α) : WritesOnly 7 u { u with fm := some f } := { refl 7 u with fm := fun h => absurd rfl h }

end WritesOnly

/-- Every command is a chain of checks and computations that ends in one write, to the unit its header names. -/
theorem perform_writesOnly (c : Config α) (read : Word → Except FaultCode α) (i : Instr) (u : Units α) :
    Ensures (fun b => WritesOnly (unitNumber i) u b.1) (perform c read i u) := by
  cases i
  case sysRdreg | krnEval | oscAtphase | wtAtphase | wtRdtab =>
    repeat refine .after fun _ _ => ?_
    exact .pure (.refl _ u)
  case ngSeed k =>
    rw [unitNumber_of_encode rfl]
    show Ensures _ (ngSeed c k u)
    unfold ngSeed
    split
    · exact .ok (.setNoise _ _)
    · exact .error _
  all_goals rw [unitNumber_of_encode rfl]
  case oscInit | oscSettype | oscSetfreq | oscSetamp | oscReset | oscGetvalue | oscGetmod =>
    repeat refine .after fun _ _ => ?_
    exact .pure (.setOsc _)
  case envInit | envSetattack | envSetdecay | envSetsustain | envSetrelease | envSetratioa | envSetratiodr | envGate
      | envProcess =>
    repeat refine .after fun _ _ => ?_
    exact .pure (.setEnv _)
  case bqInit | bqSettype | bqSetfreq | bqSetq | bqSetgain | bqProcess =>
    repeat refine .after fun _ _ => ?_
    exact .pure (.setBq _)
  case ngSettype | ngGetvalue =>
    repeat refine .after fun _ _ => ?_
    exact .pure (.setNoise _ _)
  case wtBuild | wtLoad | wtReset | wtGetfreq =>
    repeat refine .after fun _ _ => ?_
    exact .pure (.setWt _)
  case fmInit | fmCsettype | fmCsetfreq | fmCsetamp | fmCreset | fmAddop | fmRemop | fmOpsettype | fmOpsetfreq
      | fmOpsetamp | fmOpreset | fmSample =>
    repeat refine .after fun _ _ => ?_
    exact .pure (.setFm _)

theorem exec_answeredOnce {i : Instr} {s t : State} (h : exec i s = .next t) : AnsweredOnce s t := by
  rw [exec_eq_perform, answer] at h
  cases h
  exact commit_answeredOnce s _

/-- Settles O54: a command that faults writes no unit, and one that does not ends in a write to its own. -/
theorem commandsTouchOnlyTheirUnit : Obligations.CommandsTouchOnlyTheirUnit := by
  intro i s t h
  obtain ⟨hpkt, hcmd, hreset, hstraps, -⟩ := exec_answeredOnce h
  have hwrites : WritesOnly (unitNumber i) s.units t.units := by
    obtain ⟨-, hu | ⟨r, hp⟩⟩ := exec_units_cases h
    · rw [hu]; exact .refl _ _
    · exact perform_writesOnly _ _ i _ _ hp
  obtain ⟨hosc, henv, hbq, hng, hrng, hwt, hfm⟩ := hwrites
  exact ⟨hosc, henv, hbq, fun hn => ⟨hng hn, hrng hn⟩, hwt, hfm, hstraps, hcmd, hpkt, hreset⟩

/-! ### Two blocks that agree on the unit (20_memory.md R60) -/

/-- Two computations end alike: in one fault, or in values the relation `P` holds between. -/
inductive EndsAlike {β : Type} (P : β → β → Prop) : Except FaultCode β → Except FaultCode β → Prop
  | error (e : FaultCode) : EndsAlike P (.error e) (.error e)
  | ok {x y : β} (h : P x y) : EndsAlike P (.ok x) (.ok y)

namespace EndsAlike

variable {β γ : Type} {P : β → β → Prop}

theorem pure {x y : β} (h : P x y) : EndsAlike P (Pure.pure x) (Pure.pure y) := .ok h

/-- A first computation that both make. -/
theorem after {a : Except FaultCode γ} {f g : γ → Except FaultCode β} (h : ∀ x, EndsAlike P (f x) (g x)) :
    EndsAlike P (a >>= f) (a >>= g) := by
  cases a with
  | error e => exact .error e
  | ok x => exact h x

theorem refl_of {a : Except FaultCode β} (h : ∀ x, P x x) : EndsAlike P a a := by
  cases a with
  | error e => exact .error e
  | ok x => exact .ok (h x)

end EndsAlike

/-- The results are the same, and the units agree on everything the commands of unit `n` may read. -/
def SameAnswer (n : ℕ) (x y : Answer α) : Prop := agreeOn n x.1 y.1 ∧ x.2 = y.2

/-- Units that agree on a command's unit take it through the same checks and computations. -/
theorem perform_endsAlike (c : Config α) (read : Word → Except FaultCode α) (i : Instr) {u v : Units α}
    (h : agreeOn (unitNumber i) u v) :
    EndsAlike (SameAnswer (unitNumber i)) (perform c read i u) (perform c read i v) := by
  obtain ⟨uosc, uenv, ubq, ung, urng, uwt, ufm⟩ := u
  obtain ⟨vosc, venv, vbq, vng, vrng, vwt, vfm⟩ := v
  cases i
  all_goals rw [unitNumber_of_encode rfl] at h ⊢
  case sysRdreg => cases h; exact .refl_of fun _ => ⟨rfl, rfl⟩
  case krnEval =>
    repeat refine .after fun _ => ?_
    exact .pure ⟨trivial, rfl⟩
  case ngSeed k =>
    obtain ⟨rfl, rfl⟩ : ung = vng ∧ urng = vrng := h
    show EndsAlike _ (ngSeed c k _) (ngSeed c k _)
    unfold ngSeed
    split
    · exact .ok ⟨⟨rfl, rfl⟩, rfl⟩
    · exact .error _
  case ngSettype | ngGetvalue =>
    obtain ⟨rfl, rfl⟩ : ung = vng ∧ urng = vrng := h
    repeat refine .after fun _ => ?_
    exact .pure ⟨⟨rfl, rfl⟩, rfl⟩
  case' oscInit | oscSettype | oscSetfreq | oscSetamp | oscReset | oscGetvalue | oscGetmod | oscAtphase =>
    obtain rfl : uosc = vosc := h
  case' envInit | envSetattack | envSetdecay | envSetsustain | envSetrelease | envSetratioa | envSetratiodr | envGate
      | envProcess => obtain rfl : uenv = venv := h
  case' bqInit | bqSettype | bqSetfreq | bqSetq | bqSetgain | bqProcess => obtain rfl : ubq = vbq := h
  case' wtBuild | wtLoad | wtReset | wtGetfreq | wtAtphase | wtRdtab => obtain rfl : uwt = vwt := h
  case' fmInit | fmCsettype | fmCsetfreq | fmCsetamp | fmCreset | fmAddop | fmRemop | fmOpsettype | fmOpsetfreq
      | fmOpsetamp | fmOpreset | fmSample => obtain rfl : ufm = vfm := h
  all_goals
    repeat refine .after fun _ => ?_
    exact .pure ⟨rfl, rfl⟩

/-- Commands that end alike are answered alike. -/
theorem commit_endsAlike {n : ℕ} {s s' : State} {a a' : Except FaultCode (Answer Num)}
    (ha : EndsAlike (SameAnswer n) a a') (hs : agreeOn n s.units s'.units) :
    agreeOn n (s.commit a).units (s'.commit a').units ∧
    ∃ x y, (s.commit a).responses = s.responses ++ [x, y] ∧ (s'.commit a').responses = s'.responses ++ [x, y] := by
  cases ha with
  | error e => exact ⟨hs, e.status, 0, rfl, rfl⟩
  | @ok x y h =>
    obtain ⟨u, r⟩ := x
    obtain ⟨u', r'⟩ := y
    obtain ⟨hu, rfl⟩ : agreeOn n u u' ∧ r = r' := h
    cases hw : r.encode enc32 with
    | none =>
      simp only [State.commit, finish, hw]
      exact ⟨hs, _, _, rfl, rfl⟩
    | some w =>
      simp only [State.commit, finish, hw]
      exact ⟨hu, _, _, rfl, rfl⟩

/-- Settles O56: with the same straps the command is the same function of the units above the wire. -/
theorem unitsDoNotInterfere : Obligations.UnitsDoNotInterfere := by
  intro i s s' t t' hstraps hagree h h'
  have hconfig : s'.config = s.config := congrArg configOf hstraps.symm
  rw [exec_eq_perform, answer] at h h'
  rw [hconfig] at h'
  cases h
  cases h'
  exact commit_endsAlike (perform_endsAlike s.config operand i hagree) hagree

end Sys2Proof.Machine
end

section
/-!
PROOFS. 42_envelope.md R130 to R143: the derived fields, the commands of unit ENV and the transition table. What one
sample can do comes first, the three stages at once.
-/

namespace Sys2Proof.Machine

variable {α : Type}

/-! ### One sample (42_envelope.md R141) -/

/-- What the three stages of R141 differ in: the recurrence, when its new value has reached the threshold, and the level
and the state the envelope then enters. -/
structure Stage (α : Type) where
  base : α
  coef : α
  reached : α → Bool
  level : α
  next : EnvState

/-- The stage the envelope is in; `Idle` and `Sustain` are none. -/
def runningStage (n : NumOps α) (e : Env α) : Option (Stage α) :=
  match e.envState with
  | .idle | .sustain => none
  | .attack => some ⟨e.attackBase, e.attackCoef, fun o => n.le (n.ofRat 1) o, n.ofRat 1, .decay⟩
  | .decay => some ⟨e.decayBase, e.decayCoef, fun o => n.le o e.sustain, e.sustain, .sustain⟩
  | .release => some ⟨e.releaseBase, e.releaseCoef, fun o => n.le o (n.ofRat 0), n.ofRat 0, .idle⟩

section Sample

variable {n : NumOps α} {e e' : Env α} {g : Stage α} {o : α}

theorem runningStage_attack (h : e.envState = .attack) : runningStage n e =
    some ⟨e.attackBase, e.attackCoef, fun o => n.le (n.ofRat 1) o, n.ofRat 1, .decay⟩ := by rw [runningStage, h]

theorem runningStage_decay (h : e.envState = .decay) : runningStage n e =
    some ⟨e.decayBase, e.decayCoef, fun o => n.le o e.sustain, e.sustain, .sustain⟩ := by rw [runningStage, h]

theorem runningStage_release (h : e.envState = .release) : runningStage n e =
    some ⟨e.releaseBase, e.releaseCoef, fun o => n.le o (n.ofRat 0), n.ofRat 0, .idle⟩ := by rw [runningStage, h]

theorem runningStage_attack_binary32 {p : Straps} {e : Env Num} (h : e.envState = .attack) :
    runningStage (binary32 p) e = some ⟨e.attackBase, e.attackCoef, fun o => decide (1 ≤ o), 1, .decay⟩ := by
  rw [runningStage_attack h, binary32_ofRat_one]; rfl

theorem runningStage_release_binary32 {p : Straps} {e : Env Num} (h : e.envState = .release) :
    runningStage (binary32 p) e = some ⟨e.releaseBase, e.releaseCoef, fun o => decide (o ≤ 0), 0, .idle⟩ := by
  rw [runningStage_release h, binary32_ofRat_zero]; rfl

/-- What a sample does: nothing outside the stages; in a stage the recurrence, and where its value has reached the
threshold the stage's level and the next state. -/
theorem envStep_eq (n : NumOps α) (e : Env α) : envStep n e =
    match runningStage n e with
    | none => some e
    | some g => (envRecur n g.base e.envOut g.coef).map fun o =>
      if g.reached o then { e with envOut := g.level, envState := g.next } else { e with envOut := o } := by
  unfold envStep runningStage
  cases e.envState <;> simp only [Option.bind_eq_bind, Option.pure_def, Option.map_eq_bind] <;> rfl

theorem envStep_of_rest (h : e.envState = .idle ∨ e.envState = .sustain) : envStep n e = some e := by
  rcases h with h | h <;> rw [envStep, h]

theorem envStep_of_reached (hg : runningStage n e = some g) (ho : envRecur n g.base e.envOut g.coef = some o)
    (hr : g.reached o = true) : envStep n e = some { e with envOut := g.level, envState := g.next } := by
  simp only [envStep_eq, hg, ho, Option.map_some, if_pos hr]

theorem envStep_of_not_reached (hg : runningStage n e = some g) (ho : envRecur n g.base e.envOut g.coef = some o)
    (hr : g.reached o = false) : envStep n e = some { e with envOut := o } := by
  simp only [envStep_eq, hg, ho, Option.map_some, hr, Bool.false_eq_true, if_false]

/-- A sample leaves the state, or ends the stage. -/
theorem envState_of_envStep (h : envStep n e = some e') :
    e'.envState = e.envState ∨ ∃ g, runningStage n e = some g ∧ e'.envState = g.next := by
  rw [envStep_eq] at h
  cases hg : runningStage n e with
  | none =>
    simp only [hg] at h
    exact .inl (by rw [Option.some.inj h])
  | some g =>
    simp only [hg, Option.map_eq_some_iff] at h
    obtain ⟨o, -, rfl⟩ := h
    split
    · exact .inr ⟨g, rfl, rfl⟩
    · exact .inl rfl

end Sample

/-! ### The derived fields (42_envelope.md R132 to R134) -/

theorem calcCoef_eq_some {n : NumOps α} {rate ratio v : α} (h : n.lt (n.ofRat 0) rate = true) :
    calcCoef n rate ratio = some v ↔ ∃ a b l m d, n.add (n.ofRat 1) ratio = some a ∧ n.div a ratio = some b ∧
      n.ln b = some l ∧ n.sub (n.ofRat 0) l = some m ∧ n.div m rate = some d ∧ n.exp d = some v := by
  simp only [calcCoef, h, if_true, Option.bind_eq_bind, Option.bind_eq_some_iff]
  constructor
  · rintro ⟨a, ha, b, hb, l, hl, m, hm, d, hd, hv⟩
    exact ⟨a, b, l, m, d, ha, hb, hl, hm, hd, hv⟩
  · rintro ⟨a, b, l, m, d, ha, hb, hl, hm, hd, hv⟩
    exact ⟨a, ha, b, hb, l, hl, m, hm, d, hd, hv⟩

theorem envBaseDefault_eq_some {n : NumOps α} {ratioA ratioDR level ac dc rc : α} {b : EnvBases α} :
    envBaseDefault n ratioA ratioDR level ac dc rc = some b ↔ ∃ a1 a2 d1 d2 r1 r2,
      n.add (n.ofRat 1) ratioA = some a1 ∧ n.sub (n.ofRat 1) ac = some a2 ∧ n.mul a1 a2 = some b.attack ∧
      n.sub level ratioDR = some d1 ∧ n.sub (n.ofRat 1) dc = some d2 ∧ n.mul d1 d2 = some b.decay ∧
      n.sub (n.ofRat 0) ratioDR = some r1 ∧ n.sub (n.ofRat 1) rc = some r2 ∧ n.mul r1 r2 = some b.release := by
  simp only [envBaseDefault, Option.bind_eq_bind, Option.bind_eq_some_iff, Option.pure_def, Option.some.injEq]
  constructor
  · rintro ⟨a1, ha1, a2, ha2, a, ha, d1, hd1, d2, hd2, d, hd, r1, hr1, r2, hr2, r, hr, rfl⟩
    exact ⟨a1, a2, d1, d2, r1, r2, ha1, ha2, ha, hd1, hd2, hd, hr1, hr2, hr⟩
  · rintro ⟨a1, a2, d1, d2, r1, r2, ha1, ha2, ha, hd1, hd2, hd, hr1, hr2, hr⟩
    exact ⟨a1, ha1, a2, ha2, _, ha, d1, hd1, d2, hd2, _, hd, r1, hr1, r2, hr2, _, hr, rfl⟩

/-- The derivation writes no parameter and neither dynamic field (42_envelope.md R134, R143). -/
theorem envDerive_frame {c : Config α} {e e' : Env α} (h : envDerive c e = some e') :
    e'.attackRate = e.attackRate ∧ e'.decayRate = e.decayRate ∧ e'.releaseRate = e.releaseRate ∧
    e'.sustain = e.sustain ∧ e'.ratioA = e.ratioA ∧ e'.ratioDR = e.ratioDR ∧ e'.envState = e.envState ∧
    e'.envOut = e.envOut := by
  obtain ⟨_, _, _, _, -, -, -, -, rfl⟩ := envDerive_eq_some.1 h
  exact ⟨rfl, rfl, rfl, rfl, rfl, rfl, rfl, rfl⟩

theorem calcCoef_binary32_of_nonpos (p : Straps) {rate : Num} (h : rate ≤ 0) (ratio : Num) :
    calcCoef (binary32 p) rate ratio = some 0 := by
  simp [calcCoef, not_lt.2 h]

theorem calcCoef_real (rate ratio : ℝ) : calcCoef real rate ratio =
    some (if 0 < rate then Real.exp (-Real.log ((1 + ratio) / ratio) / rate) else 0) := by
  by_cases h : 0 < rate
  · have hlt : real.lt (real.ofRat 0) rate = true := by simpa [real] using h
    rw [if_pos h, calcCoef_eq_some hlt]
    exact ⟨_, _, _, _, _, rfl, rfl, rfl, rfl, rfl, by simp [real]⟩
  · simp [calcCoef, real, h]

theorem envBaseDefault_real (ratioA ratioDR level ac dc rc : ℝ) : envBaseDefault real ratioA ratioDR level ac dc rc =
    some ⟨(1 + ratioA) * (1 - ac), (level - ratioDR) * (1 - dc), (0 - ratioDR) * (1 - rc)⟩ := by
  simp [envBaseDefault, real]

/-- Settles O30, formula by formula: both numerics run the same functions, the one rounded after each operation and the
other exact. -/
theorem envelopeCoefficientFormula : Obligations.EnvelopeCoefficientFormula := by
  refine ⟨fun s rate ratio => ⟨fun h => calcCoef_binary32_of_nonpos s.straps h ratio, ?_⟩, ?_,
    fun _ _ _ => envDerive_eq_some, calcCoef_real, fun c e hnum hbase => ?_⟩
  · intro hrate hratio a b l m d v ha hb hl hm hd hv
    have hlt : (binary32 s.straps).lt ((binary32 s.straps).ofRat 0) rate = true := by simpa using hrate
    rw [config_num, calcCoef_eq_some hlt, binary32_ofRat_one, binary32_ofRat_zero]
    exact ⟨a, b, l, m, d, ha, by rw [binary32_div _ hratio, hb], hl, hm, by rw [binary32_div _ hrate.ne', hd], hv⟩
  · intro s ratioA ratioDR level ac dc rc a1 a2 a d1 d2 d r1 r2 r hstrap ha1 ha2 ha hd1 hd2 hd hr1 hr2 hr
    show envBaseOf s.straps ratioA ratioDR level ac dc rc = _
    rw [envBaseOf_reference hstrap, envBaseDefault_eq_some, binary32_ofRat_one, binary32_ofRat_zero]
    exact ⟨a1, a2, d1, d2, r1, r2, ha1, ha2, ha, hd1, hd2, hd, hr1, hr2, hr⟩
  · refine ⟨_, _, _, calcCoef_real _ _, calcCoef_real _ _, calcCoef_real _ _, envDerive_eq_some.2 ?_⟩
    rw [hnum, hbase]
    exact ⟨_, _, _, _, calcCoef_real _ _, calcCoef_real _ _, calcCoef_real _ _, envBaseDefault_real _ _ _ _ _ _, rfl⟩

/-! ### The commands (42_envelope.md R131 to R142) -/

theorem setEnv_self {u : Units α} {e : Env α} (h : u.env = some e) : { u with env := some e } = u := by rw [← h]

/-- A command of unit ENV that ends in the derivation of the envelope completes where the derivation does. -/
theorem exec_of_derives {i : Instr} {s : State} {x : Option (Env Num)} {e : Env Num}
    (h : perform s.config operand i s.units =
      (numeric x >>= fun e' => pure ({ s.units with env := some e' }, .none))) (hx : x = some e) :
    exec i s = completes s { s.units with env := some e } 0 :=
  exec_of_perform (x := .none) (h.trans (by rw [hx]; rfl)) rfl

section Commands

variable {s : State} {e e' : Env Num} {w : Word} {x y : Num}

theorem exec_envInit {aw dw lw rw : Word} {a d level r ra rd rr ac dc rc : Num} {b : EnvBases Num}
    (ha : dec32 aw = some a) (hd : dec32 dw = some d) (hl : dec32 lw = some level) (hr : dec32 rw = some r)
    (h0 : 0 ≤ level) (h1 : level ≤ 1) (hra : round32 (a * s.straps.sr) = some ra)
    (hrd : round32 (d * s.straps.sr) = some rd) (hrr : round32 (r * s.straps.sr) = some rr)
    (hac : calcCoef s.config.num ra (finite32 0x3E99999A) = some ac)
    (hdc : calcCoef s.config.num rd (finite32 0x38D1B717) = some dc)
    (hrc : calcCoef s.config.num rr (finite32 0x38D1B717) = some rc)
    (hb : s.config.envBase (finite32 0x3E99999A) (finite32 0x38D1B717) level ac dc rc = some b) :
    exec (.envInit aw dw lw rw) s = completes s { s.units with env := some ⟨ra, rd, rr, level, finite32 0x3E99999A,
      finite32 0x38D1B717, ac, dc, rc, b.attack, b.decay, b.release, .idle, 0⟩ } 0 := by
  have hvalid : sustainValid s.config.num level = true := sustainValid_iff.2 ⟨h0, h1⟩
  have hmul {x y : Num} (h : round32 (x * s.straps.sr) = some y) : s.config.num.mul x s.config.sr = some y := h
  refine exec_of_derives (x := envDerive s.config ⟨ra, rd, rr, level, finite32 0x3E99999A, finite32 0x38D1B717,
    0, 0, 0, 0, 0, 0, .idle, 0⟩) ?_ (envDerive_eq_some.2 ⟨ac, dc, rc, b, hac, hdc, hrc, hb, rfl⟩)
  simp only [perform, operand_eq_ok.2 ha, operand_eq_ok.2 hd, operand_eq_ok.2 hl, operand_eq_ok.2 hr, ok_bind, envInit,
    hvalid, require_true, hmul hra, hmul hrd, hmul hrr, Option.bind_eq_bind, Option.bind_some]
  rw [config_num, binary32_ofRat_zero, binary32_ratioA, binary32_ratioDR]

/-- A new rate is computed from the operand and the sample rate before the derivation (42_envelope.md R135, R136,
R138). -/
theorem derives_of_rate {f : Num → Env Num} (hy : round32 (x * s.straps.sr) = some y)
    (hd : envDerive s.config (f y) = some e') :
    (s.config.num.mul x s.config.sr >>= fun y => envDerive s.config (f y)) = some e' := by
  have hmul : s.config.num.mul x s.config.sr = some y := hy
  rw [hmul]
  exact hd

section Constructed

variable (he : s.units.env = some e)
include he

theorem exec_envGate (on : Bool) : exec (.envGate on) s =
    completes s { s.units with env := some { e with envState := gateState on e.envState } } 0 := by
  refine exec_of_perform (x := .none) ?_ rfl
  rw [perform, envGate, he]
  rfl

theorem exec_envProcess {r : Word} (hstep : envStep (binary32 s.straps) e = some e') (hr : enc32 e'.envOut = some r) :
    exec .envProcess s = completes s { s.units with env := some e' } r := by
  refine exec_of_perform (x := .num e'.envOut) ?_ hr
  rw [perform, envProcess, he, configured_some, ok_bind, config_num, hstep]
  rfl

theorem exec_envProcess_reached {g : Stage Num} {o : Num} {r : Word}
    (hg : runningStage (binary32 s.straps) e = some g)
    (ho : envRecur (binary32 s.straps) g.base e.envOut g.coef = some o) (hend : g.reached o = true)
    (hr : enc32 g.level = some r) : exec .envProcess s =
      completes s { s.units with env := some { e with envOut := g.level, envState := g.next } } r :=
  exec_envProcess he (envStep_of_reached hg ho hend) hr

theorem exec_envProcess_not_reached {g : Stage Num} {o : Num} {r : Word}
    (hg : runningStage (binary32 s.straps) e = some g)
    (ho : envRecur (binary32 s.straps) g.base e.envOut g.coef = some o) (hend : g.reached o = false)
    (hr : enc32 o = some r) : exec .envProcess s =
      completes s { s.units with env := some { e with envOut := o } } r :=
  exec_envProcess he (envStep_of_not_reached hg ho hend) hr

theorem exec_envSetattack (hx : dec32 w = some x) (hy : round32 (x * s.straps.sr) = some y)
    (hd : envDerive s.config { e with attackRate := y } = some e') :
    exec (.envSetattack w) s = completes s { s.units with env := some e' } 0 := by
  refine exec_of_derives ?_ (derives_of_rate (f := fun y => { e with attackRate := y }) hy hd)
  rw [perform, operand_eq_ok.2 hx, ok_bind, envSetattack, he, configured_some, ok_bind]

theorem exec_envSetdecay (hx : dec32 w = some x) (hy : round32 (x * s.straps.sr) = some y)
    (hd : envDerive s.config { e with decayRate := y } = some e') :
    exec (.envSetdecay w) s = completes s { s.units with env := some e' } 0 := by
  refine exec_of_derives ?_ (derives_of_rate (f := fun y => { e with decayRate := y }) hy hd)
  rw [perform, operand_eq_ok.2 hx, ok_bind, envSetdecay, he, configured_some, ok_bind]

theorem exec_envSetrelease (hx : dec32 w = some x) (hy : round32 (x * s.straps.sr) = some y)
    (hd : envDerive s.config { e with releaseRate := y } = some e') :
    exec (.envSetrelease w) s = completes s { s.units with env := some e' } 0 := by
  refine exec_of_derives ?_ (derives_of_rate (f := fun y => { e with releaseRate := y }) hy hd)
  rw [perform, operand_eq_ok.2 hx, ok_bind, envSetrelease, he, configured_some, ok_bind]

theorem exec_envSetsustain (hx : dec32 w = some x) (h0 : 0 ≤ x) (h1 : x ≤ 1)
    (hd : envDerive s.config { e with sustain := x } = some e') :
    exec (.envSetsustain w) s = completes s { s.units with env := some e' } 0 := by
  have hvalid : sustainValid s.config.num x = true := sustainValid_iff.2 ⟨h0, h1⟩
  refine exec_of_derives ?_ hd
  rw [perform, operand_eq_ok.2 hx, ok_bind, envSetsustain, he, configured_some, ok_bind, hvalid, require_true, ok_bind]

theorem exec_envSetratioa (hx : dec32 w = some x)
    (hd : envDerive s.config { e with ratioA := max x (finite32 0x3089705F) } = some e') :
    exec (.envSetratioa w) s = completes s { s.units with env := some e' } 0 := by
  refine exec_of_derives ?_ hd
  rw [perform, operand_eq_ok.2 hx, ok_bind, envSetratioa, he, configured_some, ok_bind, config_num, binary32_ratioMin,
    binary32_maxNum]

theorem exec_envSetratiodr (hx : dec32 w = some x)
    (hd : envDerive s.config { e with ratioDR := max x (finite32 0x3089705F) } = some e') :
    exec (.envSetratiodr w) s = completes s { s.units with env := some e' } 0 := by
  refine exec_of_derives ?_ hd
  rw [perform, operand_eq_ok.2 hx, ok_bind, envSetratiodr, he, configured_some, ok_bind, config_num, binary32_ratioMin,
    binary32_maxNum]

end Constructed

end Commands

/-- Settles O31: the derivation from the parameters of `ENV.INIT`. -/
theorem envInitMakesTheEnvelope : Obligations.EnvInitMakesTheEnvelope :=
  fun _ _ _ _ _ _ _ _ _ _ _ _ _ _ _ _ ha hd hl hr h0 h1 hra hrd hrr hac hdc hrc hb =>
    exec_envInit ha hd hl hr h0 h1 hra hrd hrr hac hdc hrc hb

/-- Settles O32, setter by setter: each ends in the derivation, which writes no parameter. -/
theorem envSettersRederive : Obligations.EnvSettersRederive := fun _ _ _ _ _ he hx =>
  ⟨fun _ hy => ⟨fun hd => ⟨exec_envSetattack he hx hy hd, envDerive_frame hd⟩,
      fun hd => ⟨exec_envSetdecay he hx hy hd, envDerive_frame hd⟩,
      fun hd => ⟨exec_envSetrelease he hx hy hd, envDerive_frame hd⟩⟩,
    fun h0 h1 hd => ⟨exec_envSetsustain he hx h0 h1 hd, envDerive_frame hd⟩,
    fun hd => ⟨exec_envSetratioa he hx hd, envDerive_frame hd⟩,
    fun hd => ⟨exec_envSetratiodr he hx hd, envDerive_frame hd⟩⟩

theorem gateState_off {st : EnvState} (h : st ≠ .idle) : gateState false st = .release := by
  cases st with
  | idle => exact absurd rfl h
  | attack | decay | sustain | release => rfl

/-- Settles O33, by the table of `gateState`. -/
theorem envGateForcesTheState : Obligations.EnvGateForcesTheState := by
  intro s e he
  refine ⟨exec_envGate he true, fun hst => ?_, fun hst => ?_⟩
  · rw [exec_envGate he false, gateState_off hst]
  · have hgate : gateState false e.envState = e.envState := by rw [hst]; rfl
    rw [exec_envGate he false, hgate]
    exact congrArg (completes s · 0) (setEnv_self he)

theorem enc32_one : enc32 1 = some 0x3F800000 := by decide +kernel

/-- Settles O34: outside the stages a sample changes nothing, and in a stage it is the recurrence and the test. -/
theorem envProcessStepsTheStage : Obligations.EnvProcessStepsTheStage := by
  intro s e o t r he
  have hrecur {base coef : Num} (ht : round32 (e.envOut * coef) = some t) (ho : round32 (base + t) = some o) :
      envRecur (binary32 s.straps) base e.envOut coef = some o := by
    simp [envRecur, ht, ho]
  refine ⟨fun hst hr => ?_, fun hst ht ho => ⟨fun hle => ?_, fun hlt hr => ?_⟩,
    fun hst ht ho => ⟨fun hle hr => ?_, fun hlt hr => ?_⟩, fun hst ht ho => ⟨fun hle => ?_, fun hlt hr => ?_⟩⟩
  · rw [exec_envProcess he (envStep_of_rest hst) hr, setEnv_self he]
  · exact exec_envProcess_reached he (runningStage_attack_binary32 hst) (hrecur ht ho) (decide_eq_true hle)
      enc32_one
  · exact exec_envProcess_not_reached he (runningStage_attack_binary32 hst) (hrecur ht ho)
      (decide_eq_false (not_le.2 hlt)) hr
  · exact exec_envProcess_reached he (runningStage_decay hst) (hrecur ht ho) (decide_eq_true hle) hr
  · exact exec_envProcess_not_reached he (runningStage_decay hst) (hrecur ht ho) (decide_eq_false (not_le.2 hlt)) hr
  · exact exec_envProcess_reached he (runningStage_release_binary32 hst) (hrecur ht ho) (decide_eq_true hle) rfl
  · exact exec_envProcess_not_reached he (runningStage_release_binary32 hst) (hrecur ht ho)
      (decide_eq_false (not_le.2 hlt)) hr

/-! ### The transition table (42_envelope.md R130) -/

/-- What a command can do to the two dynamic fields of the constructed envelope `e`. -/
inductive EnvDynamics (c : Config α) (e : Env α) : Instr → Env α → Prop
  | keep {i : Instr} {e' : Env α} (hst : e'.envState = e.envState) (hout : e'.envOut = e.envOut) : EnvDynamics c e i e'
  | init {a d l r : Word} {e' : Env α} (hst : e'.envState = .idle) (hout : e'.envOut = c.num.ofRat 0) :
      EnvDynamics c e (.envInit a d l r) e'
  | gate (on : Bool) : EnvDynamics c e (.envGate on) { e with envState := gateState on e.envState }
  | process {e' : Env α} (h : envStep c.num e = some e') : EnvDynamics c e .envProcess e'

/-- The command, where it does not fault and leaves an envelope, does to it what `EnvDynamics` allows. -/
abbrev EnsuresDynamics (c : Config α) (e : Env α) (i : Instr) (a : Except FaultCode (Answer α)) : Prop :=
  Ensures (fun b => ∀ e', b.1.env = some e' → EnvDynamics c e i e') a

section Dynamics

variable {c : Config α} {e : Env α} {i : Instr} {u : Units α}

/-- A command of unit ENV ends in a write of the record it has computed. -/
theorem ensuresDynamics_setEnv {x : Option (Env α)} {r : Env α → Result α}
    (h : ∀ e', x = some e' → EnvDynamics c e i e') :
    EnsuresDynamics c e i (numeric x >>= fun e' => pure ({ u with env := some e' }, r e')) :=
  .bind (.numeric h) fun _ he' => .pure fun _ hd => Option.some.inj hd ▸ he'

/-- What is derived from a record with the dynamic fields of `e` has them too. -/
theorem EnvDynamics.of_derive {d e' : Env α} (h : envDerive c d = some e') (hst : d.envState = e.envState)
    (hout : d.envOut = e.envOut) : EnvDynamics c e i e' := by
  obtain ⟨-, -, -, -, -, -, hst', hout'⟩ := envDerive_frame h
  exact .keep (hst'.trans hst) (hout'.trans hout)

/-- A new rate is computed before the derivation. -/
theorem EnvDynamics.of_derive_rate {f : α → Env α} {a : Option α} {e' : Env α}
    (h : (a >>= fun y => envDerive c (f y)) = some e')
    (hst : ∀ y, (f y).envState = e.envState) (hout : ∀ y, (f y).envOut = e.envOut) : EnvDynamics c e i e' := by
  obtain ⟨y, -, h⟩ := Option.bind_eq_some_iff.1 h
  exact .of_derive h (hst y) (hout y)

theorem envInit_ensuresDynamics (aw dw lw rw : Word) (a d l r : α) :
    EnsuresDynamics c e (.envInit aw dw lw rw) (envInit c a d l r u) := by
  refine .after fun _ _ => ensuresDynamics_setEnv (r := fun _ => .none) fun e' h => ?_
  simp only [Option.bind_eq_bind, Option.bind_eq_some_iff] at h
  obtain ⟨_, -, _, -, _, -, h⟩ := h
  obtain ⟨-, -, -, -, -, -, hst, hout⟩ := envDerive_frame h
  exact .init hst hout

theorem ensuresDynamics_of_otherUnit (read : Word → Except FaultCode α) (he : u.env = some e) (hi : unitNumber i ≠ 3) :
    EnsuresDynamics c e i (perform c read i u) := by
  intro b hb e' he'
  have hsame : b.1.env = u.env := (perform_writesOnly c read i u b hb).env hi
  obtain rfl : e = e' := Option.some.inj (he.symm.trans (hsame.symm.trans he'))
  exact .keep rfl rfl

theorem perform_ensuresDynamics (read : Word → Except FaultCode α) (i : Instr) (he : u.env = some e) :
    EnsuresDynamics c e i (perform c read i u) := by
  have hcfg : Ensures (· = e) (configured u.env) := .configured fun d hd => Option.some.inj (hd.symm.trans he)
  cases i
  case envInit => exact .after fun a _ => .after fun d _ => .after fun l _ => .after fun r _ =>
    envInit_ensuresDynamics _ _ _ _ a d l r
  case envSetattack | envSetdecay | envSetrelease =>
    refine .after fun _ _ => .bind hcfg ?_
    rintro d rfl
    exact ensuresDynamics_setEnv (r := fun _ => .none) fun _ h => .of_derive_rate h (fun _ => rfl) fun _ => rfl
  case envSetratioa | envSetratiodr =>
    refine .after fun _ _ => .bind hcfg ?_
    rintro d rfl
    exact ensuresDynamics_setEnv (r := fun _ => .none) fun _ h => .of_derive h rfl rfl
  case envSetsustain =>
    refine .after fun _ _ => .bind hcfg ?_
    rintro d rfl
    exact .after fun _ _ => ensuresDynamics_setEnv (r := fun _ => .none) fun _ h => .of_derive h rfl rfl
  case envGate on =>
    refine .bind hcfg ?_
    rintro d rfl
    exact .pure fun _ hd => Option.some.inj hd ▸ .gate on
  case envProcess =>
    refine .bind hcfg ?_
    rintro d rfl
    exact ensuresDynamics_setEnv (r := fun e' => .num e'.envOut) fun _ => .process
  all_goals exact ensuresDynamics_of_otherUnit read he (by rw [unitNumber_of_encode rfl]; decide)

end Dynamics

/-- What a command leaves of a constructed envelope, faults included. -/
theorem exec_envDynamics {i : Instr} {s t : State} {e e' : Env Num} (h : exec i s = .next t)
    (he : s.units.env = some e) (he' : t.units.env = some e') : EnvDynamics s.config e i e' := by
  obtain ⟨-, hu | ⟨r, hp⟩⟩ := exec_units_cases h
  · obtain rfl : e = e' := Option.some.inj (he.symm.trans (hu ▸ he'))
    exact .keep rfl rfl
  · exact perform_ensuresDynamics operand i he _ hp e' he'

/-- Settles O35: the gate follows the table of `gateState`, and a sample ends a stage or leaves the state. -/
theorem envTransitionsAreTheTable : Obligations.EnvTransitionsAreTheTable := by
  intro i s t e e' h he he'
  cases exec_envDynamics h he he' with
  | keep hst => exact .inl hst
  | init hst => exact .inr (.inr (.inr (.inr (.inr (.inr ⟨⟨_, _, _, _, rfl⟩, hst⟩)))))
  | gate on =>
    cases on with
    | true => exact .inr (.inl ⟨rfl, rfl⟩)
    | false =>
      by_cases hst : e.envState = .idle
      · exact .inl (by rw [hst]; rfl)
      · exact .inr (.inr (.inl ⟨rfl, hst, gateState_off hst⟩))
  | process hstep =>
    rcases envState_of_envStep hstep with hsame | ⟨g, hg, hnext⟩
    · exact .inl hsame
    · cases hst : e.envState
      case idle | sustain => rw [runningStage, hst] at hg; cases hg
      case attack =>
        obtain rfl := Option.some.inj ((runningStage_attack hst).symm.trans hg)
        exact .inr (.inr (.inr (.inl ⟨rfl, rfl, hnext⟩)))
      case decay =>
        obtain rfl := Option.some.inj ((runningStage_decay hst).symm.trans hg)
        exact .inr (.inr (.inr (.inr (.inl ⟨rfl, rfl, hnext⟩))))
      case release =>
        obtain rfl := Option.some.inj ((runningStage_release hst).symm.trans hg)
        exact .inr (.inr (.inr (.inr (.inr (.inl ⟨rfl, rfl, hnext⟩)))))

end Sys2Proof.Machine
end

section
/-!
PROOFS. 42_envelope.md R133, R141 and R144 and 10_state.md R26: no stage of the envelope moves the wrong way, and every
stage ends at its exact level. What a sample does to the output comes first, then the stages over the reals, with the
other bases by the law of R133, and with the default bases rounded to binary32.
-/

namespace Sys2Proof.Machine

variable {α : Type}

/-! ### The output after a sample -/

section Output

variable [LinearOrder α] {n : NumOps α} {e : Env α}

/-- The output never passes the level of Attack: what is above it becomes it. -/
theorem envStep_attack_out (hle : ∀ x y, n.le x y = true ↔ x ≤ y) (h : e.envState = .attack) :
    (envStep n e).map Env.envOut = (envRecur n e.attackBase e.envOut e.attackCoef).map (min (n.ofRat 1)) := by
  rw [envStep_eq, runningStage_attack h, Option.map_map]
  congr 1
  funext o
  simp only [Function.comp, hle, apply_ite Env.envOut, min_def]

theorem envStep_decay_out (hle : ∀ x y, n.le x y = true ↔ x ≤ y) (h : e.envState = .decay) :
    (envStep n e).map Env.envOut = (envRecur n e.decayBase e.envOut e.decayCoef).map fun o => max o e.sustain := by
  rw [envStep_eq, runningStage_decay h, Option.map_map]
  congr 1
  funext o
  simp only [Function.comp, hle, apply_ite Env.envOut, max_def]

theorem envStep_release_out (hle : ∀ x y, n.le x y = true ↔ x ≤ y) (h : e.envState = .release) :
    (envStep n e).map Env.envOut =
      (envRecur n e.releaseBase e.envOut e.releaseCoef).map fun o => max o (n.ofRat 0) := by
  rw [envStep_eq, runningStage_release h, Option.map_map]
  congr 1
  funext o
  simp only [Function.comp, hle, apply_ite Env.envOut, max_def]

end Output

/-! ### The end of a stage (42_envelope.md R141) -/

/-- The recurrence of a stage `k` times over, without the test. -/
def recurRun (n : NumOps α) (base coef : α) : ℕ → α → Option α
  | 0, x => some x
  | k + 1, x => (envRecur n base x coef).bind (recurRun n base coef k)

/-- Where the recurrence alone reaches the threshold, the stage has ended by then: at the first value there. -/
theorem stage_ends {n : NumOps α} {e : Env α} {g : Stage α} (hg : runningStage n e = some g) {k : ℕ} {y : α}
    (hrun : recurRun n g.base g.coef (k + 1) e.envOut = some y) (hy : g.reached y = true) :
    ∃ m t, envRun n m e = some t ∧ t.envState = g.next ∧ t.envOut = g.level := by
  induction k generalizing e with
  | zero =>
    obtain ⟨o, ho, hoy⟩ := Option.bind_eq_some_iff.1 hrun
    obtain rfl : o = y := Option.some.inj hoy
    exact ⟨1, _, by rw [envRun, envStep_of_reached hg ho hy]; rfl, rfl, rfl⟩
  | succ k ih =>
    obtain ⟨o, ho, hrun⟩ := Option.bind_eq_some_iff.1 hrun
    cases hr : g.reached o with
    | true => exact ⟨1, _, by rw [envRun, envStep_of_reached hg ho hr]; rfl, rfl, rfl⟩
    | false =>
      obtain ⟨m, t, ht, hend⟩ := ih (e := { e with envOut := o }) hg hrun
      exact ⟨m + 1, t, by rw [envRun, envStep_of_not_reached hg ho hr]; exact ht, hend⟩

/-- The derived fields of an envelope whose derivation changes nothing (10_state.md R25). -/
theorem derived_of_envDerive_self {c : Config α} {e : Env α} (h : envDerive c e = some e) :
    calcCoef c.num e.attackRate e.ratioA = some e.attackCoef ∧ calcCoef c.num e.decayRate e.ratioDR = some e.decayCoef ∧
    calcCoef c.num e.releaseRate e.ratioDR = some e.releaseCoef ∧
    c.envBase e.ratioA e.ratioDR e.sustain e.attackCoef e.decayCoef e.releaseCoef =
      some ⟨e.attackBase, e.decayBase, e.releaseBase⟩ := by
  obtain ⟨ac, dc, rc, b, hac, hdc, hrc, hb, he⟩ := envDerive_eq_some.1 h
  obtain ⟨ar, dr, rr, level, ra, rdr, ac', dc', rc', ab, db, rb, st, out⟩ := e
  cases he
  exact ⟨hac, hdc, hrc, hb⟩

/-! ### Over the reals, with the default bases (42_envelope.md R144) -/

/-- The coefficients of an envelope with positive ratios lie in `[0, 1)`. -/
theorem calcCoef_real_range {rate ratio v : ℝ} (hratio : 0 < ratio) (h : calcCoef real rate ratio = some v) :
    0 ≤ v ∧ v < 1 := by
  rw [calcCoef_real] at h
  obtain rfl := Option.some.inj h
  split_ifs with hrate
  · refine ⟨(Real.exp_pos _).le, Real.exp_lt_one_iff.2 (div_neg_of_neg_of_pos (neg_lt_zero.2 (Real.log_pos ?_)) hrate)⟩
    rw [one_lt_div hratio]
    linarith
  · exact ⟨le_rfl, zero_lt_one⟩

/-- The derived fields over the reals: coefficients in `[0, 1)`, and the default bases of R133. -/
structure RealStages (e : Env ℝ) : Prop where
  attackCoef : 0 ≤ e.attackCoef ∧ e.attackCoef < 1
  decayCoef : 0 ≤ e.decayCoef ∧ e.decayCoef < 1
  releaseCoef : 0 ≤ e.releaseCoef ∧ e.releaseCoef < 1
  attackBase : e.attackBase = (1 + e.ratioA) * (1 - e.attackCoef)
  decayBase : e.decayBase = (e.sustain - e.ratioDR) * (1 - e.decayCoef)
  releaseBase : e.releaseBase = (0 - e.ratioDR) * (1 - e.releaseCoef)

theorem realStages_of_derive {c : Config ℝ} {e : Env ℝ} (hnum : c.num = real) (hbase : c.envBase = envBaseDefault real)
    (h : envDerive c e = some e) (hA : 0 < e.ratioA) (hDR : 0 < e.ratioDR) : RealStages e := by
  obtain ⟨hac, hdc, hrc, hb⟩ := derived_of_envDerive_self h
  rw [hnum] at hac hdc hrc
  rw [hbase, envBaseDefault_real] at hb
  obtain ⟨ha, hd, hr⟩ := EnvBases.mk.inj (Option.some.inj hb)
  exact ⟨calcCoef_real_range hA hac, calcCoef_real_range hDR hdc, calcCoef_real_range hDR hrc, ha.symm, hd.symm,
    hr.symm⟩

theorem envRecur_real (base x coef : ℝ) : envRecur real base x coef = some (base + x * coef) := rfl

theorem real_le (x y : ℝ) : real.le x y = true ↔ x ≤ y := by simp [real]

/-- Towards its target the recurrence is a geometric sequence. -/
theorem recurRun_real (target coef x : ℝ) (k : ℕ) :
    recurRun real (target * (1 - coef)) coef k x = some (target + (x - target) * coef ^ k) := by
  induction k generalizing x with
  | zero => simp [recurRun]
  | succ k ih =>
    rw [recurRun, envRecur_real, Option.bind_some, ih]
    ring_nf

theorem exists_geometric_le {coef b : ℝ} (h0 : 0 ≤ coef) (h1 : coef < 1) (hb : 0 < b) (d : ℝ) :
    ∃ k : ℕ, d * coef ^ (k + 1) ≤ b := by
  have hlim := ((tendsto_pow_atTop_nhds_zero_of_lt_one h0 h1).comp (Filter.tendsto_add_atTop_nat 1)).const_mul d
  rw [mul_zero] at hlim
  exact (hlim.eventually_le_const hb).exists

/-- A stage's value is a mean of its target and of the output: both bound it. -/
theorem recur_le {target x coef b : ℝ} (h0 : 0 ≤ coef) (h1 : coef ≤ 1) (ht : target ≤ b) (hx : x ≤ b) :
    target * (1 - coef) + x * coef ≤ b := by
  nlinarith [mul_le_mul_of_nonneg_right ht (sub_nonneg.2 h1), mul_le_mul_of_nonneg_right hx h0]

theorem le_recur {target x coef b : ℝ} (h0 : 0 ≤ coef) (h1 : coef ≤ 1) (ht : b ≤ target) (hx : b ≤ x) :
    b ≤ target * (1 - coef) + x * coef := by
  nlinarith [mul_le_mul_of_nonneg_right ht (sub_nonneg.2 h1), mul_le_mul_of_nonneg_right hx h0]

section RealStep

variable {e e' : Env ℝ} (hs : RealStages e) (hstep : envStep real e = some e')
include hs hstep

theorem envOut_real_attack (hst : e.envState = .attack) (hA : 0 < e.ratioA) (hx : e.envOut ≤ 1) :
    e.envOut ≤ e'.envOut ∧ e'.envOut ≤ 1 := by
  have hout := envStep_attack_out real_le hst
  rw [hstep, envRecur_real, hs.attackBase] at hout
  have hout : e'.envOut = min (real.ofRat 1) _ := Option.some.inj hout
  have hone : real.ofRat 1 = 1 := Rat.cast_one
  rw [hout, hone]
  exact ⟨le_min hx (le_recur hs.attackCoef.1 hs.attackCoef.2.le (by linarith) le_rfl), min_le_left _ _⟩

/-- In Decay every bound of the output from the sustain level on is kept. -/
theorem envOut_real_decay (hst : e.envState = .decay) (hDR : 0 < e.ratioDR) :
    e.sustain ≤ e'.envOut ∧ ∀ b, e.sustain ≤ b → e.envOut ≤ b → e'.envOut ≤ b := by
  have hout := envStep_decay_out real_le hst
  rw [hstep, envRecur_real, hs.decayBase] at hout
  have hout : e'.envOut = max _ e.sustain := Option.some.inj hout
  rw [hout]
  exact ⟨le_max_right _ _, fun b hb hx =>
    max_le (recur_le hs.decayCoef.1 hs.decayCoef.2.le (by linarith) hx) hb⟩

theorem envOut_real_release (hst : e.envState = .release) (hDR : 0 < e.ratioDR) (hx : 0 ≤ e.envOut) :
    0 ≤ e'.envOut ∧ e'.envOut ≤ e.envOut := by
  have hout := envStep_release_out real_le hst
  rw [hstep, envRecur_real, hs.releaseBase] at hout
  have hout : e'.envOut = max _ (real.ofRat 0) := Option.some.inj hout
  have hzero : real.ofRat 0 = 0 := Rat.cast_zero
  rw [hout, hzero]
  exact ⟨le_max_right _ _, max_le (recur_le hs.releaseCoef.1 hs.releaseCoef.2.le (by linarith) le_rfl) hx⟩

end RealStep

/-- A stage over the reals ends where its target lies beyond the threshold. -/
theorem stage_ends_real {e : Env ℝ} {g : Stage ℝ} {target b d : ℝ} (hg : runningStage real e = some g)
    (hbase : g.base = target * (1 - g.coef)) (hcoef : 0 ≤ g.coef ∧ g.coef < 1) (hb : 0 < b)
    (hend : ∀ q, d * q ≤ b → g.reached (target + (e.envOut - target) * q) = true) :
    ∃ m t, envRun real m e = some t ∧ t.envState = g.next ∧ t.envOut = g.level := by
  obtain ⟨k, hk⟩ := exists_geometric_le hcoef.1 hcoef.2 hb d
  exact stage_ends hg (hbase ▸ recurRun_real target g.coef e.envOut (k + 1)) (hend _ hk)

section RealEnds

variable {e : Env ℝ} (hs : RealStages e)
include hs

theorem attack_ends_real (hst : e.envState = .attack) (hA : 0 < e.ratioA) :
    ∃ m t, envRun real m e = some t ∧ t.envState = .decay ∧ t.envOut = 1 := by
  obtain ⟨m, t, ht, hnext, hout⟩ := stage_ends_real (runningStage_attack hst) hs.attackBase hs.attackCoef hA
    (d := 1 + e.ratioA - e.envOut) fun q hq => (real_le _ _).2 (by simp only [real, Rat.cast_one]; linarith)
  exact ⟨m, t, ht, hnext, hout.trans Rat.cast_one⟩

theorem decay_ends_real (hst : e.envState = .decay) (hDR : 0 < e.ratioDR) :
    ∃ m t, envRun real m e = some t ∧ t.envState = .sustain ∧ t.envOut = e.sustain :=
  stage_ends_real (runningStage_decay hst) hs.decayBase hs.decayCoef hDR
    (d := e.envOut - (e.sustain - e.ratioDR)) fun q hq => (real_le _ _).2 (by linarith)

theorem release_ends_real (hst : e.envState = .release) (hDR : 0 < e.ratioDR) :
    ∃ m t, envRun real m e = some t ∧ t.envState = .idle ∧ t.envOut = 0 := by
  obtain ⟨m, t, ht, hnext, hout⟩ := stage_ends_real (runningStage_release hst) hs.releaseBase hs.releaseCoef hDR
    (d := e.envOut - (0 - e.ratioDR)) fun q hq => (real_le _ _).2 (by simp only [real, Rat.cast_zero]; linarith)
  exact ⟨m, t, ht, hnext, hout.trans Rat.cast_zero⟩

end RealEnds

/-! ### In binary32, with other bases (42_envelope.md R133) -/

theorem binary32_le_iff (p : Straps) (x y : Num) : (binary32 p).le x y = true ↔ x ≤ y := decide_eq_true_iff

theorem recurRun_binary32 (p : Straps) (base coef : Num) (k : ℕ) (x : Num) :
    recurRun (binary32 p) base coef k x = stageRun base coef k x := by
  induction k generalizing x with
  | zero => rfl
  | succ k ih =>
    rw [recurRun, stageRun, funext ih]
    rfl

/-- What the law of R133 says of the stages of an envelope with its invariant. -/
theorem stage_laws_of_other {p : Straps} {e : Env Num} (hp : p.envBase = .other) (he : EnvLawful p e) :
    (0 ≤ e.attackCoef → e.attackCoef < 1 → StageClimbs e.attackBase e.attackCoef) ∧
    (0 ≤ e.decayCoef → e.decayCoef < 1 → StageFalls e.decayBase e.decayCoef e.sustain) ∧
    (0 ≤ e.releaseCoef → e.releaseCoef < 1 → StageFalls e.releaseBase e.releaseCoef 0) := by
  obtain ⟨-, -, -, hb⟩ := derived_of_envDerive_self he.derived
  have hA : finite32 0x3089705F ≤ e.ratioA := binary32_ratioMin p ▸ he.ratioA
  have hDR : finite32 0x3089705F ≤ e.ratioDR := binary32_ratioMin p ▸ he.ratioDR
  obtain ⟨hclimb, hdecay, hrelease⟩ := otherEnvBase_law Config.otherEnvBase e.ratioA e.ratioDR e.sustain e.attackCoef
    e.decayCoef e.releaseCoef hA hDR he.sustain_nonneg he.sustain_le_one
  replace hb := (envBaseOf_other hp _ _ _ _ _ _).symm.trans hb
  simp only [Option.bind_eq_bind, Option.bind_eq_some_iff, Option.pure_def, Option.some.injEq, EnvBases.mk.injEq] at hb
  obtain ⟨a, ha, d, hd, r, hr, rfl, rfl, rfl⟩ := hb
  refine ⟨fun h0 h1 => ?_, fun h0 h1 => ?_, fun h0 h1 => ?_⟩
  · obtain ⟨v, hv, hlaw⟩ := hclimb h0 h1
    exact Option.some.inj (hv.symm.trans ha) ▸ hlaw
  · obtain ⟨v, hv, hlaw⟩ := hdecay h0 h1
    exact Option.some.inj (hv.symm.trans hd) ▸ hlaw
  · obtain ⟨v, hv, hlaw⟩ := hrelease h0 h1
    exact Option.some.inj (hv.symm.trans hr) ▸ hlaw

/-- The law's recurrence reaches the level in one sample or more: where it is there at once, the next value is there
too. -/
theorem stageClimbs_reaches {base coef x : Num} (h : StageClimbs base coef) {w : Word} (hw : dec32 w = some x)
    (h0 : 0 ≤ x) (h1 : x ≤ 1) : ∃ k y, stageRun base coef (k + 1) x = some y ∧ 1 ≤ y := by
  obtain ⟨⟨x', hx', hle⟩, k, y, hk, hy⟩ := h w x hw h0 h1
  cases k with
  | zero =>
    obtain rfl : x = y := Option.some.inj hk
    exact ⟨0, x', by rw [stageRun, hx']; rfl, hy.trans hle⟩
  | succ k => exact ⟨k, y, hk, hy⟩

theorem stageFalls_reaches {base coef floor x : Num} (h : StageFalls base coef floor) {w : Word} (hw : dec32 w = some x)
    (h0 : floor ≤ x) (h1 : x ≤ 1) : ∃ k y, stageRun base coef (k + 1) x = some y ∧ y ≤ floor := by
  obtain ⟨⟨x', hx', hle⟩, k, y, hk, hy⟩ := h w x hw h0 h1
  cases k with
  | zero =>
    obtain rfl : x = y := Option.some.inj hk
    exact ⟨0, x', by rw [stageRun, hx']; rfl, hle.trans hy⟩
  | succ k => exact ⟨k, y, hk, hy⟩

theorem envRecur_binary32 (p : Straps) (base x coef : Num) :
    envRecur (binary32 p) base x coef = stageNext base coef x := rfl

section Lawful

variable {p : Straps} {e : Env Num} {w : Word} (hw : dec32 w = some e.envOut)
include hw

theorem envOut_attack_of_law (hst : e.envState = .attack) (hlaw : StageClimbs e.attackBase e.attackCoef)
    (h0 : 0 ≤ e.envOut) (h1 : e.envOut ≤ 1) :
    ∃ e', envStep (binary32 p) e = some e' ∧ e.envOut ≤ e'.envOut ∧ e'.envOut ≤ 1 := by
  obtain ⟨⟨y, hy, hle⟩, -⟩ := hlaw w e.envOut hw h0 h1
  have hout := envStep_attack_out (binary32_le_iff p) hst
  rw [envRecur_binary32, hy, binary32_ofRat_one] at hout
  obtain ⟨e', he', hout⟩ := Option.map_eq_some_iff.1 hout
  exact ⟨e', he', hout ▸ le_min h1 hle, hout ▸ min_le_left _ _⟩

theorem envOut_decay_of_law (hst : e.envState = .decay) (hlaw : StageFalls e.decayBase e.decayCoef e.sustain)
    (h0 : e.sustain ≤ e.envOut) (h1 : e.envOut ≤ 1) :
    ∃ e', envStep (binary32 p) e = some e' ∧ e.sustain ≤ e'.envOut ∧ e'.envOut ≤ e.envOut := by
  obtain ⟨⟨y, hy, hle⟩, -⟩ := hlaw w e.envOut hw h0 h1
  have hout := envStep_decay_out (binary32_le_iff p) hst
  rw [envRecur_binary32, hy] at hout
  obtain ⟨e', he', hout⟩ := Option.map_eq_some_iff.1 hout
  exact ⟨e', he', hout ▸ le_max_right _ _, hout ▸ max_le hle h0⟩

theorem envOut_release_of_law (hst : e.envState = .release) (hlaw : StageFalls e.releaseBase e.releaseCoef 0)
    (h0 : 0 ≤ e.envOut) (h1 : e.envOut ≤ 1) :
    ∃ e', envStep (binary32 p) e = some e' ∧ 0 ≤ e'.envOut ∧ e'.envOut ≤ e.envOut := by
  obtain ⟨⟨y, hy, hle⟩, -⟩ := hlaw w e.envOut hw h0 h1
  have hout := envStep_release_out (binary32_le_iff p) hst
  rw [envRecur_binary32, hy, binary32_ofRat_zero] at hout
  obtain ⟨e', he', hout⟩ := Option.map_eq_some_iff.1 hout
  exact ⟨e', he', hout ▸ le_max_right _ _, hout ▸ max_le hle h0⟩

theorem attack_ends_of_law (hst : e.envState = .attack) (hlaw : StageClimbs e.attackBase e.attackCoef)
    (h0 : 0 ≤ e.envOut) (h1 : e.envOut ≤ 1) :
    ∃ m t, envRun (binary32 p) m e = some t ∧ t.envState = .decay ∧ t.envOut = 1 := by
  obtain ⟨k, y, hk, hy⟩ := stageClimbs_reaches hlaw hw h0 h1
  exact stage_ends (runningStage_attack_binary32 hst) ((recurRun_binary32 ..).trans hk) (decide_eq_true hy)

theorem decay_ends_of_law (hst : e.envState = .decay) (hlaw : StageFalls e.decayBase e.decayCoef e.sustain)
    (h0 : e.sustain ≤ e.envOut) (h1 : e.envOut ≤ 1) :
    ∃ m t, envRun (binary32 p) m e = some t ∧ t.envState = .sustain ∧ t.envOut = e.sustain := by
  obtain ⟨k, y, hk, hy⟩ := stageFalls_reaches hlaw hw h0 h1
  exact stage_ends (runningStage_decay hst) ((recurRun_binary32 ..).trans hk) (decide_eq_true hy)

theorem release_ends_of_law (hst : e.envState = .release) (hlaw : StageFalls e.releaseBase e.releaseCoef 0)
    (h0 : 0 ≤ e.envOut) (h1 : e.envOut ≤ 1) :
    ∃ m t, envRun (binary32 p) m e = some t ∧ t.envState = .idle ∧ t.envOut = 0 := by
  obtain ⟨k, y, hk, hy⟩ := stageFalls_reaches hlaw hw h0 h1
  exact stage_ends (runningStage_release_binary32 hst) ((recurRun_binary32 ..).trans hk) (decide_eq_true hy)

end Lawful

/-- Settles O20: the recurrence reaches the threshold, over the reals as a geometric sequence and with other bases by
their law, and the stage ends there. -/
theorem envelopeStagesTerminate : Obligations.EnvelopeStagesTerminate := by
  refine ⟨fun c e hnum hbase hderive hA hDR _ _ _ _ => ?_, fun p e w hp hinv hw h0 h1 => ?_⟩
  · have hs := realStages_of_derive hnum hbase hderive hA hDR
    exact ⟨fun hst => attack_ends_real hs hst hA, fun hst => decay_ends_real hs hst hDR,
      fun hst => release_ends_real hs hst hDR⟩
  · obtain ⟨hclimbs, hfalls, hreleases⟩ := stage_laws_of_other hp (envInv_iff.1 hinv)
    exact ⟨fun hst hc0 hc1 => attack_ends_of_law hw hst (hclimbs hc0 hc1) h0 h1,
      fun hst hc0 hc1 hle => decay_ends_of_law hw hst (hfalls hc0 hc1) hle h1,
      fun hst hc0 hc1 => release_ends_of_law hw hst (hreleases hc0 hc1) h0 h1⟩

/-! ### In binary32, with the default bases (10_state.md R26) -/

theorem round32_nearest {v y b : Num} (h : round32 v = some y) (hb : IsFinite32 b) : |v - y| ≤ |v - b| := by
  obtain ⟨w, hw, hy⟩ := Option.bind_eq_some_iff.1 h
  obtain ⟨x, hx, hnear⟩ := enc32_nearest hw
  obtain ⟨wb, hwb⟩ := hb
  obtain rfl : x = y := Option.some.inj (hx.symm.trans hy)
  exact (hnear wb b hwb).1

/-- Rounding keeps the order: of two values out of order the lower one would be nearer to both numbers. -/
theorem round32_mono {v v' y y' : Num} (hv : v ≤ v') (h : round32 v = some y) (h' : round32 v' = some y') : y ≤ y' := by
  by_contra hlt
  rw [not_le] at hlt
  have h1 := sq_le_sq.2 (round32_nearest h (round32_isFinite32 h'))
  have h2 := sq_le_sq.2 (round32_nearest h' (round32_isFinite32 h))
  have hle : (y - y') * (v' - v) ≤ 0 := by nlinarith
  have heq : v = v' := hv.antisymm (sub_nonpos.1 (by nlinarith))
  subst heq
  exact hlt.ne (Option.some.inj (h'.symm.trans h))

theorem round32_le {v y b : Num} (h : round32 v = some y) (hb : IsFinite32 b) (hv : v ≤ b) : y ≤ b :=
  round32_mono hv h (round32_of_isFinite32 hb)

theorem le_round32 {v y b : Num} (h : round32 v = some y) (hb : IsFinite32 b) (hv : b ≤ v) : b ≤ y :=
  round32_mono hv (round32_of_isFinite32 hb) h

theorem isFinite32_one : IsFinite32 1 := ⟨_, dec32_one⟩

/-- Below 1 a rounding is off by half a unit of the last place, `2^-24` at most. -/
theorem round32_le_add {v y : Num} (h0 : 0 < v) (h1 : v < 1) (h : round32 v = some y) : y ≤ v + 2 ^ (-25 : ℤ) := by
  have hfields := roundedFields_le_of_le_two_pow (n := v.num.natAbs) (d := v.den) (j := 0) (by simpa using h0.ne')
    v.den_nz (by norm_num) (by rw [natAbs_div_den, abs_of_pos h0]; simpa using h1.le)
  obtain rfl := Option.some.inj ((round32_of_pos h0 (by omega)).symm.trans h)
  rw [fieldsValue_roundedFields h0.ne']
  have hplace : lastPlace v ≤ -24 := by
    refine (lastPlace_range h0.ne').1.elim (fun h => by omega) fun hlo => ?_
    have hpow : (2 : ℚ) ^ (23 + lastPlace v) < 2 ^ (0 : ℤ) := by
      calc (2 : ℚ) ^ (23 + lastPlace v) = 2 ^ 23 * 2 ^ lastPlace v := zpow_add₀ two_ne_zero _ _
        _ ≤ v := hlo.trans_eq (abs_of_pos h0)
        _ < 2 ^ (0 : ℤ) := by simpa using h1
    have := (zpow_lt_zpow_iff_right₀ (by norm_num : (1 : ℚ) < 2)).1 hpow
    omega
  have hunit : (2 : ℚ) ^ lastPlace v ≤ 2 ^ (-24 : ℤ) := zpow_le_zpow_right₀ (by norm_num) hplace
  have hnear : (lastPlaceUnits v : ℚ) ≤ v / 2 ^ lastPlace v + 1 / 2 := by
    have hnear := (abs_le.1 (lastPlaceUnits_isNearestEven v).1).1
    rw [abs_of_pos h0] at hnear
    have : ((lastPlaceUnits v : ℚ) : ℝ) ≤ ((v / 2 ^ lastPlace v + 1 / 2 : ℚ) : ℝ) := by push_cast; linarith
    exact_mod_cast this
  calc (lastPlaceUnits v : ℚ) * 2 ^ lastPlace v ≤ (v / 2 ^ lastPlace v + 1 / 2) * 2 ^ lastPlace v := by gcongr
    _ = v + 2 ^ lastPlace v / 2 := by field_simp
    _ ≤ v + 2 ^ (-24 : ℤ) / 2 := by gcongr
    _ = v + 2 ^ (-25 : ℤ) := by norm_num

/-- The two roundings of `(1 - c) + c` do not leave 1: the first is off by half a unit of the last place below 1, and
the second rounds a quarter of a unit of the last place above 1 down. -/
theorem round32_complement_add_le {c d v o : Num} (h0 : 0 ≤ c) (h1 : c ≤ 1) (hd : round32 (1 - c) = some d)
    (hv : v ≤ d + c) (ho : round32 v = some o) : o ≤ 1 := by
  have hle : d + c ≤ 1 + 2 ^ (-25 : ℤ) := by
    rcases h0.eq_or_lt with rfl | hpos
    · have := round32_le hd isFinite32_one (by norm_num)
      norm_num at this ⊢
      linarith
    rcases h1.eq_or_lt with rfl | hlt
    · have := round32_le hd isFinite32_zero (by norm_num)
      norm_num
      linarith
    · linarith [round32_le_add (by linarith) (by linarith) hd]
  have hround : round32 (1 + 2 ^ (-25 : ℤ)) = some 1 := by
    rw [show (1 + 2 ^ (-25 : ℤ) : ℚ) = 33554433 / 33554432 by norm_num]
    decide +kernel
  exact round32_mono (hv.trans hle) ho hround

/-- The coefficients and the output in their ranges: what the stages with the default bases are bounded under. -/
structure UnitRanges (e : Env Num) : Prop where
  attackCoef : 0 ≤ e.attackCoef ∧ e.attackCoef ≤ 1
  decayCoef : 0 ≤ e.decayCoef ∧ e.decayCoef ≤ 1
  releaseCoef : 0 ≤ e.releaseCoef ∧ e.releaseCoef ≤ 1
  envOut : 0 ≤ e.envOut ∧ e.envOut ≤ 1

section Reference

variable {p : Straps} {e : Env Num} (hp : p.envBase = .reference) (he : EnvLawful p e) (hr : UnitRanges e)
include hp he hr

/-- The bounds of the default bases, which R133 computes with two roundings before the last: what each stage needs of
its own base. -/
theorem referenceBases_bounds : 0 ≤ e.attackBase ∧ (∃ d, round32 (1 - e.decayCoef) = some d ∧ e.decayBase ≤ d) ∧
    e.releaseBase ≤ 0 := by
  obtain ⟨-, -, -, hb⟩ := derived_of_envDerive_self he.derived
  replace hb : envBaseOf p _ _ _ _ _ _ = _ := hb
  rw [envBaseOf_reference hp, envBaseDefault_eq_some, binary32_ofRat_one, binary32_ofRat_zero] at hb
  obtain ⟨a1, a2, d1, d2, r1, r2, ha1, ha2, ha, hd1, hd2, hd, hr1, hr2, hr'⟩ := hb
  simp only [binary32_add, binary32_sub, binary32_mul] at ha1 ha2 ha hd1 hd2 hd hr1 hr2 hr'
  have hmin : (0 : Num) ≤ finite32 0x3089705F := by decide +kernel
  have hA : 0 ≤ e.ratioA := hmin.trans (binary32_ratioMin p ▸ he.ratioA)
  have hDR : 0 ≤ e.ratioDR := hmin.trans (binary32_ratioMin p ▸ he.ratioDR)
  have ha1' : 0 ≤ a1 := le_round32 ha1 isFinite32_zero (by linarith)
  have ha2' : 0 ≤ a2 := le_round32 ha2 isFinite32_zero (by linarith [hr.attackCoef.2])
  have hd1' : d1 ≤ 1 := round32_le hd1 isFinite32_one (by linarith [he.sustain_le_one])
  have hd2' : 0 ≤ d2 := le_round32 hd2 isFinite32_zero (by linarith [hr.decayCoef.2])
  have hr1' : r1 ≤ 0 := round32_le hr1 isFinite32_zero (by linarith)
  have hr2' : 0 ≤ r2 := le_round32 hr2 isFinite32_zero (by linarith [hr.releaseCoef.2])
  exact ⟨le_round32 ha isFinite32_zero (mul_nonneg ha1' ha2'),
    ⟨d2, hd2, round32_le hd (round32_isFinite32 hd2) (mul_le_of_le_one_left hd2' hd1')⟩,
    round32_le hr' isFinite32_zero (mul_nonpos_of_nonpos_of_nonneg hr1' hr2')⟩

theorem envOut_reference_unit {e' : Env Num} (hstep : envStep (binary32 p) e = some e') :
    0 ≤ e'.envOut ∧ e'.envOut ≤ 1 := by
  obtain ⟨hattack, ⟨d, hd, hdecay⟩, hrelease⟩ := referenceBases_bounds hp he hr
  obtain ⟨-, hdc, -, -⟩ := derived_of_envDerive_self he.derived
  obtain ⟨hx0, hx1⟩ := hr.envOut
  cases hst : e.envState
  case idle | sustain =>
    obtain rfl : e = e' := Option.some.inj ((envStep_of_rest (by simp [hst])).symm.trans hstep)
    exact hr.envOut
  case attack =>
    have hout := envStep_attack_out (binary32_le_iff p) hst
    rw [hstep, envRecur_binary32, binary32_ofRat_one] at hout
    obtain ⟨o, ho, hout⟩ := Option.map_eq_some_iff.1 hout.symm
    obtain ⟨t, ht, ho⟩ := Option.bind_eq_some_iff.1 ho
    have ht0 : 0 ≤ t := le_round32 ht isFinite32_zero (mul_nonneg hx0 hr.attackCoef.1)
    have ho0 : 0 ≤ o := le_round32 ho isFinite32_zero (add_nonneg hattack ht0)
    exact ⟨hout ▸ le_min zero_le_one ho0, hout ▸ min_le_left _ _⟩
  case decay =>
    have hout := envStep_decay_out (binary32_le_iff p) hst
    rw [hstep, envRecur_binary32] at hout
    obtain ⟨o, ho, hout⟩ := Option.map_eq_some_iff.1 hout.symm
    obtain ⟨t, ht, ho⟩ := Option.bind_eq_some_iff.1 ho
    have ht1 : t ≤ e.decayCoef := round32_le ht (calcCoef_isFinite32 hdc) (mul_le_of_le_one_left hr.decayCoef.1 hx1)
    have ho1 : o ≤ 1 := round32_complement_add_le hr.decayCoef.1 hr.decayCoef.2 hd (add_le_add hdecay ht1) ho
    exact ⟨hout ▸ he.sustain_nonneg.trans (le_max_right _ _), hout ▸ max_le ho1 he.sustain_le_one⟩
  case release =>
    have hout := envStep_release_out (binary32_le_iff p) hst
    rw [hstep, envRecur_binary32, binary32_ofRat_zero] at hout
    obtain ⟨o, ho, hout⟩ := Option.map_eq_some_iff.1 hout.symm
    obtain ⟨t, ht, ho⟩ := Option.bind_eq_some_iff.1 ho
    have ht1 : t ≤ 1 := round32_le ht isFinite32_one (mul_le_one₀ hx1 hr.releaseCoef.1 hr.releaseCoef.2)
    have ho1 : o ≤ 1 := round32_le ho isFinite32_one (by linarith)
    exact ⟨hout ▸ le_max_right _ _, hout ▸ max_le ho1 zero_le_one⟩

end Reference

/-- What a step leaves of a constructed envelope: the record itself, or what a command makes of it. -/
theorem step_envDynamics {s t : State} {e e' : Env Num} (h : step s = .next t) (he : s.units.env = some e)
    (he' : t.units.env = some e') : ∃ i, EnvDynamics s.config e i e' := by
  obtain ⟨-, hu | hu | ⟨i, r, hp⟩⟩ := step_units_cases h
  · obtain rfl : e = e' := Option.some.inj (he.symm.trans (hu ▸ he'))
    exact ⟨.envProcess, .keep rfl rfl⟩
  · rw [hu] at he'
    cases he'
  · exact ⟨i, perform_ensuresDynamics operand i he _ hp e' he'⟩

/-- Settles O19: over the reals a stage's value is a mean of its target and the output, other bases obey their law, and
with the default bases the roundings keep the range; of the commands only a sample and `ENV.INIT` write the output. -/
theorem envelopeStagesAreMonotone : Obligations.EnvelopeStagesAreMonotone := by
  refine ⟨fun c e e' hnum hbase hderive hA hDR hs0 hs1 h0 h1 hstep => ?_, fun p e w hp hinv hw h0 h1 => ?_,
    fun s t e e' hp hinv he ha0 ha1 hd0 hd1 hr0 hr1 h0 h1 hstep he' => ?_⟩
  · have hs := realStages_of_derive hnum hbase hderive hA hDR
    have hrest (hst : e.envState = .idle ∨ e.envState = .sustain) : e' = e :=
      Option.some.inj (hstep.symm.trans (envStep_of_rest hst))
    refine ⟨?_, fun hst => (envOut_real_attack hs hstep hst hA h1).1, fun hst hle => ?_,
      fun hst => (envOut_real_release hs hstep hst hDR h0).2, hrest⟩
    · cases hst : e.envState
      case idle => rw [hrest (.inl hst)]; exact ⟨h0, h1⟩
      case sustain => rw [hrest (.inr hst)]; exact ⟨h0, h1⟩
      case attack => exact (envOut_real_attack hs hstep hst hA h1).imp_left h0.trans
      case decay =>
        obtain ⟨hlo, hhi⟩ := envOut_real_decay hs hstep hst hDR
        exact ⟨hs0.trans hlo, hhi 1 hs1 h1⟩
      case release => exact (envOut_real_release hs hstep hst hDR h0).imp_right fun hle => hle.trans h1
    · obtain ⟨hlo, hhi⟩ := envOut_real_decay hs hstep hst hDR
      exact ⟨hlo, hhi _ hle le_rfl⟩
  · obtain ⟨hclimbs, hfalls, hreleases⟩ := stage_laws_of_other hp (envInv_iff.1 hinv)
    exact ⟨fun hst hc0 hc1 => envOut_attack_of_law hw hst (hclimbs hc0 hc1) h0 h1,
      fun hst hc0 hc1 hle => envOut_decay_of_law hw hst (hfalls hc0 hc1) hle h1,
      fun hst hc0 hc1 => envOut_release_of_law hw hst (hreleases hc0 hc1) h0 h1⟩
  · have hlawful : EnvLawful s.straps e := (unitsInv_iff.1 hinv).env e he
    obtain ⟨i, hdyn⟩ := step_envDynamics hstep he he'
    cases hdyn with
    | keep _ hout => rw [hout]; exact ⟨h0, h1⟩
    | init _ hout => rw [hout, config_num, binary32_ofRat_zero]; exact ⟨le_rfl, zero_le_one⟩
    | gate => exact ⟨h0, h1⟩
    | process hsample =>
      exact envOut_reference_unit hp hlawful ⟨⟨ha0, ha1⟩, ⟨hd0, hd1⟩, ⟨hr0, hr1⟩, ⟨h0, h1⟩⟩ hsample

end Sys2Proof.Machine
end

section
/-!
PROOFS. 43_biquad.md R151 and R161 to R166: the commands of unit BQ, each first as the validation and the new design it
consists of, whose every outcome the obligations then name.
-/

namespace Sys2Proof.Machine

variable {α : Type}

/-! ### Validation (43_biquad.md R151) -/

section Validation

variable {s : State} {f q half : Num} (hhalf : round32 (1 / 2 * s.straps.sr) = some half)
include hhalf

theorem bqValid_binary32 (f q : Num) :
    bqValid s.config f q = some (decide (0 < f) && decide (f < half) && decide (0 < q)) := by
  rw [bqValid, config_num, config_sr, binary32_ofRat_half, binary32_ofRat_zero, binary32_mul, hhalf]
  rfl

theorem bqValid_eq_true (h0 : 0 < f) (h1 : f < half) (hq : 0 < q) : bqValid s.config f q = some true := by
  simp [bqValid_binary32 hhalf, h0, h1, hq]

theorem bqValid_eq_false (h : f ≤ 0 ∨ half ≤ f ∨ q ≤ 0) : bqValid s.config f q = some false := by
  rw [bqValid_binary32 hhalf]
  rcases h with h | h | h <;> simp [not_lt.2 h]

end Validation

theorem requireValid_of_valid {c : Config α} {f q : α} (h : bqValid c f q = some true) :
    requireValid c f q = .ok () := by
  rw [requireValid, h]; rfl

theorem requireValid_of_invalid {c : Config α} {f q : α} (h : bqValid c f q = some false) :
    requireValid c f q = .error .paramRange := by
  rw [requireValid, h]; rfl

theorem checkIndex_of_lt {i n : ℕ} (h : i < n) : checkIndex i n = .ok () := by
  rw [checkIndex, decide_eq_true h, require_true]

theorem checkIndex_of_le {i n : ℕ} (h : n ≤ i) : checkIndex i n = .error .indexRange := by
  rw [checkIndex, decide_eq_false (not_lt.2 h), require_false]

/-! ### The new design (43_biquad.md R153) -/

/-- A command that faults above the wire is answered with its fault's code. -/
theorem exec_of_perform_error {i : Instr} {s : State} {e : FaultCode}
    (h : perform s.config operand i s.units = .error e) : exec i s = faulted s e.status := by
  rw [exec_eq_perform, h, answer_error]

/-- The end of every command of unit BQ but `BQ.PROCESS`: the filter `b` is written with the coefficients of its design
fields in place of its own. -/
def bqWriteDesign (c : Config α) (b : Bq α) (u : Units α) : Except FaultCode (Answer α) :=
  numeric (bqRedesign c b) >>= fun b' => pure ({ u with bq := some b' }, .none)

theorem bqWriteDesign_some {c : Config α} {b : Bq α} {k : BqCoefs α}
    (hk : c.bqDesign b.type b.freq b.q b.gain = some k) (u : Units α) :
    bqWriteDesign c b u = .ok ({ u with bq := some { b with coefs := k } }, .none) := by
  rw [bqWriteDesign, bqRedesign_eq_some.2 ⟨k, hk, rfl⟩]; rfl

theorem bqWriteDesign_none {c : Config α} {b : Bq α} (hk : c.bqDesign b.type b.freq b.q b.gain = none) (u : Units α) :
    bqWriteDesign c b u = .error .numericFault := by
  rw [bqWriteDesign, bqRedesign, hk]; rfl

section Redesign

variable {i : Instr} {s : State} {b : Bq Num} {k : BqCoefs Num} {f q : Num}

theorem exec_of_design (h : perform s.config operand i s.units = bqWriteDesign s.config b s.units)
    (hk : s.config.bqDesign b.type b.freq b.q b.gain = some k) :
    exec i s = completes s { s.units with bq := some { b with coefs := k } } 0 :=
  exec_of_perform (x := .none) (h.trans (bqWriteDesign_some hk _)) rfl

theorem exec_of_no_design (h : perform s.config operand i s.units = bqWriteDesign s.config b s.units)
    (hk : s.config.bqDesign b.type b.freq b.q b.gain = none) : exec i s = faulted s 7 :=
  exec_of_perform_error (e := .numericFault) (h.trans (bqWriteDesign_none hk _))

/-- Valid parameters lead to the design. -/
theorem perform_of_valid
    (h : perform s.config operand i s.units =
      (requireValid s.config f q >>= fun _ => bqWriteDesign s.config b s.units))
    (hv : bqValid s.config f q = some true) :
    perform s.config operand i s.units = bqWriteDesign s.config b s.units := by
  rw [h, requireValid_of_valid hv, ok_bind]

theorem exec_of_invalid
    (h : perform s.config operand i s.units =
      (requireValid s.config f q >>= fun _ => bqWriteDesign s.config b s.units))
    (hv : bqValid s.config f q = some false) : exec i s = faulted s 5 :=
  exec_of_perform_error (e := .paramRange) (by rw [h, requireValid_of_invalid hv, error_bind])

end Redesign

/-! ### The commands (43_biquad.md R161 to R166) -/

section Commands

variable {s : State} {b : Bq Num} {w : Word} {x : Num}

/-- `BQ.INIT` designs a filter whose coefficients do not matter yet and whose delay words are zero. -/
theorem perform_bqInit {fw qw gw : Word} {f q g : Num} (t : FType) (hf : dec32 fw = some f) (hq : dec32 qw = some q)
    (hg : dec32 gw = some g) :
    perform s.config operand (.bqInit t fw qw gw) s.units = (requireValid s.config f q >>= fun _ =>
      bqWriteDesign s.config ⟨t, f, q, g, default, List.replicate s.straps.nCh ⟨0, 0⟩⟩ s.units) := by
  rw [perform, operand_eq_ok.2 hf, ok_bind, operand_eq_ok.2 hq, ok_bind, operand_eq_ok.2 hg, ok_bind, bqInit,
    bqWriteDesign, bqRedesign, config_num, binary32_ofRat_zero, config_nCh]
  cases s.config.bqDesign t f q g <;> rfl

section Constructed

variable (hb : s.units.bq = some b)
include hb

theorem perform_bqSettype (t : FType) : perform s.config operand (.bqSettype t) s.units =
    bqWriteDesign s.config { b with type := t } s.units := by
  rw [perform, bqSettype, hb, configured_some, ok_bind, bqWriteDesign]

theorem perform_bqSetfreq (hx : dec32 w = some x) : perform s.config operand (.bqSetfreq w) s.units =
    (requireValid s.config x b.q >>= fun _ => bqWriteDesign s.config { b with freq := x } s.units) := by
  rw [perform, operand_eq_ok.2 hx, ok_bind, bqSetfreq, hb, configured_some, ok_bind]; rfl

theorem perform_bqSetq (hx : dec32 w = some x) : perform s.config operand (.bqSetq w) s.units =
    (requireValid s.config b.freq x >>= fun _ => bqWriteDesign s.config { b with q := x } s.units) := by
  rw [perform, operand_eq_ok.2 hx, ok_bind, bqSetq, hb, configured_some, ok_bind]; rfl

theorem perform_bqSetgain (hx : dec32 w = some x) : perform s.config operand (.bqSetgain w) s.units =
    bqWriteDesign s.config { b with gain := x } s.units := by
  rw [perform, operand_eq_ok.2 hx, ok_bind, bqSetgain, hb, configured_some, ok_bind, bqWriteDesign]

theorem exec_bqProcess {c : ℕ} {d : Delay Num} {y : Num} {r : Word} (hx : dec32 w = some x) (hc : c < s.straps.nCh)
    (hfilter : bqFilter (binary32 s.straps) b.coefs (delayAt (binary32 s.straps) b c) x = some (y, d))
    (hr : enc32 y = some r) :
    exec (.bqProcess c w) s = completes s { s.units with bq := some { b with delay := b.delay.set c d } } r := by
  refine exec_of_perform (x := .num y) ?_ hr
  rw [perform, operand_eq_ok.2 hx, ok_bind, bqProcess, hb, configured_some, ok_bind, config_nCh, checkIndex_of_lt hc,
    ok_bind, config_num, hfilter]
  rfl

end Constructed

end Commands

/-- Settles O37, setter by setter: each validates what R151 asks of it and ends in the new design. -/
theorem bqSettersRedesign : Obligations.BqSettersRedesign := fun _ _ _ _ _ _ hb hx hhalf =>
  ⟨fun t hk => exec_of_design (perform_bqSettype hb t) hk,
    fun h0 h1 hq hk =>
      exec_of_design (perform_of_valid (perform_bqSetfreq hb hx) (bqValid_eq_true hhalf h0 h1 hq)) hk,
    fun h0 h1 hq hk => exec_of_design (perform_of_valid (perform_bqSetq hb hx) (bqValid_eq_true hhalf h0 h1 hq)) hk,
    fun hk => exec_of_design (perform_bqSetgain hb hx) hk⟩

/-- Settles O38: each of the three commands validates before it designs. -/
theorem bqRejectsInvalidParameters : Obligations.BqRejectsInvalidParameters := fun _ _ _ _ _ _ hf hq hhalf =>
  ⟨fun t _ _ hg h => exec_of_invalid (perform_bqInit t hf hq hg) (bqValid_eq_false hhalf h),
    fun _ hb h => exec_of_invalid (perform_bqSetfreq hb hf) (bqValid_eq_false hhalf (h.imp_right .inl)),
    fun _ hb h => exec_of_invalid (perform_bqSetq hb hq) (bqValid_eq_false hhalf (.inr (.inr h)))⟩

/-- Settles O39: the recurrence of R166 in the order written, at the delay words the channel has. -/
theorem bqProcessFiltersOneChannel : Obligations.BqProcessFiltersOneChannel := by
  intro s b d c xw r x y z1 z2 p0 p1 p2 t1 u1 u2 hb hx hc hd hp0 hy hp1 ht1 hu1 hz1 hp2 hu2 hz2 hr
  refine exec_bqProcess hb hx hc (bqFilter_eq_some.2 ?_) hr
  rw [delayAt_of_getElem? hd]
  exact ⟨p0, y, p1, t1, u1, z1, p2, u2, z2, hp0, hy, hp1, ht1, hu1, hz1, hp2, hu2, hz2, rfl⟩

end Sys2Proof.Machine
end

section
/-!
PROOFS. 43_biquad.md R152 to R161: the seven default designs rounded to binary32, each operation in the order written, and
`BQ.INIT`.
-/

namespace Sys2Proof.Machine

variable {α : Type}

/-! ### The design a type selects (43_biquad.md R153) -/

section Selection

variable {n : NumOps α} {sr f K : α} (hK : bqK n sr f = some K) (q g : α)
include hK

theorem bqDesignDefault_lowpass : bqDesignDefault n sr .lowpass f q g = bqLowpass n K q := by
  rw [bqDesignDefault, hK]; rfl

theorem bqDesignDefault_highpass : bqDesignDefault n sr .highpass f q g = bqHighpass n K q := by
  rw [bqDesignDefault, hK]; rfl

theorem bqDesignDefault_bandpass : bqDesignDefault n sr .bandpass f q g = bqBandpass n K q := by
  rw [bqDesignDefault, hK]; rfl

theorem bqDesignDefault_lowshelf : bqDesignDefault n sr .lowshelf f q g = bqLowshelf n K g := by
  rw [bqDesignDefault, hK]; rfl

theorem bqDesignDefault_highshelf : bqDesignDefault n sr .highshelf f q g = bqHighshelf n K g := by
  rw [bqDesignDefault, hK]; rfl

theorem bqDesignDefault_peak : bqDesignDefault n sr .peak f q g = bqPeak n K q g := by
  rw [bqDesignDefault, hK]; rfl

theorem bqDesignDefault_notch : bqDesignDefault n sr .notch f q g = bqNotch n K q := by
  rw [bqDesignDefault, hK]; rfl

end Selection

/-! ### The shared pieces, rounded -/

/-- The rounding of a value whose rounding is finite; 0 stands in elsewhere. -/
def rounded (x : Num) : Num := (round32 x).getD 0

theorem eq_rounded {x y : Num} (h : round32 x = some y) : y = rounded x := by rw [rounded, h]; rfl

/-- `x + y + z`, rounded after each addition. -/
def roundedSum (x y z : Num) : Num := rounded (rounded (x + y) + z)

/-- `x - y + z`, rounded after each operation. -/
def roundedAlt (x y z : Num) : Num := rounded (rounded (x - y) + z)

/-- `2 × (x - y) × norm`, rounded after each operation. -/
def roundedOdd (x y norm : Num) : Num := rounded (rounded (2 * rounded (x - y)) * norm)

/-- The coefficients of a numerator `x ± y + z` over a denominator `x' ± y' + z'`, rounded after each operation. -/
def roundedRatio (x y z x' y' z' : Num) : BqCoefs Num :=
  let norm := rounded (1 / roundedSum x' y' z')
  ⟨rounded (roundedSum x y z * norm), roundedOdd z x norm, rounded (roundedAlt x y z * norm), roundedOdd z' x' norm,
    rounded (roundedAlt x' y' z' * norm)⟩

section Pieces

variable {p : Straps} {x y z w norm : Num}

theorem div_rounded (h : (binary32 p).div x y = some z) : z = rounded (x / y) :=
  eq_rounded ((binary32_div_eq_some p).1 h).2

theorem sum3_rounded (h : sum3 (binary32 p) x y z = some w) : w = roundedSum x y z := by
  obtain ⟨a, ha, hw⟩ := sum3_eq_some.1 h
  rw [eq_rounded hw, eq_rounded ha]; rfl

theorem alt3_rounded (h : alt3 (binary32 p) x y z = some w) : w = roundedAlt x y z := by
  obtain ⟨a, ha, hw⟩ := alt3_eq_some.1 h
  rw [eq_rounded hw, eq_rounded ha]; rfl

theorem oddCoef_rounded (h : oddCoef (binary32 p) x y norm = some w) : w = roundedOdd x y norm := by
  obtain ⟨a, b, ha, hb, hw⟩ := oddCoef_eq_some.1 h
  rw [binary32_ofRat_two] at hb
  rw [eq_rounded hw, eq_rounded hb, eq_rounded ha]; rfl

theorem bqNorm_rounded {k q kq kk : Num} (h : bqNorm (binary32 p) k q = some (kq, kk, norm)) :
    kq = rounded (k / q) ∧ kk = rounded (k * k) ∧ norm = rounded (1 / roundedSum 1 kq kk) := by
  obtain ⟨kq', kk', d, norm', hkq, hkk, hd, hnorm, hr⟩ := bqNorm_eq_some.1 h
  cases hr
  rw [binary32_ofRat_one] at hd hnorm
  exact ⟨div_rounded hkq, eq_rounded hkk, by rw [div_rounded hnorm, sum3_rounded hd]⟩

theorem shelfCoefs_rounded {x' y' z' : Num} {k : BqCoefs Num}
    (h : shelfCoefs (binary32 p) x y z x' y' z' = some k) : k = roundedRatio x y z x' y' z' := by
  obtain ⟨d, norm, s, t, u, hd, hnorm, hs, ha0, ha1, ht, ha2, hb1, hu, hb2⟩ := shelfCoefs_eq_some.1 h
  rw [binary32_ofRat_one] at hnorm
  obtain rfl := sum3_rounded hd
  obtain rfl := div_rounded hnorm
  obtain rfl := sum3_rounded hs
  obtain rfl := alt3_rounded ht
  obtain rfl := alt3_rounded hu
  rw [roundedRatio, ← eq_rounded ha0, ← oddCoef_rounded ha1, ← eq_rounded ha2, ← oddCoef_rounded hb1, ← eq_rounded hb2]

/-- `V` is a function of the gain. -/
theorem bqV_rounded {g v V : Num} (hV : prim32 p.prim .pow10 (rounded (|g| / 20)) = some V)
    (h : bqV (binary32 p) g = some v) : v = V := by
  obtain ⟨x, hx, hv⟩ := bqV_eq_some.1 h
  rw [binary32_ofRat_twenty] at hx
  obtain rfl := div_rounded hx
  exact Option.some.inj (hv.symm.trans hV)

end Pieces

/-! ### The seven designs, rounded (43_biquad.md R154 to R160) -/

section Designs

variable {p : Straps} {K q g V r2 r2V : Num} {k : BqCoefs Num}

/-- `norm` of the designs R154 to R156 and R160. -/
def roundedNorm (K q : Num) : Num := rounded (1 / roundedSum 1 (rounded (K / q)) (rounded (K * K)))

/-- The coefficient `b1` the same four designs share. -/
def roundedB1 (K q : Num) : Num := roundedOdd (rounded (K * K)) 1 (roundedNorm K q)

/-- The coefficient `b2` they share. -/
def roundedB2 (K q : Num) : Num :=
  rounded (roundedAlt 1 (rounded (K / q)) (rounded (K * K)) * roundedNorm K q)

theorem bqLowpass_rounded (h : bqLowpass (binary32 p) K q = some k) :
    k = ⟨rounded (rounded (K * K) * roundedNorm K q), rounded (2 * rounded (rounded (K * K) * roundedNorm K q)),
      rounded (rounded (K * K) * roundedNorm K q), roundedB1 K q, roundedB2 K q⟩ := by
  obtain ⟨⟨kq, kk, norm⟩, hnorm, h⟩ := Option.bind_eq_some_iff.1 h
  obtain ⟨rfl, rfl, rfl⟩ := bqNorm_rounded hnorm
  simp only [Option.bind_eq_bind, Option.bind_eq_some_iff, Option.pure_def, Option.some.injEq, binary32_ofRat_one,
    binary32_ofRat_two] at h
  obtain ⟨a0, ha0, a1, ha1, b1, hb1, d, hd, b2, hb2, rfl⟩ := h
  rw [eq_rounded ha1, eq_rounded ha0, oddCoef_rounded hb1, eq_rounded hb2, alt3_rounded hd]
  rfl

theorem bqHighpass_rounded (h : bqHighpass (binary32 p) K q = some k) :
    k = ⟨rounded (1 * roundedNorm K q), rounded (-2 * rounded (1 * roundedNorm K q)),
      rounded (1 * roundedNorm K q), roundedB1 K q, roundedB2 K q⟩ := by
  obtain ⟨⟨kq, kk, norm⟩, hnorm, h⟩ := Option.bind_eq_some_iff.1 h
  obtain ⟨rfl, rfl, rfl⟩ := bqNorm_rounded hnorm
  simp only [Option.bind_eq_bind, Option.bind_eq_some_iff, Option.pure_def, Option.some.injEq, binary32_ofRat_one,
    binary32_ofRat_neg_two] at h
  obtain ⟨a0, ha0, a1, ha1, b1, hb1, d, hd, b2, hb2, rfl⟩ := h
  rw [eq_rounded ha1, eq_rounded ha0, oddCoef_rounded hb1, eq_rounded hb2, alt3_rounded hd]
  rfl

theorem bqBandpass_rounded (h : bqBandpass (binary32 p) K q = some k) :
    k = ⟨rounded (rounded (K / q) * roundedNorm K q), 0, rounded (0 - rounded (rounded (K / q) * roundedNorm K q)),
      roundedB1 K q, roundedB2 K q⟩ := by
  obtain ⟨⟨kq, kk, norm⟩, hnorm, h⟩ := Option.bind_eq_some_iff.1 h
  obtain ⟨rfl, rfl, rfl⟩ := bqNorm_rounded hnorm
  simp only [Option.bind_eq_bind, Option.bind_eq_some_iff, Option.pure_def, Option.some.injEq, binary32_ofRat_one,
    binary32_ofRat_zero] at h
  obtain ⟨a0, ha0, a2, ha2, b1, hb1, d, hd, b2, hb2, rfl⟩ := h
  rw [eq_rounded ha2, eq_rounded ha0, oddCoef_rounded hb1, eq_rounded hb2, alt3_rounded hd]
  rfl

theorem bqNotch_rounded (h : bqNotch (binary32 p) K q = some k) :
    k = ⟨rounded (rounded (1 + rounded (K * K)) * roundedNorm K q), roundedB1 K q,
      rounded (rounded (1 + rounded (K * K)) * roundedNorm K q), roundedB1 K q, roundedB2 K q⟩ := by
  obtain ⟨⟨kq, kk, norm⟩, hnorm, h⟩ := Option.bind_eq_some_iff.1 h
  obtain ⟨rfl, rfl, rfl⟩ := bqNorm_rounded hnorm
  simp only [Option.bind_eq_bind, Option.bind_eq_some_iff, Option.pure_def, Option.some.injEq, binary32_ofRat_one]
    at h
  obtain ⟨c, hc, a0, ha0, a1, ha1, d, hd, b2, hb2, rfl⟩ := h
  rw [eq_rounded ha0, eq_rounded hc, oddCoef_rounded ha1, eq_rounded hb2, alt3_rounded hd]
  rfl

section Gain

variable (hV : prim32 p.prim .pow10 (rounded (|g| / 20)) = some V)
include hV

theorem bqPeak_rounded (h : bqPeak (binary32 p) K q g = some k) :
    (0 ≤ g → k = roundedRatio 1 (rounded (rounded (V / q) * K)) (rounded (K * K))
      1 (rounded (rounded (1 / q) * K)) (rounded (K * K))) ∧
    (g < 0 → k = roundedRatio 1 (rounded (rounded (1 / q) * K)) (rounded (K * K))
      1 (rounded (rounded (V / q) * K)) (rounded (K * K))) := by
  obtain ⟨v, hv, h⟩ := Option.bind_eq_some_iff.1 h
  obtain ⟨kk, hkk, h⟩ := Option.bind_eq_some_iff.1 h
  obtain ⟨x, hx, h⟩ := Option.bind_eq_some_iff.1 h
  obtain ⟨thin, hthin, h⟩ := Option.bind_eq_some_iff.1 h
  obtain ⟨y, hy, h⟩ := Option.bind_eq_some_iff.1 h
  obtain ⟨wide, hwide, h⟩ := Option.bind_eq_some_iff.1 h
  rw [binary32_ofRat_one] at hx
  obtain rfl := bqV_rounded hV hv
  rw [← eq_rounded hkk, ← div_rounded hx, ← eq_rounded hthin, ← div_rounded hy, ← eq_rounded hwide]
  have hshape {num den : Num} (hsides : (if (binary32 p).le ((binary32 p).ofRat 0) g then (wide, thin)
      else (thin, wide)) = (num, den)) : k = roundedRatio 1 num kk 1 den kk := by
    rw [hsides] at h
    simp only [Option.bind_eq_bind, Option.bind_eq_some_iff, Option.pure_def, Option.some.injEq, binary32_ofRat_one]
      at h
    obtain ⟨d, hd, norm, hnorm, s, hs, a0, ha0, a1, ha1, t, ht, a2, ha2, u, hu, b2, hb2, rfl⟩ := h
    rw [eq_rounded ha0, oddCoef_rounded ha1, eq_rounded ha2, eq_rounded hb2, sum3_rounded hs, alt3_rounded ht,
      alt3_rounded hu, div_rounded hnorm, sum3_rounded hd]
    rfl
  rw [binary32_ofRat_zero, binary32_le] at hshape
  exact ⟨fun hg => hshape (if_pos (decide_eq_true hg)), fun hg => hshape (if_neg (by simpa using hg))⟩

variable (hr2 : (binary32 p).sqrt 2 = some r2) (hr2V : (binary32 p).sqrt (rounded (2 * V)) = some r2V)
include hr2 hr2V

theorem bqLowshelf_rounded (h : bqLowshelf (binary32 p) K g = some k) :
    (0 ≤ g → k = roundedRatio 1 (rounded (r2V * K)) (rounded (rounded (V * K) * K))
      1 (rounded (r2 * K)) (rounded (K * K))) ∧
    (g < 0 → k = roundedRatio 1 (rounded (r2 * K)) (rounded (K * K))
      1 (rounded (r2V * K)) (rounded (rounded (V * K) * K))) := by
  simp only [bqLowshelf, Option.bind_eq_bind, Option.bind_eq_some_iff, binary32_ofRat_one, binary32_ofRat_two,
    binary32_ofRat_zero, binary32_le, decide_eq_true_eq] at h
  obtain ⟨v, hv, kk, hkk, r, hr, flat, hflat, vv, hvv, rV, hrV, steep, hsteep, vk, hvk, vkk, hvkk, h⟩ := h
  obtain rfl := bqV_rounded hV hv
  obtain rfl := eq_rounded hvv
  obtain rfl := Option.some.inj (hr.symm.trans hr2)
  obtain rfl := Option.some.inj (hrV.symm.trans hr2V)
  rw [← eq_rounded hkk, ← eq_rounded hflat, ← eq_rounded hsteep, ← eq_rounded hvk, ← eq_rounded hvkk]
  exact ⟨fun hg => shelfCoefs_rounded ((if_pos hg).symm.trans h),
    fun hg => shelfCoefs_rounded ((if_neg (not_le.2 hg)).symm.trans h)⟩

theorem bqHighshelf_rounded (h : bqHighshelf (binary32 p) K g = some k) :
    (0 ≤ g → k = roundedRatio V (rounded (r2V * K)) (rounded (K * K)) 1 (rounded (r2 * K)) (rounded (K * K))) ∧
    (g < 0 → k = roundedRatio 1 (rounded (r2 * K)) (rounded (K * K)) V (rounded (r2V * K)) (rounded (K * K))) := by
  simp only [bqHighshelf, Option.bind_eq_bind, Option.bind_eq_some_iff, binary32_ofRat_one, binary32_ofRat_two,
    binary32_ofRat_zero, binary32_le, decide_eq_true_eq] at h
  obtain ⟨v, hv, kk, hkk, r, hr, flat, hflat, vv, hvv, rV, hrV, steep, hsteep, h⟩ := h
  obtain rfl := bqV_rounded hV hv
  obtain rfl := eq_rounded hvv
  obtain rfl := Option.some.inj (hr.symm.trans hr2)
  obtain rfl := Option.some.inj (hrV.symm.trans hr2V)
  rw [← eq_rounded hkk, ← eq_rounded hflat, ← eq_rounded hsteep]
  exact ⟨fun hg => shelfCoefs_rounded ((if_pos hg).symm.trans h),
    fun hg => shelfCoefs_rounded ((if_neg (not_le.2 hg)).symm.trans h)⟩

end Gain

/-- Where a design answers coefficients, its `K` is the tangent named. -/
theorem bqK_of_design {t : FType} {sr f : Num} (hK : prim32 p.prim .tan (rounded (rounded (pi32 * f) / sr)) = some K)
    (h : bqDesignDefault (binary32 p) sr t f q g = some k) : bqK (binary32 p) sr f = some K := by
  obtain ⟨K', hK', -⟩ := Option.bind_eq_some_iff.1 h
  obtain ⟨x, y, hx, hy, htan⟩ := bqK_eq_some.1 hK'
  obtain rfl := eq_rounded hx
  obtain rfl := div_rounded hy
  rw [hK', ← hK]
  exact htan.symm

end Designs

/-- Settles O36: a valid command ends in the design, and each default design is rounded operation by operation. -/
theorem bqInitMakesTheFilter : Obligations.BqInitMakesTheFilter := by
  refine ⟨fun s t fw qw gw f q g half k hf hq hg hhalf h0 h1 hq0 hk =>
      exec_of_design (perform_of_valid (perform_bqInit t hf hq hg) (bqValid_eq_true hhalf h0 h1 hq0)) hk,
    fun s hdesign => ?_⟩
  have hbq : s.config.bqDesign = bqDesignDefault (binary32 s.straps) s.straps.sr := bqDesignOf_reference hdesign
  intro design rd sum alt odd ratio
  refine ⟨fun t f q g => congrFun (congrFun (congrFun (congrFun hbq t) f) q) g,
    fun f q g K V r2 r2V k hK => ⟨fun h => ?lowpass, fun h => ?highpass, fun h => ?bandpass, fun h => ?notch,
      fun hV => ⟨⟨fun hg h => ?peakBoost, fun hg h => ?peakCut⟩, fun hr2 hr2V =>
        ⟨fun hg => ⟨fun h => ?lowshelfBoost, fun h => ?highshelfBoost⟩,
          fun hg => ⟨fun h => ?lowshelfCut, fun h => ?highshelfCut⟩⟩⟩⟩⟩
  all_goals
    replace h := (congrFun (congrFun (congrFun (congrFun hbq _) f) q) g).symm.trans h
    have hk := bqK_of_design hK h
  case lowpass => exact bqLowpass_rounded ((bqDesignDefault_lowpass hk q g).symm.trans h)
  case highpass => exact bqHighpass_rounded ((bqDesignDefault_highpass hk q g).symm.trans h)
  case bandpass => exact bqBandpass_rounded ((bqDesignDefault_bandpass hk q g).symm.trans h)
  case notch => exact bqNotch_rounded ((bqDesignDefault_notch hk q g).symm.trans h)
  case peakBoost => exact (bqPeak_rounded hV ((bqDesignDefault_peak hk q g).symm.trans h)).1 hg
  case peakCut => exact (bqPeak_rounded hV ((bqDesignDefault_peak hk q g).symm.trans h)).2 hg
  case lowshelfBoost =>
    exact (bqLowshelf_rounded hV hr2 hr2V ((bqDesignDefault_lowshelf hk q g).symm.trans h)).1 hg
  case lowshelfCut =>
    exact (bqLowshelf_rounded hV hr2 hr2V ((bqDesignDefault_lowshelf hk q g).symm.trans h)).2 hg
  case highshelfBoost =>
    exact (bqHighshelf_rounded hV hr2 hr2V ((bqDesignDefault_highshelf hk q g).symm.trans h)).1 hg
  case highshelfCut =>
    exact (bqHighshelf_rounded hV hr2 hr2V ((bqDesignDefault_highshelf hk q g).symm.trans h)).2 hg

end Sys2Proof.Machine
end

section
/-!
PROOFS. 43_biquad.md R152 to R160 and R167: the seven default designs over exact real arithmetic. Each is the bilinear
transform of a quotient of quadratics, which the gains, the inverse cut and the check values are read off.
-/

namespace Sys2Proof.Machine

/-! ### Coefficients of a quotient of quadratics -/

/-- The terms `x`, `y` and `z` of a quadratic, `K` and its square multiplied in. -/
structure Quadratic where
  x : ℝ
  y : ℝ
  z : ℝ

/-- The sum of the three terms, the scale of the coefficients where the quadratic is a denominator. -/
def Quadratic.sum (d : Quadratic) : ℝ := d.x + d.y + d.z

/-- The coefficients of the filter with numerator `a` and denominator `d`. -/
noncomputable def bilinear (a d : Quadratic) : BqCoefs ℝ :=
  ⟨a.sum / d.sum, 2 * (a.z - a.x) / d.sum, (a.x - a.y + a.z) / d.sum, 2 * (d.z - d.x) / d.sum,
    (d.x - d.y + d.z) / d.sum⟩

/-- The gain at frequency 0 is the quotient of the square terms. -/
theorem bilinear_gain_zero {a d : Quadratic} (hd : d.sum ≠ 0) :
    ((bilinear a d).a0 + (bilinear a d).a1 + (bilinear a d).a2) / (1 + (bilinear a d).b1 + (bilinear a d).b2) =
      a.z / d.z := by
  have hnum : (bilinear a d).a0 + (bilinear a d).a1 + (bilinear a d).a2 = 4 / d.sum * a.z := by
    simp only [bilinear, Quadratic.sum]; ring
  have hden : 1 + (bilinear a d).b1 + (bilinear a d).b2 = 4 / d.sum * d.z := by
    rw [← div_self hd]; simp only [bilinear, Quadratic.sum]; ring
  rw [hnum, hden, mul_div_mul_left _ _ (div_ne_zero four_ne_zero hd)]

/-- The gain at half the sample rate is the quotient of the constant terms. -/
theorem bilinear_gain_half {a d : Quadratic} (hd : d.sum ≠ 0) :
    ((bilinear a d).a0 - (bilinear a d).a1 + (bilinear a d).a2) / (1 - (bilinear a d).b1 + (bilinear a d).b2) =
      a.x / d.x := by
  have hnum : (bilinear a d).a0 - (bilinear a d).a1 + (bilinear a d).a2 = 4 / d.sum * a.x := by
    simp only [bilinear, Quadratic.sum]; ring
  have hden : 1 - (bilinear a d).b1 + (bilinear a d).b2 = 4 / d.sum * d.x := by
    rw [← div_self hd]; simp only [bilinear, Quadratic.sum]; ring
  rw [hnum, hden, mul_div_mul_left _ _ (div_ne_zero four_ne_zero hd)]

/-- Numerator and denominator exchanged make the inverse filter. -/
theorem bilinear_inverse {a d : Quadratic} (ha : a.sum ≠ 0) (hd : d.sum ≠ 0) :
    (bilinear d a).a0 * (bilinear a d).a0 = 1 ∧ (bilinear d a).a1 * (bilinear a d).a0 = (bilinear a d).b1 ∧
    (bilinear d a).a2 * (bilinear a d).a0 = (bilinear a d).b2 ∧
    (bilinear d a).b1 * (bilinear a d).a0 = (bilinear a d).a1 ∧
    (bilinear d a).b2 * (bilinear a d).a0 = (bilinear a d).a2 := by
  have hcancel (v : ℝ) : v / a.sum * (a.sum / d.sum) = v / d.sum := div_mul_div_cancel₀ ha
  exact ⟨(hcancel _).trans (div_self hd), hcancel _, hcancel _, hcancel _, hcancel _⟩

/-- A filter with equal numerator and denominator passes its input. -/
theorem bilinear_self {d : Quadratic} (hd : d.sum ≠ 0) :
    (bilinear d d).a0 = 1 ∧ (bilinear d d).a1 = (bilinear d d).b1 ∧ (bilinear d d).a2 = (bilinear d d).b2 :=
  ⟨div_self hd, rfl, rfl⟩

/-! ### The primitives of `NUM = real` (00_scope.md R11) -/

@[simp] theorem real_ofRat (x : ℚ) : real.ofRat x = x := rfl
@[simp] theorem real_add (x y : ℝ) : real.add x y = some (x + y) := rfl
@[simp] theorem real_sub (x y : ℝ) : real.sub x y = some (x - y) := rfl
@[simp] theorem real_mul (x y : ℝ) : real.mul x y = some (x * y) := rfl
@[simp] theorem real_div (x y : ℝ) : real.div x y = some (x / y) := rfl
@[simp] theorem real_sqrt (x : ℝ) : real.sqrt x = some √x := rfl

/-! ### The designs over exact real arithmetic (43_biquad.md R152 to R160) -/

theorem bqK_real (sr f : ℝ) : bqK real sr f = some (Real.tan (Real.pi * f / sr)) := rfl

theorem bqV_real (g : ℝ) : bqV real g = some ((10 : ℝ) ^ (|g| / 20)) := by simp [bqV, real]

theorem shelfCoefs_real (a d : Quadratic) : shelfCoefs real a.x a.y a.z d.x d.y d.z = some (bilinear a d) := by
  simp [shelfCoefs, sum3, alt3, oddCoef, bilinear, Quadratic.sum, div_eq_mul_inv]

/-- The designs that do not ignore the gain. -/
def HasGain (t : FType) : Prop := t = .lowshelf ∨ t = .highshelf ∨ t = .peak

/-- The numerator of a design, of the designs with a gain the one that boosts. -/
noncomputable def designNum (t : FType) (K q V : ℝ) : Quadratic :=
  match t with
  | .lowpass => ⟨0, 0, K * K⟩
  | .highpass => ⟨1, 0, 0⟩
  | .bandpass => ⟨0, K / q, 0⟩
  | .lowshelf => ⟨1, √(2 * V) * K, V * K * K⟩
  | .highshelf => ⟨V, √(2 * V) * K, K * K⟩
  | .peak => ⟨1, V / q * K, K * K⟩
  | .notch => ⟨1, 0, K * K⟩

/-- The denominator of a design, of the designs with a gain the one that boosts. -/
noncomputable def designDen (t : FType) (K q : ℝ) : Quadratic :=
  match t with
  | .lowshelf | .highshelf => ⟨1, √2 * K, K * K⟩
  | .peak => ⟨1, 1 / q * K, K * K⟩
  | .lowpass | .highpass | .bandpass | .notch => ⟨1, K / q, K * K⟩

theorem bqLowpass_real (K q V : ℝ) :
    bqLowpass real K q = some (bilinear (designNum .lowpass K q V) (designDen .lowpass K q)) := by
  simp [bqLowpass, bqNorm, sum3, alt3, oddCoef, bilinear, designNum, designDen, Quadratic.sum, div_eq_mul_inv, mul_assoc]

theorem bqHighpass_real (K q V : ℝ) :
    bqHighpass real K q = some (bilinear (designNum .highpass K q V) (designDen .highpass K q)) := by
  simp [bqHighpass, bqNorm, sum3, alt3, oddCoef, bilinear, designNum, designDen, Quadratic.sum, div_eq_mul_inv]

theorem bqBandpass_real (K q V : ℝ) :
    bqBandpass real K q = some (bilinear (designNum .bandpass K q V) (designDen .bandpass K q)) := by
  simp [bqBandpass, bqNorm, sum3, alt3, oddCoef, bilinear, designNum, designDen, Quadratic.sum, div_eq_mul_inv]

theorem bqNotch_real (K q V : ℝ) :
    bqNotch real K q = some (bilinear (designNum .notch K q V) (designDen .notch K q)) := by
  simp [bqNotch, bqNorm, sum3, alt3, oddCoef, bilinear, designNum, designDen, Quadratic.sum, div_eq_mul_inv]

theorem bqLowshelf_real (K q g : ℝ) : bqLowshelf real K g =
    let a := designNum .lowshelf K q ((10 : ℝ) ^ (|g| / 20))
    let d := designDen .lowshelf K q
    some (if 0 ≤ g then bilinear a d else bilinear d a) := by
  simp only [apply_ite some, ← shelfCoefs_real]
  simp [bqLowshelf, bqV_real, designNum, designDen, real_le]

theorem bqHighshelf_real (K q g : ℝ) : bqHighshelf real K g =
    let a := designNum .highshelf K q ((10 : ℝ) ^ (|g| / 20))
    let d := designDen .highshelf K q
    some (if 0 ≤ g then bilinear a d else bilinear d a) := by
  simp only [apply_ite some, ← shelfCoefs_real]
  simp [bqHighshelf, bqV_real, designNum, designDen, real_le]

theorem bqPeak_real (K q g : ℝ) : bqPeak real K q g =
    let a := designNum .peak K q ((10 : ℝ) ^ (|g| / 20))
    let d := designDen .peak K q
    some (if 0 ≤ g then bilinear a d else bilinear d a) := by
  by_cases hg : 0 ≤ g <;>
  simp [bqPeak, bqV_real, designNum, designDen, real_le, hg, sum3, alt3, oddCoef, bilinear, Quadratic.sum,
    div_eq_mul_inv]

/-- The default design over the reals: where it does not cut, `designNum` over `designDen`. -/
theorem bqDesign_real {t : FType} {sr f q g : ℝ} (hg : HasGain t → 0 ≤ g) : bqDesignDefault real sr t f q g =
    some (bilinear (designNum t (Real.tan (Real.pi * f / sr)) q ((10 : ℝ) ^ (|g| / 20)))
      (designDen t (Real.tan (Real.pi * f / sr)) q)) := by
  cases t with
  | lowpass => rw [bqDesignDefault_lowpass (bqK_real sr f), bqLowpass_real]
  | highpass => rw [bqDesignDefault_highpass (bqK_real sr f), bqHighpass_real]
  | bandpass => rw [bqDesignDefault_bandpass (bqK_real sr f), bqBandpass_real]
  | notch => rw [bqDesignDefault_notch (bqK_real sr f), bqNotch_real]
  | lowshelf =>
    rw [bqDesignDefault_lowshelf (bqK_real sr f), bqLowshelf_real _ q]
    exact congrArg some (if_pos (hg (.inl rfl)))
  | highshelf =>
    rw [bqDesignDefault_highshelf (bqK_real sr f), bqHighshelf_real _ q]
    exact congrArg some (if_pos (hg (.inr (.inl rfl))))
  | peak =>
    rw [bqDesignDefault_peak (bqK_real sr f), bqPeak_real]
    exact congrArg some (if_pos (hg (.inr (.inr rfl))))
/-- A cut is the boost with numerator and denominator exchanged. -/
theorem bqDesign_real_cut {t : FType} {sr f q g : ℝ} (ht : HasGain t) (hg : g < 0) :
    bqDesignDefault real sr t f q g = some (bilinear (designDen t (Real.tan (Real.pi * f / sr)) q)
      (designNum t (Real.tan (Real.pi * f / sr)) q ((10 : ℝ) ^ (|g| / 20)))) := by
  rcases ht with rfl | rfl | rfl
  · rw [bqDesignDefault_lowshelf (bqK_real sr f), bqLowshelf_real _ q]
    exact congrArg some (if_neg hg.not_ge)
  · rw [bqDesignDefault_highshelf (bqK_real sr f), bqHighshelf_real _ q]
    exact congrArg some (if_neg hg.not_ge)
  · rw [bqDesignDefault_peak (bqK_real sr f), bqPeak_real]
    exact congrArg some (if_neg hg.not_ge)

section Norm

variable {K q V N : ℝ} (hN : N = 1 / (1 + K / q + K * K))
include hN

theorem bilinear_lowpass : bilinear (designNum .lowpass K q V) (designDen .lowpass K q) =
    ⟨K * K * N, 2 * (K * K * N), K * K * N, 2 * (K * K - 1) * N, (1 - K / q + K * K) * N⟩ := by
  simp [hN, bilinear, designNum, designDen, Quadratic.sum, div_eq_mul_inv, mul_assoc]

theorem bilinear_highpass : bilinear (designNum .highpass K q V) (designDen .highpass K q) =
    ⟨N, -2 * N, N, 2 * (K * K - 1) * N, (1 - K / q + K * K) * N⟩ := by
  simp [hN, bilinear, designNum, designDen, Quadratic.sum, div_eq_mul_inv]

theorem bilinear_bandpass : bilinear (designNum .bandpass K q V) (designDen .bandpass K q) =
    ⟨K / q * N, 0, -(K / q * N), 2 * (K * K - 1) * N, (1 - K / q + K * K) * N⟩ := by
  simp [hN, bilinear, designNum, designDen, Quadratic.sum, div_eq_mul_inv]

theorem bilinear_notch : bilinear (designNum .notch K q V) (designDen .notch K q) =
    ⟨(1 + K * K) * N, 2 * (K * K - 1) * N, (1 + K * K) * N, 2 * (K * K - 1) * N, (1 - K / q + K * K) * N⟩ := by
  simp [hN, bilinear, designNum, designDen, Quadratic.sum, div_eq_mul_inv]

end Norm

/-- At 0 dB, where `V = 1`, a design with a gain is its own inverse. -/
theorem designNum_one {t : FType} (ht : HasGain t) (K q : ℝ) : designNum t K q 1 = designDen t K q := by
  rcases ht with rfl | rfl | rfl <;> simp [designNum, designDen]

theorem designDen_sum_pos (t : FType) {K q : ℝ} (hK : 0 < K) (hq : 0 < q) : 0 < (designDen t K q).sum := by
  cases t <;> simp only [designDen, Quadratic.sum] <;> positivity

theorem designNum_sum_pos {t : FType} (ht : HasGain t) {K q V : ℝ} (hK : 0 < K) (hq : 0 < q) (hV : 0 < V) :
    0 < (designNum t K q V).sum := by
  rcases ht with rfl | rfl | rfl <;> simp only [designNum, Quadratic.sum] <;> positivity

/-- Below half the sample rate `K` is positive. -/
theorem tan_pos_of_lt_half {sr f : ℝ} (hsr : 0 < sr) (hf : 0 < f) (hhalf : f < sr / 2) :
    0 < Real.tan (Real.pi * f / sr) := by
  refine Real.tan_pos_of_pos_of_lt_pi_div_two (by positivity) ?_
  rw [div_lt_iff₀ hsr]
  calc Real.pi * f < Real.pi * (sr / 2) := by gcongr
    _ = Real.pi / 2 * sr := by ring

theorem tan_quarter {sr : ℝ} (hsr : 0 < sr) : Real.tan (Real.pi * (sr / 4) / sr) = 1 := by
  rw [← Real.tan_pi_div_four]
  congr 1
  field_simp

/-- At a quarter of the sample rate `K = 1`. -/
theorem bqDesign_real_quarter {t : FType} {sr g : ℝ} (hsr : 0 < sr) (hg : HasGain t → 0 ≤ g) (q : ℝ) :
    bqDesignDefault real sr t (sr / 4) q g =
      some (bilinear (designNum t 1 q ((10 : ℝ) ^ (|g| / 20))) (designDen t 1 q)) := by
  rw [bqDesign_real hg, tan_quarter hsr]

section Gains

variable {sr f q : ℝ} (hsr : 0 < sr) (hf : 0 < f) (hhalf : f < sr / 2) (hq : 0 < q)
include hsr hf hhalf hq

/-- The two gains a design that does not cut is made for. -/
theorem bqDesign_real_gains {t : FType} {g : ℝ} (hg : HasGain t → 0 ≤ g) :
    ∃ k, bqDesignDefault real sr t f q g = some k ∧
      (k.a0 + k.a1 + k.a2) / (1 + k.b1 + k.b2) =
        (designNum t (Real.tan (Real.pi * f / sr)) q ((10 : ℝ) ^ (|g| / 20))).z /
          (designDen t (Real.tan (Real.pi * f / sr)) q).z ∧
      (k.a0 - k.a1 + k.a2) / (1 - k.b1 + k.b2) =
        (designNum t (Real.tan (Real.pi * f / sr)) q ((10 : ℝ) ^ (|g| / 20))).x /
          (designDen t (Real.tan (Real.pi * f / sr)) q).x :=
  have hd := (designDen_sum_pos t (tan_pos_of_lt_half hsr hf hhalf) hq).ne'
  ⟨_, bqDesign_real hg, bilinear_gain_zero hd, bilinear_gain_half hd⟩

theorem bqDesign_real_zero_gain {t : FType} (ht : HasGain t) :
    ∃ k, bqDesignDefault real sr t f q 0 = some k ∧ k.a0 = 1 ∧ k.a1 = k.b1 ∧ k.a2 = k.b2 := by
  have hdesign := bqDesign_real (sr := sr) (f := f) (q := q) (g := 0) (t := t) fun _ => le_rfl
  rw [abs_zero, zero_div, Real.rpow_zero, designNum_one ht] at hdesign
  exact ⟨_, hdesign, bilinear_self (designDen_sum_pos t (tan_pos_of_lt_half hsr hf hhalf) hq).ne'⟩

theorem bqDesign_real_inverse {t : FType} {g : ℝ} (ht : HasGain t) (hg : 0 ≤ g) :
    ∃ k k', bqDesignDefault real sr t f q g = some k ∧ bqDesignDefault real sr t f q (-g) = some k' ∧
      k'.a0 * k.a0 = 1 ∧ k'.a1 * k.a0 = k.b1 ∧ k'.a2 * k.a0 = k.b2 ∧ k'.b1 * k.a0 = k.a1 ∧ k'.b2 * k.a0 = k.a2 := by
  have hK := tan_pos_of_lt_half hsr hf hhalf
  have hcut : bqDesignDefault real sr t f q (-g) = some (bilinear (designDen t (Real.tan (Real.pi * f / sr)) q)
      (designNum t (Real.tan (Real.pi * f / sr)) q ((10 : ℝ) ^ (|g| / 20)))) := by
    rcases hg.eq_or_lt with rfl | hpos
    · rw [neg_zero, bqDesign_real fun _ => le_rfl, abs_zero, zero_div, Real.rpow_zero, designNum_one ht]
    · rw [bqDesign_real_cut ht (neg_lt_zero.2 hpos), abs_neg]
  exact ⟨_, _, bqDesign_real fun _ => hg, hcut,
    bilinear_inverse (designNum_sum_pos ht hK hq (by positivity)).ne' (designDen_sum_pos t hK hq).ne'⟩

end Gains

/-- Settles O21: every default design is a quotient of quadratics, and the gains, the inverse and the check values are
those of the quotient. -/
theorem filterDesignGainsAndCheckValues : Obligations.FilterDesignGainsAndCheckValues := by
  intro sr f q hsr hf hhalf hq
  have hK := tan_pos_of_lt_half hsr hf hhalf
  have hKK : Real.tan (Real.pi * f / sr) * Real.tan (Real.pi * f / sr) ≠ 0 := (mul_pos hK hK).ne'
  refine ⟨fun g => ?lowpass, fun g => ?highpass, fun t ht => bqDesign_real_zero_gain hsr hf hhalf hq ht, ?quarter,
    fun g => ⟨?lowpass4, ?highpass4, ?bandpass4, ?notch4⟩, ?peak4, fun g hg => ?lowshelf, fun g hg => ?highshelf,
    fun t g ht hg => bqDesign_real_inverse hsr hf hhalf hq ht hg, fun g => ?formulas⟩
  case lowpass =>
    obtain ⟨k, hk, h0, h1⟩ := bqDesign_real_gains hsr hf hhalf hq (t := .lowpass) (g := g) (by simp [HasGain])
    exact ⟨k, hk, h0.trans (div_self hKK), h1.trans (zero_div _)⟩
  case highpass =>
    obtain ⟨k, hk, h0, h1⟩ := bqDesign_real_gains hsr hf hhalf hq (t := .highpass) (g := g) (by simp [HasGain])
    exact ⟨k, hk, h0.trans (zero_div _), h1.trans (div_self one_ne_zero)⟩
  case quarter => rw [bqK_real, tan_quarter hsr]
  case lowpass4 | highpass4 | bandpass4 | notch4 =>
    refine (bqDesign_real_quarter hsr (by simp [HasGain]) 1).trans ?_
    norm_num [bilinear, designNum, designDen, Quadratic.sum]
  case peak4 =>
    rw [bqDesign_real_quarter hsr fun _ => le_rfl]
    norm_num [bilinear, designNum, designDen, Quadratic.sum]
  case lowshelf =>
    obtain ⟨k, hk, h0, h1⟩ := bqDesign_real_gains hsr hf hhalf hq (t := .lowshelf) fun _ => hg
    refine ⟨k, hk, h0.trans ?_, h1.trans (div_self one_ne_zero)⟩
    simp only [designNum, designDen, abs_of_nonneg hg]
    rw [mul_assoc, mul_div_cancel_right₀ _ hKK]
  case highshelf =>
    obtain ⟨k, hk, h0, h1⟩ := bqDesign_real_gains hsr hf hhalf hq (t := .highshelf) fun _ => hg
    refine ⟨k, hk, h0.trans (div_self hKK), h1.trans ?_⟩
    simp only [designNum, designDen, abs_of_nonneg hg, div_one]
  case formulas =>
    intro K V N B S S' P P' PV PV' L L' H H'
    refine ⟨(bqDesign_real (by simp [HasGain])).trans (congrArg some (bilinear_bandpass rfl)),
      (bqDesign_real (by simp [HasGain])).trans (congrArg some (bilinear_notch rfl)),
      (bqDesign_real (by simp [HasGain])).trans (congrArg some (bilinear_lowpass rfl)),
      (bqDesign_real (by simp [HasGain])).trans (congrArg some (bilinear_highpass rfl)),
      fun hg => ⟨bqDesign_real fun _ => hg, bqDesign_real fun _ => hg, bqDesign_real fun _ => hg⟩,
      fun hg => ⟨bqDesign_real_cut (.inl rfl) hg, bqDesign_real_cut (.inr (.inl rfl)) hg,
        bqDesign_real_cut (.inr (.inr rfl)) hg⟩⟩

end Sys2Proof.Machine
end

section
/-!
PROOFS. 60_exceptions.md R244, R245 and R247, with 43_biquad.md R166 and 42_envelope.md R131 and R137: the commands that
end in `IndexRange`, `ParamRange` or `NumericFault`, unit by unit.
-/

namespace Sys2Proof.Machine

variable {α : Type}

/-- A command that comes to a computation with no finite result is answered `NumericFault` (60_exceptions.md R247). -/
theorem exec_of_numeric_none {β : Type} {i : Instr} {s : State} {x : Option β}
    {f : β → Except FaultCode (Answer Num)} (h : perform s.config operand i s.units = (numeric x >>= f))
    (hx : x = none) : exec i s = faulted s 7 :=
  exec_of_perform_error (e := .numericFault) (by rw [h, hx]; rfl)

/-! ### The phase increment (41_oscillator.md R110) -/

/-- The product or the quotient has no finite result. -/
theorem phaseInc_eq_none_iff {s : State} {f : Num} (hsr : s.straps.sr ≠ 0) : phaseInc s.config f = none ↔
    round32 (tau32 * f) = none ∨ ∃ x, round32 (tau32 * f) = some x ∧ round32 (x / s.straps.sr) = none := by
  rw [phaseInc, config_num, config_sr, binary32_tau, binary32_mul]
  cases round32 (tau32 * f) with
  | none => simp
  | some x => simp [binary32_div _ hsr]

section NoIncrement

variable {c : Config α} {f : α} (hinc : phaseInc c f = none)
include hinc

theorem oscNew_eq_none (w : Wave) (a : α) : oscNew c w f a = none := by rw [oscNew, hinc]; rfl

theorem oscSetFreq_eq_none (o : Osc α) : oscSetFreq c o f = none := by rw [oscSetFreq, hinc]; rfl

theorem wtAdvance_eq_none (p : α) : wtAdvance c p f = none := by rw [wtAdvance, hinc]; rfl

end NoIncrement

/-! ### Units KRN and OSC -/

section Oscillator

variable {s : State} {w : Wave} {fw aw : Word} {f a : Num}

theorem krnEval_numericFault (hf : dec32 fw = some f) (h : kernel s.config.num w (karg s.config f) = none) :
    exec (.krnEval w fw) s = faulted s 7 :=
  exec_of_numeric_none (by rw [perform, operand_eq_ok.2 hf, ok_bind, krnEval]) h

theorem oscInit_numericFault (hf : dec32 fw = some f) (ha : dec32 aw = some a) (h : oscNew s.config w f a = none) :
    exec (.oscInit w fw aw) s = faulted s 7 :=
  exec_of_numeric_none (by rw [perform, operand_eq_ok.2 hf, ok_bind, operand_eq_ok.2 ha, ok_bind, oscInit]) h

variable {o : Osc Num} (ho : s.units.osc = some o)
include ho

theorem oscSetfreq_numericFault (hf : dec32 fw = some f) (h : oscSetFreq s.config o f = none) :
    exec (.oscSetfreq fw) s = faulted s 7 :=
  exec_of_numeric_none (by rw [perform, operand_eq_ok.2 hf, ok_bind, oscSetfreq, ho, configured_some, ok_bind]) h

theorem oscGetvalue_numericFault (h : oscGet s.config o = none) : exec .oscGetvalue s = faulted s 7 :=
  exec_of_numeric_none (by rw [perform, oscGetvalue, ho, configured_some, ok_bind]) h

theorem oscGetmod_numericFault (hf : dec32 fw = some f) (h : oscGetMod s.config o f = none) :
    exec (.oscGetmod fw) s = faulted s 7 :=
  exec_of_numeric_none (by rw [perform, operand_eq_ok.2 hf, ok_bind, oscGetmod, ho, configured_some, ok_bind]) h

theorem oscAtphase_numericFault (hf : dec32 fw = some f) (h : oscAtPhase s.config o f = none) :
    exec (.oscAtphase fw) s = faulted s 7 :=
  exec_of_numeric_none (by rw [perform, operand_eq_ok.2 hf, ok_bind, oscAtphase, ho, configured_some, ok_bind]) h

end Oscillator

/-! ### Unit FM -/

section Fm

variable {s : State} {w : Wave} {fw aw : Word} {f a : Num}

theorem fmInit_numericFault (hf : dec32 fw = some f) (ha : dec32 aw = some a) (h : oscNew s.config w f a = none) :
    exec (.fmInit w fw aw) s = faulted s 7 :=
  exec_of_numeric_none (by rw [perform, operand_eq_ok.2 hf, ok_bind, operand_eq_ok.2 ha, ok_bind, fmInit]) h

variable {fm : Fm Num} (hfm : s.units.fm = some fm)
include hfm

theorem fmCsetfreq_numericFault (hf : dec32 fw = some f) (h : oscSetFreq s.config fm.car f = none) :
    exec (.fmCsetfreq fw) s = faulted s 7 :=
  exec_of_numeric_none (by rw [perform, operand_eq_ok.2 hf, ok_bind, fmCsetfreq, hfm, configured_some, ok_bind]) h

/-- The file has room for the operator: the increment is computed after `Capacity` is tested (60_exceptions.md R248). -/
theorem fmAddop_numericFault (hf : dec32 fw = some f) (ha : dec32 aw = some a)
    (hroom : fm.ops.length < s.straps.fmMaxOps) (h : oscNew s.config w f a = none) :
    exec (.fmAddop w fw aw) s = faulted s 7 :=
  exec_of_numeric_none (by
    rw [perform, operand_eq_ok.2 hf, ok_bind, operand_eq_ok.2 ha, ok_bind, fmAddop, hfm, configured_some, ok_bind,
      config_fmMaxOps, decide_eq_true hroom, require_true, ok_bind]) h

theorem fmOpsetfreq_numericFault {i : ℕ} {o : Osc Num} (hf : dec32 fw = some f) (ho : fm.ops[i]? = some o)
    (h : oscSetFreq s.config o f = none) : exec (.fmOpsetfreq i fw) s = faulted s 7 :=
  exec_of_numeric_none (by
    rw [perform, operand_eq_ok.2 hf, ok_bind, fmOpsetfreq, hfm, configured_some, ok_bind, operatorAt_eq_ok.2 ho,
      ok_bind]) h

theorem fmSample_numericFault (h : fmStep s.config fm = none) : exec .fmSample s = faulted s 7 :=
  exec_of_numeric_none (by rw [perform, fmSample, hfm, configured_some, ok_bind]) h

end Fm

/-! ### Units NG and WT -/

theorem ngGetvalue_numericFault {s : State} {g : Ng Num} (hg : s.units.ng = some g)
    (h : noiseSample s.config g s.units.rng = none) : exec .ngGetvalue s = faulted s 7 :=
  exec_of_numeric_none (by rw [perform, ngGetvalue, hg, configured_some, ok_bind]) h

/-- A table with an entry that has no value is not filled. -/
theorem tabFill_eq_none {v : ℕ → Option α} {n i j : ℕ} (hv : v j = none) (hij : i ≤ j) (hj : j < i + n) :
    tabFill v n i = none := by
  induction n generalizing i with
  | zero => omega
  | succ n ih =>
    rw [tabFill]
    rcases hij.eq_or_lt with rfl | hlt
    · rw [hv]; rfl
    · rw [ih hlt (by omega)]
      cases v i <;> rfl

/-- The position is computed before anything is read (45_wavetable.md R193). -/
theorem wtLookup_of_no_position {c : Config α} {p : α} (h : wtPosition c p = none) (t : List (ℕ × α)) :
    wtLookup c t p = .error .numericFault := by
  rw [wtLookup, h]; rfl

section Wavetable

variable {s : State} {w : Wave} {fw : Word} {f : Num}

theorem wtBuild_numericFault {i : ℕ} (hi : i < s.straps.wtLen) (h : wtBuildEntry s.config w i = none) :
    exec (.wtBuild w) s = faulted s 7 :=
  exec_of_numeric_none (by rw [perform, wtBuild]) (tabFill_eq_none h i.zero_le (by rwa [Nat.zero_add]))

theorem wtAtphase_error {e : FaultCode} (hf : dec32 fw = some f) (h : wtLookup s.config s.units.wt.tab f = .error e) :
    exec (.wtAtphase fw) s = faulted s e.status :=
  exec_of_perform_error (by rw [perform, operand_eq_ok.2 hf, ok_bind, wtAtphase, h, error_bind])

theorem wtGetfreq_error {e : FaultCode} (hf : dec32 fw = some f)
    (h : wtLookup s.config s.units.wt.tab s.units.wt.phase = .error e) :
    exec (.wtGetfreq fw) s = faulted s e.status :=
  exec_of_perform_error (by rw [perform, operand_eq_ok.2 hf, ok_bind, wtGetfreq, h, error_bind])

theorem wtGetfreq_numericFault {v : Num} (hf : dec32 fw = some f)
    (hv : wtLookup s.config s.units.wt.tab s.units.wt.phase = .ok v)
    (h : wtAdvance s.config s.units.wt.phase f = none) : exec (.wtGetfreq fw) s = faulted s 7 :=
  exec_of_numeric_none (by rw [perform, operand_eq_ok.2 hf, ok_bind, wtGetfreq, hv, ok_bind]) h

/-- A listed entry no word encodes faults at the last encoding step. -/
theorem wtRdtab_numericFault {i : ℕ} {y : Num} (hi : i < s.straps.wtLen) (hy : tabRead s.units.wt.tab i = some y)
    (h : enc32 y = none) : exec (.wtRdtab i) s = faulted s 7 := by
  rw [exec_eq_perform, perform, wtRdtab, config_wtLen, checkIndex_of_lt hi, ok_bind, validEntry_eq_ok.2 hy, ok_bind]
  exact answer_num_overflow h

end Wavetable

/-! ### Unit ENV -/

theorem sustainValid_eq_false {p : Straps} {x : Num} (h : x < 0 ∨ 1 < x) :
    sustainValid (configOf p).num x = false := by
  rw [← Bool.not_eq_true, sustainValid_iff, not_and_or, not_le, not_le]
  exact h

section Envelope

variable {s : State} {e : Env Num} {w : Word} {x : Num}

theorem envInit_paramRange {aw dw lw rw : Word} {a d level r : Num} (ha : dec32 aw = some a) (hd : dec32 dw = some d)
    (hl : dec32 lw = some level) (hr : dec32 rw = some r) (h : level < 0 ∨ 1 < level) :
    exec (.envInit aw dw lw rw) s = faulted s 5 := by
  have hinvalid : sustainValid s.config.num level = false := sustainValid_eq_false h
  refine exec_of_perform_error (e := .paramRange) ?_
  rw [perform, operand_eq_ok.2 ha, ok_bind, operand_eq_ok.2 hd, ok_bind, operand_eq_ok.2 hl, ok_bind,
    operand_eq_ok.2 hr, ok_bind, envInit, hinvalid, require_false, error_bind]

/-- The rates and then the derived fields `ENV.INIT` computes (42_envelope.md R131). -/
def envInitDerive (s : State) (a d level r : Num) : Option (Env Num) := do
  let ra ← round32 (a * s.straps.sr)
  let rd ← round32 (d * s.straps.sr)
  let rr ← round32 (r * s.straps.sr)
  envDerive s.config
    ⟨ra, rd, rr, level, finite32 0x3E99999A, finite32 0x38D1B717, 0, 0, 0, 0, 0, 0, .idle, 0⟩

theorem envInit_numericFault {aw dw lw rw : Word} {a d level r : Num} (ha : dec32 aw = some a)
    (hd : dec32 dw = some d) (hl : dec32 lw = some level) (hr : dec32 rw = some r) (h0 : 0 ≤ level) (h1 : level ≤ 1)
    (h : envInitDerive s a d level r = none) : exec (.envInit aw dw lw rw) s = faulted s 7 := by
  have hvalid : sustainValid s.config.num level = true := sustainValid_iff.2 ⟨h0, h1⟩
  refine exec_of_numeric_none (f := fun e => pure ({ s.units with env := some e }, .none)) ?_ h
  simp only [perform, operand_eq_ok.2 ha, operand_eq_ok.2 hd, operand_eq_ok.2 hl, operand_eq_ok.2 hr, ok_bind, envInit,
    hvalid, require_true]
  rw [config_num, binary32_ofRat_zero, binary32_ratioA, binary32_ratioDR]
  rfl

theorem envInitDerive_eq_some {a d level r : Num} (h : envInitDerive s a d level r = some e) :
    ∃ ra rd rr, round32 (a * s.straps.sr) = some ra ∧ round32 (d * s.straps.sr) = some rd ∧
      round32 (r * s.straps.sr) = some rr ∧ ∃ ac dc rc b,
      calcCoef s.config.num ra (finite32 0x3E99999A) = some ac ∧
      calcCoef s.config.num rd (finite32 0x38D1B717) = some dc ∧
      calcCoef s.config.num rr (finite32 0x38D1B717) = some rc ∧
      s.config.envBase (finite32 0x3E99999A) (finite32 0x38D1B717) level ac dc rc = some b := by
  obtain ⟨ra, hra, h⟩ := Option.bind_eq_some_iff.1 h
  obtain ⟨rd, hrd, h⟩ := Option.bind_eq_some_iff.1 h
  obtain ⟨rr, hrr, h⟩ := Option.bind_eq_some_iff.1 h
  obtain ⟨ac, dc, rc, b, hac, hdc, hrc, hb, -⟩ := envDerive_eq_some.1 h
  exact ⟨ra, rd, rr, hra, hrd, hrr, ac, dc, rc, b, hac, hdc, hrc, hb⟩

/-- A new rate that is not finite stops the derivation before it begins. -/
theorem derives_none_of_rate_none {f : Num → Env Num} (h : round32 (x * s.straps.sr) = none) :
    (s.config.num.mul x s.config.sr >>= fun y => envDerive s.config (f y)) = none := by
  have hmul : s.config.num.mul x s.config.sr = none := h
  rw [hmul]; rfl

theorem derives_none_of_rate {f : Num → Env Num} {y : Num} (hy : round32 (x * s.straps.sr) = some y)
    (h : envDerive s.config (f y) = none) :
    (s.config.num.mul x s.config.sr >>= fun y => envDerive s.config (f y)) = none := by
  have hmul : s.config.num.mul x s.config.sr = some y := hy
  rw [hmul]; exact h

variable (he : s.units.env = some e)
include he

theorem envSetsustain_paramRange (hx : dec32 w = some x) (h : x < 0 ∨ 1 < x) :
    exec (.envSetsustain w) s = faulted s 5 := by
  have hinvalid : sustainValid s.config.num x = false := sustainValid_eq_false h
  refine exec_of_perform_error (e := .paramRange) ?_
  rw [perform, operand_eq_ok.2 hx, ok_bind, envSetsustain, he, configured_some, ok_bind, hinvalid, require_false,
    error_bind]

theorem envSetattack_numericFault (hx : dec32 w = some x)
    (h : (s.config.num.mul x s.config.sr >>= fun y => envDerive s.config { e with attackRate := y }) = none) :
    exec (.envSetattack w) s = faulted s 7 :=
  exec_of_numeric_none (by rw [perform, operand_eq_ok.2 hx, ok_bind, envSetattack, he, configured_some, ok_bind]) h

theorem envSetdecay_numericFault (hx : dec32 w = some x)
    (h : (s.config.num.mul x s.config.sr >>= fun y => envDerive s.config { e with decayRate := y }) = none) :
    exec (.envSetdecay w) s = faulted s 7 :=
  exec_of_numeric_none (by rw [perform, operand_eq_ok.2 hx, ok_bind, envSetdecay, he, configured_some, ok_bind]) h

theorem envSetrelease_numericFault (hx : dec32 w = some x)
    (h : (s.config.num.mul x s.config.sr >>= fun y => envDerive s.config { e with releaseRate := y }) = none) :
    exec (.envSetrelease w) s = faulted s 7 :=
  exec_of_numeric_none (by rw [perform, operand_eq_ok.2 hx, ok_bind, envSetrelease, he, configured_some, ok_bind]) h

theorem envSetsustain_numericFault (hx : dec32 w = some x) (h0 : 0 ≤ x) (h1 : x ≤ 1)
    (h : envDerive s.config { e with sustain := x } = none) : exec (.envSetsustain w) s = faulted s 7 := by
  have hvalid : sustainValid s.config.num x = true := sustainValid_iff.2 ⟨h0, h1⟩
  refine exec_of_numeric_none (f := fun e' => pure ({ s.units with env := some e' }, .none)) ?_ h
  rw [perform, operand_eq_ok.2 hx, ok_bind, envSetsustain, he, configured_some, ok_bind, hvalid, require_true, ok_bind]

theorem envSetratioa_numericFault (hx : dec32 w = some x)
    (h : envDerive s.config { e with ratioA := max x (finite32 0x3089705F) } = none) :
    exec (.envSetratioa w) s = faulted s 7 := by
  refine exec_of_numeric_none (f := fun e' => pure ({ s.units with env := some e' }, .none)) ?_ h
  rw [perform, operand_eq_ok.2 hx, ok_bind, envSetratioa, he, configured_some, ok_bind, config_num,
    binary32_ratioMin, binary32_maxNum]

theorem envSetratiodr_numericFault (hx : dec32 w = some x)
    (h : envDerive s.config { e with ratioDR := max x (finite32 0x3089705F) } = none) :
    exec (.envSetratiodr w) s = faulted s 7 := by
  refine exec_of_numeric_none (f := fun e' => pure ({ s.units with env := some e' }, .none)) ?_ h
  rw [perform, operand_eq_ok.2 hx, ok_bind, envSetratiodr, he, configured_some, ok_bind, config_num,
    binary32_ratioMin, binary32_maxNum]

theorem envProcess_numericFault (h : envStep s.config.num e = none) : exec .envProcess s = faulted s 7 :=
  exec_of_numeric_none (by rw [perform, envProcess, he, configured_some, ok_bind]) h

end Envelope

/-! ### Unit BQ -/

section Filter

variable {s : State} {b : Bq Num} {c : ℕ} {w : Word} {x : Num} (hb : s.units.bq = some b)
include hb

theorem bqProcess_indexRange (hx : dec32 w = some x) (hc : s.straps.nCh ≤ c) :
    exec (.bqProcess c w) s = faulted s 4 :=
  exec_of_perform_error (e := .indexRange) (by
    rw [perform, operand_eq_ok.2 hx, ok_bind, bqProcess, hb, configured_some, ok_bind, config_nCh, checkIndex_of_le hc,
      error_bind])

theorem bqProcess_numericFault (hx : dec32 w = some x) (hc : c < s.straps.nCh)
    (h : bqFilter s.config.num b.coefs (delayAt s.config.num b c) x = none) :
    exec (.bqProcess c w) s = faulted s 7 :=
  exec_of_numeric_none (by
    rw [perform, operand_eq_ok.2 hx, ok_bind, bqProcess, hb, configured_some, ok_bind, config_nCh, checkIndex_of_lt hc,
      ok_bind]) h

end Filter

/-- Settles O52, clause by clause: each names the check or the computation at which its command stops. -/
theorem indexParameterAndNumericFaults : Obligations.IndexParameterAndNumericFaults := by
  refine ⟨fun s w x hx => ?ranges, fun s f => phaseInc_eq_none_iff, fun s w fw aw f a hf ha hinc => ?frequency,
    fun s w pw p hp => ?samples, fun s aw dw lw rw a d l r ha hd hl hr h0 h1 => ⟨fun h => ?rates,
      fun ra rd rr hra hrd hrr h => ?derived, fun e he => ?setters⟩,
    fun s t fw qw gw f q g hf hq hg => ⟨fun hv hk => ?init, fun b hb => ?filter⟩⟩
  case ranges =>
    exact ⟨fun b c hb hc => bqProcess_indexRange hb hx hc,
      fun h => ⟨fun e he => envSetsustain_paramRange he hx h,
        fun _ _ _ _ _ _ ha hd hr => envInit_paramRange ha hd hx hr h⟩,
      fun i y hi hy h => wtRdtab_numericFault hi hy h⟩
  case frequency =>
    exact ⟨oscInit_numericFault hf ha (oscNew_eq_none hinc w a),
      fun o ho => oscSetfreq_numericFault ho hf (oscSetFreq_eq_none hinc o),
      fmInit_numericFault hf ha (oscNew_eq_none hinc w a),
      fun fm hfm => ⟨fmCsetfreq_numericFault hfm hf (oscSetFreq_eq_none hinc fm.car),
        fun hroom => fmAddop_numericFault hfm hf ha hroom (oscNew_eq_none hinc w a),
        fun k hk => fmOpsetfreq_numericFault hfm hf (List.getElem?_eq_getElem hk) (oscSetFreq_eq_none hinc _)⟩,
      fun v hv => wtGetfreq_numericFault hf hv (wtAdvance_eq_none hinc _)⟩
  case samples =>
    exact ⟨krnEval_numericFault hp,
      fun o ho => ⟨oscGetvalue_numericFault ho, oscGetmod_numericFault ho hp, oscAtphase_numericFault ho hp⟩,
      fun fm hfm => fmSample_numericFault hfm, fun g hg => ngGetvalue_numericFault hg,
      fun i hi => wtBuild_numericFault hi, wtAtphase_error hp, wtGetfreq_error hp,
      fun t h => wtLookup_of_no_position h t, fun v hv => wtGetfreq_numericFault hp hv⟩
  case rates =>
    refine envInit_numericFault ha hd hl hr h0 h1 (Option.eq_none_iff_forall_ne_some.2 fun e he => ?_)
    obtain ⟨ra, rd, rr, hra, hrd, hrr, -⟩ := envInitDerive_eq_some he
    simp [hra, hrd, hrr] at h
  case derived =>
    refine envInit_numericFault ha hd hl hr h0 h1 (Option.eq_none_iff_forall_ne_some.2 fun e he => ?_)
    obtain ⟨ra', rd', rr', hra', hrd', hrr', ac, dc, rc, b, hac, hdc, hrc, hb⟩ := envInitDerive_eq_some he
    obtain rfl : ra = ra' := Option.some.inj (hra.symm.trans hra')
    obtain rfl : rd = rd' := Option.some.inj (hrd.symm.trans hrd')
    obtain rfl : rr = rr' := Option.some.inj (hrr.symm.trans hrr')
    rw [hac, hdc, hrc] at h
    rcases h with h | h | h | ⟨_, _, _, h1, h2, h3, h⟩
    · cases h
    · cases h
    · cases h
    · cases h1
      cases h2
      cases h3
      cases hb.symm.trans h
  case setters =>
    exact ⟨fun h => ⟨envSetattack_numericFault he ha (derives_none_of_rate_none h),
        envSetdecay_numericFault he ha (derives_none_of_rate_none h),
        envSetrelease_numericFault he ha (derives_none_of_rate_none h)⟩,
      fun y hy => ⟨fun h => envSetattack_numericFault he ha (derives_none_of_rate hy h),
        fun h => envSetdecay_numericFault he ha (derives_none_of_rate hy h),
        fun h => envSetrelease_numericFault he ha (derives_none_of_rate hy h)⟩,
      envSetsustain_numericFault he hl h0 h1, envSetratioa_numericFault he ha, envSetratiodr_numericFault he ha,
      envProcess_numericFault he⟩
  case init => exact exec_of_no_design (perform_of_valid (perform_bqInit t hf hq hg) hv) hk
  case filter =>
    exact ⟨exec_of_no_design (perform_bqSettype hb t),
      fun hv => exec_of_no_design (perform_of_valid (perform_bqSetfreq hb hf) hv),
      fun hv => exec_of_no_design (perform_of_valid (perform_bqSetq hb hq) hv),
      exec_of_no_design (perform_bqSetgain hb hg), fun c hc => bqProcess_numericFault hb hg hc⟩

end Sys2Proof.Machine
end

section
/-!
PROOFS. 44_noise.md R182 to R186: the full period of `LFSR16`, its first states and draws, and the commands of unit NG.

The period rests on two facts. A step is linear over exclusive or, so that `2^k` steps are sixteen columns, found from
those of `2^(k-1)` steps by composing them with themselves, and any number of steps is a product of those. And the
least period of the state 1 divides 65535 and none of its quotients by a prime, so that the states reached from 1 are as
many as there are states other than 0.
-/

namespace Sys2Proof.Machine

open Function

/-! ### Linear functions as columns -/

/-- The exclusive or of those columns whose bit is set in `s`, the first column at bit 0. -/
def xorColumns : List (BitVec 16) → BitVec 16 → BitVec 16
  | [], _ => 0
  | c :: cs, s => (if s.getLsbD 0 then c else 0) ^^^ xorColumns cs (s >>> 1)

/-- The columns of the identity. -/
def unitColumns : List (BitVec 16) := (List.range 16).map (BitVec.twoPow 16)

/-- `f` is linear over exclusive or. -/
def XorLinear (f : BitVec 16 → BitVec 16) : Prop := ∀ a b, f (a ^^^ b) = f a ^^^ f b

theorem XorLinear.map_zero {f : BitVec 16 → BitVec 16} (hf : XorLinear f) : f 0 = 0 := by
  simpa using hf 0 0

/-- A linear function acts on a combination of columns by acting on the columns. -/
theorem XorLinear.apply_xorColumns {f : BitVec 16 → BitVec 16} (hf : XorLinear f) (cols : List (BitVec 16))
    (s : BitVec 16) : f (xorColumns cols s) = xorColumns (cols.map f) s := by
  induction cols generalizing s with
  | nil => exact hf.map_zero
  | cons c cs ih =>
    rw [xorColumns, hf, ih, List.map_cons, xorColumns]
    split
    · rfl
    · rw [hf.map_zero]

/-- A column counts once for each of two bits, and twice is not at all. -/
theorem ite_xor_column (x y : Bool) (c : BitVec 16) :
    (if x ^^ y then c else 0) = (if x then c else 0) ^^^ (if y then c else 0) := by
  cases x <;> cases y <;> simp

theorem xorLinear_xorColumns (cols : List (BitVec 16)) : XorLinear (xorColumns cols) := by
  intro a b
  induction cols generalizing a b with
  | nil => simp [xorColumns]
  | cons c cs ih =>
    rw [xorColumns, xorColumns, xorColumns, BitVec.ushiftRight_xor_distrib, ih, BitVec.getLsbD_xor, ite_xor_column]
    ac_rfl

/-- The columns from `j` on restore the bits from `j` on. -/
theorem getLsbD_xorColumns_twoPow (s : BitVec 16) (n j i : ℕ) :
    (xorColumns ((List.range' j n).map (BitVec.twoPow 16)) (s >>> j)).getLsbD i =
      (decide (j ≤ i ∧ i < j + n) && s.getLsbD i) := by
  induction n generalizing j with
  | zero => simp [xorColumns]
  | succ n ih =>
    rw [List.range'_succ, List.map_cons, xorColumns, BitVec.getLsbD_xor, ← BitVec.shiftRight_add, ih,
      BitVec.getLsbD_ushiftRight, Nat.add_zero]
    rcases eq_or_ne j i with rfl | hne
    · cases hbit : s.getLsbD j with
      | false => simp
      | true => simp [BitVec.lt_of_getLsbD hbit]
    · have hcol : (if s.getLsbD j then BitVec.twoPow 16 j else 0).getLsbD i = false := by split <;> simp [hne]
      have hrange : (j + 1 ≤ i ∧ i < j + 1 + n) ↔ (j ≤ i ∧ i < j + (n + 1)) := by omega
      rw [hcol, Bool.false_xor, decide_eq_decide.2 hrange]

theorem xorColumns_unitColumns (s : BitVec 16) : xorColumns unitColumns s = s := by
  refine BitVec.eq_of_getLsbD_eq fun i hi => ?_
  have h := getLsbD_xorColumns_twoPow s 16 0 i
  rw [← List.range_eq_range', BitVec.ushiftRight_zero] at h
  rw [unitColumns, h]
  simp [hi]

theorem XorLinear.eq_xorColumns {f : BitVec 16 → BitVec 16} (hf : XorLinear f) (s : BitVec 16) :
    f s = xorColumns (unitColumns.map f) s := by
  rw [← hf.apply_xorColumns, xorColumns_unitColumns]

/-! ### Many steps at once -/

/-- A step moves every bit down by one place, and the sum of the taps into bit 15. -/
theorem getLsbD_lfsrStep (s : BitVec 16) (i : ℕ) : (lfsrStep s).getLsbD i =
    if i = 15 then s.getLsbD 0 ^^ s.getLsbD 2 ^^ s.getLsbD 3 ^^ s.getLsbD 5 else s.getLsbD (i + 1) := by
  have htop (b : Bool) : (if b then 0x8000#16 else 0#16).getLsbD i = (b && decide (15 = i)) := by
    cases b
    · simp
    · rw [if_pos rfl, show 0x8000#16 = BitVec.twoPow 16 15 from rfl, BitVec.getLsbD_twoPow]; rfl
  rw [lfsrStep, BitVec.getLsbD_or, BitVec.getLsbD_ushiftRight, Nat.add_comm 1 i, htop]
  rcases eq_or_ne i 15 with rfl | hne
  · simp
  · simp [hne, hne.symm]

theorem xorLinear_lfsrStep : XorLinear lfsrStep := by
  intro a b
  refine BitVec.eq_of_getLsbD_eq fun i _ => ?_
  simp only [getLsbD_lfsrStep, BitVec.getLsbD_xor]
  split
  · simp only [Bool.xor_assoc, Bool.xor_left_comm]
  · rfl

/-- The columns of `2^k` steps. -/
def lfsrColumns : ℕ → List (BitVec 16)
  | 0 => unitColumns.map lfsrStep
  | k + 1 => (lfsrColumns k).map (xorColumns (lfsrColumns k))

theorem xorColumns_lfsrColumns (k : ℕ) (s : BitVec 16) : xorColumns (lfsrColumns k) s = lfsrStep^[2 ^ k] s := by
  induction k generalizing s with
  | zero => exact (xorLinear_lfsrStep.eq_xorColumns s).symm
  | succ k ih =>
    rw [lfsrColumns, ← (xorLinear_xorColumns _).apply_xorColumns, ih, ih, ← iterate_add_apply, ← two_mul, pow_succ']

/-- `n % 2^k` steps, one factor for each bit of `n` below `k`. -/
def lfsrJump : ℕ → ℕ → BitVec 16 → BitVec 16
  | 0, _, s => s
  | k + 1, n, s => lfsrJump k n (if n.testBit k then xorColumns (lfsrColumns k) s else s)

theorem lfsrJump_eq_iterate (k n : ℕ) (s : BitVec 16) : lfsrJump k n s = lfsrStep^[n % 2 ^ k] s := by
  induction k generalizing s with
  | zero => rw [pow_zero, Nat.mod_one]; rfl
  | succ k ih =>
    rw [lfsrJump, ih, xorColumns_lfsrColumns, Nat.mod_pow_succ, ← Nat.toNat_testBit, iterate_add_apply]
    cases n.testBit k
    · rw [Bool.toNat_false, mul_zero]; rfl
    · rw [Bool.toNat_true, mul_one]; rfl

theorem isPeriodicPt_lfsrStep_iff {n : ℕ} (hn : n < 2 ^ 16) (s : BitVec 16) :
    IsPeriodicPt lfsrStep n s ↔ lfsrJump 16 n s = s := by
  rw [lfsrJump_eq_iterate, Nat.mod_eq_of_lt hn]
  rfl

/-! ### The period -/

/-- A period of which no quotient by a prime is a period is the least one. -/
theorem minimalPeriod_eq_of_not_isPeriodicPt_div_prime {α : Type} {f : α → α} {n : ℕ} {x : α}
    (h : IsPeriodicPt f n x) (hp : ∀ p : ℕ, p.Prime → p ∣ n → ¬ IsPeriodicPt f (n / p) x) : minimalPeriod f x = n := by
  obtain ⟨k, hk⟩ := h.minimalPeriod_dvd
  by_contra hne
  have hk1 : k ≠ 1 := by rintro rfl; exact hne (by rw [hk, mul_one])
  obtain ⟨p, hprime, j, rfl⟩ := Nat.exists_prime_and_dvd hk1
  refine hp p hprime ⟨minimalPeriod f x * j, by rw [hk]; ring⟩ ?_
  have hquot : n / p = minimalPeriod f x * j := Nat.div_eq_of_eq_mul_right hprime.pos (by rw [hk]; ring)
  rw [hquot]
  exact (isPeriodicPt_minimalPeriod f x).mul_const j

theorem mem_of_prime_dvd_65535 {p : ℕ} (hp : p.Prime) (h : p ∣ 65535) : p ∈ [3, 5, 17, 257] := by
  rw [show 65535 = 3 * (5 * (17 * 257)) from rfl, hp.dvd_mul, hp.dvd_mul, hp.dvd_mul] at h
  simpa [Nat.prime_dvd_prime_iff_eq hp, (by norm_num : Nat.Prime 17), (by norm_num : Nat.Prime 257), Nat.prime_three,
    Nat.prime_five] using h

theorem lfsrJump_65535_one : lfsrJump 16 65535 1 = 1 := by decide +kernel

theorem lfsrJump_65535_div_one_ne : ∀ p ∈ [3, 5, 17, 257], lfsrJump 16 (65535 / p) 1 ≠ 1 := by decide +kernel

theorem minimalPeriod_lfsrStep_one : minimalPeriod lfsrStep 1 = 65535 := by
  refine minimalPeriod_eq_of_not_isPeriodicPt_div_prime
    ((isPeriodicPt_lfsrStep_iff (by norm_num) 1).2 lfsrJump_65535_one) fun p hp hdvd => ?_
  have hlt : 65535 / p < 2 ^ 16 := Nat.lt_succ_of_le (Nat.div_le_self _ _)
  rw [isPeriodicPt_lfsrStep_iff hlt]
  exact lfsrJump_65535_div_one_ne p (mem_of_prime_dvd_65535 hp hdvd)

/-- A state of period 65535 reaches every state but 0: it reaches 65535 of them, and there are no more. -/
theorem exists_iterate_lfsrStep_eq_of_minimalPeriod {s t : BitVec 16} (hs : s ≠ 0) (ht : t ≠ 0)
    (h : minimalPeriod lfsrStep s = 65535) : ∃ k < 65535, lfsrStep^[k] s = t := by
  have hmaps (k : ℕ) : lfsrStep^[k] s ≠ 0 := by
    induction k with
    | zero => exact hs
    | succ k ih => rw [iterate_succ_apply']; exact lfsrStep_ne_zero ih
  have hinj : Set.InjOn (fun k => lfsrStep^[k] s) (Finset.range 65535) := by
    rw [Finset.coe_range, ← h]
    exact iterate_injOn_Iio_minimalPeriod
  have hcard : Fintype.card (BitVec 16) = 65536 := FinEnum.card_eq_fintypeCard.symm.trans (FinEnum.card_bitVec 16)
  have himage : (Finset.range 65535).image (fun k => lfsrStep^[k] s) = Finset.univ.erase 0 := by
    refine Finset.eq_of_subset_of_card_le (Finset.image_subset_iff.2 fun k _ => by simpa using hmaps k) ?_
    rw [Finset.card_image_of_injOn hinj, Finset.card_erase_of_mem (Finset.mem_univ _), Finset.card_univ, hcard,
      Finset.card_range]
  have hmem : t ∈ (Finset.range 65535).image (fun k => lfsrStep^[k] s) := by
    rw [himage]; exact Finset.mem_erase.2 ⟨ht, Finset.mem_univ t⟩
  simpa using hmem

/-- Every state but 0 has the full period: it is on the orbit of 1. -/
theorem minimalPeriod_lfsrStep {s : BitVec 16} (hs : s ≠ 0) : minimalPeriod lfsrStep s = 65535 := by
  have hone : (1 : BitVec 16) ∈ periodicPts lfsrStep :=
    minimalPeriod_pos_iff_mem_periodicPts.1 (by rw [minimalPeriod_lfsrStep_one]; norm_num)
  obtain ⟨k, -, rfl⟩ := exists_iterate_lfsrStep_eq_of_minimalPeriod (by decide) hs minimalPeriod_lfsrStep_one
  rw [minimalPeriod_apply_iterate hone, minimalPeriod_lfsrStep_one]

theorem exists_iterate_lfsrStep_eq {s t : BitVec 16} (hs : s ≠ 0) (ht : t ≠ 0) : ∃ k < 65535, lfsrStep^[k] s = t :=
  exists_iterate_lfsrStep_eq_of_minimalPeriod hs ht (minimalPeriod_lfsrStep hs)

/-! ### The source over each numerics -/

theorem lfsrDraw_real (s : BitVec 16) : (lfsrDraw real s : ℝ) = ((s.toNat : ℝ) - 32768) / 32767 := by
  simp [lfsrDraw, real]

@[simp] theorem lfsr16_seed {α : Type} (n : NumOps α) (s : BitVec 16) :
    (lfsr16 n).seed s = if s = 0 then none else some s.toNat := rfl

@[simp] theorem lfsr16_next {α : Type} (n : NumOps α) (s : BitVec 16) :
    (lfsr16 n).next s.toNat = ((lfsrStep s).toNat, lfsrDraw n (lfsrStep s)) := by
  simp only [lfsr16, BitVec.ofNat_toNat, BitVec.setWidth_eq]

theorem lfsr16_real_draw {s : BitVec 16} {k : ℕ} (h : (lfsrStep s).toNat = k) :
    ((lfsr16 real).next s.toNat).2 = ((k : ℝ) - 32768) / 32767 := by
  rw [lfsr16_next, lfsrDraw_real, h]

theorem noiseOf_reference {p : Straps} (h : p.noiseSrc = .reference) : noiseOf p = lfsr16 (binary32 p) := by
  rw [noiseOf, h]

/-- The hardware draws the quotient rounded once (00_scope.md R12). -/
theorem lfsrDraw_binary32 (p : Straps) {s : BitVec 16} {d : Num} (h : round32 ((s.toNat - 32768) / 32767) = some d) :
    lfsrDraw (binary32 p) s = d := by
  show (round32 _).getD 0 = d
  rw [h]; rfl

/-- Settles O41, clause by clause: the listed states and draws are evaluated, the period is
`exists_iterate_lfsrStep_eq`. -/
theorem lfsrStatesDrawsAndPeriod : Obligations.LfsrStatesDrawsAndPeriod := by
  refine ⟨by decide, lfsrDraw_real, lfsr16_next real, fun t s d hsrc hd => ?_, lfsr16_seed real, fun t hsrc s => ?_,
    ?_, ?_, ?_, ?_, ?_, ?_, ?_, ?_, fun s t hs ht => exists_iterate_lfsrStep_eq hs ht⟩
  · rw [config_noise, noiseOf_reference hsrc, lfsr16_next, lfsrDraw_binary32 _ hd]
  · rw [config_noise, noiseOf_reference hsrc, lfsr16_seed]
  · exact (lfsr16_real_draw (s := 0xACE1) (k := 0x5670) rfl).trans (by norm_num)
  · exact (lfsr16_real_draw (s := 0x5670) (k := 0xAB38) rfl).trans (by norm_num)
  · exact (lfsr16_real_draw (s := 0xAB38) (k := 0x559C) rfl).trans (by norm_num)
  · exact (lfsr16_real_draw (s := 0x559C) (k := 0x2ACE) rfl).trans (by norm_num)
  · exact (lfsr16_real_draw (s := 0x2ACE) (k := 0x1567) rfl).trans (by norm_num)
  · exact (lfsr16_real_draw (s := 0x1567) (k := 0x8AB3) rfl).trans (by norm_num)
  · exact (lfsr16_real_draw (s := 0x8AB3) (k := 0x4559) rfl).trans (by norm_num)
  · exact (lfsr16_real_draw (s := 0x4559) (k := 0x22AC) rfl).trans (by norm_num)

/-! ### The commands (R183 to R186) -/

section Commands

variable {s : State}

theorem exec_ngSettype (v : Variant) :
    exec (.ngSettype v) s = completes s { s.units with ng := some ⟨v, 0⟩ } 0 := by
  refine exec_of_perform (x := .none) ?_ rfl
  rw [perform, ngSettype, config_num, binary32_ofRat_zero]
  rfl

theorem exec_ngSeed {k : BitVec 16} {n : ℕ} (h : s.config.noise.seed k = some n) :
    exec (.ngSeed k) s = completes s { s.units with rng := n } 0 := by
  refine exec_of_perform (x := .none) ?_ rfl
  rw [perform, ngSeed, h]

theorem exec_ngSeed_refused {k : BitVec 16} (h : s.config.noise.seed k = none) :
    exec (.ngSeed k) s = faulted s 5 :=
  exec_of_perform_error (e := .paramRange) (by rw [perform, ngSeed, h])

theorem exec_ngGetvalue {g g' : Ng Num} {v : Num} {n : ℕ} {r : Word} (hg : s.units.ng = some g)
    (h : noiseSample s.config g s.units.rng = some (v, g', n)) (hr : enc32 v = some r) :
    exec .ngGetvalue s = completes s { s.units with ng := some g', rng := n } r := by
  refine exec_of_perform (x := .num v) ?_ hr
  rw [perform, ngGetvalue, hg, configured_some, ok_bind, h]
  rfl

/-- A sample that keeps the generator's fields changes nothing but the random source. -/
theorem exec_ngGetvalue_same {g : Ng Num} {v : Num} {n : ℕ} {r : Word} (hg : s.units.ng = some g)
    (h : noiseSample s.config g s.units.rng = some (v, g, n)) (hr : enc32 v = some r) :
    exec .ngGetvalue s = completes s { s.units with rng := n } r := by
  rw [exec_ngGetvalue hg h hr, ← hg]

/-- Half a number, as the hardware divides. -/
theorem binary32_half {p : Straps} (x : Num) : (binary32 p).div x ((binary32 p).ofRat 2) = round32 (x / 2) := by
  rw [binary32_ofRat_two, binary32_div p two_ne_zero]

variable {g : Ng Num} {rng n1 n2 : ℕ} {d1 d2 a o : Num} (h1 : s.config.noise.next rng = (n1, d1))
include h1

theorem noiseSample_white (hg : g.type = .white) : noiseSample s.config g rng = some (d1, g, n1) := by
  simp only [noiseSample, hg, h1]

theorem noiseSample_pink (hg : g.type = .pink) (h2 : s.config.noise.next n1 = (n2, d2))
    (ha : round32 (d1 + d2) = some a) (ho : round32 (a / 2) = some o) :
    noiseSample s.config g rng = some (o, g, n2) := by
  simp only [noiseSample, hg, h1, h2, config_num, binary32_add, ha, binary32_half, ho, Option.bind_eq_bind,
    Option.bind_some, Option.pure_def]

theorem noiseSample_brown (hg : g.type = .brown) (ha : round32 (g.prev + d1) = some a)
    (ho : round32 (a / 2) = some o) : noiseSample s.config g rng = some (o, { g with prev := o }, n1) := by
  simp only [noiseSample, hg, h1, config_num, binary32_add, ha, binary32_half, ho, Option.bind_eq_bind,
    Option.bind_some, Option.pure_def]

end Commands

/-- Settles O40, command by command, and `NG.GETVALUE` variant by variant. -/
theorem noiseCommandsDraw : Obligations.NoiseCommandsDraw := by
  intro s r
  refine ⟨exec_ngSettype, fun k n => exec_ngSeed, fun k => exec_ngSeed_refused, fun hsrc => ⟨?zero, fun k hk => ?seed⟩,
    fun g n1 d1 n2 d2 hg h1 h2 => ⟨fun hw hr => ?white, fun a o hp ha ho hr => ?pink, fun a o hb ha ho hr => ?brown⟩⟩
  case zero => exact exec_ngSeed_refused (by rw [config_noise, noiseOf_reference hsrc]; rfl)
  case seed => exact exec_ngSeed (by rw [config_noise, noiseOf_reference hsrc, lfsr16_seed, if_neg hk])
  case white => exact exec_ngGetvalue_same hg (noiseSample_white h1 hw) hr
  case pink => exact exec_ngGetvalue_same hg (noiseSample_pink h1 hp h2 ha ho) hr
  case brown => exact exec_ngGetvalue hg (noiseSample_brown h1 hb ha ho) hr

end Sys2Proof.Machine
end

section
/-!
PROOFS. 45_wavetable.md R191 to R197: the table as it is filled, the interpolating lookup, and the commands of unit WT.
-/

namespace Sys2Proof.Machine

variable {α : Type}

/-! ### A filled table (R191) -/

/-- A table is filled once all its entries have a value. -/
theorem tabFill_eq_some_of_forall {f : ℕ → Option α} {v : ℕ → α} {n i : ℕ}
    (h : ∀ j, i ≤ j → j < i + n → f j = some (v j)) :
    tabFill f n i = some ((List.range' i n).map fun j => (j, v j)) := by
  induction n generalizing i with
  | zero => rfl
  | succ n ih =>
    have htail := ih (i := i + 1) fun j hij hj => h j (by omega) (by omega)
    rw [tabFill, h i le_rfl (by omega), htail]
    rfl

/-- A filled table reads as the function it is filled with, at the indices it is filled at and at no other. -/
theorem tabRead_tabFill {f : ℕ → Option α} {n i : ℕ} {t : List (ℕ × α)} (h : tabFill f n i = some t) (j : ℕ) :
    tabRead t j = if i ≤ j ∧ j < i + n then f j else none := by
  induction n generalizing i t with
  | zero =>
    cases h
    exact (if_neg (by omega)).symm
  | succ n ih =>
    simp only [tabFill, Option.bind_eq_bind, Option.bind_eq_some_iff, Option.pure_def, Option.some.injEq] at h
    obtain ⟨x, hx, t', ht, rfl⟩ := h
    rw [tabRead]
    rcases lt_trichotomy j i with hlt | rfl | hgt
    · rw [if_neg hlt.ne, if_pos hlt, if_neg (by omega)]
    · rw [if_pos rfl, if_pos (by omega), hx]
    · rw [if_neg hgt.ne', if_neg hgt.not_gt, ih ht]
      exact if_congr (by omega) rfl rfl

theorem wtBuildEntry_eq_some {c : Config α} {w : Wave} {i : ℕ} {v : α} : wtBuildEntry c w i = some v ↔
    ∃ x y, c.num.mul c.num.tau (c.num.ofRat i) = some x ∧ c.num.div x (c.num.ofRat c.wtLen) = some y ∧
      kernel c.num w y = some v := by
  simp only [wtBuildEntry, Option.bind_eq_bind, Option.bind_eq_some_iff, exists_and_left]

/-! ### The lookup (R193) -/

theorem validEntry_of_none {t : List (ℕ × α)} {i : ℕ} (h : tabRead t i = none) :
    validEntry t i = .error .notConfigured := by
  rw [validEntry, h, configured_none]

section Lookup

variable {c : Config α} {t : List (ℕ × α)} {p pos : α} (hpos : wtPosition c p = some pos)
include hpos

/-- Nothing is read at a negative index. -/
theorem wtLookup_of_neg (hneg : c.num.floor pos < 0) : wtLookup c t p = .ok (c.num.ofRat 0) := by
  rw [wtLookup, hpos, numeric_some, ok_bind]
  exact if_pos hneg

variable (hnonneg : 0 ≤ c.num.floor pos) {fr : α} (hfr : c.num.sub pos (c.num.ofRat (c.num.floor pos)) = some fr)
include hnonneg hfr

/-- At an index that is not negative, the lower neighbour is read before the upper one. -/
theorem wtLookup_of_nonneg : wtLookup c t p =
    (validEntry t (wtIndex0 c (c.num.floor pos)) >>= fun a =>
      validEntry t (wtIndex1 c (c.num.floor pos)) >>= fun b => numeric (wtBlend c.num fr a b)) := by
  rw [wtLookup, hpos, numeric_some, ok_bind]
  refine (if_neg hnonneg.not_gt).trans ?_
  rw [hfr]
  rfl

theorem wtLookup_of_valid {a b v : α} (ha : tabRead t (wtIndex0 c (c.num.floor pos)) = some a)
    (hb : tabRead t (wtIndex1 c (c.num.floor pos)) = some b) (hv : wtBlend c.num fr a b = some v) :
    wtLookup c t p = .ok v := by
  rw [wtLookup_of_nonneg hpos hnonneg hfr, validEntry_eq_ok.2 ha, ok_bind, validEntry_eq_ok.2 hb, ok_bind, hv,
    numeric_some]

theorem wtLookup_of_missing (h : tabRead t (wtIndex0 c (c.num.floor pos)) = none ∨
    tabRead t (wtIndex1 c (c.num.floor pos)) = none) : wtLookup c t p = .error .notConfigured := by
  rw [wtLookup_of_nonneg hpos hnonneg hfr]
  cases ha : tabRead t (wtIndex0 c (c.num.floor pos)) with
  | none => rw [validEntry_of_none ha, error_bind]
  | some a =>
    have hb := h.resolve_left (by rw [ha]; nofun)
    rw [validEntry_eq_ok.2 ha, ok_bind, validEntry_of_none hb, error_bind]

end Lookup

/-! ### The pieces of a lookup rounded to binary32 -/

section Binary32

variable {s : State}

theorem wtPosition_binary32 {p y pos : Num} (hy : round32 (p / tau32) = some y)
    (hpos : round32 (y * s.config.num.ofRat s.straps.wtLen) = some pos) : wtPosition s.config p = some pos := by
  rw [wtPosition, config_num, binary32_tau, binary32_div _ tau32_ne_zero, hy]
  exact hpos

theorem wtBlend_binary32 {fr a b d t v : Num} (hd : round32 (b - a) = some d) (ht : round32 (fr * d) = some t)
    (hv : round32 (a + t) = some v) : wtBlend s.config.num fr a b = some v := by
  simp only [wtBlend, config_num, binary32_sub, binary32_mul, binary32_add, hd, ht, hv, Option.bind_eq_bind,
    Option.bind_some]

theorem wtAdvance_binary32 {phase f inc q : Num} (hinc : phaseInc s.config f = some inc)
    (hq : round32 (phase + inc) = some q) : wtAdvance s.config phase f = some (wrap32 q) := by
  rw [wtAdvance, hinc, Option.bind_eq_bind, Option.bind_some, config_num, binary32_add, hq]
  rfl

end Binary32

/-! ### The commands (R191 to R197) -/

section Commands

variable {s : State}

theorem exec_wtBuild {w : Wave} {t : List (ℕ × Num)}
    (h : tabFill (wtBuildEntry s.config w) s.straps.wtLen 0 = some t) :
    exec (.wtBuild w) s = completes s { s.units with wt := ⟨t, 0⟩ } 0 := by
  refine exec_of_perform (x := .none) ?_ rfl
  rw [perform, wtBuild, config_wtLen, h, config_num, binary32_ofRat_zero]
  rfl

theorem exec_wtLoad {i : ℕ} {vw : Word} {v : Num} (hv : dec32 vw = some v) (hi : i < s.straps.wtLen) :
    exec (.wtLoad i vw) s =
      completes s { s.units with wt := ⟨tabWrite s.units.wt.tab i v, s.units.wt.phase⟩ } 0 := by
  refine exec_of_perform (x := .none) ?_ rfl
  rw [perform, operand_eq_ok.2 hv, ok_bind, wtLoad, config_wtLen, checkIndex_of_lt hi]
  rfl

theorem exec_wtLoad_indexRange {i : ℕ} {vw : Word} {v : Num} (hv : dec32 vw = some v) (hi : s.straps.wtLen ≤ i) :
    exec (.wtLoad i vw) s = faulted s 4 :=
  exec_of_perform_error (e := .indexRange) (by
    rw [perform, operand_eq_ok.2 hv, ok_bind, wtLoad, config_wtLen, checkIndex_of_le hi, error_bind])

theorem exec_wtReset : exec .wtReset s = completes s { s.units with wt := ⟨s.units.wt.tab, 0⟩ } 0 := by
  refine exec_of_perform (x := .none) ?_ rfl
  rw [perform, wtReset, config_num, binary32_ofRat_zero]
  rfl

theorem exec_wtRdtab {i : ℕ} {x : Num} {r : Word} (hi : i < s.straps.wtLen)
    (hx : tabRead s.units.wt.tab i = some x) (hr : enc32 x = some r) :
    exec (.wtRdtab i) s = completes s s.units r := by
  refine exec_of_perform (x := .num x) ?_ hr
  rw [perform, wtRdtab, config_wtLen, checkIndex_of_lt hi, ok_bind, validEntry_eq_ok.2 hx]
  rfl

theorem exec_wtRdtab_indexRange {i : ℕ} (hi : s.straps.wtLen ≤ i) : exec (.wtRdtab i) s = faulted s 4 :=
  exec_of_perform_error (e := .indexRange) (by
    rw [perform, wtRdtab, config_wtLen, checkIndex_of_le hi, error_bind])

theorem exec_wtRdtab_notConfigured {i : ℕ} (hi : i < s.straps.wtLen) (h : tabRead s.units.wt.tab i = none) :
    exec (.wtRdtab i) s = faulted s 3 :=
  exec_of_perform_error (e := .notConfigured) (by
    rw [perform, wtRdtab, config_wtLen, checkIndex_of_lt hi, ok_bind, validEntry_of_none h, error_bind])

theorem exec_wtAtphase {w r : Word} {x v : Num} (hx : dec32 w = some x)
    (hv : wtLookup s.config s.units.wt.tab x = .ok v) (hr : enc32 v = some r) :
    exec (.wtAtphase w) s = completes s s.units r := by
  refine exec_of_perform (x := .num v) ?_ hr
  rw [perform, operand_eq_ok.2 hx, ok_bind, wtAtphase, hv]
  rfl

theorem exec_wtGetfreq {w r : Word} {x v q : Num} (hx : dec32 w = some x)
    (hv : wtLookup s.config s.units.wt.tab s.units.wt.phase = .ok v)
    (hq : wtAdvance s.config s.units.wt.phase x = some q) (hr : enc32 v = some r) :
    exec (.wtGetfreq w) s = completes s { s.units with wt := ⟨s.units.wt.tab, q⟩ } r := by
  refine exec_of_perform (x := .num v) ?_ hr
  rw [perform, operand_eq_ok.2 hx, ok_bind, wtGetfreq, hv, ok_bind, hq]
  rfl

end Commands

/-- Settles O42: the table is the one `tabFill` makes, whose form and reads are known. -/
theorem wtBuildFillsTheTable : Obligations.WtBuildFillsTheTable := by
  intro s w v hentry
  have hfill := tabFill_eq_some_of_forall (n := s.straps.wtLen) (i := 0) (v := v) fun i _ hi =>
    wtBuildEntry_eq_some.2 (hentry i (by omega))
  refine ⟨_, exec_wtBuild hfill, tabFill_wf hfill, fun i => ?_⟩
  rw [tabRead_tabFill hfill]
  by_cases hi : i < s.straps.wtLen
  · rw [if_pos (by omega), if_pos hi]
    exact wtBuildEntry_eq_some.2 (hentry i hi)
  · rw [if_neg (by omega), if_neg hi]

/-- Settles O43, command by command. -/
theorem wtLoadResetAndRead : Obligations.WtLoadResetAndRead :=
  fun _ i _ _ v hv => ⟨fun hi => ⟨_, exec_wtLoad hv hi, fun j => tabRead_tabWrite _ i j v⟩, exec_wtReset,
    fun _ => exec_wtRdtab, fun hi => ⟨exec_wtLoad_indexRange hv hi, exec_wtRdtab_indexRange hi⟩,
    exec_wtRdtab_notConfigured⟩

/-- Settles O44: both commands answer what the lookup at `p` does, and `WT.GETFREQ` advances only after it. -/
theorem wtLookupInterpolates : Obligations.WtLookupInterpolates := by
  rintro s w r x p y pos v hx - hy hpos i0 i1 rfl rfl value missing
  have hposition := wtPosition_binary32 hy hpos
  have hvalue (h : value) : wtLookup s.config s.units.wt.tab p = .ok v := by
    rcases h with ⟨hneg, rfl⟩ | ⟨hnonneg, a, b, fr, d, t, ha, hb, hfr, hd, ht, hv⟩
    · rw [wtLookup_of_neg hposition hneg, config_num, binary32_ofRat_zero]
    · exact wtLookup_of_valid hposition hnonneg hfr ha hb (wtBlend_binary32 hd ht hv)
  have hmissing (h : missing) : wtLookup s.config s.units.wt.tab p = .error .notConfigured := by
    obtain ⟨hnonneg, ⟨fr, hfr⟩, h⟩ := h
    exact wtLookup_of_missing hposition hnonneg hfr h
  refine ⟨?atphase, ?atphaseMissing, ?getfreq, ?getfreqMissing⟩
  case atphase =>
    rintro rfl h hr
    exact exec_wtAtphase hx (hvalue h) hr
  case atphaseMissing =>
    rintro rfl h
    exact wtAtphase_error hx (hmissing h)
  case getfreq =>
    rintro a inc q rfl h hr hsr ha hinc hq
    exact exec_wtGetfreq hx (hvalue h) (wtAdvance_binary32 (phaseInc_binary32 hsr ha hinc) hq) hr
  case getfreqMissing =>
    rintro rfl h
    exact wtGetfreq_error hx (hmissing h)

end Sys2Proof.Machine
end

section
/-!
PROOFS. 46_fm.md R210 to R222: the operators' samples and their sum, one operator written in its place, and the commands
of unit FM.
-/

namespace Sys2Proof.Machine

variable {α : Type}

/-! ### One sample (R222) -/

/-- The sums of the operators' samples follow each other from `m 0`, and every operator is left as `f` says. -/
theorem fmOperators_eq_some_of_forall {c : Config α} {ops : List (Osc α)} {m v : ℕ → α} {f : ℕ → Osc α → Osc α}
    (h : ∀ j o, ops[j]? = some o →
      oscGet c o = some (v j, f j o) ∧ c.num.add (m j) (v j) = some (m (j + 1))) :
    fmOperators c ops (m 0) = some (m ops.length, ops.mapIdx f) := by
  induction ops generalizing m v f with
  | nil => exact fmOperators_nil c (m 0)
  | cons o os ih =>
    obtain ⟨hget, hadd⟩ := h 0 o rfl
    have hrest := ih (m := fun j => m (j + 1)) (v := fun j => v (j + 1)) (f := fun j => f (j + 1))
      fun j p hp => h (j + 1) p hp
    exact fmOperators_cons_eq_some.2 ⟨v 0, f 0 o, m 1, _, _, hget, hadd, hrest, by rw [List.mapIdx_cons]; rfl⟩

theorem fmStep_eq_some {c : Config α} {fm : Fm α} {m out : α} {ops : List (Osc α)} {car : Osc α}
    (hops : fmOperators c fm.ops (c.num.ofRat 0) = some (m, ops)) (hcar : oscGetMod c fm.car m = some (out, car)) :
    fmStep c fm = some (out, ⟨car, ops⟩) := by
  simp only [fmStep, hops, hcar, Option.bind_eq_bind, Option.bind_some, Option.pure_def]

/-! ### One operator (R210, R218 to R221) -/

theorem operatorAt_of_le {fm : Fm α} {k : ℕ} (h : fm.ops.length ≤ k) : operatorAt fm k = .error .indexRange := by
  rw [operatorAt, List.getElem?_eq_none h]

/-- The end of every command that writes one operator: the record `g` makes of operator `k` stands in its place. -/
def fmWriteOperator (fm : Fm α) (k : ℕ) (g : Osc α → Option (Osc α)) (u : Units α) : Except FaultCode (Answer α) :=
  operatorAt fm k >>= fun o => numeric (g o) >>= fun o' => pure ({ u with fm := some (fmSetOp fm k o') }, .none)

theorem fmWriteOperator_some {fm : Fm α} {k : ℕ} {g : Osc α → Option (Osc α)} {o o' : Osc α}
    (ho : fm.ops[k]? = some o) (hg : g o = some o') (u : Units α) :
    fmWriteOperator fm k g u = .ok ({ u with fm := some (fmSetOp fm k o') }, .none) := by
  rw [fmWriteOperator, operatorAt_eq_ok.2 ho, ok_bind, hg]; rfl

theorem fmWriteOperator_of_le {fm : Fm α} {k : ℕ} (h : fm.ops.length ≤ k) (g : Osc α → Option (Osc α)) (u : Units α) :
    fmWriteOperator fm k g u = .error .indexRange := by
  rw [fmWriteOperator, operatorAt_of_le h, error_bind]

section Operator

variable {i : Instr} {s : State} {fm : Fm Num} {k : ℕ} {g : Osc Num → Option (Osc Num)}

theorem exec_of_operator {o o' : Osc Num}
    (h : perform s.config operand i s.units = fmWriteOperator fm k g s.units) (ho : fm.ops[k]? = some o)
    (hg : g o = some o') :
    exec i s = completes s { s.units with fm := some { fm with ops := fm.ops.set k o' } } 0 :=
  exec_of_perform (x := .none) (h.trans (fmWriteOperator_some ho hg _)) rfl

theorem exec_of_no_operator (h : perform s.config operand i s.units = fmWriteOperator fm k g s.units)
    (hk : fm.ops.length ≤ k) : exec i s = faulted s 4 :=
  exec_of_perform_error (e := .indexRange) (h.trans (fmWriteOperator_of_le hk g _))

end Operator

/-! ### The commands (R211 to R222) -/

section Commands

variable {s : State} {w : Wave} {fw aw : Word} {f a : Num} {o : Osc Num}

theorem exec_fmInit (hf : dec32 fw = some f) (ha : dec32 aw = some a) (hnew : oscNew s.config w f a = some o) :
    exec (.fmInit w fw aw) s = completes s { s.units with fm := some ⟨o, []⟩ } 0 := by
  refine exec_of_perform (x := .none) ?_ rfl
  rw [perform, operand_eq_ok.2 hf, ok_bind, operand_eq_ok.2 ha, ok_bind, fmInit, hnew]
  rfl

section Constructed

variable {fm : Fm Num} (hfm : s.units.fm = some fm)
include hfm

theorem exec_fmCsettype (w : Wave) : exec (.fmCsettype w) s =
    completes s { s.units with fm := some { fm with car := { fm.car with type := w } } } 0 := by
  refine exec_of_perform (x := .none) ?_ rfl
  rw [perform, fmCsettype, hfm]
  rfl

theorem exec_fmCsetfreq (hf : dec32 fw = some f) (hset : oscSetFreq s.config fm.car f = some o) :
    exec (.fmCsetfreq fw) s = completes s { s.units with fm := some { fm with car := o } } 0 := by
  refine exec_of_perform (x := .none) ?_ rfl
  rw [perform, operand_eq_ok.2 hf, ok_bind, fmCsetfreq, hfm, configured_some, ok_bind, hset]
  rfl

theorem exec_fmCsetamp (ha : dec32 aw = some a) : exec (.fmCsetamp aw) s =
    completes s { s.units with fm := some { fm with car := { fm.car with amp := a } } } 0 := by
  refine exec_of_perform (x := .none) ?_ rfl
  rw [perform, operand_eq_ok.2 ha, ok_bind, fmCsetamp, hfm]
  rfl

theorem exec_fmCreset : exec .fmCreset s =
    completes s { s.units with fm := some { fm with car := { fm.car with phase := 0 } } } 0 := by
  refine exec_of_perform (x := .none) ?_ rfl
  rw [perform, fmCreset, hfm, config_num, binary32_ofRat_zero]
  rfl

theorem exec_fmAddop (hf : dec32 fw = some f) (ha : dec32 aw = some a) (hroom : fm.ops.length < s.straps.fmMaxOps)
    (hnew : oscNew s.config w f a = some o) : exec (.fmAddop w fw aw) s =
      completes s { s.units with fm := some { fm with ops := fm.ops ++ [o] } } 0 := by
  refine exec_of_perform (x := .none) ?_ rfl
  rw [perform, operand_eq_ok.2 hf, ok_bind, operand_eq_ok.2 ha, ok_bind, fmAddop, hfm, configured_some, ok_bind,
    config_fmMaxOps, decide_eq_true hroom, require_true, ok_bind, hnew]
  rfl

/-- `Capacity` is tested before the new operator is computed (60_exceptions.md R248). -/
theorem exec_fmAddop_capacity (w : Wave) (hf : dec32 fw = some f) (ha : dec32 aw = some a)
    (hfull : s.straps.fmMaxOps ≤ fm.ops.length) : exec (.fmAddop w fw aw) s = faulted s 6 :=
  exec_of_perform_error (e := .capacity) (by
    rw [perform, operand_eq_ok.2 hf, ok_bind, operand_eq_ok.2 ha, ok_bind, fmAddop, hfm, configured_some, ok_bind,
      config_fmMaxOps, decide_eq_false (not_lt.2 hfull), require_false, error_bind])

theorem exec_fmRemop {k : ℕ} (hk : k < fm.ops.length) : exec (.fmRemop k) s =
    completes s { s.units with fm := some { fm with ops := fm.ops.eraseIdx k } } 0 := by
  refine exec_of_perform (x := .none) ?_ rfl
  rw [perform, fmRemop, hfm, configured_some, ok_bind, checkIndex_of_lt hk]
  rfl

theorem exec_fmRemop_indexRange {k : ℕ} (hk : fm.ops.length ≤ k) : exec (.fmRemop k) s = faulted s 4 :=
  exec_of_perform_error (e := .indexRange) (by
    rw [perform, fmRemop, hfm, configured_some, ok_bind, checkIndex_of_le hk, error_bind])

theorem perform_fmOpsettype (w : Wave) (k : ℕ) : perform s.config operand (.fmOpsettype w k) s.units =
    fmWriteOperator fm k (fun o => some { o with type := w }) s.units := by
  rw [perform, fmOpsettype, hfm]; rfl

theorem perform_fmOpsetfreq (k : ℕ) (hf : dec32 fw = some f) : perform s.config operand (.fmOpsetfreq k fw) s.units =
    fmWriteOperator fm k (fun o => oscSetFreq s.config o f) s.units := by
  rw [perform, operand_eq_ok.2 hf, ok_bind, fmOpsetfreq, hfm]; rfl

theorem perform_fmOpsetamp (k : ℕ) (ha : dec32 aw = some a) : perform s.config operand (.fmOpsetamp k aw) s.units =
    fmWriteOperator fm k (fun o => some { o with amp := a }) s.units := by
  rw [perform, operand_eq_ok.2 ha, ok_bind, fmOpsetamp, hfm]; rfl

theorem perform_fmOpreset (k : ℕ) : perform s.config operand (.fmOpreset k) s.units =
    fmWriteOperator fm k (fun o => some { o with phase := 0 }) s.units := by
  rw [perform, fmOpreset, hfm, config_num, binary32_ofRat_zero]; rfl

theorem exec_fmSample {fm' : Fm Num} {v : Num} {r : Word} (hstep : fmStep s.config fm = some (v, fm'))
    (hr : enc32 v = some r) : exec .fmSample s = completes s { s.units with fm := some fm' } r := by
  refine exec_of_perform (x := .num v) ?_ hr
  rw [perform, fmSample, hfm, configured_some, ok_bind, hstep]
  rfl

end Constructed

end Commands

/-- Settles O45: both commands make the record of `oscNew`; `FM.ADDOP` first asks for room. -/
theorem fmInitAndAddop : Obligations.FmInitAndAddop := by
  intro s w fw aw f a x inc hf ha hsr hx hinc
  have hnew := oscNew_binary32 (w := w) (a := a) (phaseInc_binary32 hsr hx hinc)
  exact ⟨exec_fmInit hf ha hnew, fun _ hfm hroom => exec_fmAddop hfm hf ha hroom hnew,
    fun _ hfm hfull => exec_fmAddop_capacity hfm w hf ha hfull.ge⟩

/-- Settles O46, command by command; only `FM.CSETFREQ` can fault, in the increment. -/
theorem fmCarrierSetters : Obligations.FmCarrierSetters :=
  fun _ _ hfm => ⟨exec_fmCsettype hfm,
    fun _ _ _ _ hf hsr hx hinc =>
      exec_fmCsetfreq hfm hf (oscSetFreq_eq_some.2 ⟨_, phaseInc_binary32 hsr hx hinc, rfl⟩),
    fun _ _ => exec_fmCsetamp hfm, exec_fmCreset hfm⟩

/-- Settles O47: each command writes one operator, which is there or is not. -/
theorem fmOperatorSetters : Obligations.FmOperatorSetters := by
  intro s fm k hfm
  refine ⟨fun o ho => ⟨fun w => ?settype, fun fw f x inc hf hsr hx hinc => ?setfreq, fun aw a ha => ?setamp, ?reset⟩,
    fun hk vw v hv => ⟨fun w => ?noSettype, ?noSetfreq, ?noSetamp, ?noReset⟩⟩
  case settype => exact exec_of_operator (perform_fmOpsettype hfm w k) ho rfl
  case setfreq =>
    exact exec_of_operator (perform_fmOpsetfreq hfm k hf) ho
      (oscSetFreq_eq_some.2 ⟨_, phaseInc_binary32 hsr hx hinc, rfl⟩)
  case setamp => exact exec_of_operator (perform_fmOpsetamp hfm k ha) ho rfl
  case reset => exact exec_of_operator (perform_fmOpreset hfm k) ho rfl
  case noSettype => exact exec_of_no_operator (perform_fmOpsettype hfm w k) hk
  case noSetfreq => exact exec_of_no_operator (perform_fmOpsetfreq hfm k hv) hk
  case noSetamp => exact exec_of_no_operator (perform_fmOpsetamp hfm k hv) hk
  case noReset => exact exec_of_no_operator (perform_fmOpreset hfm k) hk

/-- Settles O48: the list is the old one with entry `k` erased. -/
theorem fmRemopRenumbers : Obligations.FmRemopRenumbers :=
  fun _ _ _ hfm => ⟨fun hk => ⟨_, exec_fmRemop hfm hk, List.length_eraseIdx_add_one hk,
    fun _ => List.getElem?_eraseIdx⟩, exec_fmRemop_indexRange hfm⟩

/-- Settles O49: the operators' samples are summed by induction on their list (`fmOperators_eq_some_of_forall`), and the
carrier is sampled with the whole sum. -/
theorem fmSampleModulatesTheCarrier : Obligations.FmSampleModulatesTheCarrier := by
  intro s fm m v q x k cq out r hfm hm hops hx hk hcq hout hr
  have hsum : fmOperators s.config fm.ops (m 0) =
      some (m fm.ops.length, fm.ops.mapIdx fun j o => { o with phase := wrap32 (q j) }) :=
    fmOperators_eq_some_of_forall (v := v) fun j o ho => by
      obtain ⟨y, hy, hv, hadd, hq⟩ := hops j o ho
      exact ⟨oscGet_binary32 hy hq hv, hadd⟩
  have hzero : m 0 = s.config.num.ofRat 0 := by rw [hm, config_num, binary32_ofRat_zero]
  have harg := kernel_karg (x := x) (fun hmode => by rw [hmode]) (fun hmode => by rw [hmode]) hk
  exact exec_fmSample hfm (fmStep_eq_some (hzero ▸ hsum) (oscGetMod_binary32 hx harg hcq hout)) hr

end Sys2Proof.Machine
end

section
/-!
PROOFS. 47_system.md R230: the faults of `SYS.RDREG` in their order. An unmapped number is refused first, then a field of a
unit that is not constructed, then an operator that is not there.
-/

namespace Sys2Proof.Machine

section RegisterFaults

variable {α : Type} {c : Config α} {u : Units α}

/-- The numbers no register of the map has, between its blocks and after the last one (10_state.md R35). -/
def InRegisterGap (n : ℕ) : Prop :=
  n = 0 ∨ (0x0005 ≤ n ∧ n ≤ 0x01FF) ∨ (0x0206 ≤ n ∧ n ≤ 0x02FF) ∨ (0x030F ≤ n ∧ n ≤ 0x03FF) ∨
    (0x040A ≤ n ∧ n ≤ 0x047F) ∨ (0x0504 ≤ n ∧ n ≤ 0x05FF) ∨ (0x0602 ≤ n ∧ n ≤ 0x06FF) ∨
    (0x0702 ≤ n ∧ n ≤ 0x0710) ∨ (0x0716 ≤ n ∧ n ≤ 0x07FF) ∨ 0x1000 ≤ n

/-- With at most 64 channels the delay words end below 0x0500, so no test of `readReg` holds in a gap. -/
theorem readReg_of_inRegisterGap (hn : c.nCh ≤ 64) {n : ℕ} (h : InRegisterGap n) :
    readReg c u n = .error .indexRange := by
  unfold InRegisterGap at h
  unfold readReg
  repeat rw [if_neg (by omega)]

/-- The numbers left to the delay words of channels the block does not have. -/
theorem readReg_of_channel_beyond {n : ℕ} (hlo : 0x0480 + 2 * c.nCh ≤ n) (hhi : n ≤ 0x04FF) :
    readReg c u n = .error .indexRange := by
  unfold readReg
  repeat rw [if_neg (by omega)]

/-- The offsets 0, 6 and 7 of an operator are unmapped, whether or not the operator is there. -/
theorem readReg_operator_unmapped (hn : c.nCh ≤ 64) {k j : ℕ} (hk : k < 256) (hj : j ∈ [0, 6, 7]) :
    readReg c u (0x0800 + 8 * k + j) = .error .indexRange := by
  have hj' : j = 0 ∨ j = 6 ∨ j = 7 := by simpa using hj
  have hoff : (0x0800 + 8 * k + j - 0x0800) % 8 = j := by omega
  have hfield : (decide (1 ≤ j) && decide (j ≤ 5)) = false := by
    rw [← Bool.decide_and]
    exact decide_eq_false (by omega)
  rw [readReg_op hn (by omega) (by omega), opReg, hoff, hfield, require_false, error_bind]

end RegisterFaults

/-- A register of a unit that is not constructed (60_exceptions.md R243). -/
theorem rdreg_notConfigured {β : Type} {s : State} {n : ℕ} {unit : Option β}
    {field : β → Except FaultCode (Result Num)} (hr : readReg s.config s.units n = configured unit >>= field)
    (hunit : unit = none) : exec (.sysRdreg n) s = faulted s 3 :=
  rdreg_faults (e := .notConfigured) (by rw [hr, hunit, configured_none, error_bind])

/-- A register whose number, channel or operator is outside its range (60_exceptions.md R244). -/
theorem rdreg_indexRange {s : State} {n : ℕ} (hr : readReg s.config s.units n = .error .indexRange) :
    exec (.sysRdreg n) s = faulted s 4 := rdreg_faults hr

/-- Settles O24: the gaps of the map first, then each block of it by its `readReg_…` lemma, which tests the `cfg` flag
before anything else. -/
theorem rdregFaults : Obligations.RdregFaults := by
  intro s hn
  have hc : s.config.nCh ≤ 64 := hn
  refine ⟨fun n hgap => rdreg_indexRange (readReg_of_inRegisterGap hc hgap), fun ch hch hmax => ?channel,
    fun k j hk hj => rdreg_indexRange (readReg_operator_unmapped hc hk hj),
    fun n hlo hhi => rdreg_notConfigured (readReg_osc hlo hhi),
    fun n hlo hhi => rdreg_notConfigured (readReg_env hlo hhi),
    fun n hlo hhi => rdreg_notConfigured (readReg_bq hlo hhi),
    fun n hlo hhi => rdreg_notConfigured (readReg_delay hlo hhi),
    fun n h => rdreg_notConfigured (readReg_ng hc (by omega) (by omega)), fun n h => ?fm, fun k j hk h1 h5 => ?operator⟩
  case channel =>
    have hbeyond : s.config.nCh ≤ ch := hch
    exact ⟨rdreg_indexRange (readReg_of_channel_beyond (by omega) (by omega)),
      rdreg_indexRange (readReg_of_channel_beyond (by omega) (by omega))⟩
  case fm =>
    rcases h with rfl | ⟨hlo, hhi⟩
    · exact rdreg_notConfigured (readReg_fmCount hc)
    · exact rdreg_notConfigured (readReg_fmCar hc hlo hhi)
  case operator =>
    refine ⟨rdreg_notConfigured (readReg_operator hc hk h1 h5), fun fm hfm hbeyond => rdreg_indexRange ?_⟩
    rw [readReg_operator hc hk h1 h5, hfm, configured_some, ok_bind, operatorAt_of_le hbeyond, error_bind]

end Sys2Proof.Machine
end

section
/-!
PROOFS. 60_exceptions.md R241, R242, R243 and R248: the three faults every command is tested for before anything of its
own, in their order: a header no row selects, then an operand word that is not finite, then a unit that is not constructed.
-/

namespace Sys2Proof.Machine

/-! ### `IllegalCommand` (R241) -/

/-- A packet no row of the opcode map selects is answered without its operand words being read. -/
theorem runPacket_of_no_row {h : Word} {ops : List Word} (hn : ops.length = (nargsOf h).toNat)
    (hrow : ∀ r ∈ opcodeRows, r.selects h = false) (s : State) : runPacket h ops s = faulted s 1 := by
  rcases runPacket_cases h ops s with ⟨i, hd, -⟩ | ⟨e, -, hrun⟩
  · obtain ⟨r, hr, hsel⟩ := (legalHeadersAreTheOpcodeRows h ops hn).1.1 ⟨i, hd⟩
    exact absurd hsel (by simp [hrow r hr])
  · exact hrun

/-- Settles O7: the framing takes the packet whole by its `nargs` field, and the decoder accepts only what a row
selects. -/
theorem illegalPacketIsConsumedAndAnswered : Obligations.IllegalPacketIsConsumedAndAnswered := by
  intro s h ops rest hreset hn hc hrow
  have hf : fetchPacket (s.pkt ++ s.cmd) = .packet h ops rest := by rw [hc]; exact fetchPacket_append h ops rest hn
  rw [step_of_packet hreset hf, runPacket_of_no_row hn hrow]

/-! ### Operand words before anything else (R242, R248) -/

/-- The computation reads the operand words of the list in their order, before anything that can fault otherwise, and goes
on to one with the property `P`. -/
inductive AfterOperands {β : Type} (P : Except FaultCode β → Prop) : List Word → Except FaultCode β → Prop
  | done {a : Except FaultCode β} (h : P a) : AfterOperands P [] a
  | read {w : Word} {ws : List Word} {f : Num → Except FaultCode β} (h : ∀ x, AfterOperands P ws (f x)) :
      AfterOperands P (w :: ws) (operand w >>= f)

namespace AfterOperands

variable {β : Type} {P : Except FaultCode β → Prop} {ws : List Word} {a : Except FaultCode β}

/-- One operand word that is not finite is enough, wherever it stands: those before it can fault with `BadOperand` only. -/
theorem eq_badOperand (h : AfterOperands P ws a) (hw : ∃ w ∈ ws, expField w = 255) : a = .error .badOperand := by
  induction h with
  | done => obtain ⟨w, hw, -⟩ := hw; cases hw
  | @read w ws f _ ih =>
    cases hx : operand w with
    | error e => rw [(operand_error_iff.1 hx).2, error_bind]
    | ok x =>
      have hfinite : expField w ≠ 255 := fun h255 => by
        cases hx.symm.trans (operand_error_iff.2 ⟨h255, rfl⟩)
      obtain ⟨v, hv, hv255⟩ := hw
      rcases List.mem_cons.1 hv with rfl | hv
      · exact absurd hv255 hfinite
      · exact ih x ⟨v, hv, hv255⟩

/-- Finite operand words are passed over. -/
theorem of_finite (h : AfterOperands P ws a) (hw : ∀ w ∈ ws, expField w ≠ 255) : P a := by
  induction h with
  | done h => exact h
  | @read w ws f _ ih =>
    cases hx : operand w with
    | error e => exact absurd (operand_error_iff.1 hx).1 (hw w List.mem_cons_self)
    | ok x => exact ih x fun v hv => hw v (List.mem_cons_of_mem w hv)

end AfterOperands

/-! ### The `cfg` flag next (R243, R248) -/

/-- A computation that starts from the record of a unit whose `cfg` flag is 0. -/
theorem configured_bind_of_not_isSome {β γ : Type} {x : Option β} (h : x.isSome = false) (f : β → Except FaultCode γ) :
    (configured x >>= f) = .error .notConfigured := by
  rw [Option.isSome_eq_false_iff, Option.isNone_iff_eq_none] at h
  rw [h, configured_none, error_bind]

/-- Every command reads its operand words, and then, where it needs its unit constructed, tests the `cfg` flag. The commands
are grouped by the flag they test. -/
theorem perform_afterOperands (c : Config Num) (i : Instr) (u : Units Num) :
    AfterOperands (fun a => unitReady u i = false → a = .error .notConfigured) (operandWords i)
      (perform c operand i u) := by
  cases i
  case sysRdreg | krnEval | oscInit | envInit | bqInit | ngSettype | ngSeed | wtBuild | wtLoad | wtReset | wtGetfreq
      | wtAtphase | wtRdtab | fmInit =>
    repeat refine .read fun _ => ?_
    exact .done nofun
  all_goals
    repeat refine .read fun _ => ?_
    exact .done fun h => configured_bind_of_not_isSome h _

/-- Settles O50: the operand words are read first, whatever the command does with them. -/
theorem badOperandOverAllCommands : Obligations.BadOperandOverAllCommands :=
  fun i s hw => exec_of_perform_error ((perform_afterOperands s.config i s.units).eq_badOperand hw)

/-- Settles O51: after finite operand words comes the test of the `cfg` flag, before any index is looked at. -/
theorem notConfiguredOverAllCommands : Obligations.NotConfiguredOverAllCommands :=
  fun i s hw hready => exec_of_perform_error ((perform_afterOperands s.config i s.units).of_finite hw hready)

end Sys2Proof.Machine
end

section
/-!
PROOFS. 70_reset_and_hazards.md R260, R261 and 93_implementation_defined.md U5, U24: the steps that take no packet, the reset
input, and the state after reset.
-/

namespace Sys2Proof.Machine

/-! ### A step that takes no packet (R260, U5) -/

theorem step_of_no_words {s : State} (hr : s.resetLine = false) (hp : s.pkt = []) (hc : s.cmd = []) :
    step s = .next s.deliver := by
  simp only [step, hr, hp, hc, List.append_nil, fetchPacket]

theorem step_of_reset {s : State} (hr : s.resetLine = true) : step s = .next s.holdReset := by
  simp only [step, hr]

theorem fetchPacket_of_short {h : Word} {ws : List Word} (hs : ws.length < (nargsOf h).toNat) :
    fetchPacket (h :: ws) = .truncated := by
  rw [fetchPacket, if_neg (not_le.2 hs)]

section CutShort

variable {s : State} (hr : s.resetLine = false) (hf : fetchPacket (s.pkt ++ s.cmd) = .truncated)
include hr hf

theorem step_of_truncated_stuck (hc : s.cmd = []) (hs : s.sending = none) : step s = .fault .truncatedPacket := by
  have hnothing : (s.cmd.isEmpty && s.sending.isNone) = true := by rw [hc, hs]; rfl
  simp only [step, hr, hf, if_pos hnothing]

theorem step_of_truncated_accepts (h : s.cmd ≠ [] ∨ s.sending ≠ none) :
    step s = .next { s.deliver with pkt := s.pkt ++ s.cmd, cmd := [] } := by
  have hsomething : ¬ (s.cmd.isEmpty && s.sending.isNone) = true := by simpa [imp_iff_not_or] using h
  simp only [step, hr, hf, if_neg hsomething]

end CutShort

/-! ### The reset input released (R260) -/

theorem releaseReset_of_asserted {s : State} (hr : s.resetLine = true) :
    s.releaseReset = { s.holdReset with resetLine := false } := if_pos hr

theorem releaseReset_of_released {s : State} (hr : s.resetLine = false) : s.releaseReset = s := if_neg (by simp [hr])

/-- Settles O8: each clause is one branch of `step`, or the reset input asserted or released. -/
theorem idleStuckAndResetSteps : Obligations.IdleStuckAndResetSteps := by
  intro s
  refine ⟨step_of_no_words, fun h ws hr hws hshort => ?cut, step_of_reset, rfl, fun hr => ?asserted, fun hr => ?released,
    withFetchWord_resetLine s⟩
  case cut =>
    have hf : fetchPacket (s.pkt ++ s.cmd) = .truncated := by rw [hws]; exact fetchPacket_of_short hshort
    exact ⟨step_of_truncated_stuck hr hf, step_of_truncated_accepts hr hf⟩
  case asserted =>
    refine ⟨releaseReset_of_asserted hr, fun n w => ?_⟩
    rw [withFetchWord_units, releaseReset_of_asserted hr]
    rfl
  case released =>
    refine ⟨releaseReset_of_released hr, fun n w => ?_⟩
    rw [withFetchWord_units, releaseReset_of_released hr]

/-! ### The state after reset (R261) -/

/-- Every random source accepts the reset seed, and its state after reset is the one this seed gives (10_state.md
R36). -/
theorem noiseOf_seed_reset (p : Straps) : (noiseOf p).seed 0xACE1 = some (noiseOf p).resetState := by
  unfold noiseOf
  cases p.noiseSrc <;> rfl

theorem noiseOf_resetState_of_reference {p : Straps} (h : p.noiseSrc = .reference) :
    (noiseOf p).resetState = 0xACE1 := by
  rw [noiseOf, h]
  rfl

/-- Settles O9: the flags are those of units that are not there, and the source is seeded whichever one the strap
selects. -/
theorem resetLeavesNothingConstructed : Obligations.ResetLeavesNothingConstructed :=
  fun p => ⟨rfl, rfl, rfl, rfl, rfl, fun _ => rfl, binary32_ofRat_zero p, noiseOf_seed_reset p,
    noiseOf_resetState_of_reference⟩

end Sys2Proof.Machine
end
